-- ==== Sys2Proof/Word.lean ====
section
/-! DEFINITION. Word types, operand sizes and the plainest arithmetic on them (00_scope.md R4, R6, R7). -/

namespace Sys2Proof

/-- 8 bits (R7). -/
abbrev Byte := BitVec 8
/-- 16 bits (R7). -/
abbrev Word := BitVec 16
/-- 32 bits (R7). -/
abbrev Long := BitVec 32

/-- Operand size: `B`, `W`, `L` (R7). -/
inductive Size where
  | b | w | l
deriving DecidableEq, Repr, Inhabited

/-- `bits(sz)` (R7). -/
@[reducible] def Size.bits : Size → Nat
  | .b => 8
  | .w => 16
  | .l => 32

/-- `bytes(sz)` (R7). -/
def Size.bytes : Size → Nat
  | .b => 1
  | .w => 2
  | .l => 4

/-- The sizes of an instruction that has no byte form. -/
inductive WideSize where
  | w | l
deriving DecidableEq, Repr, Inhabited

/-- The operand size a word-or-long size field names. -/
def WideSize.toSize : WideSize → Size
  | .w => .w
  | .l => .l

end Sys2Proof
end

