-- ==== Sys2Proof/Syntax.lean ====
section
/-! DEFINITION. The instructions: one constructor for each row of spec/opcode_table.json, in the table's order
(30_encoding.md R123 to R136), over the operand forms of 30_encoding.md R104 to R118. -/

namespace Sys2Proof

/-- A register number 0 to 7 (30_encoding.md R102). -/
abbrev Reg := Fin 8

/-- The index extension word (30_encoding.md R112): bit 15, bits 14..12, bit 11, bits 7..0. -/
structure Index where
  isAddr : Bool
  reg : Reg
  long : Bool
  disp : Byte
deriving DecidableEq, Repr, Inhabited

/-- Immediate data with its operand size (30_encoding.md R117). -/
inductive Imm where
  | b (v : Byte)
  | w (v : Word)
  | l (v : Long)
deriving DecidableEq, Repr, Inhabited

/-- The operand size of immediate data. -/
@[reducible] def Imm.size : Imm → Size
  | .b _ => .b
  | .w _ => .w
  | .l _ => .l

/-- The value of immediate data at its own size. -/
def Imm.value : (i : Imm) → BitVec i.size.bits
  | .b v => v
  | .w v => v
  | .l v => v

/-- An effective address with the contents of its extension words (30_encoding.md R104). -/
inductive Ea where
  /-- `Dn` (R105) -/
  | dn (n : Reg)
  /-- `An` (R106) -/
  | an (n : Reg)
  /-- `(An)` (R107) -/
  | ind (n : Reg)
  /-- `(An)+` (R108) -/
  | post (n : Reg)
  /-- `-(An)` (R109) -/
  | pre (n : Reg)
  /-- `d16(An)` (R111) -/
  | disp (n : Reg) (d : Word)
  /-- `d8(An,Xn)` (R112) -/
  | idx (n : Reg) (x : Index)
  /-- `Abs.W` (R113) -/
  | absW (a : Word)
  /-- `Abs.L` (R114) -/
  | absL (a : Long)
  /-- `d16(PC)` (R115) -/
  | pcDisp (d : Word)
  /-- `d8(PC,Xn)` (R116) -/
  | pcIdx (x : Index)
  /-- `#xxx` (R117) -/
  | imm (v : Imm)
deriving DecidableEq, Repr, Inhabited

/-- The sixteen conditions, in the order of their field values (10_state.md R39). -/
inductive Cond where
  | t | f | hi | ls | cc | cs | ne | eq | vc | vs | pl | mi | ge | lt | gt | le
deriving DecidableEq, Repr, Inhabited

/-- The displacement of Bcc, BRA and BSR: in the operation word, or in a further word (46_program_control.md R290). -/
inductive BranchDisp where
  | byte (d : Byte)
  | word (d : Word)
deriving DecidableEq, Repr, Inhabited

/-- The instructions: one constructor per row of spec/opcode_table.json, in the table's order. -/
inductive Instr where
  | oriToCcr (v : Byte)
  | oriToSr (v : Word)
  | ori (v : Imm) (ea : Ea)
  | andiToCcr (v : Byte)
  | andiToSr (v : Word)
  | andi (v : Imm) (ea : Ea)
  | eoriToCcr (v : Byte)
  | eoriToSr (v : Word)
  | eori (v : Imm) (ea : Ea)
  | subi (v : Imm) (ea : Ea)
  | addi (v : Imm) (ea : Ea)
  | cmpi (v : Imm) (ea : Ea)
  | btstStatic (bit : Byte) (ea : Ea)
  | btstDynamic (dn : Reg) (ea : Ea)
  | bchgStatic (bit : Byte) (ea : Ea)
  | bchgDynamic (dn : Reg) (ea : Ea)
  | bclrStatic (bit : Byte) (ea : Ea)
  | bclrDynamic (dn : Reg) (ea : Ea)
  | bsetStatic (bit : Byte) (ea : Ea)
  | bsetDynamic (dn : Reg) (ea : Ea)
  | movepToRegW (d : Word) (ay : Reg) (dx : Reg)
  | movepToRegL (d : Word) (ay : Reg) (dx : Reg)
  | movepToMemW (dx : Reg) (d : Word) (ay : Reg)
  | movepToMemL (dx : Reg) (d : Word) (ay : Reg)
  | moveB (src dst : Ea)
  | moveW (src dst : Ea)
  | moveaW (src : Ea) (an : Reg)
  | moveL (src dst : Ea)
  | moveaL (src : Ea) (an : Reg)
  | negx (sz : Size) (ea : Ea)
  | moveFromSr (ea : Ea)
  | chk (ea : Ea) (dn : Reg)
  | lea (ea : Ea) (an : Reg)
  | clr (sz : Size) (ea : Ea)
  | neg (sz : Size) (ea : Ea)
  | moveToCcr (ea : Ea)
  | notEa (sz : Size) (ea : Ea)
  | moveToSr (ea : Ea)
  | nbcd (ea : Ea)
  | swap (dn : Reg)
  | pea (ea : Ea)
  | extW (dn : Reg)
  | extL (dn : Reg)
  | movemToMem (sz : WideSize) (mask : Word) (ea : Ea)
  | tst (sz : Size) (ea : Ea)
  | tas (ea : Ea)
  | illegal
  | illegal4AFA
  | illegal4AFB
  | movemToReg (sz : WideSize) (mask : Word) (ea : Ea)
  | trap (v : Fin 16)
  | link (an : Reg) (d : Word)
  | unlk (an : Reg)
  | moveToUsp (an : Reg)
  | moveFromUsp (an : Reg)
  | reset
  | nop
  | stop (v : Word)
  | rte
  | rts
  | trapv
  | rtr
  | jsr (ea : Ea)
  | jmp (ea : Ea)
  | addq (q : Fin 8) (sz : Size) (ea : Ea)
  | subq (q : Fin 8) (sz : Size) (ea : Ea)
  | scc (c : Cond) (ea : Ea)
  | dbcc (c : Cond) (dn : Reg) (d : Word)
  | bra (d : BranchDisp)
  | bsr (d : BranchDisp)
  | bcc (c : Cond) (d : BranchDisp)
  | moveq (v : Byte) (dn : Reg)
  | orToDn (sz : Size) (ea : Ea) (dn : Reg)
  | orToMem (sz : Size) (dn : Reg) (ea : Ea)
  | divu (ea : Ea) (dn : Reg)
  | divs (ea : Ea) (dn : Reg)
  | sbcdReg (dy dx : Reg)
  | sbcdMem (ay ax : Reg)
  | subToDn (sz : Size) (ea : Ea) (dn : Reg)
  | subToMem (sz : Size) (dn : Reg) (ea : Ea)
  | subaW (ea : Ea) (an : Reg)
  | subaL (ea : Ea) (an : Reg)
  | subxReg (sz : Size) (dy dx : Reg)
  | subxMem (sz : Size) (ay ax : Reg)
  | lineA (w : BitVec 12)
  | cmp (sz : Size) (ea : Ea) (dn : Reg)
  | cmpaW (ea : Ea) (an : Reg)
  | cmpaL (ea : Ea) (an : Reg)
  | cmpm (sz : Size) (ay ax : Reg)
  | eor (sz : Size) (dn : Reg) (ea : Ea)
  | andToDn (sz : Size) (ea : Ea) (dn : Reg)
  | andToMem (sz : Size) (dn : Reg) (ea : Ea)
  | mulu (ea : Ea) (dn : Reg)
  | muls (ea : Ea) (dn : Reg)
  | abcdReg (dy dx : Reg)
  | abcdMem (ay ax : Reg)
  | exgDD (dx dy : Reg)
  | exgAA (ax ay : Reg)
  | exgDA (dx ay : Reg)
  | addToDn (sz : Size) (ea : Ea) (dn : Reg)
  | addToMem (sz : Size) (dn : Reg) (ea : Ea)
  | addaW (ea : Ea) (an : Reg)
  | addaL (ea : Ea) (an : Reg)
  | addxReg (sz : Size) (dy dx : Reg)
  | addxMem (sz : Size) (ay ax : Reg)
  | asrMem (ea : Ea)
  | asrImm (n : Fin 8) (sz : Size) (dy : Reg)
  | asrReg (dx : Reg) (sz : Size) (dy : Reg)
  | aslMem (ea : Ea)
  | aslImm (n : Fin 8) (sz : Size) (dy : Reg)
  | aslReg (dx : Reg) (sz : Size) (dy : Reg)
  | lsrMem (ea : Ea)
  | lsrImm (n : Fin 8) (sz : Size) (dy : Reg)
  | lsrReg (dx : Reg) (sz : Size) (dy : Reg)
  | lslMem (ea : Ea)
  | lslImm (n : Fin 8) (sz : Size) (dy : Reg)
  | lslReg (dx : Reg) (sz : Size) (dy : Reg)
  | roxrMem (ea : Ea)
  | roxrImm (n : Fin 8) (sz : Size) (dy : Reg)
  | roxrReg (dx : Reg) (sz : Size) (dy : Reg)
  | roxlMem (ea : Ea)
  | roxlImm (n : Fin 8) (sz : Size) (dy : Reg)
  | roxlReg (dx : Reg) (sz : Size) (dy : Reg)
  | rorMem (ea : Ea)
  | rorImm (n : Fin 8) (sz : Size) (dy : Reg)
  | rorReg (dx : Reg) (sz : Size) (dy : Reg)
  | rolMem (ea : Ea)
  | rolImm (n : Fin 8) (sz : Size) (dy : Reg)
  | rolReg (dx : Reg) (sz : Size) (dy : Reg)
  | lineF (w : BitVec 12)
deriving DecidableEq, Repr, Inhabited

end Sys2Proof
end

