-- ==== Sys2Proof/WellFormed.lean ====
section
/-! DEFINITION. Which terms of `Instr` stand for an operation word: the addressing categories (30_encoding.md R120),
the set each instruction allows (R121, R106), and the restrictions of R126 and R127. -/

namespace Sys2Proof

/-- Category `data` (R120): every mode but `An`. -/
def Ea.isData : Ea → Bool
  | .an _ => false
  | .dn _ | .ind _ | .post _ | .pre _ | .disp _ _ | .idx _ _ | .absW _ | .absL _ | .pcDisp _ | .pcIdx _ | .imm _ => true

/-- Category `control` (R120). -/
def Ea.isControl : Ea → Bool
  | .ind _ | .disp _ _ | .idx _ _ | .absW _ | .absL _ | .pcDisp _ | .pcIdx _ => true
  | .dn _ | .an _ | .post _ | .pre _ | .imm _ => false

/-- Category `alterable` (R120). -/
def Ea.isAlterable : Ea → Bool
  | .dn _ | .an _ | .ind _ | .post _ | .pre _ | .disp _ _ | .idx _ _ | .absW _ | .absL _ => true
  | .pcDisp _ | .pcIdx _ | .imm _ => false

/-- `data_alterable` (R120). -/
def Ea.isDataAlterable (ea : Ea) : Bool := ea.isAlterable && ea.isData

/-- `memory_alterable` (R120): `alterable` without `Dn`, `An`. -/
def Ea.isMemoryAlterable : Ea → Bool
  | .ind _ | .post _ | .pre _ | .disp _ _ | .idx _ _ | .absW _ | .absL _ => true
  | .dn _ | .an _ | .pcDisp _ | .pcIdx _ | .imm _ => false

/-- `data_not_imm` (R120). -/
def Ea.isDataNotImm : Ea → Bool
  | .dn _ | .ind _ | .post _ | .pre _ | .disp _ _ | .idx _ _ | .absW _ | .absL _ | .pcDisp _ | .pcIdx _ => true
  | .an _ | .imm _ => false

/-- `movem_to_mem` (R120): `control_alterable` plus `-(An)`. -/
def Ea.isMovemToMem : Ea → Bool
  | .ind _ | .pre _ | .disp _ _ | .idx _ _ | .absW _ | .absL _ => true
  | .dn _ | .an _ | .post _ | .pcDisp _ | .pcIdx _ | .imm _ => false

/-- `movem_to_reg` (R120): `control` plus `(An)+`. -/
def Ea.isMovemToReg : Ea → Bool
  | .ind _ | .post _ | .disp _ _ | .idx _ _ | .absW _ | .absL _ | .pcDisp _ | .pcIdx _ => true
  | .dn _ | .an _ | .pre _ | .imm _ => false

/-- An address register is no byte operand (R106), and immediate data has the operand size (R117). -/
def Ea.fits (ea : Ea) (sz : Size) : Bool :=
  match ea with
  | .an _ => sz != .b
  | .imm v => v.size == sz
  | .dn _ | .ind _ | .post _ | .pre _ | .disp _ _ | .idx _ _ | .absW _ | .absL _ | .pcDisp _ | .pcIdx _ => true

/-- A byte displacement in the operation word is not zero: zero selects the word form (46_program_control.md R290). -/
def BranchDisp.wellFormed : BranchDisp → Bool
  | .byte d => d != 0
  | .word _ => true

/-- Bcc has no conditions T and F: their fields are BRA and BSR (30_encoding.md R127). -/
def Cond.isBranch : Cond → Bool
  | .t | .f => false
  | .hi | .ls | .cc | .cs | .ne | .eq | .vc | .vs | .pl | .mi | .ge | .lt | .gt | .le => true

/-- The term stands for an operation word and its extension words (30_encoding.md R121). -/
def Instr.wellFormed : Instr → Bool
  | .oriToCcr _ | .oriToSr _ | .andiToCcr _ | .andiToSr _ | .eoriToCcr _ | .eoriToSr _ => true
  | .ori _ ea | .andi _ ea | .eori _ ea | .subi _ ea | .addi _ ea | .cmpi _ ea => ea.isDataAlterable
  | .btstStatic _ ea => ea.isDataNotImm
  | .btstDynamic _ ea => ea.isData && ea.fits .b
  | .bchgStatic _ ea | .bchgDynamic _ ea | .bclrStatic _ ea | .bclrDynamic _ ea
  | .bsetStatic _ ea | .bsetDynamic _ ea => ea.isDataAlterable
  | .movepToRegW _ _ _ | .movepToRegL _ _ _ | .movepToMemW _ _ _ | .movepToMemL _ _ _ => true
  | .moveB src dst => src.fits .b && dst.isDataAlterable
  | .moveW src dst => src.fits .w && dst.isDataAlterable
  | .moveaW src _ => src.fits .w
  | .moveL src dst => src.fits .l && dst.isDataAlterable
  | .moveaL src _ => src.fits .l
  | .negx _ ea | .clr _ ea | .neg _ ea | .notEa _ ea | .tst _ ea => ea.isDataAlterable
  | .moveFromSr ea => ea.isDataAlterable
  | .chk ea _ => ea.isData && ea.fits .w
  | .lea ea _ => ea.isControl
  | .moveToCcr ea => ea.isData && ea.fits .w
  | .moveToSr ea => ea.isData && ea.fits .w
  | .nbcd ea => ea.isDataAlterable
  | .swap _ => true
  | .pea ea => ea.isControl
  | .extW _ | .extL _ => true
  | .movemToMem _ _ ea => ea.isMovemToMem
  | .tas ea => ea.isDataAlterable
  | .illegal | .illegal4AFA | .illegal4AFB => true
  | .movemToReg _ _ ea => ea.isMovemToReg
  | .trap _ | .link _ _ | .unlk _ | .moveToUsp _ | .moveFromUsp _ => true
  | .reset | .nop | .stop _ | .rte | .rts | .trapv | .rtr => true
  | .jsr ea | .jmp ea => ea.isControl
  | .addq _ sz ea | .subq _ sz ea => ea.isAlterable && ea.fits sz
  | .scc _ ea => ea.isDataAlterable
  | .dbcc _ _ _ => true
  | .bra d | .bsr d => d.wellFormed
  | .bcc c d => c.isBranch && d.wellFormed
  | .moveq _ _ => true
  | .orToDn sz ea _ | .andToDn sz ea _ => ea.isData && ea.fits sz
  | .orToMem _ _ ea | .andToMem _ _ ea | .subToMem _ _ ea | .addToMem _ _ ea => ea.isMemoryAlterable
  | .divu ea _ | .divs ea _ | .mulu ea _ | .muls ea _ => ea.isData && ea.fits .w
  | .sbcdReg _ _ | .sbcdMem _ _ | .abcdReg _ _ | .abcdMem _ _ => true
  | .subToDn sz ea _ | .addToDn sz ea _ | .cmp sz ea _ => ea.fits sz
  | .subaW ea _ | .addaW ea _ | .cmpaW ea _ => ea.fits .w
  | .subaL ea _ | .addaL ea _ | .cmpaL ea _ => ea.fits .l
  | .subxReg _ _ _ | .subxMem _ _ _ | .addxReg _ _ _ | .addxMem _ _ _ | .cmpm _ _ _ => true
  | .lineA _ | .lineF _ => true
  | .eor _ _ ea => ea.isDataAlterable
  | .exgDD _ _ | .exgAA _ _ | .exgDA _ _ => true
  | .asrMem ea | .aslMem ea | .lsrMem ea | .lslMem ea
  | .roxrMem ea | .roxlMem ea | .rorMem ea | .rolMem ea => ea.isMemoryAlterable
  | .asrImm _ _ _ | .asrReg _ _ _ | .aslImm _ _ _ | .aslReg _ _ _
  | .lsrImm _ _ _ | .lsrReg _ _ _ | .lslImm _ _ _ | .lslReg _ _ _
  | .roxrImm _ _ _ | .roxrReg _ _ _ | .roxlImm _ _ _ | .roxlReg _ _ _
  | .rorImm _ _ _ | .rorReg _ _ _ | .rolImm _ _ _ | .rolReg _ _ _ => true

end Sys2Proof
end

