-- ==== Sys2Proof/Decode.lean ====
section
/-! DEFINITION. The decoder of operation words and their extension words (30_encoding.md R100 to R143), and the
encoder written from the same tables. Words are read big-endian (20_memory.md R60). -/

namespace Sys2Proof

/-- Why a sequence of words is no instruction. -/
inductive DecodeError where
  /-- The operation word is not the first word of a legal instruction (30_encoding.md R140). -/
  | illegal
  /-- The words end before the instruction does. -/
  | truncated
deriving DecidableEq, Repr, Inhabited

/-- The five fields every format of 30_encoding.md R103 is cut from: bits 15..12, 11..9, 8..6, 5..3, 2..0. -/
structure Op where
  line : BitVec 4
  r : BitVec 3
  m : BitVec 3
  mode : BitVec 3
  reg : BitVec 3
deriving DecidableEq, Repr, Inhabited

/-- The fields of an operation word (R102). -/
def Op.ofWord (w : Word) : Op :=
  { line := w.extractLsb' 12 4, r := w.extractLsb' 9 3, m := w.extractLsb' 6 3,
    mode := w.extractLsb' 3 3, reg := w.extractLsb' 0 3 }

/-- The operation word of the fields (R102). -/
def Op.toWord (o : Op) : Word := o.line ++ o.r ++ o.m ++ o.mode ++ o.reg

/-- Bits 7..0 of an operation word (R127, R128). -/
def Op.lowByte (o : Op) : Byte := o.m.extractLsb' 0 2 ++ o.mode ++ o.reg

/-- Bits 11..8 of an operation word: the condition field (R102). -/
def Op.condBits (o : Op) : BitVec 4 := o.r ++ o.m.extractLsb' 2 1

/-- A register number from its field. -/
def Reg.ofBits (b : BitVec 3) : Reg := b.toFin

/-- The field of a register number. -/
def Reg.toBits (n : Reg) : BitVec 3 := BitVec.ofFin n

/-- The first word of two. -/
def Long.high (v : Long) : Word := v.extractLsb' 16 16

/-- The second word of two. -/
def Long.low (v : Long) : Word := v.extractLsb' 0 16

/-- The low-order byte of a word. -/
def Word.lowByte (v : Word) : Byte := v.extractLsb' 0 8

/-- The size of a two-bit size field: `00` byte, `01` word, `10` long (R102). -/
def Size.ofBits : BitVec 2 → Option Size
  | 0 => some .b
  | 1 => some .w
  | 2 => some .l
  | _ => none

/-- The size field of a size (R102). -/
def Size.toBits : Size → BitVec 2
  | .b => 0
  | .w => 1
  | .l => 2

/-- The condition of a four-bit field (10_state.md R39). -/
def Cond.ofBits : BitVec 4 → Cond
  | 0 => .t | 1 => .f | 2 => .hi | 3 => .ls | 4 => .cc | 5 => .cs | 6 => .ne | 7 => .eq
  | 8 => .vc | 9 => .vs | 10 => .pl | 11 => .mi | 12 => .ge | 13 => .lt | 14 => .gt | _ => .le

/-- The four-bit field of a condition (10_state.md R39). -/
def Cond.toBits : Cond → BitVec 4
  | .t => 0 | .f => 1 | .hi => 2 | .ls => 3 | .cc => 4 | .cs => 5 | .ne => 6 | .eq => 7
  | .vc => 8 | .vs => 9 | .pl => 10 | .mi => 11 | .ge => 12 | .lt => 13 | .gt => 14 | .le => 15

/-- A reader of words: it consumes some, and stops by name where it cannot go on. -/
abbrev Parser := StateT (List Word) (Except DecodeError)

/-- `FetchWord()` over a list of words (R101). -/
def Parser.word : Parser Word := fun ws =>
  match ws with
  | [] => .error .truncated
  | w :: rest => .ok (w, rest)

/-- Two words, the high order part first (R114, R117). -/
def Parser.long : Parser Long := do
  let hi ← Parser.word
  let lo ← Parser.word
  return hi ++ lo

/-- Not the first word of a legal instruction (R140). -/
def Parser.illegal {α : Type} : Parser α := fun _ => .error .illegal

/-- A size field that names a size (R102). -/
def Parser.size (b : BitVec 2) : Parser Size :=
  match Size.ofBits b with
  | some sz => return sz
  | none => Parser.illegal

/-- The index extension word (R112); bits 10..8 are ignored (R143). -/
def Index.ofWord (w : Word) : Index :=
  { isAddr := w.getLsbD 15, reg := Reg.ofBits (w.extractLsb' 12 3), long := w.getLsbD 11, disp := w.lowByte }

/-- The index extension word of its fields, bits 10..8 zero (R112). -/
def Index.toWord (x : Index) : Word :=
  BitVec.ofBool x.isAddr ++ x.reg.toBits ++ BitVec.ofBool x.long ++ 0#3 ++ x.disp

/-- Immediate data of a size (R117). -/
def Parser.imm : Size → Parser Imm
  | .b => do return .b (← Parser.word).lowByte
  | .w => do return .w (← Parser.word)
  | .l => do return .l (← Parser.long)

/-- The words of immediate data (R117). -/
def Imm.words : Imm → List Word
  | .b v => [0#8 ++ v]
  | .w v => [v]
  | .l v => [v.high, v.low]

/-- The effective address of a mode field, a register field and an operand size (R104). -/
def Parser.ea (mode reg : BitVec 3) (sz : Size) : Parser Ea :=
  match mode with
  | 0 => return .dn (Reg.ofBits reg)
  | 1 => return .an (Reg.ofBits reg)
  | 2 => return .ind (Reg.ofBits reg)
  | 3 => return .post (Reg.ofBits reg)
  | 4 => return .pre (Reg.ofBits reg)
  | 5 => do return .disp (Reg.ofBits reg) (← Parser.word)
  | 6 => do return .idx (Reg.ofBits reg) (Index.ofWord (← Parser.word))
  | _ =>
    match reg with
    | 0 => do return .absW (← Parser.word)
    | 1 => do return .absL (← Parser.long)
    | 2 => do return .pcDisp (← Parser.word)
    | 3 => do return .pcIdx (Index.ofWord (← Parser.word))
    | 4 => do return .imm (← Parser.imm sz)
    | _ => Parser.illegal

/-- The mode field of an effective address (R104). -/
def Ea.mode : Ea → BitVec 3
  | .dn _ => 0
  | .an _ => 1
  | .ind _ => 2
  | .post _ => 3
  | .pre _ => 4
  | .disp _ _ => 5
  | .idx _ _ => 6
  | .absW _ | .absL _ | .pcDisp _ | .pcIdx _ | .imm _ => 7

/-- The register field of an effective address (R104). -/
def Ea.reg : Ea → BitVec 3
  | .dn n | .an n | .ind n | .post n | .pre n | .disp n _ | .idx n _ => n.toBits
  | .absW _ => 0
  | .absL _ => 1
  | .pcDisp _ => 2
  | .pcIdx _ => 3
  | .imm _ => 4

/-- The extension words of an effective address (R104). -/
def Ea.words : Ea → List Word
  | .dn _ | .an _ | .ind _ | .post _ | .pre _ => []
  | .disp _ d => [d]
  | .idx _ x => [x.toWord]
  | .absW a => [a]
  | .absL a => [a.high, a.low]
  | .pcDisp d => [d]
  | .pcIdx x => [x.toWord]
  | .imm v => v.words

/-- The effective address in bits 5..0 (R104). -/
def Op.ea (o : Op) (sz : Size) : Parser Ea := Parser.ea o.mode o.reg sz

/-- Bits 7..6 of an operation word: the size field of most instructions (R102). -/
def Op.sizeBits (o : Op) : BitVec 2 := o.m.extractLsb' 0 2

/-- Bits 8..6 of opmodes 000 to 010 and 100 to 110: the direction bit and a size. -/
def Size.opmode (sz : Size) (dir : BitVec 1) : BitVec 3 := dir ++ sz.toBits

/-- The ORI family of line 0: immediate data, then the effective address (R123). -/
def Op.immEa (o : Op) (f : Imm → Ea → Instr) : Parser Instr := do
  let sz ← Parser.size o.sizeBits
  let v ← Parser.imm sz
  return f v (← o.ea sz)

/-- A to-CCR or to-SR form where the effective address is `111 100`, else the ORI family (R123). -/
def Op.immCcrSrEa (o : Op) (ccr : Byte → Instr) (sr : Word → Instr) (f : Imm → Ea → Instr) : Parser Instr :=
  if o.mode = 7 ∧ o.reg = 4 then
    match o.m with
    | 0 => do return ccr (← Parser.word).lowByte
    | 1 => do return sr (← Parser.word)
    | _ => Parser.illegal
  else o.immEa f

/-- A static bit instruction: the bit number word, then the effective address (R123). -/
def Op.bitStatic (o : Op) (f : Byte → Ea → Instr) : Parser Instr := do
  let n ← Parser.word
  return f n.lowByte (← o.ea .b)

/-- A dynamic bit instruction, or MOVEP where the mode is 001 (R123). -/
def Op.bitDynamic (o : Op) (f : Reg → Ea → Instr) (movep : Word → Instr) : Parser Instr :=
  if o.mode = 1 then do return movep (← Parser.word)
  else do return f (Reg.ofBits o.r) (← o.ea .b)

/-- Line 0: immediate, bit and MOVEP instructions (R123). -/
def Op.line0 (o : Op) : Parser Instr :=
  match o.m with
  | 4 => o.bitDynamic .btstDynamic fun d => .movepToRegW d (Reg.ofBits o.reg) (Reg.ofBits o.r)
  | 5 => o.bitDynamic .bchgDynamic fun d => .movepToRegL d (Reg.ofBits o.reg) (Reg.ofBits o.r)
  | 6 => o.bitDynamic .bclrDynamic fun d => .movepToMemW (Reg.ofBits o.r) d (Reg.ofBits o.reg)
  | 7 => o.bitDynamic .bsetDynamic fun d => .movepToMemL (Reg.ofBits o.r) d (Reg.ofBits o.reg)
  | _ =>
    match o.r with
    | 0 => o.immCcrSrEa .oriToCcr .oriToSr .ori
    | 1 => o.immCcrSrEa .andiToCcr .andiToSr .andi
    | 2 => o.immEa .subi
    | 3 => o.immEa .addi
    | 4 =>
      match o.m with
      | 0 => o.bitStatic .btstStatic
      | 1 => o.bitStatic .bchgStatic
      | 2 => o.bitStatic .bclrStatic
      | _ => o.bitStatic .bsetStatic
    | 5 => o.immCcrSrEa .eoriToCcr .eoriToSr .eori
    | 6 => o.immEa .cmpi
    | _ => Parser.illegal

/-- Lines 1, 3, 2: MOVE, and MOVEA where the destination mode is 001 (R124). The source is read first (R101). -/
def Op.move (o : Op) (sz : Size) (f : Ea → Ea → Instr) (movea : Ea → Parser Instr) : Parser Instr := do
  let src ← o.ea sz
  if o.m = 1 then movea src
  else return f src (← Parser.ea o.m o.r sz)

/-- A one-operand instruction with a size field, or the instruction of size field `11` (R125). -/
def Op.sizeEa (o : Op) (f : Size → Ea → Instr) (other : Parser Instr) : Parser Instr :=
  match Size.ofBits o.sizeBits with
  | some sz => do return f sz (← o.ea sz)
  | none => other

/-- MOVEM: the mask word, then the effective address (R125). -/
def Op.movem (o : Op) (f : WideSize → Word → Ea → Instr) : Parser Instr := do
  let sz : WideSize := if o.m.getLsbD 0 then .l else .w
  let mask ← Parser.word
  return f sz mask (← o.ea sz.toSize)

/-- Line 4, bits 11..9 = 100: NBCD, SWAP, PEA, EXT, MOVEM to memory (R125). -/
def Op.line4r4 (o : Op) : Parser Instr :=
  match o.m with
  | 0 => do return .nbcd (← o.ea .b)
  | 1 => if o.mode = 0 then return .swap (Reg.ofBits o.reg) else do return .pea (← o.ea .l)
  | 2 => if o.mode = 0 then return .extW (Reg.ofBits o.reg) else o.movem .movemToMem
  | 3 => if o.mode = 0 then return .extL (Reg.ofBits o.reg) else o.movem .movemToMem
  | _ => Parser.illegal

/-- Line 4, bits 11..6 = 111001: TRAP, LINK, UNLK, MOVE USP and the fixed words (R125). -/
def Op.line4r7 (o : Op) : Parser Instr :=
  match o.mode with
  | 0 => return .trap ((0#1 ++ o.reg).toFin)
  | 1 => return .trap ((1#1 ++ o.reg).toFin)
  | 2 => do return .link (Reg.ofBits o.reg) (← Parser.word)
  | 3 => return .unlk (Reg.ofBits o.reg)
  | 4 => return .moveToUsp (Reg.ofBits o.reg)
  | 5 => return .moveFromUsp (Reg.ofBits o.reg)
  | 6 =>
    match o.reg with
    | 0 => return .reset
    | 1 => return .nop
    | 2 => do return .stop (← Parser.word)
    | 3 => return .rte
    | 5 => return .rts
    | 6 => return .trapv
    | 7 => return .rtr
    | _ => Parser.illegal
  | _ => Parser.illegal

/-- Line 4: miscellaneous (R125). -/
def Op.line4 (o : Op) : Parser Instr :=
  match o.m with
  | 4 | 5 => Parser.illegal
  | 6 => do return .chk (← o.ea .w) (Reg.ofBits o.r)
  | 7 => do return .lea (← o.ea .l) (Reg.ofBits o.r)
  | _ =>
    match o.r with
    | 0 => o.sizeEa .negx do return .moveFromSr (← o.ea .w)
    | 1 => o.sizeEa .clr Parser.illegal
    | 2 => o.sizeEa .neg do return .moveToCcr (← o.ea .w)
    | 3 => o.sizeEa .notEa do return .moveToSr (← o.ea .w)
    | 4 => o.line4r4
    | 5 =>
      if o.m = 3 ∧ o.mode = 7 ∧ o.reg = 2 then return .illegal4AFA
      else if o.m = 3 ∧ o.mode = 7 ∧ o.reg = 3 then return .illegal4AFB
      else if o.m = 3 ∧ o.mode = 7 ∧ o.reg = 4 then return .illegal
      else o.sizeEa .tst do return .tas (← o.ea .b)
    | 6 =>
      match o.m with
      | 2 | 3 => o.movem .movemToReg
      | _ => Parser.illegal
    | _ =>
      match o.m with
      | 1 => o.line4r7
      | 2 => do return .jsr (← o.ea .l)
      | 3 => do return .jmp (← o.ea .l)
      | _ => Parser.illegal

/-- Line 5: ADDQ, SUBQ, Scc, DBcc (R126). -/
def Op.line5 (o : Op) : Parser Instr :=
  match Size.ofBits o.sizeBits with
  | some sz => do
    let ea ← o.ea sz
    return if o.m.getLsbD 2 then .subq (Reg.ofBits o.r) sz ea else .addq (Reg.ofBits o.r) sz ea
  | none =>
    if o.mode = 1 then do return .dbcc (Cond.ofBits o.condBits) (Reg.ofBits o.reg) (← Parser.word)
    else do return .scc (Cond.ofBits o.condBits) (← o.ea .b)

/-- The displacement of a branch: the byte of the operation word, or the word after it where that byte is $00 (R127). -/
def Op.branchDisp (o : Op) : Parser BranchDisp :=
  if o.lowByte = 0 then do return .word (← Parser.word) else return .byte o.lowByte

/-- Line 6: BRA, BSR, Bcc (R127). -/
def Op.line6 (o : Op) : Parser Instr := do
  let d ← o.branchDisp
  return match Cond.ofBits o.condBits with
    | .t => .bra d
    | .f => .bsr d
    | .hi => .bcc .hi d
    | .ls => .bcc .ls d
    | .cc => .bcc .cc d
    | .cs => .bcc .cs d
    | .ne => .bcc .ne d
    | .eq => .bcc .eq d
    | .vc => .bcc .vc d
    | .vs => .bcc .vs d
    | .pl => .bcc .pl d
    | .mi => .bcc .mi d
    | .ge => .bcc .ge d
    | .lt => .bcc .lt d
    | .gt => .bcc .gt d
    | .le => .bcc .le d

/-- Line 7: MOVEQ (R128). -/
def Op.line7 (o : Op) : Parser Instr :=
  if o.m.getLsbD 2 then Parser.illegal else return .moveq o.lowByte (Reg.ofBits o.r)

/-- Opmodes 000 to 010, `<ea>,Dn`: the size is in the two low bits. -/
def Op.eaToDn (o : Op) (f : Size → Ea → Reg → Instr) : Parser Instr := do
  let sz ← Parser.size o.sizeBits
  return f sz (← o.ea sz) (Reg.ofBits o.r)

/-- Opmodes 100 to 110, `Dn,<ea>`. -/
def Op.dnToEa (o : Op) (f : Size → Reg → Ea → Instr) : Parser Instr := do
  let sz ← Parser.size o.sizeBits
  return f sz (Reg.ofBits o.r) (← o.ea sz)

/-- Line 8: OR, DIVU, DIVS, SBCD (R129). -/
def Op.line8 (o : Op) : Parser Instr :=
  match o.m with
  | 3 => do return .divu (← o.ea .w) (Reg.ofBits o.r)
  | 7 => do return .divs (← o.ea .w) (Reg.ofBits o.r)
  | 4 =>
    match o.mode with
    | 0 => return .sbcdReg (Reg.ofBits o.reg) (Reg.ofBits o.r)
    | 1 => return .sbcdMem (Reg.ofBits o.reg) (Reg.ofBits o.r)
    | _ => o.dnToEa .orToMem
  | 5 | 6 => o.dnToEa .orToMem
  | _ => o.eaToDn .orToDn

/-- Opmodes 100 to 110 of lines 9 and D: the extended form where the mode is 000 or 001 (R130, R134). -/
def Op.extended (o : Op) (reg mem : Size → Reg → Reg → Instr) (f : Size → Reg → Ea → Instr) : Parser Instr :=
  match o.mode with
  | 0 => do return reg (← Parser.size o.sizeBits) (Reg.ofBits o.reg) (Reg.ofBits o.r)
  | 1 => do return mem (← Parser.size o.sizeBits) (Reg.ofBits o.reg) (Reg.ofBits o.r)
  | _ => o.dnToEa f

/-- Line 9: SUB, SUBA, SUBX (R130). -/
def Op.line9 (o : Op) : Parser Instr :=
  match o.m with
  | 3 => do return .subaW (← o.ea .w) (Reg.ofBits o.r)
  | 7 => do return .subaL (← o.ea .l) (Reg.ofBits o.r)
  | 4 | 5 | 6 => o.extended .subxReg .subxMem .subToMem
  | _ => o.eaToDn .subToDn

/-- Line B: CMP, CMPA, EOR, CMPM (R132). -/
def Op.lineB (o : Op) : Parser Instr :=
  match o.m with
  | 3 => do return .cmpaW (← o.ea .w) (Reg.ofBits o.r)
  | 7 => do return .cmpaL (← o.ea .l) (Reg.ofBits o.r)
  | 4 | 5 | 6 =>
    if o.mode = 1 then do return .cmpm (← Parser.size o.sizeBits) (Reg.ofBits o.reg) (Reg.ofBits o.r)
    else o.dnToEa .eor
  | _ => o.eaToDn .cmp

/-- Line C: AND, MULU, MULS, ABCD, EXG (R133). -/
def Op.lineC (o : Op) : Parser Instr :=
  match o.m with
  | 3 => do return .mulu (← o.ea .w) (Reg.ofBits o.r)
  | 7 => do return .muls (← o.ea .w) (Reg.ofBits o.r)
  | 4 =>
    match o.mode with
    | 0 => return .abcdReg (Reg.ofBits o.reg) (Reg.ofBits o.r)
    | 1 => return .abcdMem (Reg.ofBits o.reg) (Reg.ofBits o.r)
    | _ => o.dnToEa .andToMem
  | 5 =>
    match o.mode with
    | 0 => return .exgDD (Reg.ofBits o.r) (Reg.ofBits o.reg)
    | 1 => return .exgAA (Reg.ofBits o.r) (Reg.ofBits o.reg)
    | _ => o.dnToEa .andToMem
  | 6 =>
    match o.mode with
    | 0 => Parser.illegal
    | 1 => return .exgDA (Reg.ofBits o.r) (Reg.ofBits o.reg)
    | _ => o.dnToEa .andToMem
  | _ => o.eaToDn .andToDn

/-- Line D: ADD, ADDA, ADDX (R134). -/
def Op.lineD (o : Op) : Parser Instr :=
  match o.m with
  | 3 => do return .addaW (← o.ea .w) (Reg.ofBits o.r)
  | 7 => do return .addaL (← o.ea .l) (Reg.ofBits o.r)
  | 4 | 5 | 6 => o.extended .addxReg .addxMem .addToMem
  | _ => o.eaToDn .addToDn

/-- The memory form of line E: bits 11..9 are the type, bit 8 the direction (R135). -/
def Op.shiftMem (o : Op) : Parser Instr := do
  let ea ← o.ea .w
  match o.r, o.m.getLsbD 2 with
  | 0, false => return .asrMem ea
  | 0, true => return .aslMem ea
  | 1, false => return .lsrMem ea
  | 1, true => return .lslMem ea
  | 2, false => return .roxrMem ea
  | 2, true => return .roxlMem ea
  | 3, false => return .rorMem ea
  | 3, true => return .rolMem ea
  | _, _ => Parser.illegal

/-- The register form of line E: bit 8 the direction, bits 5..3 the source of the count and the type (R135). -/
def Op.shiftReg (o : Op) (sz : Size) : Instr :=
  match o.mode, o.m.getLsbD 2 with
  | 0, false => .asrImm (Reg.ofBits o.r) sz (Reg.ofBits o.reg)
  | 0, true => .aslImm (Reg.ofBits o.r) sz (Reg.ofBits o.reg)
  | 1, false => .lsrImm (Reg.ofBits o.r) sz (Reg.ofBits o.reg)
  | 1, true => .lslImm (Reg.ofBits o.r) sz (Reg.ofBits o.reg)
  | 2, false => .roxrImm (Reg.ofBits o.r) sz (Reg.ofBits o.reg)
  | 2, true => .roxlImm (Reg.ofBits o.r) sz (Reg.ofBits o.reg)
  | 3, false => .rorImm (Reg.ofBits o.r) sz (Reg.ofBits o.reg)
  | 3, true => .rolImm (Reg.ofBits o.r) sz (Reg.ofBits o.reg)
  | 4, false => .asrReg (Reg.ofBits o.r) sz (Reg.ofBits o.reg)
  | 4, true => .aslReg (Reg.ofBits o.r) sz (Reg.ofBits o.reg)
  | 5, false => .lsrReg (Reg.ofBits o.r) sz (Reg.ofBits o.reg)
  | 5, true => .lslReg (Reg.ofBits o.r) sz (Reg.ofBits o.reg)
  | 6, false => .roxrReg (Reg.ofBits o.r) sz (Reg.ofBits o.reg)
  | 6, true => .roxlReg (Reg.ofBits o.r) sz (Reg.ofBits o.reg)
  | _, false => .rorReg (Reg.ofBits o.r) sz (Reg.ofBits o.reg)
  | _, true => .rolReg (Reg.ofBits o.r) sz (Reg.ofBits o.reg)

/-- Line E: shifts and rotates (R135). -/
def Op.lineE (o : Op) : Parser Instr :=
  match Size.ofBits o.sizeBits with
  | some sz => return o.shiftReg sz
  | none => o.shiftMem

/-- Bits 11..0 of an operation word. -/
def Op.low12 (o : Op) : BitVec 12 := o.r ++ o.m ++ o.mode ++ o.reg

/-- The instruction of an operation word by its line, before the addressing categories are checked (R123 to R136). -/
def Op.instr (o : Op) : Parser Instr :=
  match o.line with
  | 0 => o.line0
  | 1 => o.move .b .moveB fun _ => Parser.illegal
  | 2 => o.move .l .moveL fun src => return .moveaL src (Reg.ofBits o.r)
  | 3 => o.move .w .moveW fun src => return .moveaW src (Reg.ofBits o.r)
  | 4 => o.line4
  | 5 => o.line5
  | 6 => o.line6
  | 7 => o.line7
  | 8 => o.line8
  | 9 => o.line9
  | 10 => return .lineA o.low12
  | 11 => o.lineB
  | 12 => o.lineC
  | 13 => o.lineD
  | 14 => o.lineE
  | _ => return .lineF o.low12

/-- The instruction that begins a list of words, and the words after it. An effective address outside its
instruction's set, or a size that set does not allow, is illegal (R140). -/
def decode (ws : List Word) : Except DecodeError (Instr × List Word) :=
  match ws with
  | [] => .error .truncated
  | w :: rest =>
    match (Op.ofWord w).instr rest with
    | .error e => .error e
    | .ok (i, rest') => if i.wellFormed then .ok (i, rest') else .error .illegal

/-- Big-endian words of a list of bytes; a last single byte is no word (20_memory.md R60). -/
def wordsOfBytes : List Byte → List Word
  | hi :: lo :: rest => (hi ++ lo) :: wordsOfBytes rest
  | _ => []

/-- The bytes of words as memory holds them, the high-order byte at the lower address (20_memory.md R60). -/
def bytesOfWords : List Word → List Byte
  | [] => []
  | w :: rest => w.extractLsb' 8 8 :: w.extractLsb' 0 8 :: bytesOfWords rest

/-- The instruction that begins a list of bytes, and the bytes after it. -/
def decodeBytes (bs : List Byte) : Except DecodeError (Instr × List Byte) :=
  match decode (wordsOfBytes bs) with
  | .error e => .error e
  | .ok (i, rest) => .ok (i, bs.drop (2 * ((wordsOfBytes bs).length - rest.length)))

/-- Five words whose bits are `w`, the first word least significant, every bit from `nbits` on zero. -/
def tableWords (nbits w : Nat) : List Word :=
  (List.range 5).map fun k => BitVec.ofNat 16 ((w % 2 ^ nbits) / 2 ^ (16 * k))

/-- The instruction the decoder reads from an instruction whose bits are `w` (numbered as spec/opcode_table.json). -/
def decodeTableWord (nbits w : Nat) : Option Instr :=
  match decodeBytes (bytesOfWords (tableWords nbits w)) with
  | .ok (i, _) => some i
  | .error _ => none

/-- Operation word fields with an effective address in bits 5..0. -/
def Ea.op (ea : Ea) (line : BitVec 4) (r m : BitVec 3) : Op := ⟨line, r, m, ea.mode, ea.reg⟩

/-- Operation word fields with two register numbers (format RX_RY, R103). -/
def Op.twoRegs (line : BitVec 4) (x : Reg) (m mode : BitVec 3) (y : Reg) : Op := ⟨line, x.toBits, m, mode, y.toBits⟩

/-- Operation word fields of a branch (format BRANCH, R103). -/
def Op.branch (c : Cond) (d : BranchDisp) : Op :=
  let low : Byte := match d with
    | .byte d => d
    | .word _ => 0
  ⟨6, c.toBits.extractLsb' 1 3, c.toBits.extractLsb' 0 1 ++ low.extractLsb' 6 2, low.extractLsb' 3 3,
    low.extractLsb' 0 3⟩

/-- The displacement word of a branch, where it has one (R127). -/
def BranchDisp.words : BranchDisp → List Word
  | .byte _ => []
  | .word d => [d]

/-- Operation word fields of a line A or line F word (R131, R136). -/
def Op.ofLow12 (line : BitVec 4) (w : BitVec 12) : Op :=
  ⟨line, w.extractLsb' 9 3, w.extractLsb' 6 3, w.extractLsb' 3 3, w.extractLsb' 0 3⟩

/-- Operation word fields of a fixed word `0100 1110 01 mmm rrr` (R125). -/
def Op.fixed (mode reg : BitVec 3) : Op := ⟨4, 7, 1, mode, reg⟩

/-- Operation word fields of Scc and DBcc (R126). -/
def Op.condition (c : Cond) (mode reg : BitVec 3) : Op :=
  ⟨5, c.toBits.extractLsb' 1 3, c.toBits.extractLsb' 0 1 ++ 3#2, mode, reg⟩

/-- The size bit of MOVEM (R125). -/
def WideSize.movemOpmode : WideSize → BitVec 3
  | .w => 2
  | .l => 3

/-- The operation word of an instruction, by fields (R123 to R136). -/
def Instr.op : Instr → Op
  | .oriToCcr _ => ⟨0, 0, 0, 7, 4⟩
  | .oriToSr _ => ⟨0, 0, 1, 7, 4⟩
  | .ori v ea => ea.op 0 0 (v.size.opmode 0)
  | .andiToCcr _ => ⟨0, 1, 0, 7, 4⟩
  | .andiToSr _ => ⟨0, 1, 1, 7, 4⟩
  | .andi v ea => ea.op 0 1 (v.size.opmode 0)
  | .eoriToCcr _ => ⟨0, 5, 0, 7, 4⟩
  | .eoriToSr _ => ⟨0, 5, 1, 7, 4⟩
  | .eori v ea => ea.op 0 5 (v.size.opmode 0)
  | .subi v ea => ea.op 0 2 (v.size.opmode 0)
  | .addi v ea => ea.op 0 3 (v.size.opmode 0)
  | .cmpi v ea => ea.op 0 6 (v.size.opmode 0)
  | .btstStatic _ ea => ea.op 0 4 0
  | .btstDynamic dn ea => ea.op 0 dn.toBits 4
  | .bchgStatic _ ea => ea.op 0 4 1
  | .bchgDynamic dn ea => ea.op 0 dn.toBits 5
  | .bclrStatic _ ea => ea.op 0 4 2
  | .bclrDynamic dn ea => ea.op 0 dn.toBits 6
  | .bsetStatic _ ea => ea.op 0 4 3
  | .bsetDynamic dn ea => ea.op 0 dn.toBits 7
  | .movepToRegW _ ay dx => .twoRegs 0 dx 4 1 ay
  | .movepToRegL _ ay dx => .twoRegs 0 dx 5 1 ay
  | .movepToMemW dx _ ay => .twoRegs 0 dx 6 1 ay
  | .movepToMemL dx _ ay => .twoRegs 0 dx 7 1 ay
  | .moveB src dst => src.op 1 dst.reg dst.mode
  | .moveW src dst => src.op 3 dst.reg dst.mode
  | .moveaW src an => src.op 3 an.toBits 1
  | .moveL src dst => src.op 2 dst.reg dst.mode
  | .moveaL src an => src.op 2 an.toBits 1
  | .negx sz ea => ea.op 4 0 (sz.opmode 0)
  | .moveFromSr ea => ea.op 4 0 3
  | .chk ea dn => ea.op 4 dn.toBits 6
  | .lea ea an => ea.op 4 an.toBits 7
  | .clr sz ea => ea.op 4 1 (sz.opmode 0)
  | .neg sz ea => ea.op 4 2 (sz.opmode 0)
  | .moveToCcr ea => ea.op 4 2 3
  | .notEa sz ea => ea.op 4 3 (sz.opmode 0)
  | .moveToSr ea => ea.op 4 3 3
  | .nbcd ea => ea.op 4 4 0
  | .swap dn => ⟨4, 4, 1, 0, dn.toBits⟩
  | .pea ea => ea.op 4 4 1
  | .extW dn => ⟨4, 4, 2, 0, dn.toBits⟩
  | .extL dn => ⟨4, 4, 3, 0, dn.toBits⟩
  | .movemToMem sz _ ea => ea.op 4 4 sz.movemOpmode
  | .tst sz ea => ea.op 4 5 (sz.opmode 0)
  | .tas ea => ea.op 4 5 3
  | .illegal => ⟨4, 5, 3, 7, 4⟩
  | .illegal4AFA => ⟨4, 5, 3, 7, 2⟩
  | .illegal4AFB => ⟨4, 5, 3, 7, 3⟩
  | .movemToReg sz _ ea => ea.op 4 6 sz.movemOpmode
  | .trap v =>
    let b : BitVec 4 := BitVec.ofFin v
    .fixed (0#2 ++ b.extractLsb' 3 1) (b.extractLsb' 0 3)
  | .link an _ => .fixed 2 an.toBits
  | .unlk an => .fixed 3 an.toBits
  | .moveToUsp an => .fixed 4 an.toBits
  | .moveFromUsp an => .fixed 5 an.toBits
  | .reset => .fixed 6 0
  | .nop => .fixed 6 1
  | .stop _ => .fixed 6 2
  | .rte => .fixed 6 3
  | .rts => .fixed 6 5
  | .trapv => .fixed 6 6
  | .rtr => .fixed 6 7
  | .jsr ea => ea.op 4 7 2
  | .jmp ea => ea.op 4 7 3
  | .addq q sz ea => ea.op 5 (BitVec.ofFin q) (sz.opmode 0)
  | .subq q sz ea => ea.op 5 (BitVec.ofFin q) (sz.opmode 1)
  | .scc c ea => .condition c ea.mode ea.reg
  | .dbcc c dn _ => .condition c 1 dn.toBits
  | .bra d => .branch .t d
  | .bsr d => .branch .f d
  | .bcc c d => .branch c d
  | .moveq v dn => ⟨7, dn.toBits, 0#1 ++ v.extractLsb' 6 2, v.extractLsb' 3 3, v.extractLsb' 0 3⟩
  | .orToDn sz ea dn => ea.op 8 dn.toBits (sz.opmode 0)
  | .orToMem sz dn ea => ea.op 8 dn.toBits (sz.opmode 1)
  | .divu ea dn => ea.op 8 dn.toBits 3
  | .divs ea dn => ea.op 8 dn.toBits 7
  | .sbcdReg dy dx => .twoRegs 8 dx 4 0 dy
  | .sbcdMem ay ax => .twoRegs 8 ax 4 1 ay
  | .subToDn sz ea dn => ea.op 9 dn.toBits (sz.opmode 0)
  | .subToMem sz dn ea => ea.op 9 dn.toBits (sz.opmode 1)
  | .subaW ea an => ea.op 9 an.toBits 3
  | .subaL ea an => ea.op 9 an.toBits 7
  | .subxReg sz dy dx => .twoRegs 9 dx (sz.opmode 1) 0 dy
  | .subxMem sz ay ax => .twoRegs 9 ax (sz.opmode 1) 1 ay
  | .lineA w => .ofLow12 10 w
  | .cmp sz ea dn => ea.op 11 dn.toBits (sz.opmode 0)
  | .cmpaW ea an => ea.op 11 an.toBits 3
  | .cmpaL ea an => ea.op 11 an.toBits 7
  | .cmpm sz ay ax => .twoRegs 11 ax (sz.opmode 1) 1 ay
  | .eor sz dn ea => ea.op 11 dn.toBits (sz.opmode 1)
  | .andToDn sz ea dn => ea.op 12 dn.toBits (sz.opmode 0)
  | .andToMem sz dn ea => ea.op 12 dn.toBits (sz.opmode 1)
  | .mulu ea dn => ea.op 12 dn.toBits 3
  | .muls ea dn => ea.op 12 dn.toBits 7
  | .abcdReg dy dx => .twoRegs 12 dx 4 0 dy
  | .abcdMem ay ax => .twoRegs 12 ax 4 1 ay
  | .exgDD dx dy => .twoRegs 12 dx 5 0 dy
  | .exgAA ax ay => .twoRegs 12 ax 5 1 ay
  | .exgDA dx ay => .twoRegs 12 dx 6 1 ay
  | .addToDn sz ea dn => ea.op 13 dn.toBits (sz.opmode 0)
  | .addToMem sz dn ea => ea.op 13 dn.toBits (sz.opmode 1)
  | .addaW ea an => ea.op 13 an.toBits 3
  | .addaL ea an => ea.op 13 an.toBits 7
  | .addxReg sz dy dx => .twoRegs 13 dx (sz.opmode 1) 0 dy
  | .addxMem sz ay ax => .twoRegs 13 ax (sz.opmode 1) 1 ay
  | .asrMem ea => ea.op 14 0 3
  | .asrImm n sz dy => .twoRegs 14 n (sz.opmode 0) 0 dy
  | .asrReg dx sz dy => .twoRegs 14 dx (sz.opmode 0) 4 dy
  | .aslMem ea => ea.op 14 0 7
  | .aslImm n sz dy => .twoRegs 14 n (sz.opmode 1) 0 dy
  | .aslReg dx sz dy => .twoRegs 14 dx (sz.opmode 1) 4 dy
  | .lsrMem ea => ea.op 14 1 3
  | .lsrImm n sz dy => .twoRegs 14 n (sz.opmode 0) 1 dy
  | .lsrReg dx sz dy => .twoRegs 14 dx (sz.opmode 0) 5 dy
  | .lslMem ea => ea.op 14 1 7
  | .lslImm n sz dy => .twoRegs 14 n (sz.opmode 1) 1 dy
  | .lslReg dx sz dy => .twoRegs 14 dx (sz.opmode 1) 5 dy
  | .roxrMem ea => ea.op 14 2 3
  | .roxrImm n sz dy => .twoRegs 14 n (sz.opmode 0) 2 dy
  | .roxrReg dx sz dy => .twoRegs 14 dx (sz.opmode 0) 6 dy
  | .roxlMem ea => ea.op 14 2 7
  | .roxlImm n sz dy => .twoRegs 14 n (sz.opmode 1) 2 dy
  | .roxlReg dx sz dy => .twoRegs 14 dx (sz.opmode 1) 6 dy
  | .rorMem ea => ea.op 14 3 3
  | .rorImm n sz dy => .twoRegs 14 n (sz.opmode 0) 3 dy
  | .rorReg dx sz dy => .twoRegs 14 dx (sz.opmode 0) 7 dy
  | .rolMem ea => ea.op 14 3 7
  | .rolImm n sz dy => .twoRegs 14 n (sz.opmode 1) 3 dy
  | .rolReg dx sz dy => .twoRegs 14 dx (sz.opmode 1) 7 dy
  | .lineF w => .ofLow12 15 w

/-- The words of a byte that stands in the low half of its own word (R117, R143). -/
def byteWords (v : Byte) : List Word := [0#8 ++ v]

/-- The words an instruction has of its own: immediate, bit number, mask or displacement (R101). -/
def Instr.ownWords : Instr → List Word
  | .oriToCcr v | .andiToCcr v | .eoriToCcr v => byteWords v
  | .oriToSr v | .andiToSr v | .eoriToSr v => [v]
  | .ori v _ | .andi v _ | .eori v _ | .subi v _ | .addi v _ | .cmpi v _ => v.words
  | .btstStatic n _ | .bchgStatic n _ | .bclrStatic n _ | .bsetStatic n _ => byteWords n
  | .movepToRegW d _ _ | .movepToRegL d _ _ | .movepToMemW _ d _ | .movepToMemL _ d _ => [d]
  | .movemToMem _ mask _ | .movemToReg _ mask _ => [mask]
  | .link _ d => [d]
  | .stop v => [v]
  | .dbcc _ _ d => [d]
  | .bra d | .bsr d | .bcc _ d => d.words
  | .btstDynamic _ _ | .bchgDynamic _ _ | .bclrDynamic _ _ | .bsetDynamic _ _
  | .moveB _ _ | .moveW _ _ | .moveaW _ _ | .moveL _ _ | .moveaL _ _ | .negx _ _ | .moveFromSr _ | .chk _ _
  | .lea _ _ | .clr _ _ | .neg _ _ | .moveToCcr _ | .notEa _ _ | .moveToSr _ | .nbcd _ | .swap _ | .pea _
  | .extW _ | .extL _ | .tst _ _ | .tas _ | .illegal | .illegal4AFA | .illegal4AFB | .trap _ | .unlk _
  | .moveToUsp _ | .moveFromUsp _ | .reset | .nop | .rte | .rts | .trapv | .rtr | .jsr _ | .jmp _
  | .addq _ _ _ | .subq _ _ _ | .scc _ _ | .moveq _ _ | .orToDn _ _ _ | .orToMem _ _ _ | .divu _ _ | .divs _ _
  | .sbcdReg _ _ | .sbcdMem _ _ | .subToDn _ _ _ | .subToMem _ _ _ | .subaW _ _ | .subaL _ _ | .subxReg _ _ _
  | .subxMem _ _ _ | .lineA _ | .cmp _ _ _ | .cmpaW _ _ | .cmpaL _ _ | .cmpm _ _ _ | .eor _ _ _
  | .andToDn _ _ _ | .andToMem _ _ _ | .mulu _ _ | .muls _ _ | .abcdReg _ _ | .abcdMem _ _ | .exgDD _ _
  | .exgAA _ _ | .exgDA _ _ | .addToDn _ _ _ | .addToMem _ _ _ | .addaW _ _ | .addaL _ _ | .addxReg _ _ _
  | .addxMem _ _ _ | .asrMem _ | .asrImm _ _ _ | .asrReg _ _ _ | .aslMem _ | .aslImm _ _ _ | .aslReg _ _ _
  | .lsrMem _ | .lsrImm _ _ _ | .lsrReg _ _ _ | .lslMem _ | .lslImm _ _ _ | .lslReg _ _ _
  | .roxrMem _ | .roxrImm _ _ _ | .roxrReg _ _ _ | .roxlMem _ | .roxlImm _ _ _ | .roxlReg _ _ _
  | .rorMem _ | .rorImm _ _ _ | .rorReg _ _ _ | .rolMem _ | .rolImm _ _ _ | .rolReg _ _ _ | .lineF _ => []

/-- The effective addresses whose extension words follow, the source before the destination (R101). -/
def Instr.eas : Instr → List Ea
  | .moveB src dst | .moveW src dst | .moveL src dst => [src, dst]
  | .ori _ ea | .andi _ ea | .eori _ ea | .subi _ ea | .addi _ ea | .cmpi _ ea
  | .btstStatic _ ea | .bchgStatic _ ea | .bclrStatic _ ea | .bsetStatic _ ea
  | .btstDynamic _ ea | .bchgDynamic _ ea | .bclrDynamic _ ea | .bsetDynamic _ ea
  | .moveaW ea _ | .moveaL ea _ | .negx _ ea | .moveFromSr ea | .chk ea _ | .lea ea _ | .clr _ ea | .neg _ ea
  | .moveToCcr ea | .notEa _ ea | .moveToSr ea | .nbcd ea | .pea ea | .movemToMem _ _ ea | .tst _ ea | .tas ea
  | .movemToReg _ _ ea | .jsr ea | .jmp ea | .addq _ _ ea | .subq _ _ ea | .scc _ ea
  | .orToDn _ ea _ | .orToMem _ _ ea | .divu ea _ | .divs ea _ | .subToDn _ ea _ | .subToMem _ _ ea
  | .subaW ea _ | .subaL ea _ | .cmp _ ea _ | .cmpaW ea _ | .cmpaL ea _ | .eor _ _ ea | .andToDn _ ea _
  | .andToMem _ _ ea | .mulu ea _ | .muls ea _ | .addToDn _ ea _ | .addToMem _ _ ea | .addaW ea _ | .addaL ea _
  | .asrMem ea | .aslMem ea | .lsrMem ea | .lslMem ea | .roxrMem ea | .roxlMem ea | .rorMem ea | .rolMem ea => [ea]
  | .oriToCcr _ | .oriToSr _ | .andiToCcr _ | .andiToSr _ | .eoriToCcr _ | .eoriToSr _
  | .movepToRegW _ _ _ | .movepToRegL _ _ _ | .movepToMemW _ _ _ | .movepToMemL _ _ _
  | .swap _ | .extW _ | .extL _ | .illegal | .illegal4AFA | .illegal4AFB | .trap _ | .link _ _ | .unlk _
  | .moveToUsp _ | .moveFromUsp _ | .reset | .nop | .stop _ | .rte | .rts | .trapv | .rtr
  | .dbcc _ _ _ | .bra _ | .bsr _ | .bcc _ _ | .moveq _ _ | .sbcdReg _ _ | .sbcdMem _ _ | .subxReg _ _ _
  | .subxMem _ _ _ | .lineA _ | .cmpm _ _ _ | .abcdReg _ _ | .abcdMem _ _ | .exgDD _ _ | .exgAA _ _ | .exgDA _ _
  | .addxReg _ _ _ | .addxMem _ _ _ | .asrImm _ _ _ | .asrReg _ _ _ | .aslImm _ _ _ | .aslReg _ _ _
  | .lsrImm _ _ _ | .lsrReg _ _ _ | .lslImm _ _ _ | .lslReg _ _ _ | .roxrImm _ _ _ | .roxrReg _ _ _
  | .roxlImm _ _ _ | .roxlReg _ _ _ | .rorImm _ _ _ | .rorReg _ _ _ | .rolImm _ _ _ | .rolReg _ _ _
  | .lineF _ => []

/-- The words of an instruction: the operation word, its own words, then the extension words of its effective
addresses (R100, R101). -/
def encode (i : Instr) : List Word := i.op.toWord :: (i.ownWords ++ i.eas.flatMap Ea.words)

end Sys2Proof
end

