-- ==== Sys2Proof/Config.lean ====
section
/-! DEFINITION. What the spec leaves open: the values of `draw(w)` (00_scope.md R12) and the parameter
`bcd_invalid` (45_bcd.md R284). Each is an uninterpreted constant: nothing can be proved of its value. -/

namespace Sys2Proof

/-- The three operations of the parameter `bcd_invalid` (R284). -/
inductive BcdOp where
  | abcd | sbcd | nbcd
deriving DecidableEq, Repr, Inhabited

/-- `draw(1)`: the free bit of a given number (R12; log 13). -/
opaque Config.freeBit : Nat → Bool
/-- `draw(11)` and `draw(16)`: the free word of a given number (R12; log 13). -/
opaque Config.freeWord : Nat → Word
/-- `draw(32)`: the free long word of a given number (R12; log 13). -/
opaque Config.freeLong : Nat → Long
/-- The draw of `k` in 1..5 of 60_exceptions.md R392, less one (log 13). -/
opaque Config.freeFifth : Nat → Fin 5
/-- `bcd_invalid(op, s, d, x)`: result byte and carry where an operand is not valid BCD (R284; log 14). -/
opaque Config.bcdInvalid : BcdOp → Byte → Byte → Bool → Byte × Bool

end Sys2Proof
end

