-- ==== Sys2Proof/Machine/State.lean ====
section
/-! DEFINITION. The state of the machine as plain data (10_state.md; INVENTORY.md "State" lists every field with its
rule and its reset value), the reasons of a stop, and the state right after reset. -/

namespace Sys2Proof.Machine

/-- The implemented bits of the status register (10_state.md R31, R36). -/
structure Sr where
  /-- bit 15: trace mode (R33) -/
  t : Bool
  /-- bit 13: supervisor state (R34) -/
  s : Bool
  /-- bits 10..8: interrupt priority mask (R35) -/
  i : BitVec 3
  /-- bit 4: extend (R32) -/
  x : Bool
  /-- bit 3: negative (R32) -/
  n : Bool
  /-- bit 2: zero (R32) -/
  z : Bool
  /-- bit 1: overflow (R32) -/
  v : Bool
  /-- bit 0: carry (R32) -/
  c : Bool
deriving DecidableEq, Repr, Inhabited

/-- The processing states `run` (10_state.md R44). -/
inductive RunState where
  | normal | stopped | halted
deriving DecidableEq, Repr, Inhabited

/-- The group of the exception being processed, `xgroup` (10_state.md R44, 60_exceptions.md R360). `g0` lasts until the
first operation word of the handler, or of the reset program, has been fetched (60_exceptions.md R405). -/
inductive XGroup where
  | none | g0 | g1 | g2
deriving DecidableEq, Repr, Inhabited

/-- The platform's answer to an interrupt acknowledge cycle, `IackResponse` (60_exceptions.md R374). -/
inductive IackAnswer where
  | vector (n : Byte)
  | autovector
  | busError
deriving DecidableEq, Repr, Inhabited

/-- What the platform has at a region of addresses that is no memory: nothing that answers (20_memory.md R80), or a device
(20_memory.md R76). -/
inductive RegionKind where
  | busError | device
deriving DecidableEq, Repr, Inhabited

/-- One clause of the platform parameters `BusFault(fc, addr, rw, n)` (20_memory.md R80), `DeviceRead` and `DeviceWrite`
(20_memory.md R76): the cycles whose function code has its bit in `fcMask` and whose address is at least `lo` and below
`hi`, in the directions and sizes named (log 7, log 11). -/
structure Region where
  kind : RegionKind
  fcMask : BitVec 8
  lo : Nat
  hi : Nat
  onRead : Bool
  onWrite : Bool
  onByte : Bool
  onWord : Bool
deriving DecidableEq, Repr, Inhabited

/-- One clause of the platform parameter `SpaceMap(fc, a)` (20_memory.md R66): the cycles whose function code has its bit
in `fcMask` reach, at the addresses from `lo` on and below `hi`, the storage cells from `cell` on (log 32). -/
structure SpaceWindow where
  fcMask : BitVec 8
  lo : Nat
  hi : Nat
  cell : Nat
deriving DecidableEq, Repr, Inhabited

/-- The platform around the processor: the parameters of 00_scope.md R5 that a bus cycle meets. -/
structure Platform where
  /-- the cycles answered with bus error or by a device (20_memory.md R76, R80; log 7, log 11) -/
  regions : List Region
  /-- `SpaceMap`: the first window that holds a cycle names its storage cell, and without one the cell is the address
  (20_memory.md R66; log 32) -/
  spaces : List SpaceWindow
  /-- `ExternalWrites`: for each coming bus cycle, the writes of other masters before it (20_memory.md R88; log 10) -/
  writes : List (List Host.Cell)
  /-- `ExternalReset` inside a step: how many more bus cycles begin before the reset arrives (70_reset_and_hazards.md
  R420; log 24) -/
  resetAfter : Option Nat
deriving DecidableEq, Repr, Inhabited

/-- The platform of the spec's defaults: one flat space of memory that answers every cycle, no device, no other bus
master, no reset (20_memory.md R66, R80, R88). -/
def Platform.plain : Platform := { regions := [], spaces := [], writes := [], resetAfter := none }

/-- A bus cycle as the outside sees it (20_memory.md R65, R70, R75, R93; 47_system_control.md R323). -/
inductive BusEvent where
  | readByte (fc : BitVec 3) (addr : BitVec 24) (v : Byte)
  | readWord (fc : BitVec 3) (addr : BitVec 24) (v : Word)
  | writeByte (fc : BitVec 3) (addr : BitVec 24) (v : Byte)
  | writeWord (fc : BitVec 3) (addr : BitVec 24) (v : Word)
  | readModifyWrite (fc : BitVec 3) (addr : BitVec 24) (old new : Byte)
  | aborted (fc : BitVec 3) (addr : BitVec 24) (isRead : Bool)
  | iack (fc : BitVec 3) (addr : BitVec 24) (answer : IackAnswer)
  | resetPulse
deriving DecidableEq, Repr, Inhabited

/-- The two exceptions an access can raise (60_exceptions.md R390, R393). -/
inductive AccessKind where
  | bus | address
deriving DecidableEq, Repr, Inhabited

/-- An item that an aborted instruction leaves open (60_exceptions.md R394, 92_eei_decisions.md D9; log 15). The sixteen
registers are numbered as in 40_data_movement.md R158: D0 to D7, then A0 to A7. -/
inductive Unsettled where
  /-- a register: the value it holds, or another -/
  | either (x : Fin 16) (v : Long)
  /-- the low-order bits of a register: the instruction would have written a value that it never obtained -/
  | low (x : Fin 16) (bits : Nat)
  /-- the status register: the value it holds, or another, or any where the instruction never obtained it -/
  | status (w : Option Word)
deriving DecidableEq, Repr, Inhabited

/-- The items a faulting access leaves open, in the order they are settled. -/
abbrev Alt := List Unsettled

/-- An access that raised a bus error or an address error, with what its stack frame records (60_exceptions.md R391), and
the items it leaves open (60_exceptions.md R394; log 15). -/
structure AccessFault where
  kind : AccessKind
  addr : Long
  isRead : Bool
  fc : BitVec 3
  alt : Alt
deriving DecidableEq, Repr, Inhabited

/-- What ends processing where it stands: an access (60_exceptions.md R394), or an external reset
(70_reset_and_hazards.md R420). -/
inductive Abort where
  | access (f : AccessFault)
  | reset
deriving DecidableEq, Repr, Inhabited

/-- The whole state: the processor's registers and internal state, memory, and the platform's inputs. -/
structure State where
  /-- `D0` to `D7` (10_state.md R20) -/
  d : Vector Long 8
  /-- `A0` to `A6` (10_state.md R23) -/
  a : Vector Long 7
  /-- the user stack pointer (10_state.md R23, R27) -/
  usp : Long
  /-- the supervisor stack pointer (10_state.md R23, R27) -/
  ssp : Long
  /-- the program counter (10_state.md R29, R30) -/
  pc : Long
  /-- the status register (10_state.md R31) -/
  sr : Sr
  /-- the instruction register (10_state.md R45) -/
  ir : Word
  /-- normal, stopped or halted (10_state.md R44) -/
  run : RunState
  /-- the exception in progress (10_state.md R44) -/
  xgroup : XGroup
  /-- the interrupt level of the previous sample (10_state.md R43) -/
  prevIpl : BitVec 3
  /-- the trace bit when STOP began, `t0` (47_system_control.md R324) -/
  stopTrace : Bool
  /-- the model's own: the next operation word is the first of a group 1 handler (60_exceptions.md R391; log 20) -/
  handlerFetch : Bool
  /-- memory (10_state.md R41, 20_memory.md R60, R61) -/
  mem : List Host.Cell
  /-- input: the interrupt level presented, `IPL` (60_exceptions.md R371) -/
  ipl : BitVec 3
  /-- input: the acknowledge answer of each level, `IackResponse` (60_exceptions.md R374) -/
  iack : Vector IackAnswer 8
  /-- input: what the bus cycles meet (00_scope.md R5) -/
  platform : Platform
  /-- input: RESET and HALT driven together at an instruction boundary, `ExternalReset` (70_reset_and_hazards.md R420) -/
  extReset : Bool
  /-- the model's own: the words fetched since the last operation word, the oldest first (log 29) -/
  extWords : List Word
  /-- the model's own: the bus cycles of the last step, the oldest first (log 25) -/
  bus : List BusEvent
  /-- the model's own: how many free values have been drawn (00_scope.md R12; log 13) -/
  draws : Nat
deriving DecidableEq, Repr, Inhabited

/-- Why a step stops with a fault. The machine's own faults are exceptions, which are next states. -/
inductive Fault where
  /-- Raised by `step` if the decoder asked for more words than the longest instruction has. It never does
  (30_encoding.md R100: five words); safe. -/
  | shortFetch
deriving DecidableEq, Repr, Inhabited

/-- Why a step refuses. -/
inductive Refusal where
  /-- Raised by an arm of `exec` whose instruction has no meaning yet; safe. -/
  | notModelled (mnemonic : String)
  /-- Raised by every meaning for a term that no operation word stands for (30_encoding.md R121), which the decoder
  never gives; safe (log 23). -/
  | illFormed
deriving DecidableEq, Repr, Inhabited

/-- The machine right after reset with nothing in memory (10_state.md R48, 70_reset_and_hazards.md R420, R421): the two
vector long words read as zero, and no first operation word has been fetched. -/
def State.reset : State where
  d := Vector.replicate 8 0
  a := Vector.replicate 7 0
  usp := 0
  ssp := 0
  pc := 0
  sr := { t := false, s := true, i := 7, x := false, n := false, z := false, v := false, c := false }
  ir := 0
  run := .normal
  xgroup := .g0
  prevIpl := 0
  stopTrace := false
  handlerFetch := false
  mem := []
  ipl := 0
  iack := Vector.replicate 8 .autovector
  platform := .plain
  extReset := false
  extWords := []
  bus := []
  draws := 0

end Sys2Proof.Machine
end

