-- ==== Sys2Proof/Machine/Flags.lean ====
section
/-! DEFINITION. The status register as a word, the sixteen conditions, and the results and condition codes of the
arithmetic, logical, shift and decimal computations, each at any operand width (10_state.md R31 to R39, 41_integer_arithmetic.md R180 to
R182, 43_shift_rotate.md R251 to R260, 45_bcd.md R280 to R285). -/

namespace Sys2Proof.Machine

/-! ## The status register -/

/-- The status register as a word: the bits that do not exist read as 0 (R31, R36). -/
def Sr.toWord (sr : Sr) : Word :=
  BitVec.ofBool sr.t ++ 0#1 ++ BitVec.ofBool sr.s ++ 0#2 ++ sr.i ++ 0#3 ++ BitVec.ofBool sr.x ++
    BitVec.ofBool sr.n ++ BitVec.ofBool sr.z ++ BitVec.ofBool sr.v ++ BitVec.ofBool sr.c

/-- `SR <- w`: only the bits of $A71F are stored (R36). -/
def Sr.ofWord (w : Word) : Sr where
  t := w.getLsbD 15
  s := w.getLsbD 13
  i := w.extractLsb' 8 3
  x := w.getLsbD 4
  n := w.getLsbD 3
  z := w.getLsbD 2
  v := w.getLsbD 1
  c := w.getLsbD 0

/-- `SR[4:0]`: X, N, Z, V, C (R31). -/
def Sr.codes (sr : Sr) : BitVec 5 :=
  BitVec.ofBool sr.x ++ BitVec.ofBool sr.n ++ BitVec.ofBool sr.z ++ BitVec.ofBool sr.v ++ BitVec.ofBool sr.c

/-- `SR[4:0] <- b`; the other bits keep their values (R36). -/
def Sr.setCodes (sr : Sr) (b : BitVec 5) : Sr :=
  { sr with x := b.getLsbD 4, n := b.getLsbD 3, z := b.getLsbD 2, v := b.getLsbD 1, c := b.getLsbD 0 }

/-- `cond(cccc)` (R39). -/
def condHolds (cond : Cond) (sr : Sr) : Bool :=
  match cond with
  | .t => true
  | .f => false
  | .hi => !sr.c && !sr.z
  | .ls => sr.c || sr.z
  | .cc => !sr.c
  | .cs => sr.c
  | .ne => !sr.z
  | .eq => sr.z
  | .vc => !sr.v
  | .vs => sr.v
  | .pl => !sr.n
  | .mi => sr.n
  | .ge => sr.n == sr.v
  | .lt => sr.n != sr.v
  | .gt => !sr.z && sr.n == sr.v
  | .le => sr.z || sr.n != sr.v

/-! ## Condition codes of logic and arithmetic -/

/-- `logic_flags(v, sz)`: X unchanged (40_data_movement.md R151). -/
def Sr.logicFlags {w : Nat} (sr : Sr) (v : BitVec w) : Sr :=
  { sr with n := v.msb, z := v == 0#w, v := false, c := false }

/-- The V of `add_flags` (41_integer_arithmetic.md R181). -/
def addOverflow {w : Nat} (s d r : BitVec w) : Bool :=
  (s.msb && d.msb && !r.msb) || (!s.msb && !d.msb && r.msb)

/-- The C of `add_flags` (41_integer_arithmetic.md R181). -/
def addCarry {w : Nat} (s d r : BitVec w) : Bool :=
  (s.msb && d.msb) || (!r.msb && d.msb) || (s.msb && !r.msb)

/-- The V of `sub_flags` (41_integer_arithmetic.md R182). -/
def subOverflow {w : Nat} (s d r : BitVec w) : Bool :=
  (!s.msb && d.msb && !r.msb) || (s.msb && !d.msb && r.msb)

/-- The C of `sub_flags`, a borrow (41_integer_arithmetic.md R182). -/
def subBorrow {w : Nat} (s d r : BitVec w) : Bool :=
  (s.msb && !d.msb) || (r.msb && !d.msb) || (s.msb && r.msb)

/-- `add_flags(s, d, r, sz)` (41_integer_arithmetic.md R181). -/
def Sr.addFlags {w : Nat} (sr : Sr) (s d r : BitVec w) : Sr :=
  { sr with n := r.msb, z := r == 0#w, v := addOverflow s d r, c := addCarry s d r, x := addCarry s d r }

/-- `sub_flags(s, d, r, sz)` (41_integer_arithmetic.md R182). -/
def Sr.subFlags {w : Nat} (sr : Sr) (s d r : BitVec w) : Sr :=
  { sr with n := r.msb, z := r == 0#w, v := subOverflow s d r, c := subBorrow s d r, x := subBorrow s d r }

/-- `sub_flags(s, d, r, sz)` without the X line (41_integer_arithmetic.md R182). -/
def Sr.compareFlags {w : Nat} (sr : Sr) (s d r : BitVec w) : Sr :=
  { sr with n := r.msb, z := r == 0#w, v := subOverflow s d r, c := subBorrow s d r }

/-- `Z <- Z and (r = 0)`, which replaces the Z line of the extended instructions (41_integer_arithmetic.md R187,
45_bcd.md R281); `before` is the status register before the instruction. -/
def Sr.stickyZero {w : Nat} (sr before : Sr) (r : BitVec w) : Sr := { sr with z := before.z && r == 0#w }

/-- The X bit as a number at a width. -/
def Sr.extend (sr : Sr) (w : Nat) : BitVec w := if sr.x then 1#w else 0#w

/-- A two-operand computation at a width: source, destination, status register before; result and status register
after. -/
abbrev Binary (w : Nat) := BitVec w → BitVec w → Sr → BitVec w × Sr

/-- A one-operand computation at a width. -/
abbrev Unary (w : Nat) := BitVec w → Sr → BitVec w × Sr

/-- ADD (41_integer_arithmetic.md R183). -/
def addOp {w : Nat} : Binary w := fun s d sr => (d + s, sr.addFlags s d (d + s))

/-- SUB (41_integer_arithmetic.md R200). -/
def subOp {w : Nat} : Binary w := fun s d sr => (d - s, sr.subFlags s d (d - s))

/-- ADDX (41_integer_arithmetic.md R187). -/
def addxOp {w : Nat} : Binary w := fun s d sr =>
  let r := d + s + sr.extend w
  (r, (sr.addFlags s d r).stickyZero sr r)

/-- SUBX (41_integer_arithmetic.md R204). -/
def subxOp {w : Nat} : Binary w := fun s d sr =>
  let r := d - s - sr.extend w
  (r, (sr.subFlags s d r).stickyZero sr r)

/-- The condition codes of a comparison `d - s` (41_integer_arithmetic.md R189). -/
def compareOp {w : Nat} (s d : BitVec w) (sr : Sr) : Sr := sr.compareFlags s d (d - s)

/-- AND (42_logical.md R231). -/
def andOp {w : Nat} : Binary w := fun s d sr => (d &&& s, sr.logicFlags (d &&& s))

/-- OR (42_logical.md R233). -/
def orOp {w : Nat} : Binary w := fun s d sr => (d ||| s, sr.logicFlags (d ||| s))

/-- EOR (42_logical.md R235). -/
def eorOp {w : Nat} : Binary w := fun s d sr => (d ^^^ s, sr.logicFlags (d ^^^ s))

/-- NOT (42_logical.md R237). -/
def notOp {w : Nat} : Unary w := fun d sr => (~~~d, sr.logicFlags (~~~d))

/-- NEG: the operand is the subtrahend (41_integer_arithmetic.md R198). -/
def negOp {w : Nat} : Unary w := fun d sr => subOp d 0#w sr

/-- NEGX (41_integer_arithmetic.md R199). -/
def negxOp {w : Nat} : Unary w := fun d sr => subxOp d 0#w sr

/-! ## Multiply and divide -/

/-- MULU: the 32-bit product of two words (41_integer_arithmetic.md R197). -/
def mulUnsigned (s d : Word) : Long := BitVec.ofNat 32 (d.toNat * s.toNat)

/-- MULS: the 32-bit product of two words (41_integer_arithmetic.md R196). -/
def mulSigned (s d : Word) : Long := BitVec.ofInt 32 (d.toInt * s.toInt)

/-- DIVU of a long by a word that is not zero: remainder and quotient, or none on overflow
(41_integer_arithmetic.md R194). -/
def divUnsigned (n : Long) (m : Word) : Option (Word × Word) :=
  let q := n.toNat / m.toNat
  if q > 65535 then none else some (BitVec.ofNat 16 (n.toNat % m.toNat), BitVec.ofNat 16 q)

/-- DIVS of a long by a word that is not zero: the quotient truncated toward zero, the remainder with the sign of the
dividend, or none on overflow (41_integer_arithmetic.md R193). -/
def divSigned (n : Long) (m : Word) : Option (Word × Word) :=
  let q := n.toInt.tdiv m.toInt
  if q < -32768 ∨ q > 32767 then none else some (BitVec.ofInt 16 (n.toInt - q * m.toInt), BitVec.ofInt 16 q)

/-! ## Shifts and rotates -/

/-- What a shift or rotate leaves: result, C, X and V (43_shift_rotate.md R251). -/
structure Shifted (w : Nat) where
  r : BitVec w
  c : Bool
  x : Bool
  v : Bool
deriving DecidableEq, Repr

/-- A shift or rotate: operand, count, X before (43_shift_rotate.md R251). -/
abbrev Shift (w : Nat) := BitVec w → Nat → Bool → Shifted w

/-- The condition codes of a shift or rotate: N and Z from the result (43_shift_rotate.md R252). -/
def Sr.shiftFlags {w : Nat} (sr : Sr) (o : Shifted w) : Sr :=
  { sr with n := o.r.msb, z := o.r == 0#w, v := o.v, c := o.c, x := o.x }

/-- The C of a left shift: the last bit shifted out (43_shift_rotate.md R253). -/
def leftCarry {w : Nat} (d : BitVec w) (n : Nat) : Bool :=
  if n = 0 then false else if n ≤ w then d.getLsbD (w - n) else false

/-- The V of ASL: the `n + 1` high-order bits are not all equal; at `n >= bits`, the operand is not zero
(43_shift_rotate.md R253). -/
def aslOverflow {w : Nat} (d : BitVec w) (n : Nat) : Bool :=
  if n = 0 then false
  else if n < w then
    let top := d.extractLsb' (w - 1 - n) (n + 1)
    top != 0#(n + 1) && top != BitVec.allOnes (n + 1)
  else d != 0#w

/-- LSL (43_shift_rotate.md R255). -/
def lsl {w : Nat} : Shift w := fun d n x =>
  { r := if n < w then d <<< n else 0#w, c := leftCarry d n, x := if n = 0 then x else leftCarry d n, v := false }

/-- ASL (43_shift_rotate.md R253). -/
def asl {w : Nat} : Shift w := fun d n x => { lsl d n x with v := aslOverflow d n }

/-- The C of a right shift, with `beyond` the bit shifted out past the width (43_shift_rotate.md R254, R256). -/
def rightCarry {w : Nat} (d : BitVec w) (n : Nat) (beyond : Bool) : Bool :=
  if n = 0 then false else if n ≤ w then d.getLsbD (n - 1) else beyond

/-- LSR (43_shift_rotate.md R256). -/
def lsr {w : Nat} : Shift w := fun d n x =>
  let c := rightCarry d n false
  { r := if n < w then d >>> n else 0#w, c := c, x := if n = 0 then x else c, v := false }

/-- ASR (43_shift_rotate.md R254). -/
def asr {w : Nat} : Shift w := fun d n x =>
  let c := rightCarry d n d.msb
  { r := if n < w then d.sshiftRight n else if d.msb then BitVec.allOnes w else 0#w
    c := c, x := if n = 0 then x else c, v := false }

/-- ROL (43_shift_rotate.md R257). -/
def rol {w : Nat} : Shift w := fun d n x =>
  let k := n % w
  let r := (d <<< k) ||| (d >>> (w - k))
  { r := r, c := if n = 0 then false else r.getLsbD 0, x := x, v := false }

/-- ROR (43_shift_rotate.md R258). -/
def ror {w : Nat} : Shift w := fun d n x =>
  let k := n % w
  let r := (d >>> k) ||| (d <<< (w - k))
  { r := r, c := if n = 0 then false else r.msb, x := x, v := false }

/-- ROXL: X above the most significant bit, rotated left (43_shift_rotate.md R259). -/
def roxl {w : Nat} : Shift w := fun d n x =>
  let k := n % (w + 1)
  let wide := BitVec.cons x d
  let r := (wide <<< k) ||| (wide >>> (w + 1 - k))
  { r := r.extractLsb' 0 w, c := r.msb, x := r.msb, v := false }

/-- ROXR: X below bit 0, rotated right (43_shift_rotate.md R260). -/
def roxr {w : Nat} : Shift w := fun d n x =>
  let k := n % (w + 1)
  let wide := BitVec.concat d x
  let r := (wide >>> k) ||| (wide <<< (w + 1 - k))
  { r := r.extractLsb' 1 w, c := r.getLsbD 0, x := r.getLsbD 0, v := false }

/-! ## Decimal arithmetic -/

/-- Both digits are 0 to 9 (45_bcd.md R280). -/
def bcdValid (b : Byte) : Bool := (b.extractLsb' 4 4).toNat ≤ 9 && (b.extractLsb' 0 4).toNat ≤ 9

/-- The value of a byte of two decimal digits (45_bcd.md R280). -/
def bcdValue (b : Byte) : Nat := 10 * (b.extractLsb' 4 4).toNat + (b.extractLsb' 0 4).toNat

/-- The byte of a value 0 to 99 (45_bcd.md R282). -/
def bcdByte (u : Nat) : Byte := BitVec.ofNat 8 (u / 10 * 16 + u % 10)

/-- ABCD: result and decimal carry (45_bcd.md R282, R284). -/
def abcdOp (s d : Byte) (x : Bool) : Byte × Bool :=
  if bcdValid s && bcdValid d then
    let t := bcdValue d + bcdValue s + x.toNat
    (bcdByte (t % 100), t ≥ 100)
  else Config.bcdInvalid .abcd s d x

/-- The byte and the borrow of a decimal difference -100 to 99 (45_bcd.md R283). -/
def bcdDifference (t : Int) : Byte × Bool := (bcdByte (t % 100).toNat, t < 0)

/-- SBCD: result and decimal borrow (45_bcd.md R283, R284). -/
def sbcdOp (s d : Byte) (x : Bool) : Byte × Bool :=
  if bcdValid s && bcdValid d then bcdDifference ((bcdValue d : Int) - bcdValue s - x.toNat)
  else Config.bcdInvalid .sbcd s d x

/-- NBCD: result and decimal borrow (45_bcd.md R285, R284). -/
def nbcdOp (d : Byte) (x : Bool) : Byte × Bool :=
  if bcdValid d then bcdDifference (0 - (bcdValue d : Int) - x.toNat) else Config.bcdInvalid .nbcd d 0 x

/-- Z is set where the bit tested is 0; the other codes keep their values (44_bit_manipulation.md R272). -/
def Sr.zeroOfBit (sr : Sr) (bit : Bool) : Sr := { sr with z := !bit }

end Sys2Proof.Machine
end

