-- ==== Sys2Proof/Machine/Ops.lean ====
section
/-! DEFINITION. The named operations: registers, memory, bus cycles, free values, the stack, taking an exception and
returning from one (10_state.md, 20_memory.md, 60_exceptions.md). -/

namespace Sys2Proof.Machine

/-! ## Registers -/

/-- `D[n]` (10_state.md R20). -/
def State.dreg (s : State) (n : Reg) : Long := s.d[n]

/-- `D[n] <- v` (10_state.md R20). -/
def State.setDreg (s : State) (n : Reg) (v : Long) : State := { s with d := s.d.set n v }

/-- `A[n]`; register 7 is the stack pointer that S selects (10_state.md R27). -/
def State.areg (s : State) (n : Reg) : Long :=
  if h : n.val < 7 then s.a[n.val] else if s.sr.s then s.ssp else s.usp

/-- `A[n] <- v`; register 7 is the stack pointer that S selects (10_state.md R27). -/
def State.setAreg (s : State) (n : Reg) (v : Long) : State :=
  if h : n.val < 7 then { s with a := s.a.set n.val v }
  else if s.sr.s then { s with ssp := v } else { s with usp := v }

/-- The low-order bits of a register replaced, the others kept (10_state.md R21). -/
def setLow {w : Nat} (old : Long) (v : BitVec w) : Long := (old >>> w <<< w) ||| v.setWidth 32

/-- `D[n]` among the sixteen registers (40_data_movement.md R158). -/
def dataX (n : Reg) : Fin 16 := ⟨n.val, by omega⟩

/-- `A[n]` among the sixteen registers (40_data_movement.md R158). -/
def addressX (n : Reg) : Fin 16 := ⟨n.val + 8, by omega⟩

/-- `R(i)`: 0 to 7 are D0 to D7, 8 to 15 are A0 to A7 (40_data_movement.md R158). -/
def State.xreg (s : State) (i : Fin 16) : Long :=
  if h : i.val < 8 then s.dreg ⟨i.val, h⟩ else s.areg ⟨i.val - 8, by omega⟩

/-- `R(i) <- v`, all 32 bits (40_data_movement.md R159). -/
def State.setXreg (s : State) (i : Fin 16) (v : Long) : State :=
  if h : i.val < 8 then s.setDreg ⟨i.val, h⟩ v else s.setAreg ⟨i.val - 8, by omega⟩ v

/-- The status register replaced. -/
def State.setSr (s : State) (sr : Sr) : State := { s with sr := sr }

/-- The program counter replaced. -/
def State.setPc (s : State) (pc : Long) : State := { s with pc := pc }

/-! ## Memory -/

/-- Memory as (storage cell, byte) pairs: cells strictly rising, no entry equal to `unlistedByte`. In the one flat space
of the default `SpaceMap` the cell of a byte is its address (20_memory.md R66). -/
abbrev Memory := List Host.Cell

/-- What a byte that memory does not list reads as (70_reset_and_hazards.md R421 gives `Mem0` as a parameter; DESIGN
CHOICE, unsafe, log 3). -/
def unlistedByte : Byte := 0

/-- The size of the address space (20_memory.md R61). -/
def addressSpace : Nat := 2 ^ 24

/-- The byte at an address. -/
def Memory.get : Memory → Nat → Byte
  | [], _ => unlistedByte
  | (k, v) :: rest, a => if k = a then v else Memory.get rest a

/-- The entries of every other address. -/
def Memory.erase (m : Memory) (a : Nat) : Memory := m.filter fun e => e.1 != a

/-- An entry put at its place in the order of addresses. -/
def Memory.insert : Memory → Nat → Byte → Memory
  | [], a, v => [(a, v)]
  | (k, w) :: rest, a, v => if a < k then (a, v) :: (k, w) :: rest else (k, w) :: Memory.insert rest a v

/-- The byte at an address replaced; the value an unlisted byte reads as removes the entry. -/
def Memory.set (m : Memory) (a : Nat) (v : Byte) : Memory :=
  if v = unlistedByte then Memory.erase m a else Memory.insert (Memory.erase m a) a v

/-- The canonical form: cells strictly rising, no entry that an unlisted byte reads as. -/
def Memory.wf : Memory → Bool
  | [] => true
  | (k, v) :: rest =>
    v != unlistedByte && rest.all (fun e => k < e.1) && Memory.wf rest

/-- The byte address that a computed address reaches: bits 31 to 24 are not brought out (20_memory.md R61). -/
def physical (a : Long) : Nat := a.toNat % addressSpace

/-- The 24 address bits of a bus cycle (20_memory.md R61). -/
def busAddress (a : Long) : BitVec 24 := a.extractLsb' 0 24

/-- The byte of memory at a computed address. -/
def State.byteAt (s : State) (a : Long) : Byte := Memory.get s.mem (physical a)

/-- The word of memory at a computed address, the high-order byte first (20_memory.md R60). -/
def State.wordAt (s : State) (a : Long) : Word := s.byteAt a ++ s.byteAt (a + 1)

/-- The long word of memory at a computed address, the high-order word first (20_memory.md R60). -/
def State.longAt (s : State) (a : Long) : Long := s.wordAt a ++ s.wordAt (a + 2)

/-- The byte of memory at a computed address replaced. -/
def State.setByte (s : State) (a : Long) (v : Byte) : State := { s with mem := Memory.set s.mem (physical a) v }

/-- The word of memory at a computed address replaced (20_memory.md R60). -/
def State.setWord (s : State) (a : Long) (v : Word) : State :=
  (s.setByte a (v.extractLsb' 8 8)).setByte (a + 1) (v.extractLsb' 0 8)

/-- The long word of memory at a computed address replaced (20_memory.md R60). -/
def State.setLong (s : State) (a : Long) (v : Long) : State :=
  (s.setWord a (v.extractLsb' 16 16)).setWord (a + 2) (v.extractLsb' 0 16)

/-- `SpaceMap(fc, a)`: the storage cell that a cycle reaches (20_memory.md R66; log 32). -/
def Platform.cell (p : Platform) (fc : BitVec 3) (a : Nat) : Nat :=
  match p.spaces.find? fun w => w.fcMask.getLsbD fc.toNat && w.lo ≤ a && a < w.hi with
  | some w => w.cell + (a - w.lo)
  | none => a

/-- The byte that a cycle with a function code reaches at a computed address (20_memory.md R66, R67). -/
def State.cellAt (s : State) (fc : BitVec 3) (a : Long) : Byte := Memory.get s.mem (s.platform.cell fc (physical a))

/-- The word that a cycle with a function code reaches, the high-order byte first (20_memory.md R60, R66, R67). -/
def State.cellWordAt (s : State) (fc : BitVec 3) (a : Long) : Word := s.cellAt fc a ++ s.cellAt fc (a + 1)

/-- The byte that a cycle with a function code reaches replaced (20_memory.md R66, R67). -/
def State.setCell (s : State) (fc : BitVec 3) (a : Long) (v : Byte) : State :=
  { s with mem := Memory.set s.mem (s.platform.cell fc (physical a)) v }

/-- The word that a cycle with a function code reaches replaced (20_memory.md R60, R66, R67). -/
def State.setCellWord (s : State) (fc : BitVec 3) (a : Long) (v : Word) : State :=
  (s.setCell fc a (v.extractLsb' 8 8)).setCell fc (a + 1) (v.extractLsb' 0 8)

/-! ## Processing that can be aborted -/

/-- Processing: it changes the state, and an access that raises bus error or address error, or an external reset, ends it
where it stands (60_exceptions.md R394, 70_reset_and_hazards.md R420). -/
abbrev M := EStateM Abort State

/-- Processing during which an abort leaves open further items besides those of the faulting access (60_exceptions.md
R394; log 15). -/
def leavingOpen {α : Type} (items : Alt) (x : M α) : M α := fun s =>
  match x s with
  | .error (.access f) t => .error (.access { f with alt := f.alt ++ items }) t
  | r => r

/-- Function code (20_memory.md R65): user data 1, user program 2, supervisor data 5, supervisor program 6. -/
def functionCode (supervisor program : Bool) : BitVec 3 :=
  match supervisor, program with
  | false, false => 1
  | false, true => 2
  | true, false => 5
  | true, true => 6

/-- The function code of a reference made now: the class of the reference and the S bit (20_memory.md R65). -/
def State.fc (s : State) (program : Bool) : BitVec 3 := functionCode s.sr.s program

/-- A cycle falls in a region (20_memory.md R76, R80). -/
def regionHolds (r : Region) (fc : BitVec 3) (a : Nat) (isRead isWord : Bool) : Bool :=
  r.fcMask.getLsbD fc.toNat && r.lo ≤ a && a < r.hi &&
    (if isRead then r.onRead else r.onWrite) && (if isWord then r.onWord else r.onByte)

/-- `BusFault(fc, addr, rw, n)` (20_memory.md R80). -/
def State.busFault (s : State) (fc : BitVec 3) (a : Long) (isRead isWord : Bool) : Bool :=
  s.platform.regions.any fun r => r.kind == .busError && regionHolds r fc (physical a) isRead isWord

/-- A device answers the cycle (20_memory.md R67, R76; log 11). -/
def State.atDevice (s : State) (fc : BitVec 3) (a : Long) (isRead isWord : Bool) : Bool :=
  s.platform.regions.any fun r => r.kind == .device && regionHolds r fc (physical a) isRead isWord

/-- A bus cycle added to the record (log 25). -/
def State.record (s : State) (e : BusEvent) : State := { s with bus := s.bus ++ [e] }

/-- The counter of free values advanced. -/
def State.drawn (s : State) : State := { s with draws := s.draws + 1 }

/-- What other bus masters do before a bus cycle, and the reset that comes one cycle nearer (20_memory.md R88,
70_reset_and_hazards.md R420). -/
def State.cycleBegun (s : State) : State :=
  { s with
    mem := (s.platform.writes.headD []).foldl (fun m c => Memory.set m c.1 c.2) s.mem
    platform :=
      { s.platform with writes := s.platform.writes.tail, resetAfter := s.platform.resetAfter.map fun n => n - 1 } }

/-- The boundary before a bus cycle: an external reset that is due ends the processing, else other bus masters have
their writes (20_memory.md R74, R88, 70_reset_and_hazards.md R420; log 10, log 24). -/
def beginCycle : M Unit := fun s =>
  if s.platform.resetAfter = some 0 then .error .reset s else .ok () s.cycleBegun

/-- How a bus cycle that has begun ends (20_memory.md R67): with bus error where the platform answers so, else with the
effect and the value of a device or of memory. -/
def answerCycle {α : Type} (fc : BitVec 3) (a : Long) (isRead isWord : Bool) (alt : Alt)
    (device memory : State → State × α) : M α :=
  fun s =>
    if s.busFault fc a isRead isWord then
      .error (.access ⟨.bus, a, isRead, fc, alt⟩) (s.record (.aborted fc (busAddress a) isRead))
    else if s.atDevice fc a isRead isWord then .ok (device s).2 (device s).1
    else .ok (memory s).2 (memory s).1

/-- One bus cycle (20_memory.md R67). -/
def cycle {α : Type} (fc : BitVec 3) (a : Long) (isRead isWord : Bool) (alt : Alt)
    (device memory : State → State × α) : M α := do
  beginCycle
  answerCycle fc a isRead isWord alt device memory

/-- A byte read cycle (20_memory.md R71); what a device gives is free (R76; log 11). -/
def readByteCycle (fc : BitVec 3) (a : Long) (alt : Alt) : M Byte :=
  cycle fc a true false alt
    (fun s =>
      let v := (Config.freeWord s.draws).extractLsb' 0 8
      (s.drawn.record (.readByte fc (busAddress a) v), v))
    fun s => (s.record (.readByte fc (busAddress a) (s.cellAt fc a)), s.cellAt fc a)

/-- A word read cycle (20_memory.md R71); what a device gives is free (R76; log 11). -/
def readWordCycle (fc : BitVec 3) (a : Long) (alt : Alt) : M Word :=
  cycle fc a true true alt
    (fun s => (s.drawn.record (.readWord fc (busAddress a) (Config.freeWord s.draws)), Config.freeWord s.draws))
    fun s => (s.record (.readWord fc (busAddress a) (s.cellWordAt fc a)), s.cellWordAt fc a)

/-- A byte write cycle (20_memory.md R71); a device takes what is written to it (R76; log 11). -/
def writeByteCycle (fc : BitVec 3) (a : Long) (v : Byte) (alt : Alt) : M Unit :=
  cycle fc a false false alt (fun s => (s.record (.writeByte fc (busAddress a) v), ()))
    fun s => ((s.setCell fc a v).record (.writeByte fc (busAddress a) v), ())

/-- A word write cycle (20_memory.md R71); a device takes what is written to it (R76; log 11). -/
def writeWordCycle (fc : BitVec 3) (a : Long) (v : Word) (alt : Alt) : M Unit :=
  cycle fc a false true alt (fun s => (s.record (.writeWord fc (busAddress a) v), ()))
    fun s => ((s.setCellWord fc a v).record (.writeWord fc (busAddress a) v), ())

/-- The address error of a word or long access at an odd address: no bus cycle runs (20_memory.md R63, R67). -/
def requireEven (fc : BitVec 3) (a : Long) (isRead : Bool) (alt : Alt) : M Unit := fun s =>
  if a.getLsbD 0 then .error (.access ⟨.address, a, isRead, fc, alt⟩) s else .ok () s

/-- Whether the low-order word of a long word goes first: as given where nothing outside the processor can tell, else
open (20_memory.md R72, 92_eei_decisions.md D13; log 16). -/
def openOrder (lowFirst : Bool) : M Bool := fun s =>
  if s.platform = .plain then .ok lowFirst s else .ok (Config.freeBit s.draws) s.drawn

/-- The two read cycles of a long word, the high-order word first (20_memory.md R72, 70_reset_and_hazards.md R420). -/
def readHighFirst (fc : BitVec 3) (a : Long) (alt : Alt) : M Long := do
  let hi ← readWordCycle fc a alt
  let lo ← readWordCycle fc (a + 2) alt
  return hi ++ lo

/-- The two read cycles of a long word, the low-order word first (92_eei_decisions.md D13). -/
def readLowFirst (fc : BitVec 3) (a : Long) (alt : Alt) : M Long := do
  let lo ← readWordCycle fc (a + 2) alt
  let hi ← readWordCycle fc a alt
  return hi ++ lo

/-- `MemRead(addr, n, class)` (20_memory.md R67); a long word is read high-order word first where only the processor can
tell (R72; log 16). -/
def memRead (sz : Size) (fc : BitVec 3) (a : Long) (alt : Alt) : M (BitVec sz.bits) :=
  match sz with
  | .b => readByteCycle fc a alt
  | .w => do
    requireEven fc a true alt
    readWordCycle fc a alt
  | .l => do
    requireEven fc a true alt
    let low ← openOrder false
    if low then readLowFirst fc a alt else readHighFirst fc a alt

/-- `MemWrite(addr, n, v, class)` (20_memory.md R67); `lowFirst` is the order of the two cycles of a long word where only
the processor can tell (R72; log 16). -/
def memWrite (sz : Size) (fc : BitVec 3) (a : Long) (v : BitVec sz.bits) (alt : Alt) (lowFirst : Bool) : M Unit :=
  match sz with
  | .b => writeByteCycle fc a v alt
  | .w => do
    requireEven fc a false alt
    writeWordCycle fc a v alt
  | .l => do
    requireEven fc a false alt
    let low ← openOrder lowFirst
    if low then
      writeWordCycle fc (a + 2) (v.extractLsb' 0 16) alt
      writeWordCycle fc a (v.extractLsb' 16 16) alt
    else
      writeWordCycle fc a (v.extractLsb' 16 16) alt
      writeWordCycle fc (a + 2) (v.extractLsb' 0 16) alt

/-- How the indivisible read-modify-write cycle of TAS ends: the phase that faults is recorded (20_memory.md R75,
60_exceptions.md R391). The platform is asked for each direction by itself: where a device answers the read the byte is
free, else it is memory's; where a device answers the write it takes the byte, else memory does. That one device may
answer one direction alone of this cycle is the model's choice (log 11). -/
def answerReadModifyWrite (fc : BitVec 3) (a : Long) (alt : Alt) (f : Byte → Byte) : M Byte := fun s =>
  if s.busFault fc a true false then
    .error (.access ⟨.bus, a, true, fc, alt⟩) (s.record (.aborted fc (busAddress a) true))
  else
    let given := s.atDevice fc a true false
    let old := if given then (Config.freeWord s.draws).extractLsb' 0 8 else s.cellAt fc a
    let t := if given then s.drawn else s
    if s.busFault fc a false false then
      .error (.access ⟨.bus, a, false, fc, alt⟩) (t.record (.aborted fc (busAddress a) false))
    else
      let u := if s.atDevice fc a false false then t else t.setCell fc a (f old)
      .ok old (u.record (.readModifyWrite fc (busAddress a) old (f old)))

/-- The read-modify-write cycle: nothing comes between its read and its write (20_memory.md R75, R88). A device in one
direction alone answers that direction alone, which is the model's choice (log 11). -/
def readModifyWrite (fc : BitVec 3) (a : Long) (alt : Alt) (f : Byte → Byte) : M Byte := do
  beginCycle
  answerReadModifyWrite fc a alt f

/-- An instruction word taken: `PC` advances by 2, the word is noted (10_state.md R30; log 29). -/
def State.tookWord (s : State) (w : Word) : State := { s with pc := s.pc + 2, extWords := s.extWords ++ [w] }

/-- `FetchWord()`: a program read at `PC`, which then advances by 2 (00_scope.md R10, 10_state.md R30). -/
def fetchWord : M Word := do
  let s ← get
  let w ← memRead .w (s.fc true) s.pc []
  modify fun s => s.tookWord w
  return w

/-- The fetches of further words of an instruction, whose contents the instruction holds (30_encoding.md R101;
log 29). -/
def fetchWords : Nat → M Unit
  | 0 => pure ()
  | n + 1 => do
    let _ ← fetchWord
    fetchWords n

/-! ## Free values -/

/-- `draw(1)` (00_scope.md R12; log 13). -/
def drawBit : M Bool := fun s => .ok (Config.freeBit s.draws) s.drawn

/-- `draw(16)` (00_scope.md R12; log 13). -/
def drawWord : M Word := fun s => .ok (Config.freeWord s.draws) s.drawn

/-- `draw(32)` (00_scope.md R12; log 13). -/
def drawLong : M Long := fun s => .ok (Config.freeLong s.draws) s.drawn

/-- A draw of `k` in 1..5 (60_exceptions.md R392; log 13). -/
def drawOneToFive : M Nat := fun s => .ok ((Config.freeFifth s.draws).val + 1) s.drawn

/-! ## The stack -/

/-- `Push(4, v)` on the active stack (00_scope.md R11): the high-order word is written first (log 16). -/
def pushLong (v : Long) : M Unit := do
  let s ← get
  let sp := s.areg 7
  modify fun s => s.setAreg 7 (sp - 4)
  memWrite .l (s.fc false) (sp - 4) v [.either (addressX 7) sp] false

/-- `Push(2, v)` on the active stack (00_scope.md R11). -/
def pushWord (v : Word) : M Unit := do
  let s ← get
  let sp := s.areg 7
  modify fun s => s.setAreg 7 (sp - 2)
  memWrite .w (s.fc false) (sp - 2) v [.either (addressX 7) sp] false

/-- `Pop(4)` from the active stack (00_scope.md R11). -/
def popLong : M Long := do
  let s ← get
  let sp := s.areg 7
  let v ← memRead .l (s.fc false) sp [.either (addressX 7) (sp + 4)]
  modify fun s => s.setAreg 7 (sp + 4)
  return v

/-- `Pop(2)` from the active stack (00_scope.md R11). -/
def popWord : M Word := do
  let s ← get
  let sp := s.areg 7
  let v ← memRead .w (s.fc false) sp [.either (addressX 7) (sp + 2)]
  modify fun s => s.setAreg 7 (sp + 2)
  return v

/-! ## Taking an exception -/

/-- Where the vector number of an exception comes from: internal logic, or an interrupt acknowledge cycle at a level
(60_exceptions.md R350 step 2). -/
inductive VectorSource where
  | internal (v : Byte)
  | acknowledge (level : BitVec 3)
deriving DecidableEq, Repr

/-- The address of a vector table entry, `4v` (60_exceptions.md R345). -/
def vectorAddress (v : Byte) : Long := (v.setWidth 32) <<< 2

/-- The vector number of an answer to the acknowledge cycle (60_exceptions.md R374, R375, R376). -/
def answeredVector (level : BitVec 3) : IackAnswer → Byte
  | .vector n => n
  | .autovector => 24 + level.setWidth 8
  | .busError => 24

/-- The answer the platform gives to the acknowledge cycle of a level (60_exceptions.md R374). -/
def State.iackAnswer (s : State) (level : BitVec 3) : IackAnswer := s.iack[level.toFin]

/-- The bus address of the acknowledge cycle: A3 to A1 the level, A23 to A4 high (20_memory.md R93). -/
def acknowledgeAddress (level : BitVec 3) : BitVec 24 := 0xFFFFF0 + 2 * level.setWidth 24

/-- How an acknowledge cycle that has begun ends: a read with function code 7 (20_memory.md R65, R93, 60_exceptions.md
R374 to R376). -/
def answerAcknowledge (level : BitVec 3) : M Byte := fun s =>
  .ok (answeredVector level (s.iackAnswer level)) (s.record (.iack 7 (acknowledgeAddress level) (s.iackAnswer level)))

/-- `AcquireVector`: the acknowledge cycle for an interrupt, internal logic for the others (60_exceptions.md R350,
R374). -/
def acquireVector : VectorSource → M Byte
  | .internal v => pure v
  | .acknowledge level => do
    beginCycle
    answerAcknowledge level

/-- Step 1 of exception processing: S set, T cleared, the mask set to the level of an interrupt (60_exceptions.md
R350). -/
def enteredSr (sr : Sr) : VectorSource → Sr
  | .internal _ => { sr with s := true, t := false }
  | .acknowledge level => { sr with s := true, t := false, i := level }

/-- The group 0 window, once open, stays open until the first operation word is fetched (60_exceptions.md R405;
log 19). -/
def openGroup (before g : XGroup) : XGroup := if before = .g0 then .g0 else g

/-- Taking a group 1 or 2 exception: copy SR, enter supervisor state, obtain the vector number, stack `PC` and the copy,
load `PC` from the vector (60_exceptions.md R350, R351). -/
def takeException (g : XGroup) (src : VectorSource) (pcStack : Long) : M Unit := do
  let before ← get
  modify fun s => { s with xgroup := openGroup s.xgroup g, sr := enteredSr s.sr src }
  let v ← acquireVector src
  pushLong pcStack
  pushWord before.sr.toWord
  let pc ← memRead .l 5 (vectorAddress v) []
  modify fun s =>
    { s with pc := pc, xgroup := openGroup before.xgroup .none, run := .normal, handlerFetch := g == .g1 }

/-- The halted state: all processing ceases (60_exceptions.md R405, R406). -/
def State.halt (s : State) : State := { s with run := .halted }

/-- What external reset sets before it reads the reset vector: the reset window open, supervisor state, trace off, mask 7,
no level seen (70_reset_and_hazards.md R420); the inputs that asked for it are taken back (log 24). -/
def State.resetBegun (s : State) : State :=
  { s with
    xgroup := .g0, sr := { s.sr with s := true, t := false, i := 7 }, prevIpl := 0, stopTrace := false
    handlerFetch := false, extReset := false, platform := { s.platform with resetAfter := none } }

/-- SSP and PC from the reset vector in supervisor program space, in the order the rule gives (70_reset_and_hazards.md
R420). -/
def loadResetVector : M Unit := do
  let ssp ← readHighFirst 6 0 []
  modify fun s => { s with ssp := ssp }
  let pc ← readHighFirst 6 4 []
  modify fun s => { s with pc := pc, run := .normal }

/-- External reset (70_reset_and_hazards.md R420), whatever is in progress; a fault halts (60_exceptions.md R405). -/
def resetException (s : State) : State :=
  match loadResetVector s.resetBegun with
  | .ok _ t => t
  | .error _ t => t.halt

/-! ## Bus error and address error -/

/-- The vector number of a group 0 exception (60_exceptions.md R390, R393). -/
def AccessFault.vector (f : AccessFault) : Byte :=
  match f.kind with
  | .bus => 2
  | .address => 3

/-- The special status word: bits 15..5 free, bit 4 read, bit 3 not processing an instruction, bits 2..0 the function
code (60_exceptions.md R391). -/
def specialStatusWord (free : Word) (isRead notInstruction : Bool) (fc : BitVec 3) : Word :=
  free.extractLsb' 5 11 ++ BitVec.ofBool isRead ++ BitVec.ofBool notInstruction ++ fc

/-- The I/N bit: 0 in an instruction or a group 2 exception, 1 in a group 1 exception, free for the first fetch after
group 1 processing (60_exceptions.md R391; log 20). -/
def notInstructionBit (opAddr : Option Long) (xgroup : XGroup) (handlerFetch : Bool) : M Bool :=
  match xgroup with
  | .g1 => pure true
  | .none => if opAddr.isNone && handlerFetch then drawBit else pure false
  | .g0 | .g2 => pure false

/-- `pc_g0`: one to five words beyond the instruction that made the reference, else free (60_exceptions.md R392). -/
def stackedPc (opAddr : Option Long) (xgroup : XGroup) : M Long :=
  match opAddr, xgroup with
  | some op, .none => do return op + BitVec.ofNat 32 (2 * (← drawOneToFive))
  | _, _ => drawLong

/-- The instruction register word of the frame: free in the fetch of an operation word and in group 1 processing
(60_exceptions.md R391). In group 2 processing, where 92_eei_decisions.md D9 gives a draw and R391 the operation word, it is
the operation word: DESIGN CHOICE (log 33). -/
def stackedIr (opAddr : Option Long) (xgroup : XGroup) (ir : Word) : M Word :=
  match opAddr, xgroup with
  | some _, .none => pure ir
  | _, .g2 => pure ir
  | _, _ => drawWord

/-- The seven-word frame and the vector of a group 0 exception (60_exceptions.md R391). `opAddr` is the address of the
instruction that made the reference, where one did. -/
def groupZeroSequence (opAddr : Option Long) (f : AccessFault) : M Unit := do
  let before ← get
  modify fun s =>
    { s with xgroup := .g0, handlerFetch := false, sr := { s.sr with s := true, t := false } }
  let notInstruction ← notInstructionBit opAddr before.xgroup before.handlerFetch
  let pc ← stackedPc opAddr before.xgroup
  let ir ← stackedIr opAddr before.xgroup before.ir
  let free ← drawWord
  pushLong pc
  pushWord before.sr.toWord
  pushWord ir
  pushLong f.addr
  pushWord (specialStatusWord free f.isRead notInstruction f.fc)
  let handler ← memRead .l 5 (vectorAddress f.vector) []
  modify fun s => { s with pc := handler, run := .normal }

/-- A bus error or address error: the group 0 exception, or a halt where one is already being processed
(60_exceptions.md R391, R405); an external reset ends it too (70_reset_and_hazards.md R420). -/
def groupZero (opAddr : Option Long) (f : AccessFault) (s : State) : State :=
  if s.xgroup = .g0 then s.halt
  else
    match groupZeroSequence opAddr f s with
    | .ok _ t => t
    | .error (.access _) t => t.halt
    | .error .reset t => resetException t

/-- What ends processing at an instruction boundary: a group 0 exception of no instruction, or an external reset
(60_exceptions.md R396, 70_reset_and_hazards.md R420). -/
def boundaryAbort : Abort → State → State
  | .access f, t => groupZero none f t
  | .reset, t => resetException t

/-- Exception processing at an instruction boundary; a fault inside it is a group 0 exception, SSP left as it was
lowered (60_exceptions.md R396; log 15). -/
def boundaryException (g : XGroup) (src : VectorSource) (pcStack : Long) (s : State) : State :=
  match takeException g src pcStack s with
  | .ok _ t => t
  | .error e t => boundaryAbort e t

/-- One item that an abort leaves open, settled by a draw (60_exceptions.md R394, 92_eei_decisions.md D9; log 15). -/
def settleItem (s : State) : Unsettled → State
  | .either x v => if Config.freeBit s.draws then s.drawn.setXreg x v else s.drawn
  | .low x n => s.drawn.setXreg x (setLow (s.xreg x) ((Config.freeLong s.draws).setWidth n))
  | .status (some w) => if Config.freeBit s.draws then s.drawn.setSr (Sr.ofWord w) else s.drawn
  | .status none => s.drawn.setSr (Sr.ofWord (Config.freeWord s.draws))

/-- The items that an abort leaves open, settled in their order. -/
def settle (items : Alt) (s : State) : State := items.foldl settleItem s

/-! ## Returning from an exception -/

/-- RTE: the status register word and the program counter through SSP, which advances by 6 before the new S takes
effect (47_system_control.md R321, 60_exceptions.md R400). -/
def returnFromException : M Unit := do
  let sp := (← get).ssp
  let w ← memRead .w 5 sp [.either (addressX 7) (sp + 6), .status none]
  let pc ← memRead .l 5 (sp + 2) [.either (addressX 7) (sp + 6), .status (some w)]
  modify fun s => { s with ssp := sp + 6, sr := Sr.ofWord w, pc := pc }

end Sys2Proof.Machine
end

