-- ==== Sys2Proof/Machine/Operands.lean ====
section
/-! DEFINITION. Operand forms: effective addresses, locations, and the operand patterns instructions share
(30_encoding.md R104 to R119, 40_data_movement.md R150). -/

namespace Sys2Proof.Machine

/-! ## Effective addresses -/

/-- The step of `(An)+` and `-(An)`: the operand size, but two for a byte on the stack pointer (30_encoding.md R108,
R109). -/
def addressStep (n : Reg) (sz : Size) : Long :=
  if n = 7 ∧ sz = .b then 2 else BitVec.ofNat 32 sz.bytes

/-- `ix`: the index register, its low-order word sign-extended or all of it (30_encoding.md R112). -/
def State.indexValue (s : State) (x : Index) : Long :=
  let r := if x.isAddr then s.areg x.reg else s.dreg x.reg
  if x.long then r else (r.setWidth 16).signExtend 32

/-- The address an effective address computes, where `PC` is the address of its extension word (30_encoding.md R107 to
R116); zero for the forms that name no memory. -/
def State.effectiveAddress (s : State) (ea : Ea) (sz : Size) : Long :=
  match ea with
  | .dn _ | .an _ | .imm _ => 0
  | .ind n => s.areg n
  | .post n => s.areg n
  | .pre n => s.areg n - addressStep n sz
  | .disp n d => s.areg n + d.signExtend 32
  | .idx n x => s.areg n + x.disp.signExtend 32 + s.indexValue x
  | .absW a => a.signExtend 32
  | .absL a => a
  | .pcDisp d => s.pc + d.signExtend 32
  | .pcIdx x => s.pc + x.disp.signExtend 32 + s.indexValue x

/-- An operand read through the program counter is a program reference (20_memory.md R64). -/
def isProgramEa : Ea → Bool
  | .pcDisp _ | .pcIdx _ => true
  | .dn _ | .an _ | .ind _ | .post _ | .pre _ | .disp _ _ | .idx _ _ | .absW _ | .absL _ | .imm _ => false

/-- A location that an effective address names (40_data_movement.md R150). -/
inductive Loc where
  | dreg (n : Reg)
  | areg (n : Reg)
  /-- an address, whether the reference is a program reference, the items an abort leaves open, and whether a long
  write takes the low-order word first (20_memory.md R72) -/
  | mem (a : Long) (program : Bool) (alt : Alt) (lowFirst : Bool)
  | imm (v : Imm)
deriving DecidableEq, Repr

/-- The location of an effective address evaluated in a state (30_encoding.md R105 to R117). -/
def State.location (s : State) (ea : Ea) (sz : Size) : Loc :=
  match ea with
  | .dn n => .dreg n
  | .an n => .areg n
  | .imm v => .imm v
  | .post n => .mem (s.areg n) false [.either (addressX n) (s.areg n)] false
  | .pre n => .mem (s.areg n - addressStep n sz) false [.either (addressX n) (s.areg n)] true
  | .ind _ | .disp _ _ | .idx _ _ | .absW _ | .absL _ | .pcDisp _ | .pcIdx _ =>
    .mem (s.effectiveAddress ea sz) (isProgramEa ea) [] false

/-- The register update of an effective address: once, when it is evaluated (30_encoding.md R108 to R110). -/
def State.stepAddress (s : State) (ea : Ea) (sz : Size) : State :=
  match ea with
  | .post n => s.setAreg n (s.areg n + addressStep n sz)
  | .pre n => s.setAreg n (s.areg n - addressStep n sz)
  | .dn _ | .an _ | .ind _ | .disp _ _ | .idx _ _ | .absW _ | .absL _ | .pcDisp _ | .pcIdx _ | .imm _ => s

/-- `EvalEA(mode, reg, sz)`: fetch the extension words, step the register, answer the location
(40_data_movement.md R150). -/
def evalEa (ea : Ea) (sz : Size) : M Loc := do
  let s ← get
  fetchWords ea.words.length
  modify fun s => s.stepAddress ea sz
  return s.location ea sz

/-- `Read(loc, sz)` (40_data_movement.md R150). -/
def readLoc (sz : Size) : Loc → M (BitVec sz.bits)
  | .dreg n => do return ((← get).dreg n).setWidth sz.bits
  | .areg n => do return ((← get).areg n).setWidth sz.bits
  | .mem a program alt _ => do memRead sz ((← get).fc program) a alt
  | .imm v => return v.value.setWidth sz.bits

/-- `D[n][bits-1:0] <- v` (10_state.md R21). -/
def State.setDregLow {w : Nat} (s : State) (n : Reg) (v : BitVec w) : State := s.setDreg n (setLow (s.dreg n) v)

/-- `Write(loc, sz, v)` (40_data_movement.md R150). Every write is a data reference (20_memory.md R64). -/
def writeLoc (sz : Size) : Loc → BitVec sz.bits → M Unit
  | .dreg n, v => modify fun s => s.setDregLow n v
  | .areg n, v => modify fun s => s.setAreg n (v.signExtend 32)
  | .mem a _ alt lowFirst, v => do memWrite sz ((← get).fc false) a v alt lowFirst
  | .imm _, _ => pure ()

/-- A location in memory. -/
def Loc.isMem : Loc → Bool
  | .mem _ _ _ _ => true
  | .dreg _ | .areg _ | .imm _ => false

/-- `Read(EvalEA(mode, reg, sz), sz)`. -/
def readEa (sz : Size) (ea : Ea) : M (BitVec sz.bits) := do
  let loc ← evalEa ea sz
  readLoc sz loc

/-- The address of a control effective address; no access is made to it (40_data_movement.md R153). -/
def controlAddress (ea : Ea) : M Long := do
  let s ← get
  let _ ← evalEa ea .l
  return s.effectiveAddress ea .l

/-! ## Operand patterns -/

/-- `<ea>,Dn` with a result (41_integer_arithmetic.md R183, 42_logical.md R231). -/
def eaToDn (sz : Size) (ea : Ea) (dn : Reg) (op : Binary sz.bits) : M Unit := do
  let v ← readEa sz ea
  modify fun s =>
    let o := op v ((s.dreg dn).setWidth sz.bits) s.sr
    (s.setDregLow dn o.1).setSr o.2

/-- A location read, computed on and written back at the same place (30_encoding.md R110). -/
def modifyLoc (sz : Size) (loc : Loc) (op : Unary sz.bits) : M Unit := do
  let d ← readLoc sz loc
  let o := op d (← get).sr
  writeLoc sz loc o.1
  modify fun s => s.setSr o.2

/-- `<ea>` read, computed on and written back; evaluated once (30_encoding.md R110). -/
def modifyEa (sz : Size) (ea : Ea) (op : Unary sz.bits) : M Unit := do
  let loc ← evalEa ea sz
  modifyLoc sz loc op

/-- `<ea>` read, computed on and written back by the rules that set the condition codes before the write
(43_shift_rotate.md R250, R253, 44_bit_manipulation.md R274): what ends the instruction between its two cycles finds them
set. -/
def modifyEaCodesFirst (sz : Size) (ea : Ea) (op : Unary sz.bits) : M Unit := do
  let loc ← evalEa ea sz
  let d ← readLoc sz loc
  let o := op d (← get).sr
  modify fun s => s.setSr o.2
  writeLoc sz loc o.1

/-- `Dn,<ea>` (41_integer_arithmetic.md R183, 42_logical.md R231). -/
def dnToEa (sz : Size) (dn : Reg) (ea : Ea) (op : Binary sz.bits) : M Unit := do
  let v := ((← get).dreg dn).setWidth sz.bits
  modifyEa sz ea fun d sr => op v d sr

/-- `#imm,<ea>`: the immediate words before the extension words (41_integer_arithmetic.md R185, 42_logical.md R232). -/
def immToEa (v : Imm) (ea : Ea) (op : Binary v.size.bits) : M Unit := do
  fetchWords v.words.length
  modifyEa v.size ea fun d sr => op v.value d sr

/-- `<ea>,An`: a word source is sign-extended and all 32 bits take part (10_state.md R24). -/
def eaToAn (sz : WideSize) (ea : Ea) (an : Reg) (op : Long → Long → Long) : M Unit := do
  let v ← readEa sz.toSize ea
  modify fun s => s.setAreg an (op (v.signExtend 32) (s.areg an))

/-- `Dy,Dx` of the extended instructions (41_integer_arithmetic.md R187). -/
def regToReg (sz : Size) (dy dx : Reg) (op : Binary sz.bits) : M Unit :=
  modify fun s =>
    let o := op ((s.dreg dy).setWidth sz.bits) ((s.dreg dx).setWidth sz.bits) s.sr
    (s.setDregLow dx o.1).setSr o.2

/-- `-(Ay),-(Ax)` of the extended instructions, the source first (41_integer_arithmetic.md R187). -/
def memToMem (sz : Size) (ay ax : Reg) (op : Binary sz.bits) : M Unit := do
  let v ← readEa sz (.pre ay)
  modifyEa sz (.pre ax) fun d sr => op v d sr

/-- The condition codes of a comparison written; nothing else is (41_integer_arithmetic.md R189). -/
def setCompare {w : Nat} (v d : BitVec w) : M Unit := modify fun s => s.setSr (compareOp v d s.sr)

/-- `logic_flags(v, sz)` written (40_data_movement.md R151). -/
def setLogic {w : Nat} (v : BitVec w) : M Unit := modify fun s => s.setSr (s.sr.logicFlags v)

end Sys2Proof.Machine
end

