-- ==== Sys2Proof/Machine/Classes.lean ====
section
/-! DEFINITION. What an instruction is as a whole (privileged, only a trap, writing condition codes), and how every
meaning is run: the check of its term, the privilege check, and the abort. -/

namespace Sys2Proof.Machine

/-- The privileged instructions (47_system_control.md R310). -/
def isPrivileged : Instr → Bool
  | .oriToSr _ | .andiToSr _ | .eoriToSr _ | .moveToSr _ | .moveToUsp _ | .moveFromUsp _ | .reset | .stop _
  | .rte => true
  | .oriToCcr _ | .ori _ _ | .andiToCcr _ | .andi _ _ | .eoriToCcr _ | .eori _ _ | .subi _ _ | .addi _ _
  | .cmpi _ _ | .btstStatic _ _ | .btstDynamic _ _ | .bchgStatic _ _ | .bchgDynamic _ _ | .bclrStatic _ _
  | .bclrDynamic _ _ | .bsetStatic _ _ | .bsetDynamic _ _ | .movepToRegW _ _ _ | .movepToRegL _ _ _
  | .movepToMemW _ _ _ | .movepToMemL _ _ _ | .moveB _ _ | .moveW _ _ | .moveaW _ _ | .moveL _ _ | .moveaL _ _
  | .negx _ _ | .moveFromSr _ | .chk _ _ | .lea _ _ | .clr _ _ | .neg _ _ | .moveToCcr _ | .notEa _ _ | .nbcd _
  | .swap _ | .pea _ | .extW _ | .extL _ | .movemToMem _ _ _ | .tst _ _ | .tas _ | .illegal | .illegal4AFA
  | .illegal4AFB | .movemToReg _ _ _ | .trap _ | .link _ _ | .unlk _ | .nop | .rts | .trapv | .rtr | .jsr _
  | .jmp _ | .addq _ _ _ | .subq _ _ _ | .scc _ _ | .dbcc _ _ _ | .bra _ | .bsr _ | .bcc _ _ | .moveq _ _
  | .orToDn _ _ _ | .orToMem _ _ _ | .divu _ _ | .divs _ _ | .sbcdReg _ _ | .sbcdMem _ _ | .subToDn _ _ _
  | .subToMem _ _ _ | .subaW _ _ | .subaL _ _ | .subxReg _ _ _ | .subxMem _ _ _ | .lineA _ | .cmp _ _ _
  | .cmpaW _ _ | .cmpaL _ _ | .cmpm _ _ _ | .eor _ _ _ | .andToDn _ _ _ | .andToMem _ _ _ | .mulu _ _
  | .muls _ _ | .abcdReg _ _ | .abcdMem _ _ | .exgDD _ _ | .exgAA _ _ | .exgDA _ _ | .addToDn _ _ _
  | .addToMem _ _ _ | .addaW _ _ | .addaL _ _ | .addxReg _ _ _ | .addxMem _ _ _ | .asrMem _ | .asrImm _ _ _
  | .asrReg _ _ _ | .aslMem _ | .aslImm _ _ _ | .aslReg _ _ _ | .lsrMem _ | .lsrImm _ _ _ | .lsrReg _ _ _
  | .lslMem _ | .lslImm _ _ _ | .lslReg _ _ _ | .roxrMem _ | .roxrImm _ _ _ | .roxrReg _ _ _ | .roxlMem _
  | .roxlImm _ _ _ | .roxlReg _ _ _ | .rorMem _ | .rorImm _ _ _ | .rorReg _ _ _ | .rolMem _ | .rolImm _ _ _
  | .rolReg _ _ _ | .lineF _ => false

/-- The operation words that only trap: they are not executed (60_exceptions.md R383, R384). -/
def isTrapWord : Instr → Bool
  | .illegal | .illegal4AFA | .illegal4AFB | .lineA _ | .lineF _ => true
  | .oriToCcr _ | .oriToSr _ | .ori _ _ | .andiToCcr _ | .andiToSr _ | .andi _ _ | .eoriToCcr _ | .eoriToSr _
  | .eori _ _ | .subi _ _ | .addi _ _ | .cmpi _ _ | .btstStatic _ _ | .btstDynamic _ _ | .bchgStatic _ _
  | .bchgDynamic _ _ | .bclrStatic _ _ | .bclrDynamic _ _ | .bsetStatic _ _ | .bsetDynamic _ _
  | .movepToRegW _ _ _ | .movepToRegL _ _ _ | .movepToMemW _ _ _ | .movepToMemL _ _ _ | .moveB _ _ | .moveW _ _
  | .moveaW _ _ | .moveL _ _ | .moveaL _ _ | .negx _ _ | .moveFromSr _ | .chk _ _ | .lea _ _ | .clr _ _
  | .neg _ _ | .moveToCcr _ | .notEa _ _ | .moveToSr _ | .nbcd _ | .swap _ | .pea _ | .extW _ | .extL _
  | .movemToMem _ _ _ | .tst _ _ | .tas _ | .movemToReg _ _ _ | .trap _ | .link _ _ | .unlk _ | .moveToUsp _
  | .moveFromUsp _ | .reset | .nop | .stop _ | .rte | .rts | .trapv | .rtr | .jsr _ | .jmp _ | .addq _ _ _
  | .subq _ _ _ | .scc _ _ | .dbcc _ _ _ | .bra _ | .bsr _ | .bcc _ _ | .moveq _ _ | .orToDn _ _ _
  | .orToMem _ _ _ | .divu _ _ | .divs _ _ | .sbcdReg _ _ | .sbcdMem _ _ | .subToDn _ _ _ | .subToMem _ _ _
  | .subaW _ _ | .subaL _ _ | .subxReg _ _ _ | .subxMem _ _ _ | .cmp _ _ _ | .cmpaW _ _ | .cmpaL _ _
  | .cmpm _ _ _ | .eor _ _ _ | .andToDn _ _ _ | .andToMem _ _ _ | .mulu _ _ | .muls _ _ | .abcdReg _ _
  | .abcdMem _ _ | .exgDD _ _ | .exgAA _ _ | .exgDA _ _ | .addToDn _ _ _ | .addToMem _ _ _ | .addaW _ _
  | .addaL _ _ | .addxReg _ _ _ | .addxMem _ _ _ | .asrMem _ | .asrImm _ _ _ | .asrReg _ _ _ | .aslMem _
  | .aslImm _ _ _ | .aslReg _ _ _ | .lsrMem _ | .lsrImm _ _ _ | .lsrReg _ _ _ | .lslMem _ | .lslImm _ _ _
  | .lslReg _ _ _ | .roxrMem _ | .roxrImm _ _ _ | .roxrReg _ _ _ | .roxlMem _ | .roxlImm _ _ _ | .roxlReg _ _ _
  | .rorMem _ | .rorImm _ _ _ | .rorReg _ _ _ | .rolMem _ | .rolImm _ _ _ | .rolReg _ _ _ => false

/-- The instructions that write some condition code (10_state.md R38; ADDQ and SUBQ to an address register write none,
41_integer_arithmetic.md R186). -/
def writesCodes : Instr → Bool
  | .addq _ _ ea | .subq _ _ ea => ea.isData
  | .movepToRegW _ _ _ | .movepToRegL _ _ _ | .movepToMemW _ _ _ | .movepToMemL _ _ _ | .moveaW _ _
  | .moveaL _ _ | .moveFromSr _ | .lea _ _ | .pea _ | .movemToMem _ _ _ | .illegal | .illegal4AFA
  | .illegal4AFB | .movemToReg _ _ _ | .trap _ | .link _ _ | .unlk _ | .moveToUsp _ | .moveFromUsp _ | .reset
  | .nop | .rts | .trapv | .jsr _ | .jmp _ | .scc _ _ | .dbcc _ _ _ | .bra _ | .bsr _ | .bcc _ _ | .subaW _ _
  | .subaL _ _ | .lineA _ | .exgDD _ _ | .exgAA _ _ | .exgDA _ _ | .addaW _ _ | .addaL _ _ | .lineF _ => false
  | .oriToCcr _ | .oriToSr _ | .ori _ _ | .andiToCcr _ | .andiToSr _ | .andi _ _ | .eoriToCcr _ | .eoriToSr _
  | .eori _ _ | .subi _ _ | .addi _ _ | .cmpi _ _ | .btstStatic _ _ | .btstDynamic _ _ | .bchgStatic _ _
  | .bchgDynamic _ _ | .bclrStatic _ _ | .bclrDynamic _ _ | .bsetStatic _ _ | .bsetDynamic _ _ | .moveB _ _
  | .moveW _ _ | .moveL _ _ | .negx _ _ | .chk _ _ | .clr _ _ | .neg _ _ | .moveToCcr _ | .notEa _ _
  | .moveToSr _ | .nbcd _ | .swap _ | .extW _ | .extL _ | .tst _ _ | .tas _ | .stop _ | .rte | .rtr
  | .moveq _ _ | .orToDn _ _ _ | .orToMem _ _ _ | .divu _ _ | .divs _ _ | .sbcdReg _ _ | .sbcdMem _ _
  | .subToDn _ _ _ | .subToMem _ _ _ | .subxReg _ _ _ | .subxMem _ _ _ | .cmp _ _ _ | .cmpaW _ _ | .cmpaL _ _
  | .cmpm _ _ _ | .eor _ _ _ | .andToDn _ _ _ | .andToMem _ _ _ | .mulu _ _ | .muls _ _ | .abcdReg _ _
  | .abcdMem _ _ | .addToDn _ _ _ | .addToMem _ _ _ | .addxReg _ _ _ | .addxMem _ _ _ | .asrMem _
  | .asrImm _ _ _ | .asrReg _ _ _ | .aslMem _ | .aslImm _ _ _ | .aslReg _ _ _ | .lsrMem _ | .lsrImm _ _ _
  | .lsrReg _ _ _ | .lslMem _ | .lslImm _ _ _ | .lslReg _ _ _ | .roxrMem _ | .roxrImm _ _ _ | .roxrReg _ _ _
  | .roxlMem _ | .roxlImm _ _ _ | .roxlReg _ _ _ | .rorMem _ | .rorImm _ _ _ | .rorReg _ _ _ | .rolMem _
  | .rolImm _ _ _ | .rolReg _ _ _ => true

/-- The instruction is executed, not trapped before it begins: it is then traced (60_exceptions.md R380). -/
def isExecuted (i : Instr) (s : State) : Bool := !isTrapWord i && (s.sr.s || !isPrivileged i)

/-- `draw(5)` into the condition codes (60_exceptions.md R394; log 15). -/
def drawCodes : M Unit := do
  let x ← drawBit
  let n ← drawBit
  let z ← drawBit
  let v ← drawBit
  let c ← drawBit
  modify fun s => { s with sr := { s.sr with x := x, n := n, z := z, v := v, c := c } }

/-- The register that an operand steps, once the instruction is complete (30_encoding.md R108, R109). -/
def steppedOpen (s : State) (ea : Ea) (sz : Size) : Alt :=
  match ea with
  | .post n | .pre n => [.either (addressX n) ((s.stepAddress ea sz).areg n)]
  | .dn _ | .an _ | .ind _ | .disp _ _ | .idx _ _ | .absW _ | .absL _ | .pcDisp _ | .pcIdx _ | .imm _ => []

/-- The register that an instruction writes through a destination operand: one that holds the result, or one that is
stepped. -/
def destinationOpen (s : State) (ea : Ea) (sz : Size) : Alt :=
  match ea with
  | .dn n => [.low (dataX n) sz.bits]
  | .an n => [.low (addressX n) 32]
  | .ind _ | .post _ | .pre _ | .disp _ _ | .idx _ _ | .absW _ | .absL _ | .pcDisp _ | .pcIdx _ | .imm _ =>
    steppedOpen s ea sz

/-- The register of a bit operand: all of a data register, or the one that a byte operand steps (44_bit_manipulation.md
R270). -/
def bitOpen (s : State) (ea : Ea) : Alt :=
  destinationOpen s ea (match ea with
    | .dn _ => .l
    | _ => .b)

/-- Two operands that step registers, the second evaluated after the first (30_encoding.md R110). -/
def steppedPairOpen (s : State) (x y : Ea) (sz : Size) : Alt :=
  steppedOpen s x sz ++ steppedOpen (s.stepAddress x sz) y sz

/-- How many registers a MOVEM mask names (40_data_movement.md R157). -/
def maskCount (mask : Word) : Nat := ((List.finRange 16).filter fun i => mask.getLsbD i.val).length

/-- The register that MOVEM steps, at its last value (40_data_movement.md R158, R159). -/
def movemOpen (s : State) (sz : WideSize) (mask : Word) (ea : Ea) : Alt :=
  let bytes := BitVec.ofNat 32 (maskCount mask * sz.toSize.bytes)
  match ea with
  | .post n => [.either (addressX n) (s.areg n + bytes)]
  | .pre n => [.either (addressX n) (s.areg n - bytes)]
  | .dn _ | .an _ | .ind _ | .disp _ _ | .idx _ _ | .absW _ | .absL _ | .pcDisp _ | .pcIdx _ | .imm _ => []

/-- The stack pointer at the value the instruction leaves in it. -/
def stackOpen (v : Long) : Alt := [.either (addressX 7) v]

/-- The registers that an aborted instruction, begun in `s`, could have written, besides the items of the faulting access
and the condition codes: each is left with its value or with the one the whole instruction would give, or with any where
that value comes from an operand, an immediate word or an extension word never read (60_exceptions.md R394,
92_eei_decisions.md D9, 93_implementation_defined.md U6). The spec does not say what the instruction would give from a word
whose own fetch ended in bus error; any value is the model's choice (log 15). ANDI, EORI and ORI to SR, STOP and LEA can be
aborted only there; LINK and MOVEM have it in their meanings. -/
def leftOpen (i : Instr) (s : State) : Alt :=
  match i with
  | .orToDn sz ea dn | .andToDn sz ea dn | .subToDn sz ea dn | .addToDn sz ea dn =>
    steppedOpen s ea sz ++ [.low (dataX dn) sz.bits]
  | .divu ea dn | .divs ea dn | .mulu ea dn | .muls ea dn => steppedOpen s ea .w ++ [.low (dataX dn) 32]
  | .moveaW ea an | .subaW ea an | .addaW ea an => steppedOpen s ea .w ++ [.low (addressX an) 32]
  | .moveaL ea an | .subaL ea an | .addaL ea an => steppedOpen s ea .l ++ [.low (addressX an) 32]
  | .cmp sz ea _ | .tst sz ea => steppedOpen s ea sz
  | .cmpi v ea => steppedOpen s ea v.size
  | .cmpaW ea _ | .chk ea _ | .moveToCcr ea => steppedOpen s ea .w
  | .cmpaL ea _ => steppedOpen s ea .l
  | .moveToSr ea => steppedOpen s ea .w ++ [.status none]
  | .btstStatic _ ea | .btstDynamic _ ea => steppedOpen s ea .b
  | .bchgStatic _ ea | .bchgDynamic _ ea | .bclrStatic _ ea | .bclrDynamic _ ea | .bsetStatic _ ea
  | .bsetDynamic _ ea => bitOpen s ea
  | .ori v ea | .andi v ea | .eori v ea | .subi v ea | .addi v ea => destinationOpen s ea v.size
  | .negx sz ea | .clr sz ea | .neg sz ea | .notEa sz ea | .addq _ sz ea | .subq _ sz ea | .orToMem sz _ ea
  | .subToMem sz _ ea | .eor sz _ ea | .andToMem sz _ ea | .addToMem sz _ ea => destinationOpen s ea sz
  | .nbcd ea | .tas ea | .scc _ ea => destinationOpen s ea .b
  | .moveFromSr ea | .asrMem ea | .aslMem ea | .lsrMem ea | .lslMem ea | .roxrMem ea | .roxlMem ea | .rorMem ea
  | .rolMem ea => destinationOpen s ea .w
  | .moveB src dst => steppedOpen s src .b ++ destinationOpen (s.stepAddress src .b) dst .b
  | .moveW src dst => steppedOpen s src .w ++ destinationOpen (s.stepAddress src .w) dst .w
  | .moveL src dst => steppedOpen s src .l ++ destinationOpen (s.stepAddress src .l) dst .l
  | .cmpm sz ay ax => steppedPairOpen s (.post ay) (.post ax) sz
  | .addxMem sz ay ax | .subxMem sz ay ax => steppedPairOpen s (.pre ay) (.pre ax) sz
  | .abcdMem ay ax | .sbcdMem ay ax => steppedPairOpen s (.pre ay) (.pre ax) .b
  | .movemToMem sz mask ea | .movemToReg sz mask ea => movemOpen s sz mask ea
  | .movepToRegW _ _ dx => [.low (dataX dx) 16]
  | .movepToRegL _ _ dx => [.low (dataX dx) 32]
  | .lea _ an => [.low (addressX an) 32]
  | .pea _ | .jsr _ | .bsr _ => stackOpen (s.areg 7 - 4)
  | .rts => stackOpen (s.areg 7 + 4)
  | .rtr => stackOpen (s.areg 7 + 6)
  | .link an d => .either (addressX an) (s.areg 7 - 4) :: stackOpen (s.areg 7 - 4 + d.signExtend 32)
  | .unlk an => if an = 7 then [.low (addressX 7) 32] else .low (addressX an) 32 :: stackOpen (s.areg an + 4)
  | .dbcc c dn _ =>
    if condHolds c s.sr then []
    else [.either (dataX dn) (setLow (s.dreg dn) ((s.dreg dn).setWidth 16 - 1#16))]
  | .oriToSr _ | .andiToSr _ | .eoriToSr _ | .stop _ => [.status none]
  | .oriToCcr _ | .andiToCcr _ | .eoriToCcr _ | .movepToMemW _ _ _ | .movepToMemL _ _ _ | .swap _ | .extW _
  | .extL _ | .illegal | .illegal4AFA | .illegal4AFB | .trap _ | .moveToUsp _ | .moveFromUsp _ | .reset | .nop
  | .rte | .trapv | .jmp _ | .bra _ | .bcc _ _ | .moveq _ _ | .sbcdReg _ _ | .subxReg _ _ _ | .lineA _
  | .abcdReg _ _ | .exgDD _ _ | .exgAA _ _ | .exgDA _ _ | .addxReg _ _ _ | .asrImm _ _ _ | .asrReg _ _ _
  | .aslImm _ _ _ | .aslReg _ _ _ | .lsrImm _ _ _ | .lsrReg _ _ _ | .lslImm _ _ _ | .lslReg _ _ _
  | .roxrImm _ _ _ | .roxrReg _ _ _ | .roxlImm _ _ _ | .roxlReg _ _ _ | .rorImm _ _ _ | .rorReg _ _ _
  | .rolImm _ _ _ | .rolReg _ _ _ | .lineF _ => []

/-- What an instruction begun in `s` and aborted leaves before group 0 processing: the registers it could write settled
(not in exception processing, whose pushes have lowered SSP), the condition codes free if it writes any (60_exceptions.md
R394, R396; log 15). -/
def settleAbort (i : Instr) (s : State) (f : AccessFault) (t : State) : State :=
  let u := if t.xgroup == .none then settle (f.alt ++ leftOpen i s) t else t
  if writesCodes i && u.xgroup != .g1 then
    match drawCodes u with
    | .ok _ w => w
    | .error _ w => w
  else u

/-- The privilege violation: vector 8, the address of the instruction stacked (47_system_control.md R310,
60_exceptions.md R385). -/
def privilegeViolation (opAddr : Long) : M Unit := takeException .g1 (.internal 8) opAddr

/-- An instruction run from the state in which its operation word has been fetched, `PC` at the word after it
(40_data_movement.md R150; log 29): the privilege check first, a group 0 exception where an access faults, and the reset exception where an external
reset arrives before one of its bus cycles (70_reset_and_hazards.md R420). -/
def runInstruction (i : Instr) (meaning : M Unit) (s : State) : Host.Outcome State Fault Refusal :=
  if i.wellFormed then
    match (if isPrivileged i && !s.sr.s then privilegeViolation (s.pc - 2) else meaning) s with
    | .ok _ t => .next t
    | .error (.access f) t => .next (groupZero (some (s.pc - 2)) f (settleAbort i s f t))
    | .error .reset t => .next (resetException t)
  else .refused .illFormed

end Sys2Proof.Machine
end

