-- ==== Sys2Proof/Machine/Arith.lean ====
section
/-! DEFINITION. The integer arithmetic instructions (41_integer_arithmetic.md). -/

namespace Sys2Proof.Machine

/-- A memory destination that an instruction only overwrites is read first, the value discarded
(41_integer_arithmetic.md R188, 46_program_control.md R295, 47_system_control.md R319). -/
def discardRead (sz : Size) (loc : Loc) : M Unit := do
  if loc.isMem then
    let _ ← readLoc sz loc
  pure ()

/-- CLR (41_integer_arithmetic.md R188). -/
def clearEa (sz : Size) (ea : Ea) : M Unit := do
  let loc ← evalEa ea sz
  discardRead sz loc
  writeLoc sz loc 0
  modify fun s => s.setSr { s.sr with n := false, z := true, v := false, c := false }

/-- The value 1 to 8 of a quick field, where 0 stands for 8 (30_encoding.md R118). -/
def quickValue (q : Fin 8) : Nat := if q = 0 then 8 else q.val

/-- ADDQ and SUBQ: an address register destination takes all 32 bits and no flags (41_integer_arithmetic.md R186,
R203). -/
def quickEa (q : Fin 8) (sz : Size) (ea : Ea) (op : Binary sz.bits) (addressOp : Long → Long → Long) : M Unit :=
  match ea with
  | .an n => modify fun s => s.setAreg n (addressOp (s.areg n) (BitVec.ofNat 32 (quickValue q)))
  | _ => modifyEa sz ea fun d sr => op (BitVec.ofNat sz.bits (quickValue q)) d sr

/-- CMP (41_integer_arithmetic.md R189). -/
def compareDn (sz : Size) (ea : Ea) (dn : Reg) : M Unit := do
  let v ← readEa sz ea
  setCompare v (((← get).dreg dn).setWidth sz.bits)

/-- CMPA: a 32-bit comparison for both sizes (41_integer_arithmetic.md R190). -/
def compareAn (sz : WideSize) (ea : Ea) (an : Reg) : M Unit := do
  let v ← readEa sz.toSize ea
  setCompare (v.signExtend 32) ((← get).areg an)

/-- CMPI (41_integer_arithmetic.md R191). -/
def compareImm (v : Imm) (ea : Ea) : M Unit := do
  fetchWords v.words.length
  let d ← readEa v.size ea
  setCompare v.value d

/-- An operand `(An)+` of CMPM: read, and An stepped after it (41_integer_arithmetic.md R192). What an abort of the read
leaves in An is among the items of `leftOpen`. -/
def readThenStep (sz : Size) (n : Reg) : M (BitVec sz.bits) := do
  let s ← get
  let v ← memRead sz (s.fc false) (s.areg n) []
  modify fun s => s.stepAddress (.post n) sz
  return v

/-- CMPM: the source first (41_integer_arithmetic.md R192). -/
def compareMem (sz : Size) (ay ax : Reg) : M Unit := do
  let v ← readThenStep sz ay
  let d ← readThenStep sz ax
  setCompare v d

/-- A group 2 exception of the running instruction: the address of the next instruction is stacked
(60_exceptions.md R351, R381). -/
def raiseTrap (v : Byte) : M Unit := do takeException .g2 (.internal v) (← get).pc

/-- Zero divide: C cleared, N, Z and V free, vector 5 (41_integer_arithmetic.md R193). -/
def zeroDivide : M Unit := do
  let n ← drawBit
  let z ← drawBit
  let v ← drawBit
  modify fun s => s.setSr { s.sr with n := n, z := z, v := v, c := false }
  raiseTrap 5

/-- Divide overflow: V set, C cleared, N and Z free, the operands unaffected (41_integer_arithmetic.md R193). -/
def divideOverflow : M Unit := do
  let n ← drawBit
  let z ← drawBit
  modify fun s => s.setSr { s.sr with n := n, z := z, v := true, c := false }

/-- DIVS and DIVU: remainder in bits 31 to 16, quotient in bits 15 to 0 (41_integer_arithmetic.md R193, R194). -/
def divideDn (ea : Ea) (dn : Reg) (divide : Long → Word → Option (Word × Word)) : M Unit := do
  let m : Word ← readEa .w ea
  if m = 0 then zeroDivide
  else
    match divide ((← get).dreg dn) m with
    | none => divideOverflow
    | some (rem, q) => modify fun s => (s.setDreg dn (rem ++ q)).setSr (s.sr.logicFlags q)

/-- MULS and MULU: the long product of two words (41_integer_arithmetic.md R196, R197). -/
def multiplyDn (ea : Ea) (dn : Reg) (multiply : Word → Word → Long) : M Unit := do
  let v : Word ← readEa .w ea
  modify fun s =>
    let p := multiply v ((s.dreg dn).setWidth 16)
    (s.setDreg dn p).setSr (s.sr.logicFlags p)

/-- EXT: a sign-extended part of a data register written at a width (41_integer_arithmetic.md R195). -/
def extendDn (dn : Reg) (w : Nat) (f : Long → BitVec w) : M Unit :=
  modify fun s => (s.setDregLow dn (f (s.dreg dn))).setSr (s.sr.logicFlags (f (s.dreg dn)))

/-- TAS: an indivisible cycle in memory; the flags from the byte before bit 7 is set (41_integer_arithmetic.md R205). -/
def testAndSet (ea : Ea) : M Unit := do
  let loc ← evalEa ea .b
  match loc with
  | .mem a _ alt _ =>
    let d ← readModifyWrite ((← get).fc false) a alt fun d => d ||| 0x80
    setLogic d
  | .dreg _ | .areg _ | .imm _ =>
    let d : Byte ← readLoc .b loc
    setLogic d
    writeLoc .b loc (d ||| 0x80#8)

/-- TST (41_integer_arithmetic.md R206). -/
def testEa (sz : Size) (ea : Ea) : M Unit := do
  let v ← readEa sz ea
  setLogic v

/-- ADD <ea>,Dn (41_integer_arithmetic.md R183). -/
def execAddToDn (sz : Size) (ea : Ea) (dn : Reg) (s : State) : Host.Outcome State Fault Refusal :=
  runInstruction (.addToDn sz ea dn)
    (eaToDn sz ea dn addOp) s

/-- ADD Dn,<ea> (41_integer_arithmetic.md R183). -/
def execAddToMem (sz : Size) (dn : Reg) (ea : Ea) (s : State) : Host.Outcome State Fault Refusal :=
  runInstruction (.addToMem sz dn ea)
    (dnToEa sz dn ea addOp) s

/-- SUB <ea>,Dn (41_integer_arithmetic.md R200). -/
def execSubToDn (sz : Size) (ea : Ea) (dn : Reg) (s : State) : Host.Outcome State Fault Refusal :=
  runInstruction (.subToDn sz ea dn)
    (eaToDn sz ea dn subOp) s

/-- SUB Dn,<ea> (41_integer_arithmetic.md R200). -/
def execSubToMem (sz : Size) (dn : Reg) (ea : Ea) (s : State) : Host.Outcome State Fault Refusal :=
  runInstruction (.subToMem sz dn ea)
    (dnToEa sz dn ea subOp) s

/-- ADDA.W (41_integer_arithmetic.md R184). -/
def execAddaW (ea : Ea) (an : Reg) (s : State) : Host.Outcome State Fault Refusal :=
  runInstruction (.addaW ea an)
    (eaToAn .w ea an fun v a => a + v) s

/-- ADDA.L (41_integer_arithmetic.md R184). -/
def execAddaL (ea : Ea) (an : Reg) (s : State) : Host.Outcome State Fault Refusal :=
  runInstruction (.addaL ea an)
    (eaToAn .l ea an fun v a => a + v) s

/-- SUBA.W (41_integer_arithmetic.md R201). -/
def execSubaW (ea : Ea) (an : Reg) (s : State) : Host.Outcome State Fault Refusal :=
  runInstruction (.subaW ea an)
    (eaToAn .w ea an fun v a => a - v) s

/-- SUBA.L (41_integer_arithmetic.md R201). -/
def execSubaL (ea : Ea) (an : Reg) (s : State) : Host.Outcome State Fault Refusal :=
  runInstruction (.subaL ea an)
    (eaToAn .l ea an fun v a => a - v) s

/-- ADDI (41_integer_arithmetic.md R185). -/
def execAddi (v : Imm) (ea : Ea) (s : State) : Host.Outcome State Fault Refusal :=
  runInstruction (.addi v ea)
    (immToEa v ea addOp) s

/-- SUBI (41_integer_arithmetic.md R202). -/
def execSubi (v : Imm) (ea : Ea) (s : State) : Host.Outcome State Fault Refusal :=
  runInstruction (.subi v ea)
    (immToEa v ea subOp) s

/-- ADDQ (41_integer_arithmetic.md R186). -/
def execAddq (q : Fin 8) (sz : Size) (ea : Ea) (s : State) : Host.Outcome State Fault Refusal :=
  runInstruction (.addq q sz ea)
    (quickEa q sz ea addOp fun a q => a + q) s

/-- SUBQ (41_integer_arithmetic.md R203). -/
def execSubq (q : Fin 8) (sz : Size) (ea : Ea) (s : State) : Host.Outcome State Fault Refusal :=
  runInstruction (.subq q sz ea)
    (quickEa q sz ea subOp fun a q => a - q) s

/-- ADDX Dy,Dx (41_integer_arithmetic.md R187). -/
def execAddxReg (sz : Size) (dy dx : Reg) (s : State) : Host.Outcome State Fault Refusal :=
  runInstruction (.addxReg sz dy dx)
    (regToReg sz dy dx addxOp) s

/-- ADDX -(Ay),-(Ax) (41_integer_arithmetic.md R187). -/
def execAddxMem (sz : Size) (ay ax : Reg) (s : State) : Host.Outcome State Fault Refusal :=
  runInstruction (.addxMem sz ay ax)
    (memToMem sz ay ax addxOp) s

/-- SUBX Dy,Dx (41_integer_arithmetic.md R204). -/
def execSubxReg (sz : Size) (dy dx : Reg) (s : State) : Host.Outcome State Fault Refusal :=
  runInstruction (.subxReg sz dy dx)
    (regToReg sz dy dx subxOp) s

/-- SUBX -(Ay),-(Ax) (41_integer_arithmetic.md R204). -/
def execSubxMem (sz : Size) (ay ax : Reg) (s : State) : Host.Outcome State Fault Refusal :=
  runInstruction (.subxMem sz ay ax)
    (memToMem sz ay ax subxOp) s

/-- CLR (41_integer_arithmetic.md R188). -/
def execClr (sz : Size) (ea : Ea) (s : State) : Host.Outcome State Fault Refusal :=
  runInstruction (.clr sz ea)
    (clearEa sz ea) s

/-- CMP (41_integer_arithmetic.md R189). -/
def execCmp (sz : Size) (ea : Ea) (dn : Reg) (s : State) : Host.Outcome State Fault Refusal :=
  runInstruction (.cmp sz ea dn)
    (compareDn sz ea dn) s

/-- CMPA.W (41_integer_arithmetic.md R190). -/
def execCmpaW (ea : Ea) (an : Reg) (s : State) : Host.Outcome State Fault Refusal :=
  runInstruction (.cmpaW ea an)
    (compareAn .w ea an) s

/-- CMPA.L (41_integer_arithmetic.md R190). -/
def execCmpaL (ea : Ea) (an : Reg) (s : State) : Host.Outcome State Fault Refusal :=
  runInstruction (.cmpaL ea an)
    (compareAn .l ea an) s

/-- CMPI (41_integer_arithmetic.md R191). -/
def execCmpi (v : Imm) (ea : Ea) (s : State) : Host.Outcome State Fault Refusal :=
  runInstruction (.cmpi v ea)
    (compareImm v ea) s

/-- CMPM (41_integer_arithmetic.md R192). -/
def execCmpm (sz : Size) (ay ax : Reg) (s : State) : Host.Outcome State Fault Refusal :=
  runInstruction (.cmpm sz ay ax)
    (compareMem sz ay ax) s

/-- DIVS (41_integer_arithmetic.md R193). -/
def execDivs (ea : Ea) (dn : Reg) (s : State) : Host.Outcome State Fault Refusal :=
  runInstruction (.divs ea dn)
    (divideDn ea dn divSigned) s

/-- DIVU (41_integer_arithmetic.md R194). -/
def execDivu (ea : Ea) (dn : Reg) (s : State) : Host.Outcome State Fault Refusal :=
  runInstruction (.divu ea dn)
    (divideDn ea dn divUnsigned) s

/-- EXT.W (41_integer_arithmetic.md R195). -/
def execExtW (dn : Reg) (s : State) : Host.Outcome State Fault Refusal :=
  runInstruction (.extW dn)
    (extendDn dn 16 fun d => (d.setWidth 8).signExtend 16) s

/-- EXT.L (41_integer_arithmetic.md R195). -/
def execExtL (dn : Reg) (s : State) : Host.Outcome State Fault Refusal :=
  runInstruction (.extL dn)
    (extendDn dn 32 fun d => (d.setWidth 16).signExtend 32) s

/-- MULS (41_integer_arithmetic.md R196). -/
def execMuls (ea : Ea) (dn : Reg) (s : State) : Host.Outcome State Fault Refusal :=
  runInstruction (.muls ea dn)
    (multiplyDn ea dn mulSigned) s

/-- MULU (41_integer_arithmetic.md R197). -/
def execMulu (ea : Ea) (dn : Reg) (s : State) : Host.Outcome State Fault Refusal :=
  runInstruction (.mulu ea dn)
    (multiplyDn ea dn mulUnsigned) s

/-- NEG (41_integer_arithmetic.md R198). -/
def execNeg (sz : Size) (ea : Ea) (s : State) : Host.Outcome State Fault Refusal :=
  runInstruction (.neg sz ea)
    (modifyEa sz ea negOp) s

/-- NEGX (41_integer_arithmetic.md R199). -/
def execNegx (sz : Size) (ea : Ea) (s : State) : Host.Outcome State Fault Refusal :=
  runInstruction (.negx sz ea)
    (modifyEa sz ea negxOp) s

/-- TAS (41_integer_arithmetic.md R205). -/
def execTas (ea : Ea) (s : State) : Host.Outcome State Fault Refusal :=
  runInstruction (.tas ea)
    (testAndSet ea) s

/-- TST (41_integer_arithmetic.md R206). -/
def execTst (sz : Size) (ea : Ea) (s : State) : Host.Outcome State Fault Refusal :=
  runInstruction (.tst sz ea)
    (testEa sz ea) s

end Sys2Proof.Machine
end

