-- ==== Sys2Proof/Machine/Bcd.lean ====
section
/-! DEFINITION. The binary coded decimal instructions (45_bcd.md). -/

namespace Sys2Proof.Machine

/-- The condition codes of the family: C and X the decimal carry, Z sticky, N and V free (45_bcd.md R281). -/
def setDecimal (r : Byte) (c : Bool) : M Unit := do
  let n ← drawBit
  let v ← drawBit
  modify fun s => s.setSr { s.sr with x := c, n := n, z := s.sr.z && r == 0, v := v, c := c }

/-- A location read, computed on in decimal with X, and written back (45_bcd.md R282, R285). -/
def decimalLoc (loc : Loc) (op : Byte → Bool → Byte × Bool) : M Unit := do
  let d : Byte ← readLoc .b loc
  let o := op d (← get).sr.x
  writeLoc .b loc o.1
  setDecimal o.1 o.2

/-- `Dy,Dx` in decimal (45_bcd.md R282). -/
def decimalReg (dy dx : Reg) (op : Byte → Byte → Bool → Byte × Bool) : M Unit := do
  let v := ((← get).dreg dy).setWidth 8
  decimalLoc (.dreg dx) (op v)

/-- `-(Ay),-(Ax)` in decimal, the source first (45_bcd.md R282). -/
def decimalMem (ay ax : Reg) (op : Byte → Byte → Bool → Byte × Bool) : M Unit := do
  let v : Byte ← readEa .b (.pre ay)
  let loc ← evalEa (.pre ax) .b
  decimalLoc loc (op v)

/-- NBCD (45_bcd.md R285). -/
def decimalNegate (ea : Ea) : M Unit := do
  let loc ← evalEa ea .b
  decimalLoc loc nbcdOp

/-- ABCD Dy,Dx (45_bcd.md R282). -/
def execAbcdReg (dy dx : Reg) (s : State) : Host.Outcome State Fault Refusal :=
  runInstruction (.abcdReg dy dx)
    (decimalReg dy dx abcdOp) s

/-- ABCD -(Ay),-(Ax) (45_bcd.md R282). -/
def execAbcdMem (ay ax : Reg) (s : State) : Host.Outcome State Fault Refusal :=
  runInstruction (.abcdMem ay ax)
    (decimalMem ay ax abcdOp) s

/-- SBCD Dy,Dx (45_bcd.md R283). -/
def execSbcdReg (dy dx : Reg) (s : State) : Host.Outcome State Fault Refusal :=
  runInstruction (.sbcdReg dy dx)
    (decimalReg dy dx sbcdOp) s

/-- SBCD -(Ay),-(Ax) (45_bcd.md R283). -/
def execSbcdMem (ay ax : Reg) (s : State) : Host.Outcome State Fault Refusal :=
  runInstruction (.sbcdMem ay ax)
    (decimalMem ay ax sbcdOp) s

/-- NBCD (45_bcd.md R285). -/
def execNbcd (ea : Ea) (s : State) : Host.Outcome State Fault Refusal :=
  runInstruction (.nbcd ea)
    (decimalNegate ea) s

end Sys2Proof.Machine
end

