-- ==== Sys2Proof/Machine/Bits.lean ====
section
/-! DEFINITION. The bit manipulation instructions (44_bit_manipulation.md). -/

namespace Sys2Proof.Machine

/-- One bit of a value replaced. -/
def setBit {w : Nat} (v : BitVec w) (b : Nat) (x : Bool) : BitVec w :=
  if x then v ||| (1#w <<< b) else v &&& ~~~(1#w <<< b)

/-- Z from the bit tested, written (44_bit_manipulation.md R272). -/
def setZeroOfBit (bit : Bool) : M Unit := modify fun s => s.setSr (s.sr.zeroOfBit bit)

/-- BTST: bit number modulo 32 in a data register, modulo 8 in a byte (44_bit_manipulation.md R270, R273). -/
def bitTest (raw : Nat) (ea : Ea) : M Unit :=
  match ea with
  | .dn n => do setZeroOfBit (((← get).dreg n).getLsbD (raw % 32))
  | _ => do
    let v : Byte ← readEa .b ea
    setZeroOfBit (v.getLsbD (raw % 8))

/-- BSET, BCLR, BCHG: Z from the bit before it changes, then the write (44_bit_manipulation.md R270, R274 to R276). -/
def bitChange (raw : Nat) (ea : Ea) (f : Bool → Bool) : M Unit :=
  match ea with
  | .dn n => do
    let v := (← get).dreg n
    setZeroOfBit (v.getLsbD (raw % 32))
    modify fun s => s.setDreg n (setBit v (raw % 32) (f (v.getLsbD (raw % 32))))
  | _ => modifyEaCodesFirst .b ea fun (v : Byte) sr =>
    (setBit v (raw % 8) (f (v.getLsbD (raw % 8))), sr.zeroOfBit (v.getLsbD (raw % 8)))

/-- The dynamic form: the bit number is all of a data register (44_bit_manipulation.md R270). -/
def bitOfRegister (dn : Reg) (k : Nat → M Unit) : M Unit := do k ((← get).dreg dn).toNat

/-- The static form: the bit number word is fetched first (44_bit_manipulation.md R270). -/
def bitOfWord (bit : Byte) (k : Nat → M Unit) : M Unit := do
  fetchWords 1
  k bit.toNat

/-- BTST #n,<ea> (44_bit_manipulation.md R273). -/
def execBtstStatic (bit : Byte) (ea : Ea) (s : State) : Host.Outcome State Fault Refusal :=
  runInstruction (.btstStatic bit ea)
    (bitOfWord bit fun b => bitTest b ea) s

/-- BTST Dn,<ea> (44_bit_manipulation.md R273). -/
def execBtstDynamic (dn : Reg) (ea : Ea) (s : State) : Host.Outcome State Fault Refusal :=
  runInstruction (.btstDynamic dn ea)
    (bitOfRegister dn fun b => bitTest b ea) s

/-- BSET #n,<ea> (44_bit_manipulation.md R274). -/
def execBsetStatic (bit : Byte) (ea : Ea) (s : State) : Host.Outcome State Fault Refusal :=
  runInstruction (.bsetStatic bit ea)
    (bitOfWord bit fun b => bitChange b ea fun _ => true) s

/-- BSET Dn,<ea> (44_bit_manipulation.md R274). -/
def execBsetDynamic (dn : Reg) (ea : Ea) (s : State) : Host.Outcome State Fault Refusal :=
  runInstruction (.bsetDynamic dn ea)
    (bitOfRegister dn fun b => bitChange b ea fun _ => true) s

/-- BCLR #n,<ea> (44_bit_manipulation.md R275). -/
def execBclrStatic (bit : Byte) (ea : Ea) (s : State) : Host.Outcome State Fault Refusal :=
  runInstruction (.bclrStatic bit ea)
    (bitOfWord bit fun b => bitChange b ea fun _ => false) s

/-- BCLR Dn,<ea> (44_bit_manipulation.md R275). -/
def execBclrDynamic (dn : Reg) (ea : Ea) (s : State) : Host.Outcome State Fault Refusal :=
  runInstruction (.bclrDynamic dn ea)
    (bitOfRegister dn fun b => bitChange b ea fun _ => false) s

/-- BCHG #n,<ea> (44_bit_manipulation.md R276). -/
def execBchgStatic (bit : Byte) (ea : Ea) (s : State) : Host.Outcome State Fault Refusal :=
  runInstruction (.bchgStatic bit ea)
    (bitOfWord bit fun b => bitChange b ea fun b => !b) s

/-- BCHG Dn,<ea> (44_bit_manipulation.md R276). -/
def execBchgDynamic (dn : Reg) (ea : Ea) (s : State) : Host.Outcome State Fault Refusal :=
  runInstruction (.bchgDynamic dn ea)
    (bitOfRegister dn fun b => bitChange b ea fun b => !b) s

end Sys2Proof.Machine
end

