-- ==== Sys2Proof/Machine/Control.lean ====
section
/-! DEFINITION. The program control instructions (46_program_control.md). -/

namespace Sys2Proof.Machine

/-- The target of a branch, from the address of the word after the operation word; the displacement word, where there is
one, is fetched (46_program_control.md R290). -/
def branchTarget (d : BranchDisp) : M Long := do
  let base := (← get).pc
  fetchWords d.words.length
  return match d with
    | .byte d => base + d.signExtend 32
    | .word d => base + d.signExtend 32

/-- Bcc (46_program_control.md R291). -/
def branchIf (cond : Cond) (d : BranchDisp) : M Unit := do
  let target ← branchTarget d
  modify fun s => if condHolds cond s.sr then s.setPc target else s

/-- BRA (46_program_control.md R292). -/
def branchAlways (d : BranchDisp) : M Unit := do
  let target ← branchTarget d
  modify fun s => s.setPc target

/-- BSR: the address of the next instruction is pushed (46_program_control.md R294). -/
def branchSubroutine (d : BranchDisp) : M Unit := do
  let target ← branchTarget d
  pushLong (← get).pc
  modify fun s => s.setPc target

/-- DBcc: the low-order word of the register counts (46_program_control.md R293). -/
def decrementBranch (cond : Cond) (dn : Reg) (d : Word) : M Unit := do
  let base := (← get).pc
  fetchWords 1
  modify fun s =>
    if condHolds cond s.sr then s
    else
      let count := (s.dreg dn).setWidth 16 - 1#16
      let t := s.setDregLow dn count
      if count ≠ 0xFFFF then t.setPc (base + d.signExtend 32) else t

/-- Scc (46_program_control.md R295). -/
def setByCondition (cond : Cond) (ea : Ea) : M Unit := do
  let loc ← evalEa ea .b
  discardRead .b loc
  writeLoc .b loc (if condHolds cond (← get).sr then 0xFF#8 else 0#8)

/-- JMP (46_program_control.md R296). -/
def jumpTo (ea : Ea) : M Unit := do
  let a ← controlAddress ea
  modify fun s => s.setPc a

/-- JSR: the address is computed before the push (46_program_control.md R297). -/
def jumpSubroutine (ea : Ea) : M Unit := do
  let a ← controlAddress ea
  pushLong (← get).pc
  modify fun s => s.setPc a

/-- RTS (46_program_control.md R299). -/
def returnFromSubroutine : M Unit := do
  let pc ← popLong
  modify fun s => s.setPc pc

/-- RTR: only the five condition codes of the popped word are loaded (46_program_control.md R298). -/
def returnRestore : M Unit := do
  let w ← popWord
  modify fun s => s.setSr (s.sr.setCodes (w.extractLsb' 0 5))
  let pc ← popLong
  modify fun s => s.setPc pc

/-- Bcc (46_program_control.md R291). -/
def execBcc (c : Cond) (d : BranchDisp) (s : State) : Host.Outcome State Fault Refusal :=
  runInstruction (.bcc c d)
    (branchIf c d) s

/-- BRA (46_program_control.md R292). -/
def execBra (d : BranchDisp) (s : State) : Host.Outcome State Fault Refusal :=
  runInstruction (.bra d)
    (branchAlways d) s

/-- DBcc (46_program_control.md R293). -/
def execDbcc (c : Cond) (dn : Reg) (d : Word) (s : State) : Host.Outcome State Fault Refusal :=
  runInstruction (.dbcc c dn d)
    (decrementBranch c dn d) s

/-- BSR (46_program_control.md R294). -/
def execBsr (d : BranchDisp) (s : State) : Host.Outcome State Fault Refusal :=
  runInstruction (.bsr d)
    (branchSubroutine d) s

/-- Scc (46_program_control.md R295). -/
def execScc (c : Cond) (ea : Ea) (s : State) : Host.Outcome State Fault Refusal :=
  runInstruction (.scc c ea)
    (setByCondition c ea) s

/-- JMP (46_program_control.md R296). -/
def execJmp (ea : Ea) (s : State) : Host.Outcome State Fault Refusal :=
  runInstruction (.jmp ea)
    (jumpTo ea) s

/-- JSR (46_program_control.md R297). -/
def execJsr (ea : Ea) (s : State) : Host.Outcome State Fault Refusal :=
  runInstruction (.jsr ea)
    (jumpSubroutine ea) s

/-- RTR (46_program_control.md R298). -/
def execRtr (s : State) : Host.Outcome State Fault Refusal :=
  runInstruction .rtr
    (returnRestore) s

/-- RTS (46_program_control.md R299). -/
def execRts (s : State) : Host.Outcome State Fault Refusal :=
  runInstruction .rts
    (returnFromSubroutine) s

/-- NOP: nothing but the advance of PC (46_program_control.md R300). -/
def execNop (s : State) : Host.Outcome State Fault Refusal :=
  runInstruction .nop
    (pure ()) s

end Sys2Proof.Machine
end

