-- ==== Sys2Proof/Machine/DataMove.lean ====
section
/-! DEFINITION. The data movement instructions (40_data_movement.md). -/

namespace Sys2Proof.Machine

/-- Two registers exchanged, all 32 bits (40_data_movement.md R152). -/
def exchange (x y : Fin 16) : M Unit := modify fun s => (s.setXreg x (s.xreg y)).setXreg y (s.xreg x)

/-- MOVE: the source read before the destination is evaluated; the flags from the value moved (40_data_movement.md R155,
30_encoding.md R110). -/
def moveEa (sz : Size) (src dst : Ea) : M Unit := do
  let v ← readEa sz src
  let loc ← evalEa dst sz
  writeLoc sz loc v
  setLogic v

/-- The transfers of MOVEM to memory at rising addresses, register 0 first; answers the address after the last
(40_data_movement.md R158). -/
def storeUp (sz : Size) (mask : Word) : List (Fin 16) → Long → M Long
  | [], a => pure a
  | i :: rest, a => do
    if mask.getLsbD i.val then
      let s ← get
      memWrite sz (s.fc false) a ((s.xreg i).setWidth sz.bits) [] false
      storeUp sz mask rest (a + BitVec.ofNat 32 sz.bytes)
    else storeUp sz mask rest a

/-- The transfers of MOVEM to `-(An)` at falling addresses: mask bit `i` is register `15 - i`; answers the last address
(40_data_movement.md R158). -/
def storeDown (sz : Size) (mask : Word) (an : Reg) : List (Fin 16) → Long → M Long
  | [], a => pure a
  | i :: rest, a => do
    if mask.getLsbD i.val then
      let s ← get
      let next := a - BitVec.ofNat 32 sz.bytes
      memWrite sz (s.fc false) next ((s.xreg i.rev).setWidth sz.bits) [.either (addressX an) next] true
      storeDown sz mask an rest next
    else storeDown sz mask an rest a

/-- The running address of MOVEM with `(An)+`, which An may hold after an abort (60_exceptions.md R394; log 15). -/
def runningAddress (an : Option Reg) (a : Long) : Alt :=
  match an with
  | some n => [.either (addressX n) a]
  | none => []

/-- What an abort leaves open of a register that a transfer of MOVEM was to load (60_exceptions.md R394). -/
def pendingLoads (mask : Word) (regs : List (Fin 16)) : Alt :=
  (regs.filter fun i => mask.getLsbD i.val).map fun i => .low i 32

/-- The transfers of MOVEM from memory, each sign-extended into the whole register; answers the address after the last
(40_data_movement.md R159). `an` is the register of `(An)+`. Registers loaded before a fault stay loaded
(60_exceptions.md R394). -/
def loadUp (sz : Size) (mask : Word) (program : Bool) (an : Option Reg) : List (Fin 16) → Long → M Long
  | [], a => pure a
  | i :: rest, a => do
    if mask.getLsbD i.val then
      let s ← get
      let v ← leavingOpen (pendingLoads mask (i :: rest)) (memRead sz (s.fc program) a (runningAddress an a))
      modify fun s => s.setXreg i (v.signExtend 32)
      loadUp sz mask program an rest (a + BitVec.ofNat 32 sz.bytes)
    else loadUp sz mask program an rest a

/-- What an abort of the fetch of the mask word leaves open of the register of `-(An)`: its last value comes from a mask
never read (60_exceptions.md R394; log 15). -/
def unmaskedStep : Ea → Alt
  | .pre n => [.low (addressX n) 32]
  | .dn _ | .an _ | .ind _ | .post _ | .disp _ _ | .idx _ _ | .absW _ | .absL _ | .pcDisp _ | .pcIdx _ | .imm _ => []

/-- MOVEM registers to memory (40_data_movement.md R158). -/
def moveRegistersToMemory (sz : Size) (mask : Word) (ea : Ea) : M Unit := do
  leavingOpen (unmaskedStep ea) (fetchWords 1)
  match ea with
  | .pre n =>
    let a ← storeDown sz mask n (List.finRange 16) ((← get).areg n)
    modify fun s => s.setAreg n a
  | _ =>
    let s ← get
    let _ ← evalEa ea sz
    let _ ← storeUp sz mask (List.finRange 16) (s.effectiveAddress ea sz)
    pure ()

/-- MOVEM memory to registers, with the one extra word read at its end (40_data_movement.md R159). An abort of the fetch
of the mask word leaves every register open: the mask was never read (60_exceptions.md R394; log 15). -/
def moveMemoryToRegisters (sz : Size) (mask : Word) (ea : Ea) : M Unit := do
  let pending := pendingLoads mask (List.finRange 16)
  leavingOpen (pendingLoads (BitVec.allOnes 16) (List.finRange 16)) (fetchWords 1)
  match ea with
  | .post n =>
    let a ← loadUp sz mask false (some n) (List.finRange 16) ((← get).areg n)
    let _ ← memRead .w ((← get).fc false) a (runningAddress (some n) a)
    modify fun s => s.setAreg n a
  | _ =>
    let s ← get
    let _ ← leavingOpen pending (evalEa ea sz)
    let a ← loadUp sz mask (isProgramEa ea) none (List.finRange 16) (s.effectiveAddress ea sz)
    let _ ← memRead .w ((← get).fc (isProgramEa ea)) a []
    pure ()

/-- The address of a MOVEP transfer, after its displacement word has been fetched (40_data_movement.md R161). -/
def movepAddress (d : Word) (ay : Reg) : M Long := do
  fetchWords 1
  return (← get).areg ay + d.signExtend 32

/-- One byte of a MOVEP read (40_data_movement.md R161). -/
def movepRead (a : Long) : M Byte := do memRead .b ((← get).fc false) a []

/-- One byte of a MOVEP write (40_data_movement.md R161). -/
def movepWrite (a : Long) (v : Byte) : M Unit := do memWrite .b ((← get).fc false) a v [] false

/-- MOVEP.W memory to register: bits 15 to 8 are written before the second byte is read (40_data_movement.md R161). -/
def movepLoadWord (d : Word) (ay dx : Reg) : M Unit := do
  let a ← movepAddress d ay
  let hi ← movepRead a
  modify fun s => s.setDregLow dx (hi ++ (s.dreg dx).setWidth 8)
  let lo ← movepRead (a + 2)
  modify fun s => s.setDregLow dx lo

/-- MOVEP.L memory to register: the register is written once, after the four bytes are read (40_data_movement.md R161). -/
def movepLoadLong (d : Word) (ay dx : Reg) : M Unit := do
  let a ← movepAddress d ay
  let b3 ← movepRead a
  let b2 ← movepRead (a + 2)
  let b1 ← movepRead (a + 4)
  let b0 ← movepRead (a + 6)
  modify fun s => s.setDreg dx (b3 ++ b2 ++ b1 ++ b0)

/-- MOVEP.W register to memory (40_data_movement.md R161). -/
def movepStoreWord (dx : Reg) (d : Word) (ay : Reg) : M Unit := do
  let a ← movepAddress d ay
  let v := (← get).dreg dx
  movepWrite a (v.extractLsb' 8 8)
  movepWrite (a + 2) (v.extractLsb' 0 8)

/-- MOVEP.L register to memory (40_data_movement.md R161). -/
def movepStoreLong (dx : Reg) (d : Word) (ay : Reg) : M Unit := do
  let a ← movepAddress d ay
  let v := (← get).dreg dx
  movepWrite a (v.extractLsb' 24 8)
  movepWrite (a + 2) (v.extractLsb' 16 8)
  movepWrite (a + 4) (v.extractLsb' 8 8)
  movepWrite (a + 6) (v.extractLsb' 0 8)

/-- LINK, its lines in the order of the rule, also for A7 (40_data_movement.md R154). An abort of the fetch of the
displacement word leaves A7 open to any value: the displacement was never read (60_exceptions.md R394; log 15). -/
def linkFrame (an : Reg) (d : Word) : M Unit := do
  leavingOpen [.low (addressX 7) 32] (fetchWords 1)
  let old := (← get).areg 7
  let sp := old - 4
  modify fun s => s.setAreg 7 sp
  let s ← get
  memWrite .l (s.fc false) sp (s.areg an) [.either (addressX 7) old] false
  modify fun s => s.setAreg an (s.areg 7)
  modify fun s => s.setAreg 7 (s.areg 7 + d.signExtend 32)

/-- UNLK, its lines in the order of the rule, also for A7 (40_data_movement.md R167). -/
def unlinkFrame (an : Reg) : M Unit := do
  modify fun s => s.setAreg 7 (s.areg an)
  let s ← get
  let v ← memRead .l (s.fc false) (s.areg 7) []
  modify fun s => s.setAreg 7 (s.areg 7 + 4)
  modify fun s => s.setAreg an v

/-- LEA (40_data_movement.md R153). -/
def loadEffectiveAddress (ea : Ea) (an : Reg) : M Unit := do
  let a ← controlAddress ea
  modify fun s => s.setAreg an a

/-- PEA: the address is computed before the push (40_data_movement.md R165). -/
def pushEffectiveAddress (ea : Ea) : M Unit := do
  let a ← controlAddress ea
  pushLong a

/-- A long result in a data register, with `logic_flags` of it (40_data_movement.md R164, R166). -/
def setDregLogic (dn : Reg) (f : State → Long) : M Unit :=
  modify fun s => (s.setDreg dn (f s)).setSr (s.sr.logicFlags (f s))

/-- EXG Dx,Dy (40_data_movement.md R152). -/
def execExgDD (dx dy : Reg) (s : State) : Host.Outcome State Fault Refusal :=
  runInstruction (.exgDD dx dy)
    (exchange (dataX dx) (dataX dy)) s

/-- EXG Ax,Ay (40_data_movement.md R152). -/
def execExgAA (ax ay : Reg) (s : State) : Host.Outcome State Fault Refusal :=
  runInstruction (.exgAA ax ay)
    (exchange (addressX ax) (addressX ay)) s

/-- EXG Dx,Ay (40_data_movement.md R152). -/
def execExgDA (dx ay : Reg) (s : State) : Host.Outcome State Fault Refusal :=
  runInstruction (.exgDA dx ay)
    (exchange (dataX dx) (addressX ay)) s

/-- LEA (40_data_movement.md R153). -/
def execLea (ea : Ea) (an : Reg) (s : State) : Host.Outcome State Fault Refusal :=
  runInstruction (.lea ea an)
    (loadEffectiveAddress ea an) s

/-- LINK (40_data_movement.md R154). -/
def execLink (an : Reg) (d : Word) (s : State) : Host.Outcome State Fault Refusal :=
  runInstruction (.link an d)
    (linkFrame an d) s

/-- MOVE.B (40_data_movement.md R155). -/
def execMoveB (src dst : Ea) (s : State) : Host.Outcome State Fault Refusal :=
  runInstruction (.moveB src dst)
    (moveEa .b src dst) s

/-- MOVE.W (40_data_movement.md R155). -/
def execMoveW (src dst : Ea) (s : State) : Host.Outcome State Fault Refusal :=
  runInstruction (.moveW src dst)
    (moveEa .w src dst) s

/-- MOVE.L (40_data_movement.md R155). -/
def execMoveL (src dst : Ea) (s : State) : Host.Outcome State Fault Refusal :=
  runInstruction (.moveL src dst)
    (moveEa .l src dst) s

/-- MOVEA.W (40_data_movement.md R156). -/
def execMoveaW (src : Ea) (an : Reg) (s : State) : Host.Outcome State Fault Refusal :=
  runInstruction (.moveaW src an)
    (eaToAn .w src an fun v _ => v) s

/-- MOVEA.L (40_data_movement.md R156). -/
def execMoveaL (src : Ea) (an : Reg) (s : State) : Host.Outcome State Fault Refusal :=
  runInstruction (.moveaL src an)
    (eaToAn .l src an fun v _ => v) s

/-- MOVEM registers to memory (40_data_movement.md R158). -/
def execMovemToMem (sz : WideSize) (mask : Word) (ea : Ea) (s : State) : Host.Outcome State Fault Refusal :=
  runInstruction (.movemToMem sz mask ea)
    (moveRegistersToMemory sz.toSize mask ea) s

/-- MOVEM memory to registers (40_data_movement.md R159). -/
def execMovemToReg (sz : WideSize) (mask : Word) (ea : Ea) (s : State) : Host.Outcome State Fault Refusal :=
  runInstruction (.movemToReg sz mask ea)
    (moveMemoryToRegisters sz.toSize mask ea) s

/-- MOVEP.W d16(Ay),Dx (40_data_movement.md R161). -/
def execMovepToRegW (d : Word) (ay dx : Reg) (s : State) : Host.Outcome State Fault Refusal :=
  runInstruction (.movepToRegW d ay dx)
    (movepLoadWord d ay dx) s

/-- MOVEP.L d16(Ay),Dx (40_data_movement.md R161). -/
def execMovepToRegL (d : Word) (ay dx : Reg) (s : State) : Host.Outcome State Fault Refusal :=
  runInstruction (.movepToRegL d ay dx)
    (movepLoadLong d ay dx) s

/-- MOVEP.W Dx,d16(Ay) (40_data_movement.md R161). -/
def execMovepToMemW (dx : Reg) (d : Word) (ay : Reg) (s : State) : Host.Outcome State Fault Refusal :=
  runInstruction (.movepToMemW dx d ay)
    (movepStoreWord dx d ay) s

/-- MOVEP.L Dx,d16(Ay) (40_data_movement.md R161). -/
def execMovepToMemL (dx : Reg) (d : Word) (ay : Reg) (s : State) : Host.Outcome State Fault Refusal :=
  runInstruction (.movepToMemL dx d ay)
    (movepStoreLong dx d ay) s

/-- MOVEQ (40_data_movement.md R164). -/
def execMoveq (v : Byte) (dn : Reg) (s : State) : Host.Outcome State Fault Refusal :=
  runInstruction (.moveq v dn)
    (setDregLogic dn fun _ => v.signExtend 32) s

/-- PEA (40_data_movement.md R165). -/
def execPea (ea : Ea) (s : State) : Host.Outcome State Fault Refusal :=
  runInstruction (.pea ea)
    (pushEffectiveAddress ea) s

/-- SWAP (40_data_movement.md R166). -/
def execSwap (dn : Reg) (s : State) : Host.Outcome State Fault Refusal :=
  runInstruction (.swap dn)
    (setDregLogic dn fun s => (s.dreg dn).extractLsb' 0 16 ++ (s.dreg dn).extractLsb' 16 16) s

/-- UNLK (40_data_movement.md R167). -/
def execUnlk (an : Reg) (s : State) : Host.Outcome State Fault Refusal :=
  runInstruction (.unlk an)
    (unlinkFrame an) s

end Sys2Proof.Machine
end

