-- ==== Sys2Proof/Machine/Logic.lean ====
section
/-! DEFINITION. The logical instructions (42_logical.md). -/

namespace Sys2Proof.Machine

/-- AND <ea>,Dn (42_logical.md R231). -/
def execAndToDn (sz : Size) (ea : Ea) (dn : Reg) (s : State) : Host.Outcome State Fault Refusal :=
  runInstruction (.andToDn sz ea dn)
    (eaToDn sz ea dn andOp) s

/-- AND Dn,<ea> (42_logical.md R231). -/
def execAndToMem (sz : Size) (dn : Reg) (ea : Ea) (s : State) : Host.Outcome State Fault Refusal :=
  runInstruction (.andToMem sz dn ea)
    (dnToEa sz dn ea andOp) s

/-- ANDI (42_logical.md R232). -/
def execAndi (v : Imm) (ea : Ea) (s : State) : Host.Outcome State Fault Refusal :=
  runInstruction (.andi v ea)
    (immToEa v ea andOp) s

/-- OR <ea>,Dn (42_logical.md R233). -/
def execOrToDn (sz : Size) (ea : Ea) (dn : Reg) (s : State) : Host.Outcome State Fault Refusal :=
  runInstruction (.orToDn sz ea dn)
    (eaToDn sz ea dn orOp) s

/-- OR Dn,<ea> (42_logical.md R233). -/
def execOrToMem (sz : Size) (dn : Reg) (ea : Ea) (s : State) : Host.Outcome State Fault Refusal :=
  runInstruction (.orToMem sz dn ea)
    (dnToEa sz dn ea orOp) s

/-- ORI (42_logical.md R234). -/
def execOri (v : Imm) (ea : Ea) (s : State) : Host.Outcome State Fault Refusal :=
  runInstruction (.ori v ea)
    (immToEa v ea orOp) s

/-- EOR (42_logical.md R235). -/
def execEor (sz : Size) (dn : Reg) (ea : Ea) (s : State) : Host.Outcome State Fault Refusal :=
  runInstruction (.eor sz dn ea)
    (dnToEa sz dn ea eorOp) s

/-- EORI (42_logical.md R236). -/
def execEori (v : Imm) (ea : Ea) (s : State) : Host.Outcome State Fault Refusal :=
  runInstruction (.eori v ea)
    (immToEa v ea eorOp) s

/-- NOT (42_logical.md R237). -/
def execNotEa (sz : Size) (ea : Ea) (s : State) : Host.Outcome State Fault Refusal :=
  runInstruction (.notEa sz ea)
    (modifyEa sz ea notOp) s

end Sys2Proof.Machine
end

