-- ==== Sys2Proof/Machine/Shift.lean ====
section
/-! DEFINITION. The shift and rotate instructions (43_shift_rotate.md). -/

namespace Sys2Proof.Machine

/-- The register form: `n` steps on the operand in `D[y]` (43_shift_rotate.md R250). -/
def shiftDn (sz : Size) (dy : Reg) (n : State → Nat) (op : Shift sz.bits) : M Unit :=
  modify fun s =>
    let o := op ((s.dreg dy).setWidth sz.bits) (n s) s.sr.x
    (s.setDregLow dy o.r).setSr (s.sr.shiftFlags o)

/-- An immediate count, 1 to 8 (43_shift_rotate.md R251). -/
def immediateCount (n : Fin 8) (_ : State) : Nat := quickValue n

/-- A register count, the low-order six bits: 0 to 63 (43_shift_rotate.md R251). -/
def registerCount (dx : Reg) (s : State) : Nat := ((s.dreg dx).extractLsb' 0 6).toNat

/-- The memory form: a word, one step, the condition codes before the write (43_shift_rotate.md R250, R253). -/
def shiftMem (ea : Ea) (op : Shift 16) : M Unit :=
  modifyEaCodesFirst .w ea fun (d : BitVec 16) sr =>
    let o := op d 1 sr.x
    (o.r, sr.shiftFlags o)

/-- ASR <ea> (43_shift_rotate.md R254). -/
def execAsrMem (ea : Ea) (s : State) : Host.Outcome State Fault Refusal :=
  runInstruction (.asrMem ea)
    (shiftMem ea asr) s

/-- ASR #n,Dy (43_shift_rotate.md R254). -/
def execAsrImm (n : Fin 8) (sz : Size) (dy : Reg) (s : State) : Host.Outcome State Fault Refusal :=
  runInstruction (.asrImm n sz dy)
    (shiftDn sz dy (immediateCount n) asr) s

/-- ASR Dx,Dy (43_shift_rotate.md R254). -/
def execAsrReg (dx : Reg) (sz : Size) (dy : Reg) (s : State) : Host.Outcome State Fault Refusal :=
  runInstruction (.asrReg dx sz dy)
    (shiftDn sz dy (registerCount dx) asr) s

/-- ASL <ea> (43_shift_rotate.md R253). -/
def execAslMem (ea : Ea) (s : State) : Host.Outcome State Fault Refusal :=
  runInstruction (.aslMem ea)
    (shiftMem ea asl) s

/-- ASL #n,Dy (43_shift_rotate.md R253). -/
def execAslImm (n : Fin 8) (sz : Size) (dy : Reg) (s : State) : Host.Outcome State Fault Refusal :=
  runInstruction (.aslImm n sz dy)
    (shiftDn sz dy (immediateCount n) asl) s

/-- ASL Dx,Dy (43_shift_rotate.md R253). -/
def execAslReg (dx : Reg) (sz : Size) (dy : Reg) (s : State) : Host.Outcome State Fault Refusal :=
  runInstruction (.aslReg dx sz dy)
    (shiftDn sz dy (registerCount dx) asl) s

/-- LSR <ea> (43_shift_rotate.md R256). -/
def execLsrMem (ea : Ea) (s : State) : Host.Outcome State Fault Refusal :=
  runInstruction (.lsrMem ea)
    (shiftMem ea lsr) s

/-- LSR #n,Dy (43_shift_rotate.md R256). -/
def execLsrImm (n : Fin 8) (sz : Size) (dy : Reg) (s : State) : Host.Outcome State Fault Refusal :=
  runInstruction (.lsrImm n sz dy)
    (shiftDn sz dy (immediateCount n) lsr) s

/-- LSR Dx,Dy (43_shift_rotate.md R256). -/
def execLsrReg (dx : Reg) (sz : Size) (dy : Reg) (s : State) : Host.Outcome State Fault Refusal :=
  runInstruction (.lsrReg dx sz dy)
    (shiftDn sz dy (registerCount dx) lsr) s

/-- LSL <ea> (43_shift_rotate.md R255). -/
def execLslMem (ea : Ea) (s : State) : Host.Outcome State Fault Refusal :=
  runInstruction (.lslMem ea)
    (shiftMem ea lsl) s

/-- LSL #n,Dy (43_shift_rotate.md R255). -/
def execLslImm (n : Fin 8) (sz : Size) (dy : Reg) (s : State) : Host.Outcome State Fault Refusal :=
  runInstruction (.lslImm n sz dy)
    (shiftDn sz dy (immediateCount n) lsl) s

/-- LSL Dx,Dy (43_shift_rotate.md R255). -/
def execLslReg (dx : Reg) (sz : Size) (dy : Reg) (s : State) : Host.Outcome State Fault Refusal :=
  runInstruction (.lslReg dx sz dy)
    (shiftDn sz dy (registerCount dx) lsl) s

/-- ROXR <ea> (43_shift_rotate.md R260). -/
def execRoxrMem (ea : Ea) (s : State) : Host.Outcome State Fault Refusal :=
  runInstruction (.roxrMem ea)
    (shiftMem ea roxr) s

/-- ROXR #n,Dy (43_shift_rotate.md R260). -/
def execRoxrImm (n : Fin 8) (sz : Size) (dy : Reg) (s : State) : Host.Outcome State Fault Refusal :=
  runInstruction (.roxrImm n sz dy)
    (shiftDn sz dy (immediateCount n) roxr) s

/-- ROXR Dx,Dy (43_shift_rotate.md R260). -/
def execRoxrReg (dx : Reg) (sz : Size) (dy : Reg) (s : State) : Host.Outcome State Fault Refusal :=
  runInstruction (.roxrReg dx sz dy)
    (shiftDn sz dy (registerCount dx) roxr) s

/-- ROXL <ea> (43_shift_rotate.md R259). -/
def execRoxlMem (ea : Ea) (s : State) : Host.Outcome State Fault Refusal :=
  runInstruction (.roxlMem ea)
    (shiftMem ea roxl) s

/-- ROXL #n,Dy (43_shift_rotate.md R259). -/
def execRoxlImm (n : Fin 8) (sz : Size) (dy : Reg) (s : State) : Host.Outcome State Fault Refusal :=
  runInstruction (.roxlImm n sz dy)
    (shiftDn sz dy (immediateCount n) roxl) s

/-- ROXL Dx,Dy (43_shift_rotate.md R259). -/
def execRoxlReg (dx : Reg) (sz : Size) (dy : Reg) (s : State) : Host.Outcome State Fault Refusal :=
  runInstruction (.roxlReg dx sz dy)
    (shiftDn sz dy (registerCount dx) roxl) s

/-- ROR <ea> (43_shift_rotate.md R258). -/
def execRorMem (ea : Ea) (s : State) : Host.Outcome State Fault Refusal :=
  runInstruction (.rorMem ea)
    (shiftMem ea ror) s

/-- ROR #n,Dy (43_shift_rotate.md R258). -/
def execRorImm (n : Fin 8) (sz : Size) (dy : Reg) (s : State) : Host.Outcome State Fault Refusal :=
  runInstruction (.rorImm n sz dy)
    (shiftDn sz dy (immediateCount n) ror) s

/-- ROR Dx,Dy (43_shift_rotate.md R258). -/
def execRorReg (dx : Reg) (sz : Size) (dy : Reg) (s : State) : Host.Outcome State Fault Refusal :=
  runInstruction (.rorReg dx sz dy)
    (shiftDn sz dy (registerCount dx) ror) s

/-- ROL <ea> (43_shift_rotate.md R257). -/
def execRolMem (ea : Ea) (s : State) : Host.Outcome State Fault Refusal :=
  runInstruction (.rolMem ea)
    (shiftMem ea rol) s

/-- ROL #n,Dy (43_shift_rotate.md R257). -/
def execRolImm (n : Fin 8) (sz : Size) (dy : Reg) (s : State) : Host.Outcome State Fault Refusal :=
  runInstruction (.rolImm n sz dy)
    (shiftDn sz dy (immediateCount n) rol) s

/-- ROL Dx,Dy (43_shift_rotate.md R257). -/
def execRolReg (dx : Reg) (sz : Size) (dy : Reg) (s : State) : Host.Outcome State Fault Refusal :=
  runInstruction (.rolReg dx sz dy)
    (shiftDn sz dy (registerCount dx) rol) s

end Sys2Proof.Machine
end

