-- ==== Sys2Proof/Machine/System.lean ====
section
/-! DEFINITION. The system control instructions and the operation words that only trap (47_system_control.md). The
privilege check stands in `runInstruction`. -/

namespace Sys2Proof.Machine

/-- An immediate word on the condition codes; only bits 4 to 0 count (47_system_control.md R311, R313, R315). -/
def immToCcr (v : Byte) (f : BitVec 5 → BitVec 5 → BitVec 5) : M Unit := do
  fetchWords 1
  modify fun s => s.setSr (s.sr.setCodes (f s.sr.codes (v.extractLsb' 0 5)))

/-- An immediate word on the whole status register, masked with $A71F (47_system_control.md R312, R314, R316). -/
def immToSr (v : Word) (f : Word → Word → Word) : M Unit := do
  fetchWords 1
  modify fun s => s.setSr (Sr.ofWord (f s.sr.toWord v))

/-- MOVE to CCR: a word operand, its low-order five bits used (47_system_control.md R317). -/
def moveToCodes (ea : Ea) : M Unit := do
  let v : Word ← readEa .w ea
  modify fun s => s.setSr (s.sr.setCodes (v.extractLsb' 0 5))

/-- MOVE to SR: the operand is read with the old S (47_system_control.md R318). -/
def moveToStatus (ea : Ea) : M Unit := do
  let v : Word ← readEa .w ea
  modify fun s => s.setSr (Sr.ofWord v)

/-- MOVE from SR (47_system_control.md R319). -/
def moveFromStatus (ea : Ea) : M Unit := do
  let loc ← evalEa ea .w
  discardRead .w loc
  writeLoc .w loc (← get).sr.toWord

/-- STOP: the immediate into SR, then the stopped state (47_system_control.md R324). -/
def stopProcessor (v : Word) : M Unit := do
  let traced := (← get).sr.t
  fetchWords 1
  modify fun s => { s with sr := Sr.ofWord v, run := .stopped, stopTrace := traced }

/-- CHK: Z, V and C free; below zero N is set and the trap taken, above the bound N is cleared and the trap taken, else N
is free (47_system_control.md R322). -/
def checkBounds (ea : Ea) (dn : Reg) : M Unit := do
  let bound : Word ← readEa .w ea
  let value := ((← get).dreg dn).setWidth 16
  let z ← drawBit
  let v ← drawBit
  let c ← drawBit
  modify fun s => s.setSr { s.sr with z := z, v := v, c := c }
  if value.toInt < 0 then
    modify fun s => s.setSr { s.sr with n := true }
    raiseTrap 6
  else if value.toInt > bound.toInt then
    modify fun s => s.setSr { s.sr with n := false }
    raiseTrap 6
  else
    let n ← drawBit
    modify fun s => s.setSr { s.sr with n := n }

/-- TRAPV (47_system_control.md R326). -/
def trapOnOverflow : M Unit := do
  if (← get).sr.v then raiseTrap 7

/-- An operation word that only traps: the address of the word itself is stacked (47_system_control.md R327 to R329,
60_exceptions.md R383, R384). -/
def trapWord (v : Byte) : M Unit := do takeException .g1 (.internal v) ((← get).pc - 2)

/-- ANDI to CCR (47_system_control.md R311). -/
def execAndiToCcr (v : Byte) (s : State) : Host.Outcome State Fault Refusal :=
  runInstruction (.andiToCcr v)
    (immToCcr v fun a b => a &&& b) s

/-- ANDI to SR, privileged (47_system_control.md R312). -/
def execAndiToSr (v : Word) (s : State) : Host.Outcome State Fault Refusal :=
  runInstruction (.andiToSr v)
    (immToSr v fun a b => a &&& b) s

/-- EORI to CCR (47_system_control.md R313). -/
def execEoriToCcr (v : Byte) (s : State) : Host.Outcome State Fault Refusal :=
  runInstruction (.eoriToCcr v)
    (immToCcr v fun a b => a ^^^ b) s

/-- EORI to SR, privileged (47_system_control.md R314). -/
def execEoriToSr (v : Word) (s : State) : Host.Outcome State Fault Refusal :=
  runInstruction (.eoriToSr v)
    (immToSr v fun a b => a ^^^ b) s

/-- ORI to CCR (47_system_control.md R315). -/
def execOriToCcr (v : Byte) (s : State) : Host.Outcome State Fault Refusal :=
  runInstruction (.oriToCcr v)
    (immToCcr v fun a b => a ||| b) s

/-- ORI to SR, privileged (47_system_control.md R316). -/
def execOriToSr (v : Word) (s : State) : Host.Outcome State Fault Refusal :=
  runInstruction (.oriToSr v)
    (immToSr v fun a b => a ||| b) s

/-- MOVE to CCR (47_system_control.md R317). -/
def execMoveToCcr (ea : Ea) (s : State) : Host.Outcome State Fault Refusal :=
  runInstruction (.moveToCcr ea)
    (moveToCodes ea) s

/-- MOVE to SR, privileged (47_system_control.md R318). -/
def execMoveToSr (ea : Ea) (s : State) : Host.Outcome State Fault Refusal :=
  runInstruction (.moveToSr ea)
    (moveToStatus ea) s

/-- MOVE from SR (47_system_control.md R319). -/
def execMoveFromSr (ea : Ea) (s : State) : Host.Outcome State Fault Refusal :=
  runInstruction (.moveFromSr ea)
    (moveFromStatus ea) s

/-- MOVE An,USP, privileged (47_system_control.md R320). -/
def execMoveToUsp (an : Reg) (s : State) : Host.Outcome State Fault Refusal :=
  runInstruction (.moveToUsp an)
    (modify fun s => { s with usp := s.areg an }) s

/-- MOVE USP,An, privileged (47_system_control.md R320). -/
def execMoveFromUsp (an : Reg) (s : State) : Host.Outcome State Fault Refusal :=
  runInstruction (.moveFromUsp an)
    (modify fun s => s.setAreg an s.usp) s

/-- RTE, privileged (47_system_control.md R321). -/
def execRte (s : State) : Host.Outcome State Fault Refusal :=
  runInstruction .rte
    (returnFromException) s

/-- CHK (47_system_control.md R322). -/
def execChk (ea : Ea) (dn : Reg) (s : State) : Host.Outcome State Fault Refusal :=
  runInstruction (.chk ea dn)
    (checkBounds ea dn) s

/-- RESET, privileged: the reset line is driven, the processor unchanged (47_system_control.md R323; log 11). -/
def execReset (s : State) : Host.Outcome State Fault Refusal :=
  runInstruction .reset
    (modify fun s => s.record .resetPulse) s

/-- STOP, privileged (47_system_control.md R324). -/
def execStop (v : Word) (s : State) : Host.Outcome State Fault Refusal :=
  runInstruction (.stop v)
    (stopProcessor v) s

/-- TRAP #v: vector 32 + v (47_system_control.md R325). -/
def execTrap (v : Fin 16) (s : State) : Host.Outcome State Fault Refusal :=
  runInstruction (.trap v)
    (raiseTrap (BitVec.ofNat 8 (32 + v.val))) s

/-- TRAPV (47_system_control.md R326). -/
def execTrapv (s : State) : Host.Outcome State Fault Refusal :=
  runInstruction .trapv
    (trapOnOverflow) s

/-- ILLEGAL, $4AFC (47_system_control.md R327). -/
def execIllegal (s : State) : Host.Outcome State Fault Refusal :=
  runInstruction .illegal
    (trapWord 4) s

/-- $4AFA, reserved for the system (47_system_control.md R327). -/
def execIllegal4AFA (s : State) : Host.Outcome State Fault Refusal :=
  runInstruction .illegal4AFA
    (trapWord 4) s

/-- $4AFB, reserved for the system (47_system_control.md R327). -/
def execIllegal4AFB (s : State) : Host.Outcome State Fault Refusal :=
  runInstruction .illegal4AFB
    (trapWord 4) s

/-- Line 1010 (47_system_control.md R328). -/
def execLineA (w : BitVec 12) (s : State) : Host.Outcome State Fault Refusal :=
  runInstruction (.lineA w)
    (trapWord 10) s

/-- Line 1111 (47_system_control.md R329). -/
def execLineF (w : BitVec 12) (s : State) : Host.Outcome State Fault Refusal :=
  runInstruction (.lineF w)
    (trapWord 11) s

end Sys2Proof.Machine
end

