-- ==== Sys2Proof/Machine/Dispatch.lean ====
section
/-! DEFINITION. The meaning of every instruction, one arm per constructor. -/

namespace Sys2Proof.Machine

def exec (i : Instr) (s : State) : Host.Outcome State Fault Refusal :=
  match i with
  | .oriToCcr v => Sys2Proof.Machine.execOriToCcr v s
  | .oriToSr v => Sys2Proof.Machine.execOriToSr v s
  | .ori v ea => Sys2Proof.Machine.execOri v ea s
  | .andiToCcr v => Sys2Proof.Machine.execAndiToCcr v s
  | .andiToSr v => Sys2Proof.Machine.execAndiToSr v s
  | .andi v ea => Sys2Proof.Machine.execAndi v ea s
  | .eoriToCcr v => Sys2Proof.Machine.execEoriToCcr v s
  | .eoriToSr v => Sys2Proof.Machine.execEoriToSr v s
  | .eori v ea => Sys2Proof.Machine.execEori v ea s
  | .subi v ea => Sys2Proof.Machine.execSubi v ea s
  | .addi v ea => Sys2Proof.Machine.execAddi v ea s
  | .cmpi v ea => Sys2Proof.Machine.execCmpi v ea s
  | .btstStatic bit ea => Sys2Proof.Machine.execBtstStatic bit ea s
  | .btstDynamic dn ea => Sys2Proof.Machine.execBtstDynamic dn ea s
  | .bchgStatic bit ea => Sys2Proof.Machine.execBchgStatic bit ea s
  | .bchgDynamic dn ea => Sys2Proof.Machine.execBchgDynamic dn ea s
  | .bclrStatic bit ea => Sys2Proof.Machine.execBclrStatic bit ea s
  | .bclrDynamic dn ea => Sys2Proof.Machine.execBclrDynamic dn ea s
  | .bsetStatic bit ea => Sys2Proof.Machine.execBsetStatic bit ea s
  | .bsetDynamic dn ea => Sys2Proof.Machine.execBsetDynamic dn ea s
  | .movepToRegW d ay dx => Sys2Proof.Machine.execMovepToRegW d ay dx s
  | .movepToRegL d ay dx => Sys2Proof.Machine.execMovepToRegL d ay dx s
  | .movepToMemW dx d ay => Sys2Proof.Machine.execMovepToMemW dx d ay s
  | .movepToMemL dx d ay => Sys2Proof.Machine.execMovepToMemL dx d ay s
  | .moveB src dst => Sys2Proof.Machine.execMoveB src dst s
  | .moveW src dst => Sys2Proof.Machine.execMoveW src dst s
  | .moveaW src an => Sys2Proof.Machine.execMoveaW src an s
  | .moveL src dst => Sys2Proof.Machine.execMoveL src dst s
  | .moveaL src an => Sys2Proof.Machine.execMoveaL src an s
  | .negx sz ea => Sys2Proof.Machine.execNegx sz ea s
  | .moveFromSr ea => Sys2Proof.Machine.execMoveFromSr ea s
  | .chk ea dn => Sys2Proof.Machine.execChk ea dn s
  | .lea ea an => Sys2Proof.Machine.execLea ea an s
  | .clr sz ea => Sys2Proof.Machine.execClr sz ea s
  | .neg sz ea => Sys2Proof.Machine.execNeg sz ea s
  | .moveToCcr ea => Sys2Proof.Machine.execMoveToCcr ea s
  | .notEa sz ea => Sys2Proof.Machine.execNotEa sz ea s
  | .moveToSr ea => Sys2Proof.Machine.execMoveToSr ea s
  | .nbcd ea => Sys2Proof.Machine.execNbcd ea s
  | .swap dn => Sys2Proof.Machine.execSwap dn s
  | .pea ea => Sys2Proof.Machine.execPea ea s
  | .extW dn => Sys2Proof.Machine.execExtW dn s
  | .extL dn => Sys2Proof.Machine.execExtL dn s
  | .movemToMem sz mask ea => Sys2Proof.Machine.execMovemToMem sz mask ea s
  | .tst sz ea => Sys2Proof.Machine.execTst sz ea s
  | .tas ea => Sys2Proof.Machine.execTas ea s
  | .illegal => Sys2Proof.Machine.execIllegal s
  | .illegal4AFA => Sys2Proof.Machine.execIllegal4AFA s
  | .illegal4AFB => Sys2Proof.Machine.execIllegal4AFB s
  | .movemToReg sz mask ea => Sys2Proof.Machine.execMovemToReg sz mask ea s
  | .trap v => Sys2Proof.Machine.execTrap v s
  | .link an d => Sys2Proof.Machine.execLink an d s
  | .unlk an => Sys2Proof.Machine.execUnlk an s
  | .moveToUsp an => Sys2Proof.Machine.execMoveToUsp an s
  | .moveFromUsp an => Sys2Proof.Machine.execMoveFromUsp an s
  | .reset => Sys2Proof.Machine.execReset s
  | .nop => Sys2Proof.Machine.execNop s
  | .stop v => Sys2Proof.Machine.execStop v s
  | .rte => Sys2Proof.Machine.execRte s
  | .rts => Sys2Proof.Machine.execRts s
  | .trapv => Sys2Proof.Machine.execTrapv s
  | .rtr => Sys2Proof.Machine.execRtr s
  | .jsr ea => Sys2Proof.Machine.execJsr ea s
  | .jmp ea => Sys2Proof.Machine.execJmp ea s
  | .addq q sz ea => Sys2Proof.Machine.execAddq q sz ea s
  | .subq q sz ea => Sys2Proof.Machine.execSubq q sz ea s
  | .scc c ea => Sys2Proof.Machine.execScc c ea s
  | .dbcc c dn d => Sys2Proof.Machine.execDbcc c dn d s
  | .bra d => Sys2Proof.Machine.execBra d s
  | .bsr d => Sys2Proof.Machine.execBsr d s
  | .bcc c d => Sys2Proof.Machine.execBcc c d s
  | .moveq v dn => Sys2Proof.Machine.execMoveq v dn s
  | .orToDn sz ea dn => Sys2Proof.Machine.execOrToDn sz ea dn s
  | .orToMem sz dn ea => Sys2Proof.Machine.execOrToMem sz dn ea s
  | .divu ea dn => Sys2Proof.Machine.execDivu ea dn s
  | .divs ea dn => Sys2Proof.Machine.execDivs ea dn s
  | .sbcdReg dy dx => Sys2Proof.Machine.execSbcdReg dy dx s
  | .sbcdMem ay ax => Sys2Proof.Machine.execSbcdMem ay ax s
  | .subToDn sz ea dn => Sys2Proof.Machine.execSubToDn sz ea dn s
  | .subToMem sz dn ea => Sys2Proof.Machine.execSubToMem sz dn ea s
  | .subaW ea an => Sys2Proof.Machine.execSubaW ea an s
  | .subaL ea an => Sys2Proof.Machine.execSubaL ea an s
  | .subxReg sz dy dx => Sys2Proof.Machine.execSubxReg sz dy dx s
  | .subxMem sz ay ax => Sys2Proof.Machine.execSubxMem sz ay ax s
  | .lineA w => Sys2Proof.Machine.execLineA w s
  | .cmp sz ea dn => Sys2Proof.Machine.execCmp sz ea dn s
  | .cmpaW ea an => Sys2Proof.Machine.execCmpaW ea an s
  | .cmpaL ea an => Sys2Proof.Machine.execCmpaL ea an s
  | .cmpm sz ay ax => Sys2Proof.Machine.execCmpm sz ay ax s
  | .eor sz dn ea => Sys2Proof.Machine.execEor sz dn ea s
  | .andToDn sz ea dn => Sys2Proof.Machine.execAndToDn sz ea dn s
  | .andToMem sz dn ea => Sys2Proof.Machine.execAndToMem sz dn ea s
  | .mulu ea dn => Sys2Proof.Machine.execMulu ea dn s
  | .muls ea dn => Sys2Proof.Machine.execMuls ea dn s
  | .abcdReg dy dx => Sys2Proof.Machine.execAbcdReg dy dx s
  | .abcdMem ay ax => Sys2Proof.Machine.execAbcdMem ay ax s
  | .exgDD dx dy => Sys2Proof.Machine.execExgDD dx dy s
  | .exgAA ax ay => Sys2Proof.Machine.execExgAA ax ay s
  | .exgDA dx ay => Sys2Proof.Machine.execExgDA dx ay s
  | .addToDn sz ea dn => Sys2Proof.Machine.execAddToDn sz ea dn s
  | .addToMem sz dn ea => Sys2Proof.Machine.execAddToMem sz dn ea s
  | .addaW ea an => Sys2Proof.Machine.execAddaW ea an s
  | .addaL ea an => Sys2Proof.Machine.execAddaL ea an s
  | .addxReg sz dy dx => Sys2Proof.Machine.execAddxReg sz dy dx s
  | .addxMem sz ay ax => Sys2Proof.Machine.execAddxMem sz ay ax s
  | .asrMem ea => Sys2Proof.Machine.execAsrMem ea s
  | .asrImm n sz dy => Sys2Proof.Machine.execAsrImm n sz dy s
  | .asrReg dx sz dy => Sys2Proof.Machine.execAsrReg dx sz dy s
  | .aslMem ea => Sys2Proof.Machine.execAslMem ea s
  | .aslImm n sz dy => Sys2Proof.Machine.execAslImm n sz dy s
  | .aslReg dx sz dy => Sys2Proof.Machine.execAslReg dx sz dy s
  | .lsrMem ea => Sys2Proof.Machine.execLsrMem ea s
  | .lsrImm n sz dy => Sys2Proof.Machine.execLsrImm n sz dy s
  | .lsrReg dx sz dy => Sys2Proof.Machine.execLsrReg dx sz dy s
  | .lslMem ea => Sys2Proof.Machine.execLslMem ea s
  | .lslImm n sz dy => Sys2Proof.Machine.execLslImm n sz dy s
  | .lslReg dx sz dy => Sys2Proof.Machine.execLslReg dx sz dy s
  | .roxrMem ea => Sys2Proof.Machine.execRoxrMem ea s
  | .roxrImm n sz dy => Sys2Proof.Machine.execRoxrImm n sz dy s
  | .roxrReg dx sz dy => Sys2Proof.Machine.execRoxrReg dx sz dy s
  | .roxlMem ea => Sys2Proof.Machine.execRoxlMem ea s
  | .roxlImm n sz dy => Sys2Proof.Machine.execRoxlImm n sz dy s
  | .roxlReg dx sz dy => Sys2Proof.Machine.execRoxlReg dx sz dy s
  | .rorMem ea => Sys2Proof.Machine.execRorMem ea s
  | .rorImm n sz dy => Sys2Proof.Machine.execRorImm n sz dy s
  | .rorReg dx sz dy => Sys2Proof.Machine.execRorReg dx sz dy s
  | .rolMem ea => Sys2Proof.Machine.execRolMem ea s
  | .rolImm n sz dy => Sys2Proof.Machine.execRolImm n sz dy s
  | .rolReg dx sz dy => Sys2Proof.Machine.execRolReg dx sz dy s
  | .lineF w => Sys2Proof.Machine.execLineF w s

end Sys2Proof.Machine
end

