-- ==== Sys2Proof/Machine/Boundary.lean ====
section
/-! DEFINITION. What happens at and between instruction boundaries: the operation word fetch, the instruction, the trace
exception, interrupts, the stopped state (60_exceptions.md R361 to R385, 47_system_control.md R324). -/

namespace Sys2Proof.Machine

/-- The fetch of an operation word: it goes to the instruction register, and the group 0 window closes (60_exceptions.md
R362, R405). -/
def fetchOperation : M Word := do
  let w ← fetchWord
  modify fun s => { s with ir := w, xgroup := .none, handlerFetch := false, extWords := [] }
  return w

/-- The words at an address and after it, as memory holds them; no bus cycle runs (log 29). -/
def State.wordsAt (s : State) (a : Long) : Nat → List Word
  | 0 => []
  | n + 1 => s.wordAt a :: s.wordsAt (a + 2) n

/-- The trace exception after an executed instruction that began with T set, unless it was aborted or stopped the
processor (60_exceptions.md R380, 47_system_control.md R324; log 18). -/
def traceAfter (traced : Bool) (u : State) : State :=
  if traced && u.xgroup != .g0 && u.run == .normal then boundaryException .g1 (.internal 9) u.pc u else u

/-- An instruction run, and the trace exception after it (60_exceptions.md R362). -/
def runDecoded (i : Instr) (t : State) : Host.Outcome State Fault Refusal :=
  match exec i t with
  | .next u => .next (traceAfter (t.sr.t && isExecuted i t) u)
  | .fault r => .fault r
  | .refused r => .refused r

/-- An operation word that is no instruction: vector 4, its own address stacked (60_exceptions.md R383). -/
def illegalOperation (t : State) : State := boundaryException .g1 (.internal 4) (t.pc - 2) t

/-- An operation word and guesses of the four words after it, run: the instruction they decode to, or the illegal
instruction exception (60_exceptions.md R362, R383). -/
def runWords (w : Word) (words : List Word) (t : State) : Host.Outcome State Fault Refusal :=
  match decode (w :: words) with
  | .ok (i, _) => runDecoded i t
  | .error .illegal => .next (illegalOperation t)
  | .error .truncated => .fault .shortFetch

/-- The guessed words corrected by those that the run fetched; none where every word it fetched had been guessed
(log 29). -/
def corrected (words : List Word) (o : Host.Outcome State Fault Refusal) : Option (List Word) :=
  match o with
  | .next u =>
    if u.extWords = words.take u.extWords.length then none
    else some (u.extWords ++ words.drop u.extWords.length)
  | .fault _ | .refused _ => none

/-- The run whose further words are those that its own fetches give: each attempt sets at least one more word right, and an
instruction has four at most (30_encoding.md R100; log 29). -/
def runFetched (w : Word) (t : State) : Nat → List Word → Host.Outcome State Fault Refusal
  | 0, words => runWords w words t
  | n + 1, words =>
    let o := runWords w words t
    match corrected words o with
    | none => o
    | some words => runFetched w t n words

/-- The instruction at `PC`: fetch, decode, execute (60_exceptions.md R362). A fault in the fetch of the operation word is
no part of an instruction (60_exceptions.md R391, R392). The further words are what memory holds; where other bus masters,
devices, spaces or a reset can come between, they are what their own fetches give (log 29). -/
def instructionStep (s : State) : Host.Outcome State Fault Refusal :=
  match fetchOperation s with
  | .error e t => .next (boundaryAbort e t)
  | .ok w t => runFetched w t (if t.platform = .plain then 0 else 4) (t.wordsAt t.pc 4)

/-- `Recognised(lvl)`: above the mask, or the edge of level 7 (60_exceptions.md R372, R373). -/
def State.recognised (s : State) : Bool :=
  s.sr.i.toNat < s.ipl.toNat || (s.ipl == 7#3 && s.prevIpl.toNat < 7)

/-- The level of this sample kept for the next (60_exceptions.md R373). -/
def State.sampled (s : State) : State := { s with prevIpl := s.ipl }

/-- The interrupt exception of the level presented (60_exceptions.md R370). -/
def interruptStep (s : State) : State := boundaryException .g1 (.acknowledge s.ipl) s.pc s.sampled

/-- The normal state: an interrupt recognised at the boundary, else the instruction (60_exceptions.md R362). -/
def normalStep (s : State) : Host.Outcome State Fault Refusal :=
  if s.recognised then .next (interruptStep s) else instructionStep s.sampled

/-- The stopped state: a trace exception where STOP began with T set, else an interrupt, else nothing
(47_system_control.md R324; log 9). -/
def stoppedStep (s : State) : State :=
  if s.stopTrace then boundaryException .g1 (.internal 9) s.pc { s with stopTrace := false }
  else if s.recognised then interruptStep s
  else s.sampled

/-- One step of the processor (60_exceptions.md R362): reset, the halted state, the stopped state, the normal state. The
record of bus cycles begins anew (log 25). -/
def processorStep (s : State) : Host.Outcome State Fault Refusal :=
  let s := { s with bus := [] }
  if s.extReset then .next (resetException s)
  else
    match s.run with
    | .halted => .next s
    | .stopped => .next (stoppedStep s)
    | .normal => normalStep s

/-- Words stored from an address on where program references reach them, each big-endian (20_memory.md R60, R66). -/
def State.storeWords (s : State) (a : Long) : List Word → State
  | [] => s
  | w :: rest => (s.setCellWord (s.fc true) a w).storeWords (a + 2) rest

end Sys2Proof.Machine
end

