-- ==== Sys2Proof/Machine/Step.lean ====
section
/-! DEFINITION. One step of the machine, and an instruction placed where the next step fetches it. -/

namespace Sys2Proof.Machine

/-- One step (60_exceptions.md R362). -/
def step (s : State) : Host.Outcome State Fault Refusal := processorStep s

/-- The state with the five words whose bits are `w` (every bit from `nbits` on zero) stored at `PC` (log 4). -/
def State.withFetchWord (s : State) (nbits w : Nat) : State := s.storeWords s.pc (tableWords nbits w)

end Sys2Proof.Machine
end

