-- ==== Sys2Proof/Safety.lean ====
section
/-! DEFINITION. The terms statements are made in: a platform that answers every bus cycle, operands and the places they
are read from and written to, and what an instruction leaves alone. -/

namespace Sys2Proof.Machine

/-- An even address (20_memory.md R63). -/
def isEven (a : Long) : Bool := !a.getLsbD 0

/-- An address at which an access of a size raises no address error (20_memory.md R63). -/
def isAligned (sz : Size) (a : Long) : Bool := sz == .b || isEven a

/-- The plain platform, and an even `PC`: the words of an instruction can be fetched (20_memory.md R63, R66, R76, R80,
R88). -/
abbrev State.ready (s : State) : Prop := s.platform = .plain ∧ isEven s.pc = true

/-- The operand of a size at an address of memory (20_memory.md R60). -/
def State.readAt (s : State) (sz : Size) (a : Long) : BitVec sz.bits :=
  match sz with
  | .b => s.byteAt a
  | .w => s.wordAt a
  | .l => s.longAt a

/-- The bytes of memory from an address on. -/
def bytesFrom (a : Long) (n : Nat) : List Nat := (List.range n).map fun k => physical (a + BitVec.ofNat 32 k)

/-- The bytes an operand of a size at an address takes. -/
def operandBytes (sz : Size) (a : Long) : List Nat := bytesFrom a sz.bytes

/-- Every byte of memory reads as before. -/
def State.sameMemory (s t : State) : Prop := ∀ x, Memory.get t.mem x = Memory.get s.mem x

/-- Every byte of memory but those named reads as before. -/
def State.sameMemoryOutside (s t : State) (xs : List Nat) : Prop :=
  ∀ x, x ∉ xs → Memory.get t.mem x = Memory.get s.mem x

/-- Every byte of memory but those of the operand of a size at an address reads as before. -/
def State.sameMemoryBut (s t : State) (sz : Size) (a : Long) : Prop :=
  ∀ x, x ∉ operandBytes sz a → Memory.get t.mem x = Memory.get s.mem x

/-- `D0` to `D7` are unchanged but for one. -/
def State.sameDataBut (s t : State) (n : Reg) : Prop := ∀ m, m ≠ n → t.dreg m = s.dreg m

/-- `A0` to `A6` and both stack pointers are unchanged. -/
abbrev State.sameAddress (s t : State) : Prop := t.a = s.a ∧ t.usp = s.usp ∧ t.ssp = s.ssp

/-- `A0` to `A7` are unchanged but for one, and so is the stack pointer that is not `A7` (10_state.md R27). -/
def State.sameAddressBut (s t : State) (n : Reg) : Prop :=
  (∀ m, m ≠ n → t.areg m = s.areg m) ∧ (s.sr.s = true → t.usp = s.usp) ∧ (s.sr.s = false → t.ssp = s.ssp)

/-- The processor's internal state and the platform's inputs are unchanged. -/
abbrev State.sameSystem (s t : State) : Prop :=
  t.ir = s.ir ∧ t.run = s.run ∧ t.xgroup = s.xgroup ∧ t.prevIpl = s.prevIpl ∧ t.stopTrace = s.stopTrace ∧
    t.handlerFetch = s.handlerFetch ∧ t.ipl = s.ipl ∧ t.iack = s.iack ∧ t.platform = s.platform ∧
    t.extReset = s.extReset

/-- The state with `PC` past a number of further words. -/
def State.advanced (s : State) (words : Nat) : State := { s with pc := s.pc + BitVec.ofNat 32 (2 * words) }

/-- The value of a source operand (30_encoding.md R105 to R117). -/
def State.operand (s : State) (ea : Ea) (sz : Size) : BitVec sz.bits :=
  match ea with
  | .dn n => (s.dreg n).setWidth sz.bits
  | .an n => (s.areg n).setWidth sz.bits
  | .imm v => v.value.setWidth sz.bits
  | .ind _ | .post _ | .pre _ | .disp _ _ | .idx _ _ | .absW _ | .absL _ | .pcDisp _ | .pcIdx _ =>
    s.readAt sz (s.effectiveAddress ea sz)

/-- An effective address that names memory. -/
def isMemoryEa : Ea → Bool
  | .dn _ | .an _ | .imm _ => false
  | .ind _ | .post _ | .pre _ | .disp _ _ | .idx _ _ | .absW _ | .absL _ | .pcDisp _ | .pcIdx _ => true

/-- An operand in memory is aligned (20_memory.md R63). -/
def State.operandAligned (s : State) (ea : Ea) (sz : Size) : Bool :=
  !isMemoryEa ea || isAligned sz (s.effectiveAddress ea sz)

/-- `t` is what writing a value to a destination leaves of the registers and memory of `s`: the operand holds the value,
the rest of a data register and every other register and byte are unchanged, but for the step of `(An)+` and `-(An)`
(30_encoding.md R105 to R114, 10_state.md R21). -/
def State.operandWritten (s t : State) (ea : Ea) (sz : Size) (v : BitVec sz.bits) : Prop :=
  State.sameAddress (s.stepAddress ea sz) t ∧
    match ea with
    | .dn n => t.dreg n = setLow (s.dreg n) v ∧ s.sameDataBut t n ∧ s.sameMemory t
    | .an _ | .imm _ => t.d = s.d ∧ s.sameMemory t
    | .ind _ | .post _ | .pre _ | .disp _ _ | .idx _ _ | .absW _ | .absL _ | .pcDisp _ | .pcIdx _ =>
      t.d = s.d ∧ t.readAt sz (s.effectiveAddress ea sz) = v ∧ s.sameMemoryBut t sz (s.effectiveAddress ea sz)

/-- An outcome is a next state with a property. -/
def nextWith (o : Host.Outcome State Fault Refusal) (P : State → Prop) : Prop := ∃ t, o = .next t ∧ P t

/-! ## What an instruction leaves, by shape -/

/-- The registers, the status register, the memory and the rest are as given: the condition codes and `PC` alone may
differ from `u`. -/
def State.onlyCodes (u t : State) (sr : Sr) (pc : Long) : Prop :=
  t.sr = sr ∧ t.pc = pc ∧ t.d = u.d ∧ u.sameAddress t ∧ u.sameMemory t ∧ u.sameSystem t ∧ t.draws = u.draws

/-- One data register, the status register and `PC` are as given, and nothing else differs from `u`. -/
def State.onlyData (u t : State) (dn : Reg) (v : Long) (sr : Sr) (pc : Long) : Prop :=
  t.dreg dn = v ∧ u.sameDataBut t dn ∧ t.sr = sr ∧ t.pc = pc ∧ u.sameAddress t ∧ u.sameMemory t ∧ u.sameSystem t ∧
    t.draws = u.draws

/-- One address register and `PC` are as given, and nothing else differs from `u`. -/
def State.onlyAddress (u t : State) (an : Reg) (v pc : Long) : Prop :=
  t.areg an = v ∧ u.sameAddressBut t an ∧ t.sr = u.sr ∧ t.pc = pc ∧ t.d = u.d ∧ u.sameMemory t ∧ u.sameSystem t ∧
    t.draws = u.draws

/-- A destination evaluated in `u`, the status register and `PC` are as given, and nothing else differs from `u`. -/
def State.onlyOperand (u t : State) (ea : Ea) (sz : Size) (v : BitVec sz.bits) (sr : Sr) (pc : Long) : Prop :=
  u.operandWritten t ea sz v ∧ t.sr = sr ∧ t.pc = pc ∧ u.sameSystem t ∧ t.draws = u.draws

/-- A long word has been pushed on the active stack and `PC` is as given; nothing else differs from `u` (00_scope.md
R11). -/
def State.onlyPushed (u t : State) (v pc : Long) : Prop :=
  t.areg 7 = u.areg 7 - 4 ∧ u.sameAddressBut t 7 ∧ t.longAt (u.areg 7 - 4) = v ∧
    u.sameMemoryOutside t (bytesFrom (u.areg 7 - 4) 4) ∧ t.sr = u.sr ∧ t.pc = pc ∧ t.d = u.d ∧ u.sameSystem t ∧
    t.draws = u.draws

/-- A group 1 or group 2 exception has been taken from `u`: the three-word frame below SSP, the status register as given,
`PC` from the vector, every other register and byte unchanged (60_exceptions.md R350, R351). -/
def State.exceptionTaken (u t : State) (g : XGroup) (sr : Sr) (v : Byte) (pcStack : Long) : Prop :=
  t.sr = sr ∧ t.ssp = u.ssp - 6 ∧ t.usp = u.usp ∧ t.a = u.a ∧ t.d = u.d ∧
    t.wordAt (u.ssp - 6) = u.sr.toWord ∧ t.longAt (u.ssp - 4) = pcStack ∧
    u.sameMemoryOutside t (bytesFrom (u.ssp - 6) 6) ∧ t.pc = t.longAt (v.setWidth 32 * 4) ∧
    t.run = .normal ∧ t.handlerFetch = (g == .g1) ∧ t.xgroup = (if u.xgroup = .g0 then .g0 else .none) ∧
    t.ir = u.ir ∧ t.prevIpl = u.prevIpl ∧ t.stopTrace = u.stopTrace ∧ t.ipl = u.ipl ∧ t.iack = u.iack ∧
    t.platform = u.platform ∧ t.extReset = u.extReset

/-- The status register in an exception other than an interrupt: S set, T cleared (60_exceptions.md R350). -/
def Sr.supervisor (sr : Sr) : Sr := { sr with s := true, t := false }

/-! ## Exact arithmetic -/

/-- An integer lies outside the signed range of a width (41_integer_arithmetic.md R180). -/
def outOfRange (w : Nat) (n : Int) : Bool := n < -(2 ^ (w - 1) : Int) || (2 ^ (w - 1) : Int) ≤ n

/-- The status register after the sum of `s`, `d` and the bit `x`: C and X the carry of the natural numbers, V where the
signed sum is out of range (41_integer_arithmetic.md R181). -/
def sumSr {w : Nat} (sr : Sr) (s d : BitVec w) (x : Bool) : Sr :=
  let r := d + s + BitVec.ofNat w x.toNat
  let c := decide (2 ^ w ≤ s.toNat + d.toNat + x.toNat)
  { sr with x := c, n := r.msb, z := r == 0#w, v := outOfRange w (s.toInt + d.toInt + x.toNat), c := c }

/-- The status register after `d` less `s` less the bit `x`: C and X the borrow of the natural numbers, V where the signed
difference is out of range (41_integer_arithmetic.md R182). -/
def differenceSr {w : Nat} (sr : Sr) (s d : BitVec w) (x : Bool) : Sr :=
  let r := d - s - BitVec.ofNat w x.toNat
  let c := decide (d.toNat < s.toNat + x.toNat)
  { sr with x := c, n := r.msb, z := r == 0#w, v := outOfRange w (d.toInt - s.toInt - x.toNat), c := c }

/-! ## One-bit steps of the shifts and rotates (43_shift_rotate.md R252) -/

/-- The eight shifts and rotates. -/
inductive ShiftKind where
  | asl | asr | lsl | lsr | rol | ror | roxl | roxr
deriving DecidableEq, Repr

/-- A value being shifted: X, the bit shifted out last, and whether the most significant bit has changed. -/
structure ShiftState (w : Nat) where
  v : BitVec w
  x : Bool
  out : Bool
  changed : Bool
deriving DecidableEq, Repr

/-- One step (R252). -/
def ShiftKind.step {w : Nat} (k : ShiftKind) (u : ShiftState w) : ShiftState w :=
  let hi := u.v.msb
  let lo := u.v.getLsbD 0
  let top (b : Bool) : BitVec w := if b then 1#w <<< (w - 1) else 0#w
  let bottom (b : Bool) : BitVec w := if b then 1#w else 0#w
  match k with
  | .asl => { v := u.v <<< 1, x := hi, out := hi, changed := u.changed || hi != (u.v <<< 1).msb }
  | .lsl => { v := u.v <<< 1, x := hi, out := hi, changed := false }
  | .asr => { v := u.v >>> 1 ||| top hi, x := lo, out := lo, changed := false }
  | .lsr => { v := u.v >>> 1, x := lo, out := lo, changed := false }
  | .rol => { v := u.v <<< 1 ||| bottom hi, x := u.x, out := hi, changed := false }
  | .ror => { v := u.v >>> 1 ||| top lo, x := u.x, out := lo, changed := false }
  | .roxl => { v := u.v <<< 1 ||| bottom u.x, x := hi, out := hi, changed := false }
  | .roxr => { v := u.v >>> 1 ||| top u.x, x := lo, out := lo, changed := false }

/-- The value before any step: without one, C is cleared, but is X for the rotates with extend (R251). -/
def ShiftKind.start {w : Nat} (k : ShiftKind) (v : BitVec w) (x : Bool) : ShiftState w :=
  { v := v, x := x, out := (k == .roxl || k == .roxr) && x, changed := false }

/-- `n` steps (R252). -/
def ShiftKind.steps {w : Nat} (k : ShiftKind) (u : ShiftState w) : Nat → ShiftState w
  | 0 => u
  | n + 1 => k.step (k.steps u n)

/-- The value and the status register after `n` steps: N and Z of the value, C the last bit out, V where the most
significant bit of ASL changed (R252, R253). -/
def ShiftKind.result {w : Nat} (k : ShiftKind) (sr : Sr) (v : BitVec w) (n : Nat) : BitVec w × Sr :=
  let u := k.steps (k.start v sr.x) n
  (u.v, { sr with x := u.x, n := u.v.msb, z := u.v == 0#w, v := u.changed, c := u.out })

/-! ## Instruction boundaries -/

/-- An interrupt is recognised at the boundary: above the mask, or the edge of level 7 (60_exceptions.md R372, R373). -/
def State.interruptDue (s : State) : Prop := s.sr.i < s.ipl ∨ (s.ipl = 7 ∧ s.prevIpl ≠ 7)

/-- The next step executes: no reset, neither stopped nor halted, no interrupt (60_exceptions.md R362). -/
def State.executes (s : State) : Prop := s.extReset = false ∧ s.run = .normal ∧ ¬s.interruptDue

/-- The state in which an instruction begins: its operation word fetched into IR and recorded on the bus, `PC` at the
word after it, the interrupt level sampled, the group 0 window closed (60_exceptions.md R362, R373, R405). -/
def State.begun (s : State) : State :=
  { s with
    bus := [.readWord (s.fc true) (busAddress s.pc) (s.wordAt s.pc)], prevIpl := s.ipl, pc := s.pc + 2
    ir := s.wordAt s.pc, xgroup := .none, handlerFetch := false, extWords := [] }

/-- The displacement of a branch, sign-extended (46_program_control.md R290). -/
def branchOffset : BranchDisp → Long
  | .byte d => d.signExtend 32
  | .word d => d.signExtend 32

/-- The registers of a MOVEM mask, lowest address first (40_data_movement.md R157). -/
def maskRegisters (mask : Word) (predecrement : Bool) : List (Fin 16) :=
  (List.finRange 16).filter fun i => mask.getLsbD (if predecrement then 15 - i.val else i.val)

/-- The registers that an operand writes or steps (30_encoding.md R105, R106, R108, R109), numbered as in
40_data_movement.md R158. -/
def writtenRegisters : Ea → List (Fin 16)
  | .dn n => [dataX n]
  | .an n | .post n | .pre n => [addressX n]
  | .ind _ | .disp _ _ | .idx _ _ | .absW _ | .absL _ | .pcDisp _ | .pcIdx _ | .imm _ => []

end Sys2Proof.Machine
end

