-- ==== Sys2Proof/Certificates/Slice0/Obligations.lean ====
section
/-! DEFINITION. The statements about the model. Where a statement says `s.ready` or `s.platform = .plain`, every address is
memory that answers, no other bus master writes and no reset arrives within the step, and with `s.ready` `PC` is even
(20_memory.md R63, R66, R76, R80, R88); what happens otherwise is stated by the statements about bus error, address error
and the platform's cycles. `exec` starts where the operation word has been fetched and `PC` is the address of the word after
it (40_data_movement.md R150). Values of `draw(w)` (00_scope.md R12) stand under an existential quantifier: nothing is said
of them. -/

open Sys2Proof Sys2Proof.Machine

/-! ## Encoding -/

/-- Decoding the words of any well-formed instruction gives it back, and leaves the words that follow. -/
def Obligations.DecodeOfEncode : Prop :=
  ∀ (i : Instr) (rest : List Word), i.wellFormed = true → decode (encode i ++ rest) = .ok (i, rest)

/-- What the decoder answers is well formed, has the operation word that was read, and takes the words its own encoding
has, at most five (30_encoding.md R100, R101). -/
def Obligations.DecodedOperationWord : Prop :=
  ∀ (ws : List Word) (i : Instr) (rest : List Word), decode ws = .ok (i, rest) →
    i.wellFormed = true ∧ ws.head? = some i.op.toWord ∧ rest = ws.drop (encode i).length ∧
      (encode i).length ≤ 5 ∧ (encode i).length ≤ ws.length

/-- Words written out from the encodings of the spec decode to the instructions of the spec's examples. -/
def Obligations.ExampleWordsDecode : Prop :=
  decode [0xD041] = .ok (.addToDn .w (.dn 1) 0, []) ∧
  decode [0x0640, 0x0001] = .ok (.addi (.w 1) (.dn 0), []) ∧
  decode [0x48E7, 0xC080] = .ok (.movemToMem .l 0xC080 (.pre 7), []) ∧
  decode [0xE950] = .ok (.roxlImm 4 .w 0, []) ∧
  decode [0x08D0, 0x0007] = .ok (.bsetStatic 7 (.ind 0), []) ∧
  decode [0xC101] = .ok (.abcdReg 1 0, []) ∧
  decode [0x51C8, 0xFFFC] = .ok (.dbcc .f 0 0xFFFC, []) ∧
  decode [0x4EB9, 0x0000, 0x2000] = .ok (.jsr (.absL 0x2000), []) ∧
  decode [0x46FC, 0x2000] = .ok (.moveToSr (.imm (.w 0x2000)), []) ∧
  decode [0xC343] = .ok (.exgDD 1 3, []) ∧
  decode [0x41F2, 0x9804] = .ok (.lea (.idx 2 { isAddr := true, reg := 1, long := true, disp := 4 }) 0, []) ∧
  decode [0x3039, 0x0001, 0x2346] = .ok (.moveW (.absL 0x12346) (.dn 0), []) ∧
  decode [0x103C, 0xFF80] = .ok (.moveB (.imm (.b 0x80)) (.dn 0), []) ∧
  decode [0x4AFC] = .ok (.illegal, []) ∧
  decode [0x1048] = .error .illegal

/-! ## Steps -/

/-- Where the words at `PC` decode to an instruction, the step is `exec` of it in the state its fetch leaves. Without T, or
where the instruction is trapped and not executed, that is all (60_exceptions.md R362, R380). -/
def Obligations.StepRunsDecodedInstruction : Prop :=
  ∀ (s : State) (i : Instr) (rest : List Word), s.ready → s.executes → decode (s.wordsAt s.pc 5) = .ok (i, rest) →
    (s.sr.t = false ∨ isExecuted i s.begun = false) → step s = exec i s.begun

/-- An instruction that began with T set is followed by the trace exception in the same step: vector 9, the `PC` the
instruction left and the status register it left stacked; it is not where the instruction was aborted by bus error or
address error, or stopped the processor (60_exceptions.md R380). That STOP with T set ends this step in the stopped state,
so that its trace exception is taken by the next one, is the model's choice (log 18). -/
def Obligations.TraceFollowsInstruction : Prop :=
  ∀ (s : State) (i : Instr) (rest : List Word) (u : State), s.ready → s.executes →
    decode (s.wordsAt s.pc 5) = .ok (i, rest) → s.sr.t = true → isExecuted i s.begun = true →
    exec i s.begun = .next u →
    (u.xgroup ≠ .g0 → u.run = .normal → u.platform = .plain → isEven u.ssp = true →
      nextWith (step s) fun t => u.exceptionTaken t .g1 u.sr.supervisor 9 u.pc) ∧
    (u.xgroup = .g0 ∨ u.run ≠ .normal → step s = .next u)

/-- An operation word that is no instruction takes exception vector 4 and stacks its own address; nothing else changes
(60_exceptions.md R383). -/
def Obligations.IllegalWordTraps : Prop :=
  ∀ s : State, s.ready → s.executes → isEven s.ssp = true → decode (s.wordsAt s.pc 5) = .error .illegal →
    nextWith (step s) fun t => s.begun.exceptionTaken t .g1 s.sr.supervisor 4 s.pc

/-- A step at an odd `PC` takes the address error: the odd value is the access address, a program read (60_exceptions.md R390,
R391). -/
def Obligations.OddProgramCounterFaults : Prop :=
  ∀ s : State, s.platform = .plain → s.executes → s.xgroup ≠ .g0 → isEven s.pc = false → isEven s.ssp = true →
    nextWith (step s) fun t =>
      t.ssp = s.ssp - 14 ∧ t.sr = s.sr.supervisor ∧ t.longAt (s.ssp - 12) = s.pc ∧ t.wordAt (s.ssp - 6) = s.sr.toWord ∧
        (t.wordAt (s.ssp - 14)).extractLsb' 0 3 = s.fc true ∧ (t.wordAt (s.ssp - 14)).getLsbD 4 = true ∧
        s.sameMemoryOutside t (bytesFrom (s.ssp - 14) 14) ∧ t.pc = t.longAt 12 ∧ t.d = s.d ∧ t.a = s.a ∧ t.usp = s.usp

/-- An interrupt that is due is taken at the boundary, in the normal state and in the stopped state: the mask becomes the
level, the acknowledge cycle is a read with function code 7 at the address that holds the level, the vector number is the
platform's answer to it, the address of the next instruction is stacked (60_exceptions.md R370 to R376, 20_memory.md R65,
R93, 47_system_control.md R324). Two clauses are choices and no rule of the source: that the acknowledge cycle is the first
bus cycle is the order of the spec's own pseudocode (60_exceptions.md R350, 92_eei_decisions.md D29), which the model takes
(log 31); that the group 0 window, where it is open, stays open through the interrupt's exception processing
(60_exceptions.md R350, R405) is the model's (log 19). -/
def Obligations.InterruptTaken : Prop :=
  ∀ s : State, s.platform = .plain → s.extReset = false → isEven s.ssp = true → s.interruptDue →
    s.run = .normal ∨ (s.run = .stopped ∧ s.stopTrace = false) →
    nextWith (step s) fun t =>
      ({ s with prevIpl := s.ipl } : State).exceptionTaken t .g1 { s.sr.supervisor with i := s.ipl }
        (match s.iack[s.ipl.toFin] with
          | .vector n => n
          | .autovector => 24 + s.ipl.setWidth 8
          | .busError => 24)
        s.pc ∧
      t.bus.head? = some (.iack 7 (BitVec.ofNat 24 (0xFFFFF0 + 2 * s.ipl.toNat)) s.iack[s.ipl.toFin]) ∧
      t.draws = s.draws

/-- The halted state and the stopped state fetch nothing and change no register and no memory; STOP that began with T set
is followed by the trace exception (47_system_control.md R324, 60_exceptions.md R406). That the trace exception keeps the
sampled level is the model's choice (log 9). -/
def Obligations.HaltedAndStoppedRest : Prop :=
  ∀ s : State, s.extReset = false →
    (s.run = .halted → step s = .next { s with bus := [] }) ∧
    (s.run = .stopped → s.stopTrace = false → ¬s.interruptDue → step s = .next { s with bus := [], prevIpl := s.ipl }) ∧
    (s.run = .stopped → s.stopTrace = true → s.platform = .plain → isEven s.ssp = true →
      nextWith (step s) fun t =>
        ({ s with stopTrace := false } : State).exceptionTaken t .g1 s.sr.supervisor 9 s.pc ∧ t.draws = s.draws)

/-- An external reset, from any state: supervisor state, trace off, mask 7, no interrupt level seen, SSP and `PC` from the
reset vector; the data and address registers, USP, the condition codes and memory keep their values
(70_reset_and_hazards.md R420). That the step takes the input back, `extReset = false`, is the model's choice (log 24). -/
def Obligations.ExternalResetTaken : Prop :=
  ∀ s : State, s.extReset = true → s.platform = .plain →
    nextWith (step s) fun t =>
      t.sr = { s.sr.supervisor with i := 7 } ∧ t.prevIpl = 0 ∧ t.ssp = s.longAt 0 ∧ t.pc = s.longAt 4 ∧
        t.run = .normal ∧ t.d = s.d ∧ t.a = s.a ∧ t.usp = s.usp ∧ t.mem = s.mem ∧ t.xgroup = .g0 ∧ t.extReset = false

/-! ## Invariants of the whole machine -/

/-- The state after reset: supervisor state, T off, mask 7, SSP and `PC` from the reset vector, no interrupt level seen, the
reset window open (10_state.md R48, 70_reset_and_hazards.md R420). Nothing is said of the registers and condition codes the
spec gives no value for (log 1, log 6). That memory has its canonical form is the model's own (log 3). -/
def Obligations.ResetValues : Prop :=
  State.reset.sr.s = true ∧ State.reset.sr.t = false ∧ State.reset.sr.i = 7 ∧
    State.reset.ssp = State.reset.longAt 0 ∧ State.reset.pc = State.reset.longAt 4 ∧ State.reset.run = .normal ∧
    State.reset.xgroup = .g0 ∧ State.reset.prevIpl = 0 ∧ Memory.wf State.reset.mem = true

/-- Every step keeps memory in canonical form, which is the model's own way to hold the bytes (log 3). -/
def Obligations.StepKeepsMemoryCanonical : Prop :=
  ∀ s t : State, Memory.wf s.mem = true → step s = .next t → Memory.wf t.mem = true

/-- Every step answers a next state: nothing the spec leaves to the program stops the machine with a fault or a refusal
(60_exceptions.md R362, R383). It rests on the model's choices that every register holds a value (log 1) and that every byte
of memory reads as one (log 3), where the spec gives none. -/
def Obligations.StepAlwaysAnswersNext : Prop := ∀ s : State, ∃ t : State, step s = .next t

/-- No instruction executed in user state changes the privilege state, the trace bit, the interrupt mask or SSP, but by
taking an exception: S is set, T cleared, the mask kept, a frame whose status register word is of user state lies below SSP,
and `PC` is from a vector; or the frame could not be stacked and the processor halted (10_state.md R34, R37,
60_exceptions.md R350, R391, R405). On a platform that is not plain the frame itself can fault or be written over, and
nothing is said of it; an external reset that arrives within the instruction sets the mask to 7 (70_reset_and_hazards.md
R420). -/
def Obligations.UserStateProtected : Prop :=
  ∀ (i : Instr) (s t : State), s.sr.s = false → exec i s = .next t →
    (t.sr.s = false ∧ t.sr.t = s.sr.t ∧ t.sr.i = s.sr.i ∧ t.ssp = s.ssp) ∨
      (t.sr.s = true ∧ t.sr.t = false ∧ t.sr.i = s.sr.i ∧
        (s.platform = .plain → t.run = .halted ∨
          ((t.ssp = s.ssp - 6 ∨ t.ssp = s.ssp - 14) ∧ (t.wordAt (s.ssp - 6)).getLsbD 13 = false ∧
            ∃ v : Byte, t.pc = t.longAt (v.setWidth 32 * 4)))) ∨
      (s.platform.resetAfter ≠ none ∧ t.sr.s = true ∧ t.sr.t = false ∧ t.sr.i = 7)

/-- In supervisor state no instruction but MOVE to USP changes USP (10_state.md R27). -/
def Obligations.SupervisorKeepsUsp : Prop :=
  ∀ (i : Instr) (s t : State), s.sr.s = true → (∀ an, i ≠ .moveToUsp an) → exec i s = .next t → t.usp = s.usp

/-! ## Registers and condition codes -/

/-- The bits of SR that do not exist read as 0, and writes to them are ignored; a write of the condition codes replaces bits
4 to 0 and no other (10_state.md R36). -/
def Obligations.StatusRegisterMask : Prop :=
  (∀ w : Word, (Sr.ofWord w).toWord = w &&& 0xA71F) ∧ (∀ sr : Sr, Sr.ofWord sr.toWord = sr) ∧
    ∀ (sr : Sr) (b : BitVec 5), (sr.setCodes b).toWord = (sr.toWord &&& 0xFFE0) ||| b.setWidth 16

/-- A write of the low-order part of a data register holds the value there and keeps the bits above (10_state.md R21). -/
def Obligations.PartialRegisterWrite : Prop :=
  ∀ (s : State) (n : Reg) (sz : Size) (v : BitVec sz.bits),
    ((s.setDregLow n v).dreg n).setWidth sz.bits = v ∧
      (∀ j, sz.bits ≤ j → ((s.setDregLow n v).dreg n).getLsbD j = (s.dreg n).getLsbD j) ∧
      s.sameDataBut (s.setDregLow n v) n

/-- `add_flags`: the formulas of the rule, and what they are equivalent to (41_integer_arithmetic.md R181). -/
def Obligations.AddFlagsExact : Prop :=
  ∀ (w : Nat) (sr : Sr) (s d : BitVec w) (x : Bool), 0 < w →
    let r := d + s + BitVec.ofNat w x.toNat
    let v := (s.msb && d.msb && !r.msb) || (!s.msb && !d.msb && r.msb)
    let c := (s.msb && d.msb) || (!r.msb && d.msb) || (s.msb && !r.msb)
    sr.addFlags s d r = { sr with n := r.msb, z := r == 0#w, v := v, c := c, x := c } ∧
      (c = true ↔ 2 ^ w ≤ s.toNat + d.toNat + x.toNat) ∧ v = outOfRange w (s.toInt + d.toInt + x.toNat)

/-- `sub_flags`: the formulas of the rule, and what they are equivalent to; the comparisons keep X
(41_integer_arithmetic.md R182). -/
def Obligations.SubFlagsExact : Prop :=
  ∀ (w : Nat) (sr : Sr) (s d : BitVec w) (x : Bool), 0 < w →
    let r := d - s - BitVec.ofNat w x.toNat
    let v := (!s.msb && d.msb && !r.msb) || (s.msb && !d.msb && r.msb)
    let c := (s.msb && !d.msb) || (r.msb && !d.msb) || (s.msb && r.msb)
    sr.subFlags s d r = { sr with n := r.msb, z := r == 0#w, v := v, c := c, x := c } ∧
      sr.compareFlags s d r = { sr with n := r.msb, z := r == 0#w, v := v, c := c } ∧
      (c = true ↔ d.toNat < s.toNat + x.toNat) ∧ v = outOfRange w (d.toInt - s.toInt - x.toNat)

/-- The sixteen conditions: the formulas of the table; read after a comparison they order the destination against the
source, signed and unsigned. `logic_flags`: N and Z of the value at its size, V and C cleared, X unchanged (10_state.md R39,
41_integer_arithmetic.md R189, 40_data_movement.md R151). -/
def Obligations.ConditionsAfterCompareAndLogic : Prop :=
  (∀ sr : Sr,
    (condHolds .t sr = true ∧ condHolds .f sr = false) ∧
      (condHolds .hi sr = true ↔ sr.c = false ∧ sr.z = false) ∧ (condHolds .ls sr = true ↔ sr.c = true ∨ sr.z = true) ∧
      (condHolds .cc sr = true ↔ sr.c = false) ∧ (condHolds .cs sr = true ↔ sr.c = true) ∧
      (condHolds .ne sr = true ↔ sr.z = false) ∧ (condHolds .eq sr = true ↔ sr.z = true) ∧
      (condHolds .vc sr = true ↔ sr.v = false) ∧ (condHolds .vs sr = true ↔ sr.v = true) ∧
      (condHolds .pl sr = true ↔ sr.n = false) ∧ (condHolds .mi sr = true ↔ sr.n = true) ∧
      (condHolds .ge sr = true ↔ sr.n = sr.v) ∧ (condHolds .lt sr = true ↔ sr.n ≠ sr.v) ∧
      (condHolds .gt sr = true ↔ sr.z = false ∧ sr.n = sr.v) ∧
      (condHolds .le sr = true ↔ sr.z = true ∨ sr.n ≠ sr.v)) ∧
  (∀ (w : Nat) (sr : Sr) (s d : BitVec w), 0 < w →
    let after := compareOp s d sr
    (condHolds .gt after = true ↔ s.toInt < d.toInt) ∧ (condHolds .ge after = true ↔ s.toInt ≤ d.toInt) ∧
      (condHolds .lt after = true ↔ d.toInt < s.toInt) ∧ (condHolds .le after = true ↔ d.toInt ≤ s.toInt) ∧
      (condHolds .hi after = true ↔ s.toNat < d.toNat) ∧ (condHolds .cc after = true ↔ s.toNat ≤ d.toNat) ∧
      (condHolds .cs after = true ↔ d.toNat < s.toNat) ∧ (condHolds .ls after = true ↔ d.toNat ≤ s.toNat) ∧
      (condHolds .eq after = true ↔ d = s) ∧ (condHolds .ne after = true ↔ d ≠ s) ∧
      (condHolds .mi after = true ↔ (d - s).toInt < 0) ∧ (condHolds .pl after = true ↔ 0 ≤ (d - s).toInt) ∧
      (condHolds .vs after = outOfRange w (d.toInt - s.toInt)) ∧
      (condHolds .vc after = !outOfRange w (d.toInt - s.toInt)) ∧ after.x = sr.x) ∧
  ∀ (w : Nat) (sr : Sr) (v : BitVec w),
    sr.logicFlags v = { sr with n := decide (v.toInt < 0), z := decide (v.toNat = 0), v := false, c := false }

/-- The decimal operations on valid bytes: the value of the result, the decimal carry or borrow, and a valid result
(45_bcd.md R282, R283, R285). -/
def Obligations.DecimalArithmetic : Prop :=
  ∀ (s d : Byte) (x : Bool), bcdValid d = true →
    (bcdValid s = true →
      let a := abcdOp s d x
      let b := sbcdOp s d x
      bcdValid a.1 = true ∧ bcdValue a.1 + 100 * a.2.toNat = bcdValue d + bcdValue s + x.toNat ∧
        bcdValid b.1 = true ∧
        (bcdValue b.1 : Int) - 100 * b.2.toNat = (bcdValue d : Int) - bcdValue s - x.toNat) ∧
      bcdValid (nbcdOp d x).1 = true ∧
      (bcdValue (nbcdOp d x).1 : Int) - 100 * (nbcdOp d x).2.toNat = -(bcdValue d : Int) - x.toNat

/-! ## Arithmetic -/

/-- ADD and SUB with a data register destination, every source form and size (41_integer_arithmetic.md R183, R200). -/
def Obligations.AddSubToDataRegister : Prop :=
  ∀ (sz : Size) (ea : Ea) (dn : Reg) (s : State), s.ready → ea.fits sz = true → s.operandAligned ea sz = true →
    let u := s.stepAddress ea sz
    let v := s.operand ea sz
    let d := (s.dreg dn).setWidth sz.bits
    let next := s.pc + BitVec.ofNat 32 (2 * ea.words.length)
    (nextWith (exec (.addToDn sz ea dn) s) fun t =>
      u.onlyData t dn (setLow (s.dreg dn) (d + v)) (sumSr s.sr v d false) next) ∧
    nextWith (exec (.subToDn sz ea dn) s) fun t =>
      u.onlyData t dn (setLow (s.dreg dn) (d - v)) (differenceSr s.sr v d false) next

/-- ADD and SUB with a memory destination, ADDI and SUBI with every destination (41_integer_arithmetic.md R183, R185, R200,
R202). -/
def Obligations.AddSubToDestination : Prop :=
  ∀ (ea : Ea) (s : State), s.ready →
    (∀ (sz : Size) (dn : Reg), ea.isMemoryAlterable = true → s.operandAligned ea sz = true →
      let v := (s.dreg dn).setWidth sz.bits
      let d := s.operand ea sz
      let next := s.pc + BitVec.ofNat 32 (2 * ea.words.length)
      (nextWith (exec (.addToMem sz dn ea) s) fun t => s.onlyOperand t ea sz (d + v) (sumSr s.sr v d false) next) ∧
      nextWith (exec (.subToMem sz dn ea) s) fun t =>
        s.onlyOperand t ea sz (d - v) (differenceSr s.sr v d false) next) ∧
    ∀ v : Imm, ea.isDataAlterable = true → s.operandAligned ea v.size = true →
      let d := s.operand ea v.size
      let next := s.pc + BitVec.ofNat 32 (2 * (v.words.length + ea.words.length))
      (nextWith (exec (.addi v ea) s) fun t =>
        s.onlyOperand t ea v.size (d + v.value) (sumSr s.sr v.value d false) next) ∧
      nextWith (exec (.subi v ea) s) fun t =>
        s.onlyOperand t ea v.size (d - v.value) (differenceSr s.sr v.value d false) next

/-- ADDQ and SUBQ: the field 0 stands for 8; an address register takes all 32 bits and no condition code changes
(41_integer_arithmetic.md R186, R203). -/
def Obligations.AddSubQuick : Prop :=
  ∀ (f : Fin 8) (sz : Size) (s : State), s.ready →
    let q : Nat := if f = 0 then 8 else f.val
    (∀ ea : Ea, ea.isDataAlterable = true → s.operandAligned ea sz = true →
      let v := BitVec.ofNat sz.bits q
      let d := s.operand ea sz
      let next := s.pc + BitVec.ofNat 32 (2 * ea.words.length)
      (nextWith (exec (.addq f sz ea) s) fun t => s.onlyOperand t ea sz (d + v) (sumSr s.sr v d false) next) ∧
      nextWith (exec (.subq f sz ea) s) fun t => s.onlyOperand t ea sz (d - v) (differenceSr s.sr v d false) next) ∧
    ∀ n : Reg, sz ≠ .b →
      (nextWith (exec (.addq f sz (.an n)) s) fun t => s.onlyAddress t n (s.areg n + BitVec.ofNat 32 q) s.pc) ∧
      nextWith (exec (.subq f sz (.an n)) s) fun t => s.onlyAddress t n (s.areg n - BitVec.ofNat 32 q) s.pc

/-- ADDA, SUBA and MOVEA: a word source is sign-extended, all 32 bits of the register take part, no condition code changes
(41_integer_arithmetic.md R184, R201, 40_data_movement.md R156, 10_state.md R24, R25). -/
def Obligations.AddressRegisterArithmetic : Prop :=
  ∀ (ea : Ea) (an : Reg) (s : State), s.ready →
    let next := s.pc + BitVec.ofNat 32 (2 * ea.words.length)
    (ea.fits .w = true → s.operandAligned ea .w = true →
      let u := s.stepAddress ea .w
      let v := (s.operand ea .w).signExtend 32
      (nextWith (exec (.addaW ea an) s) fun t => u.onlyAddress t an (u.areg an + v) next) ∧
      (nextWith (exec (.subaW ea an) s) fun t => u.onlyAddress t an (u.areg an - v) next) ∧
      nextWith (exec (.moveaW ea an) s) fun t => u.onlyAddress t an v next) ∧
    (ea.fits .l = true → s.operandAligned ea .l = true →
      let u := s.stepAddress ea .l
      let v := s.operand ea .l
      (nextWith (exec (.addaL ea an) s) fun t => u.onlyAddress t an (u.areg an + v) next) ∧
      (nextWith (exec (.subaL ea an) s) fun t => u.onlyAddress t an (u.areg an - v) next) ∧
      nextWith (exec (.moveaL ea an) s) fun t => u.onlyAddress t an v next)

/-- ADDX and SUBX: X takes part, Z is cleared by a result that is not zero and kept otherwise, and the memory form reads
the source first (41_integer_arithmetic.md R187, R204). -/
def Obligations.ExtendedArithmetic : Prop :=
  ∀ (sz : Size) (y x : Reg) (s : State), s.ready →
    let bit := BitVec.ofNat sz.bits s.sr.x.toNat
    let sumCodes := fun v d : BitVec sz.bits =>
      ({ sumSr s.sr v d s.sr.x with z := s.sr.z && d + v + bit == 0 } : Sr)
    let differenceCodes := fun v d : BitVec sz.bits =>
      ({ differenceSr s.sr v d s.sr.x with z := s.sr.z && d - v - bit == 0 } : Sr)
    (let v := (s.dreg y).setWidth sz.bits
     let d := (s.dreg x).setWidth sz.bits
     (nextWith (exec (.addxReg sz y x) s) fun t =>
       s.onlyData t x (setLow (s.dreg x) (d + v + bit)) (sumCodes v d) s.pc) ∧
     nextWith (exec (.subxReg sz y x) s) fun t =>
       s.onlyData t x (setLow (s.dreg x) (d - v - bit)) (differenceCodes v d) s.pc) ∧
    (let u := s.stepAddress (.pre y) sz
     let v := s.operand (.pre y) sz
     let d := u.operand (.pre x) sz
     s.operandAligned (.pre y) sz = true → u.operandAligned (.pre x) sz = true →
     (nextWith (exec (.addxMem sz y x) s) fun t =>
       u.onlyOperand t (.pre x) sz (d + v + bit) (sumCodes v d) s.pc) ∧
     nextWith (exec (.subxMem sz y x) s) fun t =>
       u.onlyOperand t (.pre x) sz (d - v - bit) (differenceCodes v d) s.pc)

/-- NEG, NEGX, NOT and CLR (41_integer_arithmetic.md R198, R199, R188, 42_logical.md R237). -/
def Obligations.UnaryOperations : Prop :=
  ∀ (sz : Size) (ea : Ea) (s : State), s.ready → ea.isDataAlterable = true → s.operandAligned ea sz = true →
    let d := s.operand ea sz
    let bit := BitVec.ofNat sz.bits s.sr.x.toNat
    let next := s.pc + BitVec.ofNat 32 (2 * ea.words.length)
    (nextWith (exec (.neg sz ea) s) fun t => s.onlyOperand t ea sz (-d) (differenceSr s.sr d 0 false) next) ∧
    (nextWith (exec (.negx sz ea) s) fun t =>
      s.onlyOperand t ea sz (-d - bit)
        { differenceSr s.sr d 0 s.sr.x with z := s.sr.z && -d - bit == 0 } next) ∧
    (nextWith (exec (.notEa sz ea) s) fun t => s.onlyOperand t ea sz (~~~d) (s.sr.logicFlags (~~~d)) next) ∧
    nextWith (exec (.clr sz ea) s) fun t =>
      s.onlyOperand t ea sz 0 { s.sr with n := false, z := true, v := false, c := false } next

/-- CMP, CMPI, CMPA, CMPM and TST write the condition codes alone, X unchanged; the postincrements of their operands
happen (41_integer_arithmetic.md R189 to R192, R206). -/
def Obligations.Comparisons : Prop :=
  ∀ s : State, s.ready →
    (∀ (sz : Size) (ea : Ea) (dn : Reg), ea.fits sz = true → s.operandAligned ea sz = true →
      nextWith (exec (.cmp sz ea dn) s) fun t =>
        (s.stepAddress ea sz).onlyCodes t
          { differenceSr s.sr (s.operand ea sz) ((s.dreg dn).setWidth sz.bits) false with x := s.sr.x }
          (s.pc + BitVec.ofNat 32 (2 * ea.words.length))) ∧
    (∀ (v : Imm) (ea : Ea), ea.isDataAlterable = true → s.operandAligned ea v.size = true →
      nextWith (exec (.cmpi v ea) s) fun t =>
        (s.stepAddress ea v.size).onlyCodes t
          { differenceSr s.sr v.value (s.operand ea v.size) false with x := s.sr.x }
          (s.pc + BitVec.ofNat 32 (2 * (v.words.length + ea.words.length)))) ∧
    (∀ (ea : Ea) (an : Reg), ea.fits .w = true → s.operandAligned ea .w = true →
      nextWith (exec (.cmpaW ea an) s) fun t =>
        (s.stepAddress ea .w).onlyCodes t
          { differenceSr s.sr ((s.operand ea .w).signExtend 32) ((s.stepAddress ea .w).areg an) false with x := s.sr.x }
          (s.pc + BitVec.ofNat 32 (2 * ea.words.length))) ∧
    (∀ (ea : Ea) (an : Reg), ea.fits .l = true → s.operandAligned ea .l = true →
      nextWith (exec (.cmpaL ea an) s) fun t =>
        (s.stepAddress ea .l).onlyCodes t
          { differenceSr s.sr (s.operand ea .l) ((s.stepAddress ea .l).areg an) false with x := s.sr.x }
          (s.pc + BitVec.ofNat 32 (2 * ea.words.length))) ∧
    (∀ (sz : Size) (y x : Reg), s.operandAligned (.post y) sz = true →
      (s.stepAddress (.post y) sz).operandAligned (.post x) sz = true →
      nextWith (exec (.cmpm sz y x) s) fun t =>
        ((s.stepAddress (.post y) sz).stepAddress (.post x) sz).onlyCodes t
          { differenceSr s.sr (s.operand (.post y) sz) ((s.stepAddress (.post y) sz).operand (.post x) sz) false with
            x := s.sr.x }
          s.pc) ∧
    ∀ (sz : Size) (ea : Ea), ea.isDataAlterable = true → s.operandAligned ea sz = true →
      nextWith (exec (.tst sz ea) s) fun t =>
        (s.stepAddress ea sz).onlyCodes t (s.sr.logicFlags (s.operand ea sz))
          (s.pc + BitVec.ofNat 32 (2 * ea.words.length))

/-- MULU and MULS: the exact product, all 32 bits of the register written (41_integer_arithmetic.md R196, R197). -/
def Obligations.Multiplication : Prop :=
  ∀ (ea : Ea) (dn : Reg) (s : State), s.ready → ea.isData = true → ea.fits .w = true →
    s.operandAligned ea .w = true →
    let u := s.stepAddress ea .w
    let v := s.operand ea .w
    let d := (s.dreg dn).setWidth 16
    let next := s.pc + BitVec.ofNat 32 (2 * ea.words.length)
    (nextWith (exec (.mulu ea dn) s) fun t => ∃ p : Long, p.toNat = d.toNat * v.toNat ∧
      u.onlyData t dn p (s.sr.logicFlags p) next) ∧
    nextWith (exec (.muls ea dn) s) fun t => ∃ p : Long, p.toInt = d.toInt * v.toInt ∧
      u.onlyData t dn p (s.sr.logicFlags p) next

/-- DIVU and DIVS by a divisor that is not zero: quotient in bits 15 to 0, remainder with the sign of the dividend in bits
31 to 16; a quotient that does not fit sets V, clears C, leaves N and Z open and the register as it was
(41_integer_arithmetic.md R193, R194). -/
def Obligations.Division : Prop :=
  ∀ (ea : Ea) (dn : Reg) (s : State), s.ready → ea.isData = true → ea.fits .w = true →
    s.operandAligned ea .w = true → s.operand ea .w ≠ 0 →
    let u := s.stepAddress ea .w
    let m := s.operand ea .w
    let d := s.dreg dn
    let next := s.pc + BitVec.ofNat 32 (2 * ea.words.length)
    let overflow := fun t : State => ∃ n z : Bool,
      ({ u with draws := s.draws + 2 } : State).onlyCodes t { s.sr with n := n, z := z, v := true, c := false } next
    (nextWith (exec (.divu ea dn) s) fun t =>
      if d.toNat / m.toNat < 2 ^ 16 then
        ∃ q rem : Word, q.toNat = d.toNat / m.toNat ∧ rem.toNat = d.toNat % m.toNat ∧
          u.onlyData t dn (rem ++ q) (s.sr.logicFlags q) next
      else overflow t) ∧
    nextWith (exec (.divs ea dn) s) fun t =>
      if outOfRange 16 (d.toInt.tdiv m.toInt) = false then
        ∃ q rem : Word, q.toInt = d.toInt.tdiv m.toInt ∧ rem.toInt = d.toInt.tmod m.toInt ∧
          u.onlyData t dn (rem ++ q) (s.sr.logicFlags q) next
      else overflow t

/-- A divisor of zero takes vector 5: C cleared, N, Z and V open, the address of the next instruction stacked, the data
register unchanged (41_integer_arithmetic.md R193, R194). -/
def Obligations.ZeroDivideTraps : Prop :=
  ∀ (ea : Ea) (dn : Reg) (s : State), s.ready → ea.isData = true → ea.fits .w = true →
    s.operandAligned ea .w = true → s.operand ea .w = 0 → isEven (s.stepAddress ea .w).ssp = true →
    ∀ i ∈ [Instr.divu ea dn, Instr.divs ea dn], nextWith (exec i s) fun t => ∃ n z v : Bool,
      let sr : Sr := { s.sr with n := n, z := z, v := v, c := false }
      ((s.stepAddress ea .w).setSr sr).exceptionTaken t .g2 sr.supervisor 5
        (s.pc + BitVec.ofNat 32 (2 * ea.words.length)) ∧ t.draws = s.draws + 3

/-- EXT, SWAP and MOVEQ (41_integer_arithmetic.md R195, 40_data_movement.md R164, R166). -/
def Obligations.RegisterOperations : Prop :=
  ∀ (n : Reg) (s : State),
    (let r := ((s.dreg n).setWidth 8).signExtend 16
     nextWith (exec (.extW n) s) fun t => s.onlyData t n (setLow (s.dreg n) r) (s.sr.logicFlags r) s.pc) ∧
    (let r : Long := ((s.dreg n).setWidth 16).signExtend 32
     nextWith (exec (.extL n) s) fun t => s.onlyData t n r (s.sr.logicFlags r) s.pc) ∧
    (let r : Long := (s.dreg n).rotateLeft 16
     nextWith (exec (.swap n) s) fun t => s.onlyData t n r (s.sr.logicFlags r) s.pc) ∧
    ∀ v : Byte, nextWith (exec (.moveq v n) s) fun t =>
      s.onlyData t n (v.signExtend 32) (s.sr.logicFlags (v.signExtend 32)) s.pc

/-! ## Logic -/

/-- AND and OR with a data register destination (42_logical.md R231, R233). -/
def Obligations.LogicToDataRegister : Prop :=
  ∀ (sz : Size) (ea : Ea) (dn : Reg) (s : State), s.ready → ea.isData = true → ea.fits sz = true →
    s.operandAligned ea sz = true →
    let u := s.stepAddress ea sz
    let v := s.operand ea sz
    let d := (s.dreg dn).setWidth sz.bits
    let next := s.pc + BitVec.ofNat 32 (2 * ea.words.length)
    (nextWith (exec (.andToDn sz ea dn) s) fun t =>
      u.onlyData t dn (setLow (s.dreg dn) (d &&& v)) (s.sr.logicFlags (d &&& v)) next) ∧
    nextWith (exec (.orToDn sz ea dn) s) fun t =>
      u.onlyData t dn (setLow (s.dreg dn) (d ||| v)) (s.sr.logicFlags (d ||| v)) next

/-- AND, OR and EOR of a data register into a destination, ANDI, ORI and EORI (42_logical.md R231 to R236). -/
def Obligations.LogicToDestination : Prop :=
  ∀ (ea : Ea) (s : State), s.ready →
    (∀ (sz : Size) (dn : Reg), s.operandAligned ea sz = true →
      let v := (s.dreg dn).setWidth sz.bits
      let d := s.operand ea sz
      let next := s.pc + BitVec.ofNat 32 (2 * ea.words.length)
      (ea.isMemoryAlterable = true →
        (nextWith (exec (.andToMem sz dn ea) s) fun t =>
          s.onlyOperand t ea sz (d &&& v) (s.sr.logicFlags (d &&& v)) next) ∧
        nextWith (exec (.orToMem sz dn ea) s) fun t =>
          s.onlyOperand t ea sz (d ||| v) (s.sr.logicFlags (d ||| v)) next) ∧
      (ea.isDataAlterable = true → nextWith (exec (.eor sz dn ea) s) fun t =>
        s.onlyOperand t ea sz (d ^^^ v) (s.sr.logicFlags (d ^^^ v)) next)) ∧
    ∀ v : Imm, ea.isDataAlterable = true → s.operandAligned ea v.size = true →
      let d := s.operand ea v.size
      let next := s.pc + BitVec.ofNat 32 (2 * (v.words.length + ea.words.length))
      (nextWith (exec (.andi v ea) s) fun t =>
        s.onlyOperand t ea v.size (d &&& v.value) (s.sr.logicFlags (d &&& v.value)) next) ∧
      (nextWith (exec (.ori v ea) s) fun t =>
        s.onlyOperand t ea v.size (d ||| v.value) (s.sr.logicFlags (d ||| v.value)) next) ∧
      nextWith (exec (.eori v ea) s) fun t =>
        s.onlyOperand t ea v.size (d ^^^ v.value) (s.sr.logicFlags (d ^^^ v.value)) next

/-! ## Shifts and rotates -/

/-- The closed forms of the eight shifts and rotates are `n` one-bit steps, at every operand size and count
(43_shift_rotate.md R252 to R260). -/
def Obligations.ShiftsAreOneBitSteps : Prop :=
  ∀ (sz : Size) (sr : Sr) (v : BitVec sz.bits) (n : Nat),
    ∀ p ∈ ([(asl, .asl), (asr, .asr), (lsl, .lsl), (lsr, .lsr), (rol, .rol), (ror, .ror), (roxl, .roxl),
      (roxr, .roxr)] : List (Shift sz.bits × ShiftKind)),
      ((p.1 v n sr.x).r, sr.shiftFlags (p.1 v n sr.x)) = p.2.result sr v n

/-- The 24 shift and rotate instructions: an immediate count, where the field 0 stands for 8; a register count, its
low-order six bits taken before the shift; one step on a word of memory (43_shift_rotate.md R250, R251). -/
def Obligations.ShiftInstructions : Prop :=
  ∀ s : State,
    (∀ (f : Fin 8) (sz : Size) (dy : Reg),
      ∀ p ∈ ([(.aslImm f sz dy, .asl), (.asrImm f sz dy, .asr), (.lslImm f sz dy, .lsl), (.lsrImm f sz dy, .lsr),
        (.rolImm f sz dy, .rol), (.rorImm f sz dy, .ror), (.roxlImm f sz dy, .roxl), (.roxrImm f sz dy, .roxr)]
        : List (Instr × ShiftKind)),
        nextWith (exec p.1 s) fun t =>
          let o := p.2.result s.sr ((s.dreg dy).setWidth sz.bits) (if f = 0 then 8 else f.val)
          s.onlyData t dy (setLow (s.dreg dy) o.1) o.2 s.pc) ∧
    (∀ (dx : Reg) (sz : Size) (dy : Reg),
      ∀ p ∈ ([(.aslReg dx sz dy, .asl), (.asrReg dx sz dy, .asr), (.lslReg dx sz dy, .lsl), (.lsrReg dx sz dy, .lsr),
        (.rolReg dx sz dy, .rol), (.rorReg dx sz dy, .ror), (.roxlReg dx sz dy, .roxl), (.roxrReg dx sz dy, .roxr)]
        : List (Instr × ShiftKind)),
        nextWith (exec p.1 s) fun t =>
          let o := p.2.result s.sr ((s.dreg dy).setWidth sz.bits) ((s.dreg dx).toNat % 64)
          s.onlyData t dy (setLow (s.dreg dy) o.1) o.2 s.pc) ∧
    ∀ ea : Ea, s.ready → ea.isMemoryAlterable = true → s.operandAligned ea .w = true →
      ∀ p ∈ ([(.aslMem ea, .asl), (.asrMem ea, .asr), (.lslMem ea, .lsl), (.lsrMem ea, .lsr), (.rolMem ea, .rol),
        (.rorMem ea, .ror), (.roxlMem ea, .roxl), (.roxrMem ea, .roxr)] : List (Instr × ShiftKind)),
        nextWith (exec p.1 s) fun t =>
          let o := p.2.result s.sr (s.operand ea .w) 1
          s.onlyOperand t ea .w o.1 o.2 (s.pc + BitVec.ofNat 32 (2 * ea.words.length))

/-! ## Bits and decimal digits -/

/-- BTST, BSET, BCLR and BCHG on a data register: bit number modulo 32, Z from the bit before, the other codes and bits
unchanged (44_bit_manipulation.md R270, R272 to R276). -/
def Obligations.BitsOfDataRegister : Prop :=
  ∀ (raw : Byte) (m n : Reg) (s : State), s.ready →
    ∀ p ∈ ([(.btstStatic raw (.dn n), raw.toNat, 1, id), (.btstDynamic m (.dn n), (s.dreg m).toNat, 0, id),
      (.bsetStatic raw (.dn n), raw.toNat, 1, fun _ => true), (.bsetDynamic m (.dn n), (s.dreg m).toNat, 0, fun _ => true),
      (.bclrStatic raw (.dn n), raw.toNat, 1, fun _ => false), (.bclrDynamic m (.dn n), (s.dreg m).toNat, 0, fun _ => false),
      (.bchgStatic raw (.dn n), raw.toNat, 1, not), (.bchgDynamic m (.dn n), (s.dreg m).toNat, 0, not)]
      : List (Instr × Nat × Nat × (Bool → Bool))),
      let b := p.2.1 % 32
      nextWith (exec p.1 s) fun t => ∃ v : Long,
        (∀ j, v.getLsbD j = if j = b then p.2.2.2 ((s.dreg n).getLsbD b) else (s.dreg n).getLsbD j) ∧
          s.onlyData t n v { s.sr with z := !(s.dreg n).getLsbD b } (s.pc + BitVec.ofNat 32 (2 * p.2.2.1))

/-- BTST, BSET, BCLR and BCHG on a byte: bit number modulo 8, Z from the bit before, the other codes and bits unchanged,
nothing written by BTST (44_bit_manipulation.md R270, R272 to R276). The static forms fetch the bit number word before the
extension words. -/
def Obligations.BitsOfMemory : Prop :=
  ∀ (raw : Byte) (m : Reg) (ea : Ea) (s : State), s.ready →
    (∀ p ∈ ([(.btstStatic raw ea, raw.toNat, 1), (.btstDynamic m ea, (s.dreg m).toNat, 0)] : List (Instr × Nat × Nat)),
      p.1.wellFormed = true → (∀ n, ea ≠ .dn n) →
      let u := s.advanced p.2.2
      nextWith (exec p.1 s) fun t =>
        (u.stepAddress ea .b).onlyCodes t { s.sr with z := !(u.operand ea .b).getLsbD (p.2.1 % 8) }
          (u.pc + BitVec.ofNat 32 (2 * ea.words.length))) ∧
    (ea.isMemoryAlterable = true →
      ∀ p ∈ ([(.bsetStatic raw ea, raw.toNat, 1, fun _ => true), (.bsetDynamic m ea, (s.dreg m).toNat, 0, fun _ => true),
        (.bclrStatic raw ea, raw.toNat, 1, fun _ => false), (.bclrDynamic m ea, (s.dreg m).toNat, 0, fun _ => false),
        (.bchgStatic raw ea, raw.toNat, 1, not), (.bchgDynamic m ea, (s.dreg m).toNat, 0, not)]
        : List (Instr × Nat × Nat × (Bool → Bool))),
        let b := p.2.1 % 8
        let d := s.operand ea .b
        nextWith (exec p.1 s) fun t => ∃ v : Byte,
          (∀ j, v.getLsbD j = if j = b then p.2.2.2 (d.getLsbD b) else d.getLsbD j) ∧
            s.onlyOperand t ea .b v { s.sr with z := !d.getLsbD b }
              (s.pc + BitVec.ofNat 32 (2 * (p.2.2.1 + ea.words.length))))

/-- ABCD, SBCD and NBCD: the result at the destination, C and X the decimal carry or borrow, Z cleared by a result that is
not zero and kept otherwise, N and V open (45_bcd.md R281 to R285). Of operands that are not valid BCD the parameter
`bcd_invalid` gives the result, and the rest is the same. -/
def Obligations.DecimalInstructions : Prop :=
  ∀ s : State, s.ready →
    let codes := fun (o : Byte × Bool) (n v : Bool) =>
      ({ s.sr with x := o.2, n := n, z := s.sr.z && o.1 == 0, v := v, c := o.2 } : Sr)
    let drawn := fun u : State => ({ u with draws := s.draws + 2 } : State)
    (∀ (y x : Reg),
      ∀ p ∈ [(Instr.abcdReg y x, abcdOp), (Instr.sbcdReg y x, sbcdOp)],
        let o := p.2 ((s.dreg y).setWidth 8) ((s.dreg x).setWidth 8) s.sr.x
        nextWith (exec p.1 s) fun t => ∃ n v,
          (drawn s).onlyData t x (setLow (s.dreg x) o.1) (codes o n v) s.pc) ∧
    (∀ (y x : Reg),
      ∀ p ∈ [(Instr.abcdMem y x, abcdOp), (Instr.sbcdMem y x, sbcdOp)],
        let u := s.stepAddress (.pre y) .b
        let o := p.2 (s.operand (.pre y) .b) (u.operand (.pre x) .b) s.sr.x
        nextWith (exec p.1 s) fun t => ∃ n v, (drawn u).onlyOperand t (.pre x) .b o.1 (codes o n v) s.pc) ∧
    ∀ ea : Ea, ea.isDataAlterable = true →
      let o := nbcdOp (s.operand ea .b) s.sr.x
      nextWith (exec (.nbcd ea) s) fun t => ∃ n v,
        (drawn s).onlyOperand t ea .b o.1 (codes o n v) (s.pc + BitVec.ofNat 32 (2 * ea.words.length))

/-! ## Data movement -/

/-- MOVE: the destination is evaluated in the state that the source leaves; N and Z from the value, V and C cleared
(40_data_movement.md R155, 30_encoding.md R110). -/
def Obligations.MoveInstruction : Prop :=
  ∀ (src dst : Ea) (s : State), s.ready → dst.isDataAlterable = true →
    ∀ p ∈ [(Size.b, Instr.moveB src dst), (Size.w, Instr.moveW src dst), (Size.l, Instr.moveL src dst)],
      let u := s.stepAddress src p.1
      let v := s.operand src p.1
      src.fits p.1 = true → s.operandAligned src p.1 = true → u.operandAligned dst p.1 = true →
      nextWith (exec p.2 s) fun t =>
        u.onlyOperand t dst p.1 v (s.sr.logicFlags v)
          (s.pc + BitVec.ofNat 32 (2 * (src.words.length + dst.words.length)))

/-- EXG: two registers exchanged, all 32 bits; nothing else changes (40_data_movement.md R152). -/
def Obligations.ExchangeRegisters : Prop :=
  ∀ (x y : Reg) (s : State),
    (nextWith (exec (.exgDD x y) s) fun t =>
      t.dreg x = s.dreg y ∧ t.dreg y = s.dreg x ∧ (∀ m, m ≠ x → m ≠ y → t.dreg m = s.dreg m) ∧
        t = { s with d := t.d }) ∧
    (nextWith (exec (.exgAA x y) s) fun t =>
      t.areg x = s.areg y ∧ t.areg y = s.areg x ∧ (∀ m, m ≠ x → m ≠ y → t.areg m = s.areg m) ∧
        (if s.sr.s then t.usp = s.usp else t.ssp = s.ssp) ∧ t = { s with a := t.a, usp := t.usp, ssp := t.ssp }) ∧
    nextWith (exec (.exgDA x y) s) fun t =>
      t.dreg x = s.areg y ∧ t.areg y = s.dreg x ∧ s.sameDataBut t x ∧ s.sameAddressBut t y ∧
        t = { s with d := t.d, a := t.a, usp := t.usp, ssp := t.ssp }

/-- The addressing modes: the address of each, sums modulo 2^32 of numbers sign-extended from their widths, an index register
in its low-order word or whole, `PC` at the extension word; `(An)+` and `-(An)` step by the operand size, but by two for a
byte on A7, and no other mode changes a register; the operand each mode names (30_encoding.md R105 to R117). LEA loads the
address, PEA pushes it; an odd address is no error (40_data_movement.md R153, R165). -/
def Obligations.EffectiveAddresses : Prop :=
  (∀ (s : State) (sz : Size) (n : Reg) (d : Word) (x : Index) (a : Long),
    let address := fun ea : Ea => s.effectiveAddress ea sz
    let index : Int :=
      if x.long then (if x.isAddr then s.areg x.reg else s.dreg x.reg).toInt
      else (BitVec.setWidth 16 (if x.isAddr then s.areg x.reg else s.dreg x.reg)).toInt
    let size : Int := if n = 7 ∧ sz = .b then 2 else sz.bytes
    let up := s.stepAddress (.post n) sz
    let down := s.stepAddress (.pre n) sz
    address (.ind n) = s.areg n ∧ address (.post n) = s.areg n ∧
      address (.pre n) = BitVec.ofInt 32 ((s.areg n).toInt - size) ∧
      address (.disp n d) = BitVec.ofInt 32 ((s.areg n).toInt + d.toInt) ∧
      address (.idx n x) = BitVec.ofInt 32 ((s.areg n).toInt + x.disp.toInt + index) ∧
      address (.absW d) = BitVec.ofInt 32 d.toInt ∧ address (.absL a) = a ∧
      address (.pcDisp d) = BitVec.ofInt 32 (s.pc.toInt + d.toInt) ∧
      address (.pcIdx x) = BitVec.ofInt 32 (s.pc.toInt + x.disp.toInt + index) ∧
      up.areg n = BitVec.ofInt 32 ((s.areg n).toInt + size) ∧ s.sameAddressBut up n ∧
      down.areg n = BitVec.ofInt 32 ((s.areg n).toInt - size) ∧ s.sameAddressBut down n ∧
      (s.operand (.dn n) sz).toNat = (s.dreg n).toNat % 2 ^ sz.bits ∧
      (s.operand (.an n) sz).toNat = (s.areg n).toNat % 2 ^ sz.bits) ∧
  (∀ (s : State) (v : Imm), s.operand (.imm v) v.size = v.value) ∧
  (∀ (s : State) (ea : Ea) (sz : Size),
    ((∀ n, ea ≠ .post n ∧ ea ≠ .pre n) → s.stepAddress ea sz = s) ∧
      (isMemoryEa ea = true → s.operand ea sz = s.readAt sz (s.effectiveAddress ea sz))) ∧
  ∀ (ea : Ea) (s : State), s.ready → ea.isControl = true →
    let a := s.effectiveAddress ea .l
    let next := s.pc + BitVec.ofNat 32 (2 * ea.words.length)
    (∀ an : Reg, nextWith (exec (.lea ea an) s) fun t => s.onlyAddress t an a next) ∧
    (isEven (s.areg 7) = true → nextWith (exec (.pea ea) s) fun t => s.onlyPushed t a next)

/-- LINK and UNLK, for every register; with A7 the lines of the rules are followed in their order (40_data_movement.md
R154, R167). -/
def Obligations.LinkAndUnlink : Prop :=
  ∀ (an : Reg) (d : Word) (s : State), s.ready →
    (isEven (s.areg 7) = true →
      let sp := s.areg 7 - 4
      nextWith (exec (.link an d) s) fun t =>
        t.longAt sp = (if an = 7 then sp else s.areg an) ∧ s.sameMemoryOutside t (bytesFrom sp 4) ∧
          t.areg 7 = sp + d.signExtend 32 ∧ (an ≠ 7 → t.areg an = sp) ∧ (∀ m, m ≠ an → m ≠ 7 → t.areg m = s.areg m) ∧
          (if s.sr.s then t.usp = s.usp else t.ssp = s.ssp) ∧
          t.d = s.d ∧ t.sr = s.sr ∧ t.pc = s.pc + 2 ∧ s.sameSystem t ∧ t.draws = s.draws) ∧
    (isEven (s.areg an) = true →
      nextWith (exec (.unlk an) s) fun t =>
        t.areg an = s.longAt (s.areg an) ∧ (an ≠ 7 → t.areg 7 = s.areg an + 4) ∧
          (∀ m, m ≠ an → m ≠ 7 → t.areg m = s.areg m) ∧ (if s.sr.s then t.usp = s.usp else t.ssp = s.ssp) ∧
          s.sameMemory t ∧ t.d = s.d ∧ t.sr = s.sr ∧ t.pc = s.pc ∧ s.sameSystem t ∧ t.draws = s.draws)

/-- MOVEM to memory: the registers of the mask lie in the order D0 to A7 from the lowest address; no other byte changes; a
predecremented register ends at the lowest address, and is stored as it was (40_data_movement.md R157, R158). -/
def Obligations.MoveRegistersToMemory : Prop :=
  ∀ (sz : WideSize) (mask : Word) (ea : Ea) (s : State), s.ready → ea.isMovemToMem = true →
    let bytes := sz.toSize.bytes
    let next := s.pc + BitVec.ofNat 32 (2 * (1 + ea.words.length))
    let stored := fun (regs : List (Fin 16)) (a : Long) (t : State) =>
      (∀ (k : Nat) (h : k < regs.length),
        t.readAt sz.toSize (a + BitVec.ofNat 32 (k * bytes)) = (s.xreg regs[k]).setWidth sz.toSize.bits) ∧
        s.sameMemoryOutside t (bytesFrom a (regs.length * bytes)) ∧
        t.d = s.d ∧ t.sr = s.sr ∧ t.pc = next ∧ s.sameSystem t ∧ t.draws = s.draws
    (∀ n, ea = .pre n →
      let regs := maskRegisters mask true
      let a := s.areg n - BitVec.ofNat 32 (regs.length * bytes)
      mask = 0 ∨ isEven (s.areg n) = true →
      nextWith (exec (.movemToMem sz mask ea) s) fun t => stored regs a t ∧ t.areg n = a ∧ s.sameAddressBut t n) ∧
    ((∀ n, ea ≠ .pre n) →
      let a := s.effectiveAddress ea sz.toSize
      mask = 0 ∨ isEven a = true →
      nextWith (exec (.movemToMem sz mask ea) s) fun t => stored (maskRegisters mask false) a t ∧ s.sameAddress t)

/-- MOVEM to registers: each register of the mask is loaded in all its 32 bits, a word sign-extended, in the order D0 to
A7 from the lowest address; every other register and all of memory are unchanged; a postincremented register ends behind
the last transfer, also where the mask names it (40_data_movement.md R157, R159). -/
def Obligations.MoveMemoryToRegisters : Prop :=
  ∀ (sz : WideSize) (mask : Word) (ea : Ea) (s : State), s.ready → ea.isMovemToReg = true →
    let bytes := sz.toSize.bytes
    let regs := maskRegisters mask false
    let a := (s.advanced 1).effectiveAddress ea sz.toSize
    isEven a = true →
    nextWith (exec (.movemToReg sz mask ea) s) fun t =>
      (∀ (k : Nat) (h : k < regs.length), (∀ n, ea = .post n → regs[k] ≠ addressX n) →
        t.xreg regs[k] = (s.readAt sz.toSize (a + BitVec.ofNat 32 (k * bytes))).signExtend 32) ∧
      (∀ n, ea = .post n → t.areg n = a + BitVec.ofNat 32 (regs.length * bytes)) ∧
      (∀ x : Fin 16, x ∉ regs → (∀ n, ea = .post n → x ≠ addressX n) → t.xreg x = s.xreg x) ∧
      (if s.sr.s then t.usp = s.usp else t.ssp = s.ssp) ∧ s.sameMemory t ∧ t.sr = s.sr ∧
      t.pc = s.pc + BitVec.ofNat 32 (2 * (1 + ea.words.length)) ∧ s.sameSystem t ∧ t.draws = s.draws

/-- MOVEP: the bytes of the register, the high-order byte first, at every other address; at any alignment; the bytes
between and the condition codes are unchanged (40_data_movement.md R161). -/
def Obligations.MovePeripheral : Prop :=
  ∀ (x y : Reg) (d : Word) (s : State), s.ready →
    let a := s.areg y + d.signExtend 32
    let v := s.dreg x
    let at2 := fun n : Nat => (List.range n).map fun k => physical (a + BitVec.ofNat 32 (2 * k))
    (nextWith (exec (.movepToRegW d y x) s) fun t =>
      s.onlyData t x (setLow v (s.byteAt a ++ s.byteAt (a + 2))) s.sr (s.pc + 2)) ∧
    (nextWith (exec (.movepToRegL d y x) s) fun t =>
      s.onlyData t x (s.byteAt a ++ s.byteAt (a + 2) ++ s.byteAt (a + 4) ++ s.byteAt (a + 6)) s.sr (s.pc + 2)) ∧
    (nextWith (exec (.movepToMemW x d y) s) fun t =>
      t.byteAt a ++ t.byteAt (a + 2) = v.setWidth 16 ∧ s.sameMemoryOutside t (at2 2) ∧
        t.d = s.d ∧ s.sameAddress t ∧ t.sr = s.sr ∧ t.pc = s.pc + 2 ∧ s.sameSystem t ∧ t.draws = s.draws) ∧
    nextWith (exec (.movepToMemL x d y) s) fun t =>
      t.byteAt a ++ t.byteAt (a + 2) ++ t.byteAt (a + 4) ++ t.byteAt (a + 6) = v ∧ s.sameMemoryOutside t (at2 4) ∧
        t.d = s.d ∧ s.sameAddress t ∧ t.sr = s.sr ∧ t.pc = s.pc + 2 ∧ s.sameSystem t ∧ t.draws = s.draws

/-- TAS, Scc and MOVE from SR write one operand; TAS sets N and Z from the byte before, the others change no condition
code (41_integer_arithmetic.md R205, 46_program_control.md R295, 47_system_control.md R319). -/
def Obligations.StoreOperations : Prop :=
  ∀ (ea : Ea) (s : State), s.ready → ea.isDataAlterable = true →
    let next := s.pc + BitVec.ofNat 32 (2 * ea.words.length)
    (let d := s.operand ea .b
     nextWith (exec (.tas ea) s) fun t => s.onlyOperand t ea .b (d ||| 0x80) (s.sr.logicFlags d) next) ∧
    (∀ c : Cond, nextWith (exec (.scc c ea) s) fun t =>
      s.onlyOperand t ea .b (if condHolds c s.sr then 0xFF else 0) s.sr next) ∧
    (s.operandAligned ea .w = true → nextWith (exec (.moveFromSr ea) s) fun t =>
      s.onlyOperand t ea .w s.sr.toWord s.sr next)

/-! ## Program control -/

/-- Bcc, BRA, DBcc, JMP and NOP (46_program_control.md R290 to R293, R296, R300). -/
def Obligations.BranchesAndJumps : Prop :=
  ∀ s : State, s.ready →
    (∀ (d : BranchDisp), d.wellFormed = true →
      let target := s.pc + branchOffset d
      let next := s.pc + BitVec.ofNat 32 (2 * d.words.length)
      (∀ c : Cond, c.isBranch = true → nextWith (exec (.bcc c d) s) fun t =>
        s.onlyCodes t s.sr (if condHolds c s.sr then target else next)) ∧
      nextWith (exec (.bra d) s) fun t => s.onlyCodes t s.sr target) ∧
    (∀ (c : Cond) (n : Reg) (d : Word),
      let count := (s.dreg n).setWidth 16 - 1#16
      nextWith (exec (.dbcc c n d) s) fun t =>
        if condHolds c s.sr then s.onlyCodes t s.sr (s.pc + 2)
        else s.onlyData t n (setLow (s.dreg n) count) s.sr
          (if count = 0xFFFF then s.pc + 2 else s.pc + d.signExtend 32)) ∧
    (∀ ea : Ea, ea.isControl = true → nextWith (exec (.jmp ea) s) fun t =>
      s.onlyCodes t s.sr (s.effectiveAddress ea .l)) ∧
    nextWith (exec .nop s) fun t => s.onlyCodes t s.sr s.pc

/-- BSR and JSR push the address of the next instruction; RTS and RTR pop it, RTR the five condition codes before it
(46_program_control.md R294, R297, R298, R299). -/
def Obligations.CallsAndReturns : Prop :=
  ∀ s : State, s.ready → isEven (s.areg 7) = true →
    (∀ d : BranchDisp, d.wellFormed = true → nextWith (exec (.bsr d) s) fun t =>
      s.onlyPushed t (s.pc + BitVec.ofNat 32 (2 * d.words.length))
        (s.pc + branchOffset d)) ∧
    (∀ ea : Ea, ea.isControl = true → nextWith (exec (.jsr ea) s) fun t =>
      s.onlyPushed t (s.pc + BitVec.ofNat 32 (2 * ea.words.length)) (s.effectiveAddress ea .l)) ∧
    (nextWith (exec .rts s) fun t => s.onlyAddress t 7 (s.areg 7 + 4) (s.longAt (s.areg 7))) ∧
    nextWith (exec .rtr s) fun t =>
      let sr := s.sr.setCodes ((s.wordAt (s.areg 7)).extractLsb' 0 5)
      (s.setSr sr).onlyAddress t 7 (s.areg 7 + 6) (s.longAt (s.areg 7 + 2))

/-- A subroutine that returns at once: RTS after BSR or JSR resumes behind the call with the stack pointer, the registers
and the status register as they were (46_program_control.md R294, R297, R299). -/
def Obligations.CallThenReturn : Prop :=
  ∀ (i : Instr) (s t : State), s.ready → isEven (s.areg 7) = true → i.wellFormed = true →
    (∃ d, i = .bsr d) ∨ (∃ ea, i = .jsr ea) → exec i s = .next t →
    nextWith (exec .rts t) fun u =>
      s.sameAddress u ∧ u.d = s.d ∧ u.sr = s.sr ∧
        u.pc = s.pc + BitVec.ofNat 32 (2 * ((encode i).length - 1))

/-! ## System control -/

/-- ANDI, EORI, ORI and MOVE to CCR write the five condition codes and nothing else (47_system_control.md R311, R313, R315,
R317). -/
def Obligations.ConditionCodeWrites : Prop :=
  ∀ s : State, s.ready →
    (∀ v : Byte,
      let b := v.extractLsb' 0 5
      (nextWith (exec (.andiToCcr v) s) fun t => s.onlyCodes t (s.sr.setCodes (s.sr.codes &&& b)) (s.pc + 2)) ∧
      (nextWith (exec (.eoriToCcr v) s) fun t => s.onlyCodes t (s.sr.setCodes (s.sr.codes ^^^ b)) (s.pc + 2)) ∧
      nextWith (exec (.oriToCcr v) s) fun t => s.onlyCodes t (s.sr.setCodes (s.sr.codes ||| b)) (s.pc + 2)) ∧
    ∀ ea : Ea, ea.isData = true → ea.fits .w = true → s.operandAligned ea .w = true →
      nextWith (exec (.moveToCcr ea) s) fun t =>
        (s.stepAddress ea .w).onlyCodes t (s.sr.setCodes ((s.operand ea .w).extractLsb' 0 5))
          (s.pc + BitVec.ofNat 32 (2 * ea.words.length))

/-- The privileged instructions in supervisor state: ANDI, EORI, ORI and MOVE to SR, STOP and RTE load the whole status
register, the unimplemented bits ignored; MOVE USP copies all 32 bits, also with A7, which is SSP; RESET changes nothing in
the processor (47_system_control.md R312, R314, R316, R318, R320, R321, R323, R324). -/
def Obligations.SupervisorInstructions : Prop :=
  ∀ s : State, s.sr.s = true → s.ready →
    (∀ v : Word,
      (nextWith (exec (.andiToSr v) s) fun t => s.onlyCodes t (Sr.ofWord (s.sr.toWord &&& v)) (s.pc + 2)) ∧
      (nextWith (exec (.eoriToSr v) s) fun t => s.onlyCodes t (Sr.ofWord (s.sr.toWord ^^^ v)) (s.pc + 2)) ∧
      (nextWith (exec (.oriToSr v) s) fun t => s.onlyCodes t (Sr.ofWord (s.sr.toWord ||| v)) (s.pc + 2)) ∧
      nextWith (exec (.stop v) s) fun t =>
        ({ s with run := .stopped, stopTrace := s.sr.t } : State).onlyCodes t (Sr.ofWord v) (s.pc + 2)) ∧
    (∀ ea : Ea, ea.isData = true → ea.fits .w = true → s.operandAligned ea .w = true →
      nextWith (exec (.moveToSr ea) s) fun t =>
        (s.stepAddress ea .w).onlyCodes t (Sr.ofWord (s.operand ea .w))
          (s.pc + BitVec.ofNat 32 (2 * ea.words.length))) ∧
    (isEven s.ssp = true → nextWith (exec .rte s) fun t =>
      ({ s with ssp := s.ssp + 6 } : State).onlyCodes t (Sr.ofWord (s.wordAt s.ssp)) (s.longAt (s.ssp + 2))) ∧
    (∀ n : Reg,
      (nextWith (exec (.moveToUsp n) s) fun t => t = { s with usp := s.areg n }) ∧
      nextWith (exec (.moveFromUsp n) s) fun t => s.onlyAddress t n s.usp s.pc) ∧
    nextWith (exec .reset s) fun t => t = { s with bus := s.bus ++ [.resetPulse] }

/-- The eight privileged instructions in user state: nothing of the instruction is done, vector 8, its own address stacked
(47_system_control.md R310, 60_exceptions.md R385). -/
def Obligations.PrivilegeViolationTaken : Prop :=
  ∀ (i : Instr) (s : State), s.sr.s = false → s.platform = .plain → isEven s.ssp = true → i.wellFormed = true →
    ((∃ v, i = .oriToSr v ∨ i = .andiToSr v ∨ i = .eoriToSr v ∨ i = .stop v) ∨ (∃ ea, i = .moveToSr ea) ∨
      (∃ n, i = .moveToUsp n ∨ i = .moveFromUsp n) ∨ i = .reset ∨ i = .rte) →
    nextWith (exec i s) fun t => s.exceptionTaken t .g1 s.sr.supervisor 8 (s.pc - 2) ∧ t.draws = s.draws

/-- TRAP, TRAPV with V set, the three illegal patterns, line 1010 and line 1111 take their vectors in either state; TRAP and
TRAPV stack the address of the next instruction, the others their own; TRAPV without V changes nothing (47_system_control.md
R325 to R329). -/
def Obligations.TrapInstructions : Prop :=
  ∀ s : State,
    (s.sr.v = false → exec .trapv s = .next s) ∧
    (s.platform = .plain → isEven s.ssp = true →
      (∀ n : Fin 16, nextWith (exec (.trap n) s) fun t =>
        s.exceptionTaken t .g2 s.sr.supervisor (BitVec.ofNat 8 (32 + n.val)) s.pc ∧ t.draws = s.draws) ∧
      (s.sr.v = true → nextWith (exec .trapv s) fun t =>
        s.exceptionTaken t .g2 s.sr.supervisor 7 s.pc ∧ t.draws = s.draws) ∧
      ∀ w : BitVec 12,
        ∀ p ∈ ([(.illegal, 4), (.illegal4AFA, 4), (.illegal4AFB, 4), (.lineA w, 10), (.lineF w, 11)]
          : List (Instr × Byte)),
          nextWith (exec p.1 s) fun t =>
            s.exceptionTaken t .g1 s.sr.supervisor p.2 (s.pc - 2) ∧ t.draws = s.draws)

/-- CHK: inside the bounds only the condition codes change, all open but X; below zero N is set, above the bound N is
cleared, and vector 6 is taken with the address of the next instruction stacked (47_system_control.md R322). -/
def Obligations.CheckBounds : Prop :=
  ∀ (ea : Ea) (dn : Reg) (s : State), s.ready → ea.isData = true → ea.fits .w = true →
    s.operandAligned ea .w = true →
    let u := s.stepAddress ea .w
    let v := ((s.dreg dn).setWidth 16).toInt
    let bound := (s.operand ea .w).toInt
    let next := s.pc + BitVec.ofNat 32 (2 * ea.words.length)
    (0 ≤ v ∧ v ≤ bound → nextWith (exec (.chk ea dn) s) fun t => ∃ n z o c : Bool,
      ({ u with draws := s.draws + 4 } : State).onlyCodes t { s.sr with n := n, z := z, v := o, c := c } next) ∧
    (v < 0 ∨ bound < v → isEven u.ssp = true → nextWith (exec (.chk ea dn) s) fun t => ∃ z o c : Bool,
      let sr : Sr := { s.sr with n := decide (v < 0), z := z, v := o, c := c }
      (u.setSr sr).exceptionTaken t .g2 sr.supervisor 6 next ∧ t.draws = s.draws + 3)

/-- A trap whose handler returns at once: RTE after TRAP resumes behind it with every register, the privilege state, the
trace bit and the condition codes as they were (47_system_control.md R321, R325, 60_exceptions.md R400). -/
def Obligations.TrapThenReturn : Prop :=
  ∀ (n : Fin 16) (s t : State), s.platform = .plain → isEven s.ssp = true → exec (.trap n) s = .next t →
    nextWith (exec .rte t) fun u => u.sr = s.sr ∧ u.pc = s.pc ∧ s.sameAddress u ∧ u.d = s.d

/-! ## Bus error and address error -/

/-- Before a word cycle an external reset that is due ends the processing, else other bus masters have their writes. The
cycle reaches the storage cells that the platform's spaces name for its function code; where the platform answers with bus
error it transfers nothing; in a region of a device, program references among them, a read gives some word, a write is the
device's, and memory is unchanged by both (20_memory.md R66, R67, R76, R80, R81, R88, 70_reset_and_hazards.md R420). That
what a device gives is free is the model's choice (log 11), and so is the form of the platform's parameters (log 7, log 10,
log 24, log 32). -/
def Obligations.PlatformCycles : Prop :=
  ∀ (s : State) (fc : BitVec 3) (a : Long) (v : Word) (alt : Alt) (lowFirst : Bool), isEven a = true →
    let b := s.cycleBegun
    let hi := b.platform.cell fc (physical a)
    let lo := b.platform.cell fc (physical (a + 1))
    (s.platform.resetAfter = some 0 →
      memRead .w fc a alt s = .error .reset s ∧ memWrite .w fc a v alt lowFirst s = .error .reset s) ∧
    (∀ x, Memory.get b.mem x =
      match (s.platform.writes.headD []).reverse.find? fun c => c.1 = x with
      | some c => c.2
      | none => Memory.get s.mem x) ∧
    (s.platform.resetAfter ≠ some 0 →
      (b.busFault fc a true true = true →
        memRead .w fc a alt s = .error (.access ⟨.bus, a, true, fc, alt⟩) (b.record (.aborted fc (busAddress a) true))) ∧
      (b.busFault fc a false true = true →
        memWrite .w fc a v alt lowFirst s =
          .error (.access ⟨.bus, a, false, fc, alt⟩) (b.record (.aborted fc (busAddress a) false))) ∧
      (b.busFault fc a true true = false →
        if b.atDevice fc a true true then
          ∃ w : Word, memRead .w fc a alt s =
            .ok w (({ b with draws := b.draws + 1 } : State).record (.readWord fc (busAddress a) w))
        else
          let w := Memory.get b.mem hi ++ Memory.get b.mem lo
          memRead .w fc a alt s = .ok w (b.record (.readWord fc (busAddress a) w))) ∧
      (b.busFault fc a false true = false →
        if b.atDevice fc a false true then
          memWrite .w fc a v alt lowFirst s = .ok () (b.record (.writeWord fc (busAddress a) v))
        else
          ∃ m : Memory, memWrite .w fc a v alt lowFirst s =
              .ok () (({ b with mem := m } : State).record (.writeWord fc (busAddress a) v)) ∧
            (hi ≠ lo → Memory.get m hi ++ Memory.get m lo = v) ∧
            ∀ x, x ≠ hi → x ≠ lo → Memory.get m x = Memory.get b.mem x))

/-- The frame of a group 0 exception: status register, the access address, the instruction register and the special status
word; `PC` one to five words beyond the instruction that made the reference (60_exceptions.md R391, R392). -/
def Obligations.GroupZeroFrame : Prop :=
  ∀ (op : Long) (f : AccessFault) (s : State), s.platform = .plain → isEven s.ssp = true → s.xgroup = .none →
    let t := groupZero (some op) f s
    let ssw := t.wordAt (s.ssp - 14)
    t.ssp = s.ssp - 14 ∧ t.sr = s.sr.supervisor ∧ t.xgroup = .g0 ∧ t.run = .normal ∧
      (∃ k : Nat, 1 ≤ k ∧ k ≤ 5 ∧ t.longAt (s.ssp - 4) = op + BitVec.ofNat 32 (2 * k)) ∧
      t.wordAt (s.ssp - 6) = s.sr.toWord ∧ t.wordAt (s.ssp - 8) = s.ir ∧ t.longAt (s.ssp - 12) = f.addr ∧
      ssw.getLsbD 4 = f.isRead ∧ ssw.getLsbD 3 = false ∧ ssw.extractLsb' 0 3 = f.fc ∧
      s.sameMemoryOutside t (bytesFrom (s.ssp - 14) 14) ∧
      t.pc = t.longAt (match f.kind with | .bus => 8 | .address => 12) ∧
      t.d = s.d ∧ t.a = s.a ∧ t.usp = s.usp

/-- A source operand at an odd address takes the address error, with every instruction that reads one: the frame holds the
odd address as a read, memory changes in the frame alone, and an odd SSP halts the processor (20_memory.md R63,
60_exceptions.md R390, R391, R394, R405). What the aborted instruction leaves is the model's choice within R394 and D9
(log 15): the register of `(An)+` or `-(An)` is old or new, a register that the instruction would have written, and with
MOVE to SR the mask, is open, every other register is unchanged. -/
def Obligations.MisalignedSourceFaults : Prop :=
  ∀ (sz : Size) (wide : WideSize) (ea dst : Ea) (m n : Reg) (mask : Word) (s : State), s.ready → s.xgroup = .none →
    let data := [dataX n]
    let address := [addressX n]
    let loaded := maskRegisters mask false ++ writtenRegisters ea
    ∀ p ∈ ([(.addToDn sz ea n, s, ea, sz, data), (.subToDn sz ea n, s, ea, sz, data), (.andToDn sz ea n, s, ea, sz, data),
      (.orToDn sz ea n, s, ea, sz, data), (.cmp sz ea n, s, ea, sz, []), (.tst sz ea, s, ea, sz, []),
      (.moveW ea dst, s, ea, .w, writtenRegisters dst), (.moveL ea dst, s, ea, .l, writtenRegisters dst),
      (.moveaW ea n, s, ea, .w, address), (.moveaL ea n, s, ea, .l, address), (.addaW ea n, s, ea, .w, address),
      (.addaL ea n, s, ea, .l, address), (.subaW ea n, s, ea, .w, address), (.subaL ea n, s, ea, .l, address),
      (.cmpaW ea n, s, ea, .w, []), (.cmpaL ea n, s, ea, .l, []), (.mulu ea n, s, ea, .w, data),
      (.muls ea n, s, ea, .w, data), (.divu ea n, s, ea, .w, data), (.divs ea n, s, ea, .w, data),
      (.chk ea n, s, ea, .w, []), (.moveToCcr ea, s, ea, .w, []), (.moveToSr ea, s, ea, .w, []),
      (.cmpm sz m n, s, .post m, sz, address), (.addxMem sz m n, s, .pre m, sz, address),
      (.subxMem sz m n, s, .pre m, sz, address),
      (.movemToReg wide mask ea, s.advanced 1, ea, wide.toSize, loaded)]
      : List (Instr × State × Ea × Size × List (Fin 16))),
      let i := p.1
      let u := p.2.1
      let src := p.2.2.1
      let size := p.2.2.2.1
      let written := p.2.2.2.2
      i.wellFormed = true → (isPrivileged i = true → s.sr.s = true) → u.operandAligned src size = false →
      nextWith (exec i s) fun t => ∃ sp : Long,
        (sp = s.ssp ∨ s.sr.s = true ∧ 15 ∈ written ++ writtenRegisters src) ∧
        (isEven sp = false → t.run = .halted) ∧
        (isEven sp = true →
          t.run = .normal ∧ t.ssp = sp - 14 ∧ t.longAt (sp - 12) = u.effectiveAddress src size ∧
            t.wordAt (sp - 8) = s.ir ∧ (t.wordAt (sp - 14)).getLsbD 4 = true ∧
            (t.wordAt (sp - 14)).extractLsb' 0 3 = s.fc (isProgramEa src) ∧
            s.sameMemoryOutside t (bytesFrom (sp - 14) 14) ∧ t.pc = t.longAt 12) ∧
        t.sr.s = true ∧ t.sr.t = false ∧ (isPrivileged i = false → t.sr.i = s.sr.i) ∧
        (∀ x : Fin 16, x ≠ 15 → x ∉ written → x ∉ writtenRegisters src → t.xreg x = s.xreg x) ∧
        (∀ x : Fin 16, x ≠ 15 → x ∉ written → x ∈ writtenRegisters src →
          t.xreg x = s.xreg x ∨ t.xreg x = (s.stepAddress src size).xreg x) ∧
        (t.usp = s.usp ∨ s.sr.s = false ∧ 15 ∈ written ++ writtenRegisters src)

/-- A bus error or address error while a group 0 exception is being processed halts the processor; so does an odd SSP when
the frame of a bus error or address error, or of TRAP, is to be stacked (60_exceptions.md R396, R405). -/
def Obligations.DoubleFaultHalts : Prop :=
  (∀ (op : Option Long) (f : AccessFault) (s : State), s.xgroup = .g0 → groupZero op f s = { s with run := .halted }) ∧
    (∀ (op : Option Long) (f : AccessFault) (s : State), isEven s.ssp = false → (groupZero op f s).run = .halted) ∧
    ∀ (n : Fin 16) (s : State), isEven s.ssp = false → nextWith (exec (.trap n) s) fun t => t.run = .halted
end

