-- ==== Sys2Proof/Laws/State.lean ====
section
/-! SUPPORT. One lemma per field for each named update of the state: the fields it leaves alone, and the one it sets. -/

namespace Sys2Proof.Machine

variable (s : State)

/-! ### setDreg -/

@[simp] theorem setDreg_d (n : Reg) (v : Long) : (s.setDreg n v).d = s.d.set n v := rfl
@[simp] theorem setDreg_a (n : Reg) (v : Long) : (s.setDreg n v).a = s.a := rfl
@[simp] theorem setDreg_usp (n : Reg) (v : Long) : (s.setDreg n v).usp = s.usp := rfl
@[simp] theorem setDreg_ssp (n : Reg) (v : Long) : (s.setDreg n v).ssp = s.ssp := rfl
@[simp] theorem setDreg_pc (n : Reg) (v : Long) : (s.setDreg n v).pc = s.pc := rfl
@[simp] theorem setDreg_sr (n : Reg) (v : Long) : (s.setDreg n v).sr = s.sr := rfl
@[simp] theorem setDreg_ir (n : Reg) (v : Long) : (s.setDreg n v).ir = s.ir := rfl
@[simp] theorem setDreg_run (n : Reg) (v : Long) : (s.setDreg n v).run = s.run := rfl
@[simp] theorem setDreg_xgroup (n : Reg) (v : Long) : (s.setDreg n v).xgroup = s.xgroup := rfl
@[simp] theorem setDreg_prevIpl (n : Reg) (v : Long) : (s.setDreg n v).prevIpl = s.prevIpl := rfl
@[simp] theorem setDreg_stopTrace (n : Reg) (v : Long) : (s.setDreg n v).stopTrace = s.stopTrace := rfl
@[simp] theorem setDreg_handlerFetch (n : Reg) (v : Long) : (s.setDreg n v).handlerFetch = s.handlerFetch := rfl
@[simp] theorem setDreg_mem (n : Reg) (v : Long) : (s.setDreg n v).mem = s.mem := rfl
@[simp] theorem setDreg_ipl (n : Reg) (v : Long) : (s.setDreg n v).ipl = s.ipl := rfl
@[simp] theorem setDreg_iack (n : Reg) (v : Long) : (s.setDreg n v).iack = s.iack := rfl
@[simp] theorem setDreg_platform (n : Reg) (v : Long) : (s.setDreg n v).platform = s.platform := rfl
@[simp] theorem setDreg_extWords (n : Reg) (v : Long) : (s.setDreg n v).extWords = s.extWords := rfl
@[simp] theorem setDreg_extReset (n : Reg) (v : Long) : (s.setDreg n v).extReset = s.extReset := rfl
@[simp] theorem setDreg_bus (n : Reg) (v : Long) : (s.setDreg n v).bus = s.bus := rfl
@[simp] theorem setDreg_draws (n : Reg) (v : Long) : (s.setDreg n v).draws = s.draws := rfl

/-! ### setSr -/

@[simp] theorem setSr_d (sr : Sr) : (s.setSr sr).d = s.d := rfl
@[simp] theorem setSr_a (sr : Sr) : (s.setSr sr).a = s.a := rfl
@[simp] theorem setSr_usp (sr : Sr) : (s.setSr sr).usp = s.usp := rfl
@[simp] theorem setSr_ssp (sr : Sr) : (s.setSr sr).ssp = s.ssp := rfl
@[simp] theorem setSr_pc (sr : Sr) : (s.setSr sr).pc = s.pc := rfl
@[simp] theorem setSr_sr (sr : Sr) : (s.setSr sr).sr = sr := rfl
@[simp] theorem setSr_ir (sr : Sr) : (s.setSr sr).ir = s.ir := rfl
@[simp] theorem setSr_run (sr : Sr) : (s.setSr sr).run = s.run := rfl
@[simp] theorem setSr_xgroup (sr : Sr) : (s.setSr sr).xgroup = s.xgroup := rfl
@[simp] theorem setSr_prevIpl (sr : Sr) : (s.setSr sr).prevIpl = s.prevIpl := rfl
@[simp] theorem setSr_stopTrace (sr : Sr) : (s.setSr sr).stopTrace = s.stopTrace := rfl
@[simp] theorem setSr_handlerFetch (sr : Sr) : (s.setSr sr).handlerFetch = s.handlerFetch := rfl
@[simp] theorem setSr_mem (sr : Sr) : (s.setSr sr).mem = s.mem := rfl
@[simp] theorem setSr_ipl (sr : Sr) : (s.setSr sr).ipl = s.ipl := rfl
@[simp] theorem setSr_iack (sr : Sr) : (s.setSr sr).iack = s.iack := rfl
@[simp] theorem setSr_platform (sr : Sr) : (s.setSr sr).platform = s.platform := rfl
@[simp] theorem setSr_extWords (sr : Sr) : (s.setSr sr).extWords = s.extWords := rfl
@[simp] theorem setSr_extReset (sr : Sr) : (s.setSr sr).extReset = s.extReset := rfl
@[simp] theorem setSr_bus (sr : Sr) : (s.setSr sr).bus = s.bus := rfl
@[simp] theorem setSr_draws (sr : Sr) : (s.setSr sr).draws = s.draws := rfl

/-! ### setPc -/

@[simp] theorem setPc_d (v : Long) : (s.setPc v).d = s.d := rfl
@[simp] theorem setPc_a (v : Long) : (s.setPc v).a = s.a := rfl
@[simp] theorem setPc_usp (v : Long) : (s.setPc v).usp = s.usp := rfl
@[simp] theorem setPc_ssp (v : Long) : (s.setPc v).ssp = s.ssp := rfl
@[simp] theorem setPc_pc (v : Long) : (s.setPc v).pc = v := rfl
@[simp] theorem setPc_sr (v : Long) : (s.setPc v).sr = s.sr := rfl
@[simp] theorem setPc_ir (v : Long) : (s.setPc v).ir = s.ir := rfl
@[simp] theorem setPc_run (v : Long) : (s.setPc v).run = s.run := rfl
@[simp] theorem setPc_xgroup (v : Long) : (s.setPc v).xgroup = s.xgroup := rfl
@[simp] theorem setPc_prevIpl (v : Long) : (s.setPc v).prevIpl = s.prevIpl := rfl
@[simp] theorem setPc_stopTrace (v : Long) : (s.setPc v).stopTrace = s.stopTrace := rfl
@[simp] theorem setPc_handlerFetch (v : Long) : (s.setPc v).handlerFetch = s.handlerFetch := rfl
@[simp] theorem setPc_mem (v : Long) : (s.setPc v).mem = s.mem := rfl
@[simp] theorem setPc_ipl (v : Long) : (s.setPc v).ipl = s.ipl := rfl
@[simp] theorem setPc_iack (v : Long) : (s.setPc v).iack = s.iack := rfl
@[simp] theorem setPc_platform (v : Long) : (s.setPc v).platform = s.platform := rfl
@[simp] theorem setPc_extWords (v : Long) : (s.setPc v).extWords = s.extWords := rfl
@[simp] theorem setPc_extReset (v : Long) : (s.setPc v).extReset = s.extReset := rfl
@[simp] theorem setPc_bus (v : Long) : (s.setPc v).bus = s.bus := rfl
@[simp] theorem setPc_draws (v : Long) : (s.setPc v).draws = s.draws := rfl

/-! ### record -/

@[simp] theorem record_d (e : BusEvent) : (s.record e).d = s.d := rfl
@[simp] theorem record_a (e : BusEvent) : (s.record e).a = s.a := rfl
@[simp] theorem record_usp (e : BusEvent) : (s.record e).usp = s.usp := rfl
@[simp] theorem record_ssp (e : BusEvent) : (s.record e).ssp = s.ssp := rfl
@[simp] theorem record_pc (e : BusEvent) : (s.record e).pc = s.pc := rfl
@[simp] theorem record_sr (e : BusEvent) : (s.record e).sr = s.sr := rfl
@[simp] theorem record_ir (e : BusEvent) : (s.record e).ir = s.ir := rfl
@[simp] theorem record_run (e : BusEvent) : (s.record e).run = s.run := rfl
@[simp] theorem record_xgroup (e : BusEvent) : (s.record e).xgroup = s.xgroup := rfl
@[simp] theorem record_prevIpl (e : BusEvent) : (s.record e).prevIpl = s.prevIpl := rfl
@[simp] theorem record_stopTrace (e : BusEvent) : (s.record e).stopTrace = s.stopTrace := rfl
@[simp] theorem record_handlerFetch (e : BusEvent) : (s.record e).handlerFetch = s.handlerFetch := rfl
@[simp] theorem record_mem (e : BusEvent) : (s.record e).mem = s.mem := rfl
@[simp] theorem record_ipl (e : BusEvent) : (s.record e).ipl = s.ipl := rfl
@[simp] theorem record_iack (e : BusEvent) : (s.record e).iack = s.iack := rfl
@[simp] theorem record_platform (e : BusEvent) : (s.record e).platform = s.platform := rfl
@[simp] theorem record_extWords (e : BusEvent) : (s.record e).extWords = s.extWords := rfl
@[simp] theorem record_extReset (e : BusEvent) : (s.record e).extReset = s.extReset := rfl
@[simp] theorem record_bus (e : BusEvent) : (s.record e).bus = s.bus ++ [e] := rfl
@[simp] theorem record_draws (e : BusEvent) : (s.record e).draws = s.draws := rfl

/-! ### drawn -/

@[simp] theorem drawn_d : (s.drawn).d = s.d := rfl
@[simp] theorem drawn_a : (s.drawn).a = s.a := rfl
@[simp] theorem drawn_usp : (s.drawn).usp = s.usp := rfl
@[simp] theorem drawn_ssp : (s.drawn).ssp = s.ssp := rfl
@[simp] theorem drawn_pc : (s.drawn).pc = s.pc := rfl
@[simp] theorem drawn_sr : (s.drawn).sr = s.sr := rfl
@[simp] theorem drawn_ir : (s.drawn).ir = s.ir := rfl
@[simp] theorem drawn_run : (s.drawn).run = s.run := rfl
@[simp] theorem drawn_xgroup : (s.drawn).xgroup = s.xgroup := rfl
@[simp] theorem drawn_prevIpl : (s.drawn).prevIpl = s.prevIpl := rfl
@[simp] theorem drawn_stopTrace : (s.drawn).stopTrace = s.stopTrace := rfl
@[simp] theorem drawn_handlerFetch : (s.drawn).handlerFetch = s.handlerFetch := rfl
@[simp] theorem drawn_mem : (s.drawn).mem = s.mem := rfl
@[simp] theorem drawn_ipl : (s.drawn).ipl = s.ipl := rfl
@[simp] theorem drawn_iack : (s.drawn).iack = s.iack := rfl
@[simp] theorem drawn_platform : (s.drawn).platform = s.platform := rfl
@[simp] theorem drawn_extWords : (s.drawn).extWords = s.extWords := rfl
@[simp] theorem drawn_extReset : (s.drawn).extReset = s.extReset := rfl
@[simp] theorem drawn_bus : (s.drawn).bus = s.bus := rfl
@[simp] theorem drawn_draws : (s.drawn).draws = s.draws + 1 := rfl

/-! ### halt -/

@[simp] theorem halt_d : (s.halt).d = s.d := rfl
@[simp] theorem halt_a : (s.halt).a = s.a := rfl
@[simp] theorem halt_usp : (s.halt).usp = s.usp := rfl
@[simp] theorem halt_ssp : (s.halt).ssp = s.ssp := rfl
@[simp] theorem halt_pc : (s.halt).pc = s.pc := rfl
@[simp] theorem halt_sr : (s.halt).sr = s.sr := rfl
@[simp] theorem halt_ir : (s.halt).ir = s.ir := rfl
@[simp] theorem halt_run : (s.halt).run = .halted := rfl
@[simp] theorem halt_xgroup : (s.halt).xgroup = s.xgroup := rfl
@[simp] theorem halt_prevIpl : (s.halt).prevIpl = s.prevIpl := rfl
@[simp] theorem halt_stopTrace : (s.halt).stopTrace = s.stopTrace := rfl
@[simp] theorem halt_handlerFetch : (s.halt).handlerFetch = s.handlerFetch := rfl
@[simp] theorem halt_mem : (s.halt).mem = s.mem := rfl
@[simp] theorem halt_ipl : (s.halt).ipl = s.ipl := rfl
@[simp] theorem halt_iack : (s.halt).iack = s.iack := rfl
@[simp] theorem halt_platform : (s.halt).platform = s.platform := rfl
@[simp] theorem halt_extWords : (s.halt).extWords = s.extWords := rfl
@[simp] theorem halt_extReset : (s.halt).extReset = s.extReset := rfl
@[simp] theorem halt_bus : (s.halt).bus = s.bus := rfl
@[simp] theorem halt_draws : (s.halt).draws = s.draws := rfl

/-! ### sampled -/

@[simp] theorem sampled_d : (s.sampled).d = s.d := rfl
@[simp] theorem sampled_a : (s.sampled).a = s.a := rfl
@[simp] theorem sampled_usp : (s.sampled).usp = s.usp := rfl
@[simp] theorem sampled_ssp : (s.sampled).ssp = s.ssp := rfl
@[simp] theorem sampled_pc : (s.sampled).pc = s.pc := rfl
@[simp] theorem sampled_sr : (s.sampled).sr = s.sr := rfl
@[simp] theorem sampled_ir : (s.sampled).ir = s.ir := rfl
@[simp] theorem sampled_run : (s.sampled).run = s.run := rfl
@[simp] theorem sampled_xgroup : (s.sampled).xgroup = s.xgroup := rfl
@[simp] theorem sampled_prevIpl : (s.sampled).prevIpl = s.ipl := rfl
@[simp] theorem sampled_stopTrace : (s.sampled).stopTrace = s.stopTrace := rfl
@[simp] theorem sampled_handlerFetch : (s.sampled).handlerFetch = s.handlerFetch := rfl
@[simp] theorem sampled_mem : (s.sampled).mem = s.mem := rfl
@[simp] theorem sampled_ipl : (s.sampled).ipl = s.ipl := rfl
@[simp] theorem sampled_iack : (s.sampled).iack = s.iack := rfl
@[simp] theorem sampled_platform : (s.sampled).platform = s.platform := rfl
@[simp] theorem sampled_extWords : (s.sampled).extWords = s.extWords := rfl
@[simp] theorem sampled_extReset : (s.sampled).extReset = s.extReset := rfl
@[simp] theorem sampled_bus : (s.sampled).bus = s.bus := rfl
@[simp] theorem sampled_draws : (s.sampled).draws = s.draws := rfl

/-! ### setByte -/

@[simp] theorem setByte_d (x : Long) (v : Byte) : (s.setByte x v).d = s.d := rfl
@[simp] theorem setByte_a (x : Long) (v : Byte) : (s.setByte x v).a = s.a := rfl
@[simp] theorem setByte_usp (x : Long) (v : Byte) : (s.setByte x v).usp = s.usp := rfl
@[simp] theorem setByte_ssp (x : Long) (v : Byte) : (s.setByte x v).ssp = s.ssp := rfl
@[simp] theorem setByte_pc (x : Long) (v : Byte) : (s.setByte x v).pc = s.pc := rfl
@[simp] theorem setByte_sr (x : Long) (v : Byte) : (s.setByte x v).sr = s.sr := rfl
@[simp] theorem setByte_ir (x : Long) (v : Byte) : (s.setByte x v).ir = s.ir := rfl
@[simp] theorem setByte_run (x : Long) (v : Byte) : (s.setByte x v).run = s.run := rfl
@[simp] theorem setByte_xgroup (x : Long) (v : Byte) : (s.setByte x v).xgroup = s.xgroup := rfl
@[simp] theorem setByte_prevIpl (x : Long) (v : Byte) : (s.setByte x v).prevIpl = s.prevIpl := rfl
@[simp] theorem setByte_stopTrace (x : Long) (v : Byte) : (s.setByte x v).stopTrace = s.stopTrace := rfl
@[simp] theorem setByte_handlerFetch (x : Long) (v : Byte) : (s.setByte x v).handlerFetch = s.handlerFetch := rfl
@[simp] theorem setByte_ipl (x : Long) (v : Byte) : (s.setByte x v).ipl = s.ipl := rfl
@[simp] theorem setByte_iack (x : Long) (v : Byte) : (s.setByte x v).iack = s.iack := rfl
@[simp] theorem setByte_platform (x : Long) (v : Byte) : (s.setByte x v).platform = s.platform := rfl
@[simp] theorem setByte_extWords (x : Long) (v : Byte) : (s.setByte x v).extWords = s.extWords := rfl
@[simp] theorem setByte_extReset (x : Long) (v : Byte) : (s.setByte x v).extReset = s.extReset := rfl
@[simp] theorem setByte_bus (x : Long) (v : Byte) : (s.setByte x v).bus = s.bus := rfl
@[simp] theorem setByte_draws (x : Long) (v : Byte) : (s.setByte x v).draws = s.draws := rfl

/-! ### setWord -/

@[simp] theorem setWord_d (x : Long) (v : Word) : (s.setWord x v).d = s.d := rfl
@[simp] theorem setWord_a (x : Long) (v : Word) : (s.setWord x v).a = s.a := rfl
@[simp] theorem setWord_usp (x : Long) (v : Word) : (s.setWord x v).usp = s.usp := rfl
@[simp] theorem setWord_ssp (x : Long) (v : Word) : (s.setWord x v).ssp = s.ssp := rfl
@[simp] theorem setWord_pc (x : Long) (v : Word) : (s.setWord x v).pc = s.pc := rfl
@[simp] theorem setWord_sr (x : Long) (v : Word) : (s.setWord x v).sr = s.sr := rfl
@[simp] theorem setWord_ir (x : Long) (v : Word) : (s.setWord x v).ir = s.ir := rfl
@[simp] theorem setWord_run (x : Long) (v : Word) : (s.setWord x v).run = s.run := rfl
@[simp] theorem setWord_xgroup (x : Long) (v : Word) : (s.setWord x v).xgroup = s.xgroup := rfl
@[simp] theorem setWord_prevIpl (x : Long) (v : Word) : (s.setWord x v).prevIpl = s.prevIpl := rfl
@[simp] theorem setWord_stopTrace (x : Long) (v : Word) : (s.setWord x v).stopTrace = s.stopTrace := rfl
@[simp] theorem setWord_handlerFetch (x : Long) (v : Word) : (s.setWord x v).handlerFetch = s.handlerFetch := rfl
@[simp] theorem setWord_ipl (x : Long) (v : Word) : (s.setWord x v).ipl = s.ipl := rfl
@[simp] theorem setWord_iack (x : Long) (v : Word) : (s.setWord x v).iack = s.iack := rfl
@[simp] theorem setWord_platform (x : Long) (v : Word) : (s.setWord x v).platform = s.platform := rfl
@[simp] theorem setWord_extWords (x : Long) (v : Word) : (s.setWord x v).extWords = s.extWords := rfl
@[simp] theorem setWord_extReset (x : Long) (v : Word) : (s.setWord x v).extReset = s.extReset := rfl
@[simp] theorem setWord_bus (x : Long) (v : Word) : (s.setWord x v).bus = s.bus := rfl
@[simp] theorem setWord_draws (x : Long) (v : Word) : (s.setWord x v).draws = s.draws := rfl

/-! ### setLong -/

@[simp] theorem setLong_d (x : Long) (v : Long) : (s.setLong x v).d = s.d := rfl
@[simp] theorem setLong_a (x : Long) (v : Long) : (s.setLong x v).a = s.a := rfl
@[simp] theorem setLong_usp (x : Long) (v : Long) : (s.setLong x v).usp = s.usp := rfl
@[simp] theorem setLong_ssp (x : Long) (v : Long) : (s.setLong x v).ssp = s.ssp := rfl
@[simp] theorem setLong_pc (x : Long) (v : Long) : (s.setLong x v).pc = s.pc := rfl
@[simp] theorem setLong_sr (x : Long) (v : Long) : (s.setLong x v).sr = s.sr := rfl
@[simp] theorem setLong_ir (x : Long) (v : Long) : (s.setLong x v).ir = s.ir := rfl
@[simp] theorem setLong_run (x : Long) (v : Long) : (s.setLong x v).run = s.run := rfl
@[simp] theorem setLong_xgroup (x : Long) (v : Long) : (s.setLong x v).xgroup = s.xgroup := rfl
@[simp] theorem setLong_prevIpl (x : Long) (v : Long) : (s.setLong x v).prevIpl = s.prevIpl := rfl
@[simp] theorem setLong_stopTrace (x : Long) (v : Long) : (s.setLong x v).stopTrace = s.stopTrace := rfl
@[simp] theorem setLong_handlerFetch (x : Long) (v : Long) : (s.setLong x v).handlerFetch = s.handlerFetch := rfl
@[simp] theorem setLong_ipl (x : Long) (v : Long) : (s.setLong x v).ipl = s.ipl := rfl
@[simp] theorem setLong_iack (x : Long) (v : Long) : (s.setLong x v).iack = s.iack := rfl
@[simp] theorem setLong_platform (x : Long) (v : Long) : (s.setLong x v).platform = s.platform := rfl
@[simp] theorem setLong_extWords (x : Long) (v : Long) : (s.setLong x v).extWords = s.extWords := rfl
@[simp] theorem setLong_extReset (x : Long) (v : Long) : (s.setLong x v).extReset = s.extReset := rfl
@[simp] theorem setLong_bus (x : Long) (v : Long) : (s.setLong x v).bus = s.bus := rfl
@[simp] theorem setLong_draws (x : Long) (v : Long) : (s.setLong x v).draws = s.draws := rfl

/-! ### setCell and setCellWord -/
@[simp] theorem setCell_d (fc : BitVec 3) (x : Long) (v : Byte) : (s.setCell fc x v).d = s.d := rfl
@[simp] theorem setCell_a (fc : BitVec 3) (x : Long) (v : Byte) : (s.setCell fc x v).a = s.a := rfl
@[simp] theorem setCell_usp (fc : BitVec 3) (x : Long) (v : Byte) : (s.setCell fc x v).usp = s.usp := rfl
@[simp] theorem setCell_ssp (fc : BitVec 3) (x : Long) (v : Byte) : (s.setCell fc x v).ssp = s.ssp := rfl
@[simp] theorem setCell_pc (fc : BitVec 3) (x : Long) (v : Byte) : (s.setCell fc x v).pc = s.pc := rfl
@[simp] theorem setCell_sr (fc : BitVec 3) (x : Long) (v : Byte) : (s.setCell fc x v).sr = s.sr := rfl
@[simp] theorem setCell_ir (fc : BitVec 3) (x : Long) (v : Byte) : (s.setCell fc x v).ir = s.ir := rfl
@[simp] theorem setCell_run (fc : BitVec 3) (x : Long) (v : Byte) : (s.setCell fc x v).run = s.run := rfl
@[simp] theorem setCell_xgroup (fc : BitVec 3) (x : Long) (v : Byte) : (s.setCell fc x v).xgroup = s.xgroup := rfl
@[simp] theorem setCell_prevIpl (fc : BitVec 3) (x : Long) (v : Byte) : (s.setCell fc x v).prevIpl = s.prevIpl := rfl
@[simp] theorem setCell_stopTrace (fc : BitVec 3) (x : Long) (v : Byte) : (s.setCell fc x v).stopTrace = s.stopTrace := rfl
@[simp] theorem setCell_handlerFetch (fc : BitVec 3) (x : Long) (v : Byte) : (s.setCell fc x v).handlerFetch = s.handlerFetch := rfl
@[simp] theorem setCell_ipl (fc : BitVec 3) (x : Long) (v : Byte) : (s.setCell fc x v).ipl = s.ipl := rfl
@[simp] theorem setCell_iack (fc : BitVec 3) (x : Long) (v : Byte) : (s.setCell fc x v).iack = s.iack := rfl
@[simp] theorem setCell_platform (fc : BitVec 3) (x : Long) (v : Byte) : (s.setCell fc x v).platform = s.platform := rfl
@[simp] theorem setCell_extReset (fc : BitVec 3) (x : Long) (v : Byte) : (s.setCell fc x v).extReset = s.extReset := rfl
@[simp] theorem setCell_extWords (fc : BitVec 3) (x : Long) (v : Byte) : (s.setCell fc x v).extWords = s.extWords := rfl
@[simp] theorem setCell_bus (fc : BitVec 3) (x : Long) (v : Byte) : (s.setCell fc x v).bus = s.bus := rfl
@[simp] theorem setCell_draws (fc : BitVec 3) (x : Long) (v : Byte) : (s.setCell fc x v).draws = s.draws := rfl
@[simp] theorem setCellWord_d (fc : BitVec 3) (x : Long) (v : Word) : (s.setCellWord fc x v).d = s.d := rfl
@[simp] theorem setCellWord_a (fc : BitVec 3) (x : Long) (v : Word) : (s.setCellWord fc x v).a = s.a := rfl
@[simp] theorem setCellWord_usp (fc : BitVec 3) (x : Long) (v : Word) : (s.setCellWord fc x v).usp = s.usp := rfl
@[simp] theorem setCellWord_ssp (fc : BitVec 3) (x : Long) (v : Word) : (s.setCellWord fc x v).ssp = s.ssp := rfl
@[simp] theorem setCellWord_pc (fc : BitVec 3) (x : Long) (v : Word) : (s.setCellWord fc x v).pc = s.pc := rfl
@[simp] theorem setCellWord_sr (fc : BitVec 3) (x : Long) (v : Word) : (s.setCellWord fc x v).sr = s.sr := rfl
@[simp] theorem setCellWord_ir (fc : BitVec 3) (x : Long) (v : Word) : (s.setCellWord fc x v).ir = s.ir := rfl
@[simp] theorem setCellWord_run (fc : BitVec 3) (x : Long) (v : Word) : (s.setCellWord fc x v).run = s.run := rfl
@[simp] theorem setCellWord_xgroup (fc : BitVec 3) (x : Long) (v : Word) : (s.setCellWord fc x v).xgroup = s.xgroup := rfl
@[simp] theorem setCellWord_prevIpl (fc : BitVec 3) (x : Long) (v : Word) : (s.setCellWord fc x v).prevIpl = s.prevIpl := rfl
@[simp] theorem setCellWord_stopTrace (fc : BitVec 3) (x : Long) (v : Word) : (s.setCellWord fc x v).stopTrace = s.stopTrace := rfl
@[simp] theorem setCellWord_handlerFetch (fc : BitVec 3) (x : Long) (v : Word) : (s.setCellWord fc x v).handlerFetch = s.handlerFetch := rfl
@[simp] theorem setCellWord_ipl (fc : BitVec 3) (x : Long) (v : Word) : (s.setCellWord fc x v).ipl = s.ipl := rfl
@[simp] theorem setCellWord_iack (fc : BitVec 3) (x : Long) (v : Word) : (s.setCellWord fc x v).iack = s.iack := rfl
@[simp] theorem setCellWord_platform (fc : BitVec 3) (x : Long) (v : Word) : (s.setCellWord fc x v).platform = s.platform := rfl
@[simp] theorem setCellWord_extReset (fc : BitVec 3) (x : Long) (v : Word) : (s.setCellWord fc x v).extReset = s.extReset := rfl
@[simp] theorem setCellWord_extWords (fc : BitVec 3) (x : Long) (v : Word) : (s.setCellWord fc x v).extWords = s.extWords := rfl
@[simp] theorem setCellWord_bus (fc : BitVec 3) (x : Long) (v : Word) : (s.setCellWord fc x v).bus = s.bus := rfl
@[simp] theorem setCellWord_draws (fc : BitVec 3) (x : Long) (v : Word) : (s.setCellWord fc x v).draws = s.draws := rfl

/-! ### tookWord -/

@[simp] theorem tookWord_d (w : Word) : (s.tookWord w).d = s.d := rfl
@[simp] theorem tookWord_a (w : Word) : (s.tookWord w).a = s.a := rfl
@[simp] theorem tookWord_usp (w : Word) : (s.tookWord w).usp = s.usp := rfl
@[simp] theorem tookWord_ssp (w : Word) : (s.tookWord w).ssp = s.ssp := rfl
@[simp] theorem tookWord_pc (w : Word) : (s.tookWord w).pc = s.pc + 2 := rfl
@[simp] theorem tookWord_sr (w : Word) : (s.tookWord w).sr = s.sr := rfl
@[simp] theorem tookWord_ir (w : Word) : (s.tookWord w).ir = s.ir := rfl
@[simp] theorem tookWord_run (w : Word) : (s.tookWord w).run = s.run := rfl
@[simp] theorem tookWord_xgroup (w : Word) : (s.tookWord w).xgroup = s.xgroup := rfl
@[simp] theorem tookWord_prevIpl (w : Word) : (s.tookWord w).prevIpl = s.prevIpl := rfl
@[simp] theorem tookWord_stopTrace (w : Word) : (s.tookWord w).stopTrace = s.stopTrace := rfl
@[simp] theorem tookWord_handlerFetch (w : Word) : (s.tookWord w).handlerFetch = s.handlerFetch := rfl
@[simp] theorem tookWord_ipl (w : Word) : (s.tookWord w).ipl = s.ipl := rfl
@[simp] theorem tookWord_iack (w : Word) : (s.tookWord w).iack = s.iack := rfl
@[simp] theorem tookWord_platform (w : Word) : (s.tookWord w).platform = s.platform := rfl
@[simp] theorem tookWord_extReset (w : Word) : (s.tookWord w).extReset = s.extReset := rfl
@[simp] theorem tookWord_extWords (w : Word) : (s.tookWord w).extWords = s.extWords ++ [w] := rfl
@[simp] theorem tookWord_bus (w : Word) : (s.tookWord w).bus = s.bus := rfl
@[simp] theorem tookWord_draws (w : Word) : (s.tookWord w).draws = s.draws := rfl
@[simp] theorem tookWord_mem (w : Word) : (s.tookWord w).mem = s.mem := rfl

/-! ### cycleBegun -/

@[simp] theorem cycleBegun_d : s.cycleBegun.d = s.d := rfl
@[simp] theorem cycleBegun_a : s.cycleBegun.a = s.a := rfl
@[simp] theorem cycleBegun_usp : s.cycleBegun.usp = s.usp := rfl
@[simp] theorem cycleBegun_ssp : s.cycleBegun.ssp = s.ssp := rfl
@[simp] theorem cycleBegun_pc : s.cycleBegun.pc = s.pc := rfl
@[simp] theorem cycleBegun_sr : s.cycleBegun.sr = s.sr := rfl
@[simp] theorem cycleBegun_ir : s.cycleBegun.ir = s.ir := rfl
@[simp] theorem cycleBegun_run : s.cycleBegun.run = s.run := rfl
@[simp] theorem cycleBegun_xgroup : s.cycleBegun.xgroup = s.xgroup := rfl
@[simp] theorem cycleBegun_prevIpl : s.cycleBegun.prevIpl = s.prevIpl := rfl
@[simp] theorem cycleBegun_stopTrace : s.cycleBegun.stopTrace = s.stopTrace := rfl
@[simp] theorem cycleBegun_handlerFetch : s.cycleBegun.handlerFetch = s.handlerFetch := rfl
@[simp] theorem cycleBegun_ipl : s.cycleBegun.ipl = s.ipl := rfl
@[simp] theorem cycleBegun_iack : s.cycleBegun.iack = s.iack := rfl
@[simp] theorem cycleBegun_extReset : s.cycleBegun.extReset = s.extReset := rfl
@[simp] theorem cycleBegun_extWords : s.cycleBegun.extWords = s.extWords := rfl
@[simp] theorem cycleBegun_bus : s.cycleBegun.bus = s.bus := rfl
@[simp] theorem cycleBegun_draws : s.cycleBegun.draws = s.draws := rfl

/-! ### resetBegun -/

@[simp] theorem resetBegun_d : s.resetBegun.d = s.d := rfl
@[simp] theorem resetBegun_a : s.resetBegun.a = s.a := rfl
@[simp] theorem resetBegun_usp : s.resetBegun.usp = s.usp := rfl
@[simp] theorem resetBegun_ssp : s.resetBegun.ssp = s.ssp := rfl
@[simp] theorem resetBegun_pc : s.resetBegun.pc = s.pc := rfl
@[simp] theorem resetBegun_sr : s.resetBegun.sr = { s.sr with s := true, t := false, i := 7 } := rfl
@[simp] theorem resetBegun_ir : s.resetBegun.ir = s.ir := rfl
@[simp] theorem resetBegun_run : s.resetBegun.run = s.run := rfl
@[simp] theorem resetBegun_xgroup : s.resetBegun.xgroup = .g0 := rfl
@[simp] theorem resetBegun_prevIpl : s.resetBegun.prevIpl = 0 := rfl
@[simp] theorem resetBegun_stopTrace : s.resetBegun.stopTrace = false := rfl
@[simp] theorem resetBegun_handlerFetch : s.resetBegun.handlerFetch = false := rfl
@[simp] theorem resetBegun_ipl : s.resetBegun.ipl = s.ipl := rfl
@[simp] theorem resetBegun_iack : s.resetBegun.iack = s.iack := rfl
@[simp] theorem resetBegun_platform : s.resetBegun.platform = { s.platform with resetAfter := none } := rfl
@[simp] theorem resetBegun_extReset : s.resetBegun.extReset = false := rfl
@[simp] theorem resetBegun_extWords : s.resetBegun.extWords = s.extWords := rfl
@[simp] theorem resetBegun_bus : s.resetBegun.bus = s.bus := rfl
@[simp] theorem resetBegun_draws : s.resetBegun.draws = s.draws := rfl
@[simp] theorem resetBegun_mem : s.resetBegun.mem = s.mem := rfl

/-! ### setAreg -/

@[simp] theorem setAreg_d (n : Reg) (v : Long) : (s.setAreg n v).d = s.d :=
  by unfold State.setAreg; split <;> (try split) <;> rfl
@[simp] theorem setAreg_pc (n : Reg) (v : Long) : (s.setAreg n v).pc = s.pc :=
  by unfold State.setAreg; split <;> (try split) <;> rfl
@[simp] theorem setAreg_sr (n : Reg) (v : Long) : (s.setAreg n v).sr = s.sr :=
  by unfold State.setAreg; split <;> (try split) <;> rfl
@[simp] theorem setAreg_ir (n : Reg) (v : Long) : (s.setAreg n v).ir = s.ir :=
  by unfold State.setAreg; split <;> (try split) <;> rfl
@[simp] theorem setAreg_run (n : Reg) (v : Long) : (s.setAreg n v).run = s.run :=
  by unfold State.setAreg; split <;> (try split) <;> rfl
@[simp] theorem setAreg_xgroup (n : Reg) (v : Long) : (s.setAreg n v).xgroup = s.xgroup :=
  by unfold State.setAreg; split <;> (try split) <;> rfl
@[simp] theorem setAreg_prevIpl (n : Reg) (v : Long) : (s.setAreg n v).prevIpl = s.prevIpl :=
  by unfold State.setAreg; split <;> (try split) <;> rfl
@[simp] theorem setAreg_stopTrace (n : Reg) (v : Long) : (s.setAreg n v).stopTrace = s.stopTrace :=
  by unfold State.setAreg; split <;> (try split) <;> rfl
@[simp] theorem setAreg_handlerFetch (n : Reg) (v : Long) : (s.setAreg n v).handlerFetch = s.handlerFetch :=
  by unfold State.setAreg; split <;> (try split) <;> rfl
@[simp] theorem setAreg_mem (n : Reg) (v : Long) : (s.setAreg n v).mem = s.mem :=
  by unfold State.setAreg; split <;> (try split) <;> rfl
@[simp] theorem setAreg_ipl (n : Reg) (v : Long) : (s.setAreg n v).ipl = s.ipl :=
  by unfold State.setAreg; split <;> (try split) <;> rfl
@[simp] theorem setAreg_iack (n : Reg) (v : Long) : (s.setAreg n v).iack = s.iack :=
  by unfold State.setAreg; split <;> (try split) <;> rfl
@[simp] theorem setAreg_platform (n : Reg) (v : Long) : (s.setAreg n v).platform = s.platform :=
  by unfold State.setAreg; split <;> (try split) <;> rfl
@[simp] theorem setAreg_extWords (n : Reg) (v : Long) : (s.setAreg n v).extWords = s.extWords :=
  by unfold State.setAreg; split <;> (try split) <;> rfl
@[simp] theorem setAreg_extReset (n : Reg) (v : Long) : (s.setAreg n v).extReset = s.extReset :=
  by unfold State.setAreg; split <;> (try split) <;> rfl
@[simp] theorem setAreg_bus (n : Reg) (v : Long) : (s.setAreg n v).bus = s.bus :=
  by unfold State.setAreg; split <;> (try split) <;> rfl
@[simp] theorem setAreg_draws (n : Reg) (v : Long) : (s.setAreg n v).draws = s.draws :=
  by unfold State.setAreg; split <;> (try split) <;> rfl

/-! ### Register reads after updates -/

@[simp] theorem dreg_setDreg_same (n : Reg) (v : Long) : (s.setDreg n v).dreg n = v := by
  simp [State.dreg, State.setDreg]

theorem dreg_setDreg_of_ne {m n : Reg} (h : m ≠ n) (v : Long) : (s.setDreg n v).dreg m = s.dreg m := by
  simp only [State.dreg, State.setDreg, Fin.getElem_fin]
  exact Vector.getElem_set_ne _ _ (fun e => h (Fin.ext e.symm))

theorem dreg_congr {s t : State} (h : t.d = s.d) (n : Reg) : t.dreg n = s.dreg n := by
  simp [State.dreg, h]

theorem areg_congr {s t : State} (ha : t.a = s.a) (hu : t.usp = s.usp) (hs : t.ssp = s.ssp)
    (hr : t.sr.s = s.sr.s) (n : Reg) : t.areg n = s.areg n := by
  simp [State.areg, ha, hu, hs, hr]

@[simp] theorem areg_setAreg_same (n : Reg) (v : Long) : (s.setAreg n v).areg n = v := by
  unfold State.setAreg State.areg
  split
  · simp
  · split <;> simp_all

theorem areg_setAreg_of_ne {m n : Reg} (h : m ≠ n) (v : Long) : (s.setAreg n v).areg m = s.areg m := by
  have hv : m.val ≠ n.val := fun e => h (Fin.ext e)
  unfold State.setAreg State.areg
  by_cases hn : n.val < 7
  · by_cases hm : m.val < 7
    · simp [hn, hm, Vector.getElem_set_ne _ _ (Ne.symm hv)]
    · simp [hn, hm]
  · by_cases hm : m.val < 7
    · by_cases hs : s.sr.s <;> simp [hn, hm, hs]
    · omega

@[simp] theorem dreg_setSr (sr : Sr) (n : Reg) : (s.setSr sr).dreg n = s.dreg n :=
  dreg_congr (by simp) n
@[simp] theorem dreg_setPc (v : Long) (n : Reg) : (s.setPc v).dreg n = s.dreg n :=
  dreg_congr (by simp) n
@[simp] theorem dreg_record (e : BusEvent) (n : Reg) : (s.record e).dreg n = s.dreg n :=
  dreg_congr (by simp) n
@[simp] theorem dreg_drawn (n : Reg) : (s.drawn).dreg n = s.dreg n :=
  dreg_congr (by simp) n
@[simp] theorem dreg_halt (n : Reg) : (s.halt).dreg n = s.dreg n :=
  dreg_congr (by simp) n
@[simp] theorem dreg_sampled (n : Reg) : (s.sampled).dreg n = s.dreg n :=
  dreg_congr (by simp) n
@[simp] theorem dreg_setByte (x : Long) (v : Byte) (n : Reg) : (s.setByte x v).dreg n = s.dreg n :=
  dreg_congr (by simp) n
@[simp] theorem dreg_setWord (x : Long) (v : Word) (n : Reg) : (s.setWord x v).dreg n = s.dreg n :=
  dreg_congr (by simp) n
@[simp] theorem dreg_setLong (x : Long) (v : Long) (n : Reg) : (s.setLong x v).dreg n = s.dreg n :=
  dreg_congr (by simp) n
@[simp] theorem dreg_setAreg (m : Reg) (v : Long) (n : Reg) : (s.setAreg m v).dreg n = s.dreg n :=
  dreg_congr (by simp) n
@[simp] theorem areg_setDreg (m : Reg) (v : Long) (n : Reg) : (s.setDreg m v).areg n = s.areg n :=
  areg_congr (by simp) (by simp) (by simp) (by simp) n
@[simp] theorem areg_setPc (v : Long) (n : Reg) : (s.setPc v).areg n = s.areg n :=
  areg_congr (by simp) (by simp) (by simp) (by simp) n
@[simp] theorem areg_record (e : BusEvent) (n : Reg) : (s.record e).areg n = s.areg n :=
  areg_congr (by simp) (by simp) (by simp) (by simp) n
@[simp] theorem areg_drawn (n : Reg) : (s.drawn).areg n = s.areg n :=
  areg_congr (by simp) (by simp) (by simp) (by simp) n
@[simp] theorem areg_halt (n : Reg) : (s.halt).areg n = s.areg n :=
  areg_congr (by simp) (by simp) (by simp) (by simp) n
@[simp] theorem areg_sampled (n : Reg) : (s.sampled).areg n = s.areg n :=
  areg_congr (by simp) (by simp) (by simp) (by simp) n
@[simp] theorem areg_setByte (x : Long) (v : Byte) (n : Reg) : (s.setByte x v).areg n = s.areg n :=
  areg_congr (by simp) (by simp) (by simp) (by simp) n
@[simp] theorem areg_setWord (x : Long) (v : Word) (n : Reg) : (s.setWord x v).areg n = s.areg n :=
  areg_congr (by simp) (by simp) (by simp) (by simp) n
@[simp] theorem areg_setLong (x : Long) (v : Long) (n : Reg) : (s.setLong x v).areg n = s.areg n :=
  areg_congr (by simp) (by simp) (by simp) (by simp) n

theorem areg_setSr {sr : Sr} (h : sr.s = s.sr.s) (n : Reg) : (s.setSr sr).areg n = s.areg n :=
  areg_congr (s := s) (t := s.setSr sr) rfl rfl rfl (by simpa using h) n

theorem areg_seven_supervisor (h : s.sr.s = true) : s.areg 7 = s.ssp := by
  simp [State.areg, h]

theorem areg_seven_user (h : s.sr.s = false) : s.areg 7 = s.usp := by
  simp [State.areg, h]

theorem setAreg_seven_supervisor (h : s.sr.s = true) (v : Long) : s.setAreg 7 v = { s with ssp := v } := by
  simp [State.setAreg, h]

theorem setAreg_seven_user (h : s.sr.s = false) (v : Long) : s.setAreg 7 v = { s with usp := v } := by
  simp [State.setAreg, h]

/-! ### Condition code updates leave the rest of the status register alone -/

@[simp] theorem logicFlags_t {w : Nat} (sr : Sr) (v : BitVec w) : (sr.logicFlags v).t = sr.t := rfl
@[simp] theorem logicFlags_s {w : Nat} (sr : Sr) (v : BitVec w) : (sr.logicFlags v).s = sr.s := rfl
@[simp] theorem logicFlags_i {w : Nat} (sr : Sr) (v : BitVec w) : (sr.logicFlags v).i = sr.i := rfl
@[simp] theorem logicFlags_x {w : Nat} (sr : Sr) (v : BitVec w) : (sr.logicFlags v).x = sr.x := rfl
@[simp] theorem addFlags_t {w : Nat} (sr : Sr) (a b r : BitVec w) : (sr.addFlags a b r).t = sr.t := rfl
@[simp] theorem addFlags_s {w : Nat} (sr : Sr) (a b r : BitVec w) : (sr.addFlags a b r).s = sr.s := rfl
@[simp] theorem addFlags_i {w : Nat} (sr : Sr) (a b r : BitVec w) : (sr.addFlags a b r).i = sr.i := rfl
@[simp] theorem subFlags_t {w : Nat} (sr : Sr) (a b r : BitVec w) : (sr.subFlags a b r).t = sr.t := rfl
@[simp] theorem subFlags_s {w : Nat} (sr : Sr) (a b r : BitVec w) : (sr.subFlags a b r).s = sr.s := rfl
@[simp] theorem subFlags_i {w : Nat} (sr : Sr) (a b r : BitVec w) : (sr.subFlags a b r).i = sr.i := rfl
@[simp] theorem compareFlags_t {w : Nat} (sr : Sr) (a b r : BitVec w) : (sr.compareFlags a b r).t = sr.t := rfl
@[simp] theorem compareFlags_s {w : Nat} (sr : Sr) (a b r : BitVec w) : (sr.compareFlags a b r).s = sr.s := rfl
@[simp] theorem compareFlags_i {w : Nat} (sr : Sr) (a b r : BitVec w) : (sr.compareFlags a b r).i = sr.i := rfl
@[simp] theorem compareFlags_x {w : Nat} (sr : Sr) (a b r : BitVec w) : (sr.compareFlags a b r).x = sr.x := rfl
@[simp] theorem shiftFlags_t {w : Nat} (sr : Sr) (o : Shifted w) : (sr.shiftFlags o).t = sr.t := rfl
@[simp] theorem shiftFlags_s {w : Nat} (sr : Sr) (o : Shifted w) : (sr.shiftFlags o).s = sr.s := rfl
@[simp] theorem shiftFlags_i {w : Nat} (sr : Sr) (o : Shifted w) : (sr.shiftFlags o).i = sr.i := rfl
@[simp] theorem setCodes_t (sr : Sr) (b : BitVec 5) : (sr.setCodes b).t = sr.t := rfl
@[simp] theorem setCodes_s (sr : Sr) (b : BitVec 5) : (sr.setCodes b).s = sr.s := rfl
@[simp] theorem setCodes_i (sr : Sr) (b : BitVec 5) : (sr.setCodes b).i = sr.i := rfl
@[simp] theorem stickyZero_t {w : Nat} (sr b : Sr) (r : BitVec w) : (sr.stickyZero b r).t = sr.t := rfl
@[simp] theorem stickyZero_s {w : Nat} (sr b : Sr) (r : BitVec w) : (sr.stickyZero b r).s = sr.s := rfl
@[simp] theorem stickyZero_i {w : Nat} (sr b : Sr) (r : BitVec w) : (sr.stickyZero b r).i = sr.i := rfl

end Sys2Proof.Machine
end

