-- ==== Sys2Proof/Laws/Memory.lean ====
section
/-! SUPPORT. Memory: a read after a write, and the canonical form kept by every write. -/

namespace Sys2Proof.Machine

theorem get_erase_same (m : Memory) (a : Nat) : Memory.get (Memory.erase m a) a = unlistedByte := by
  induction m with
  | nil => rfl
  | cons e rest ih =>
    obtain ⟨k, v⟩ := e
    by_cases h : k = a
    · simpa [Memory.erase, List.filter_cons, h] using ih
    · simpa [Memory.erase, List.filter_cons, h, Memory.get] using ih

theorem get_erase_of_ne (m : Memory) {a b : Nat} (h : b ≠ a) : Memory.get (Memory.erase m a) b = Memory.get m b := by
  induction m with
  | nil => rfl
  | cons e rest ih =>
    obtain ⟨k, v⟩ := e
    by_cases hk : k = a
    · subst hk
      simpa [Memory.erase, List.filter_cons, Memory.get, Ne.symm h] using ih
    · by_cases hb : k = b
      · subst hb
        simp [Memory.erase, hk, Memory.get]
      · simpa [Memory.erase, List.filter_cons, hk, Memory.get, hb] using ih

/-- An entry not yet listed, once inserted, is what its address reads as. -/
theorem get_insert_same (m : Memory) (a : Nat) (v : Byte) (h : ∀ e ∈ m, e.1 ≠ a) :
    Memory.get (Memory.insert m a v) a = v := by
  induction m with
  | nil => simp [Memory.insert, Memory.get]
  | cons e rest ih =>
    obtain ⟨k, w⟩ := e
    have hk : k ≠ a := h (k, w) (by simp)
    by_cases hlt : a < k
    · simp [Memory.insert, hlt, Memory.get]
    · simpa [Memory.insert, hlt, Memory.get, hk] using ih fun e he => h e (by simp [he])

theorem get_insert_of_ne (m : Memory) {a b : Nat} (v : Byte) (h : b ≠ a) :
    Memory.get (Memory.insert m a v) b = Memory.get m b := by
  induction m with
  | nil => simp [Memory.insert, Memory.get, Ne.symm h]
  | cons e rest ih =>
    obtain ⟨k, w⟩ := e
    by_cases hlt : a < k
    · simp [Memory.insert, hlt, Memory.get, Ne.symm h]
    · simp only [Memory.insert, hlt, ↓reduceIte, Memory.get, ih]

theorem ne_of_mem_erase {m : Memory} {a : Nat} {e : Host.Cell} (h : e ∈ Memory.erase m a) : e.1 ≠ a := by
  simpa [Memory.erase] using (List.mem_filter.mp h).2

/-- Reading an address after writing it gives the value written. -/
theorem get_set_same (m : Memory) (a : Nat) (v : Byte) : Memory.get (Memory.set m a v) a = v := by
  unfold Memory.set
  split
  · next h => rw [get_erase_same, h]
  · exact get_insert_same _ _ _ fun _ he => ne_of_mem_erase he

/-- A write leaves every other address alone. -/
theorem get_set_of_ne (m : Memory) {a b : Nat} (v : Byte) (h : b ≠ a) :
    Memory.get (Memory.set m a v) b = Memory.get m b := by
  unfold Memory.set
  split
  · exact get_erase_of_ne m h
  · rw [get_insert_of_ne _ _ h, get_erase_of_ne m h]

/-- The canonical form, as a statement about lists. -/
theorem wf_iff (m : Memory) :
    Memory.wf m = true ↔ m.Pairwise (fun x y => x.1 < y.1) ∧ ∀ e ∈ m, e.2 ≠ unlistedByte := by
  induction m with
  | nil => simp [Memory.wf]
  | cons e rest ih =>
    obtain ⟨k, v⟩ := e
    simp only [Memory.wf, Bool.and_eq_true, decide_eq_true_eq, bne_iff_ne, ne_eq, List.all_eq_true, ih,
      List.pairwise_cons, List.mem_cons, forall_eq_or_imp]
    tauto

theorem wf_erase {m : Memory} (h : Memory.wf m = true) (a : Nat) : Memory.wf (Memory.erase m a) = true := by
  rw [wf_iff] at h ⊢
  exact ⟨h.1.sublist List.filter_sublist, fun e he => h.2 e (List.mem_filter.mp he).1⟩

theorem mem_insert {m : Memory} {a : Nat} {v : Byte} {e : Host.Cell} (h : e ∈ Memory.insert m a v) :
    e = (a, v) ∨ e ∈ m := by
  induction m with
  | nil => simpa [Memory.insert] using h
  | cons x rest ih =>
    obtain ⟨k, w⟩ := x
    by_cases hlt : a < k
    · simpa [Memory.insert, hlt] using h
    · simp only [Memory.insert, hlt, ↓reduceIte, List.mem_cons] at h
      rcases h with h | h
      · exact .inr (by simp [h])
      · rcases ih h with h | h
        · exact .inl h
        · exact .inr (by simp [h])

theorem pairwise_insert {m : Memory} {a : Nat} {v : Byte} (hm : m.Pairwise fun x y => x.1 < y.1)
    (ha : ∀ e ∈ m, e.1 ≠ a) : (Memory.insert m a v).Pairwise fun x y => x.1 < y.1 := by
  induction m with
  | nil => simp [Memory.insert]
  | cons x rest ih =>
    obtain ⟨k, w⟩ := x
    have hk : k ≠ a := ha (k, w) (by simp)
    rw [List.pairwise_cons] at hm
    by_cases hlt : a < k
    · rw [Memory.insert, if_pos hlt, List.pairwise_cons]
      refine ⟨fun e he => ?_, List.pairwise_cons.mpr hm⟩
      rcases List.mem_cons.mp he with rfl | he
      · exact hlt
      · exact lt_trans hlt (hm.1 e he)
    · simp only [Memory.insert, hlt, ↓reduceIte, List.pairwise_cons]
      refine ⟨fun e he => ?_, ih hm.2 fun e he => ha e (by simp [he])⟩
      rcases mem_insert he with rfl | he
      · show k < a
        omega
      · exact hm.1 e he

/-- A write keeps the canonical form. -/
theorem wf_set {m : Memory} (h : Memory.wf m = true) (a : Nat) (v : Byte) :
    Memory.wf (Memory.set m a v) = true := by
  have he := wf_erase h a
  unfold Memory.set
  split
  · exact he
  · next hv =>
    rw [wf_iff] at he ⊢
    refine ⟨pairwise_insert he.1 fun e => ne_of_mem_erase, fun e hmem => ?_⟩
    rcases mem_insert hmem with rfl | hmem
    · exact hv
    · exact he.2 e hmem

theorem wf_setByte {s : State} (h : Memory.wf s.mem = true) (a : Long) (v : Byte) :
    Memory.wf (s.setByte a v).mem = true := wf_set h _ v

theorem wf_setWord {s : State} (h : Memory.wf s.mem = true) (a : Long) (v : Word) :
    Memory.wf (s.setWord a v).mem = true := wf_setByte (wf_setByte h _ _) _ _

theorem wf_setLong {s : State} (h : Memory.wf s.mem = true) (a : Long) (v : Long) :
    Memory.wf (s.setLong a v).mem = true := wf_setWord (wf_setWord h _ _) _ _

theorem wf_setCell {s : State} (h : Memory.wf s.mem = true) (fc : BitVec 3) (a : Long) (v : Byte) :
    Memory.wf (s.setCell fc a v).mem = true := wf_set h _ v

theorem wf_setCellWord {s : State} (h : Memory.wf s.mem = true) (fc : BitVec 3) (a : Long) (v : Word) :
    Memory.wf (s.setCellWord fc a v).mem = true := wf_setCell (wf_setCell h _ _ _) _ _ _

/-- The writes of other bus masters keep the canonical form. -/
theorem wf_cycleBegun {s : State} (h : Memory.wf s.mem = true) : Memory.wf s.cycleBegun.mem = true := by
  have key : ∀ (cs : List Host.Cell) (m : Memory), Memory.wf m = true →
      Memory.wf (cs.foldl (fun m c => Memory.set m c.1 c.2) m) = true := fun cs => by
    induction cs with
    | nil => exact fun m hm => hm
    | cons c cs ih => exact fun m hm => ih _ (wf_set hm _ _)
  exact key _ _ h

/-! ### Storage cells of the one flat space (20_memory.md R66) -/

theorem cell_plain {p : Platform} (h : p = .plain) (fc : BitVec 3) (a : Nat) : p.cell fc a = a := by
  subst h; rfl

theorem cellAt_plain {s : State} (h : s.platform = .plain) (fc : BitVec 3) (a : Long) : s.cellAt fc a = s.byteAt a := by
  simp [State.cellAt, State.byteAt, cell_plain h]

theorem cellWordAt_plain {s : State} (h : s.platform = .plain) (fc : BitVec 3) (a : Long) :
    s.cellWordAt fc a = s.wordAt a := by
  simp [State.cellWordAt, State.wordAt, cellAt_plain h]

theorem setCell_plain {s : State} (h : s.platform = .plain) (fc : BitVec 3) (a : Long) (v : Byte) :
    s.setCell fc a v = s.setByte a v := by
  simp [State.setCell, State.setByte, cell_plain h]

theorem setCellWord_plain {s : State} (h : s.platform = .plain) (fc : BitVec 3) (a : Long) (v : Word) :
    s.setCellWord fc a v = s.setWord a v := by
  unfold State.setCellWord State.setWord
  rw [setCell_plain h, setCell_plain (by simpa using h)]

/-! ### Bytes of words and long words -/

theorem byteAt_congr {s t : State} (h : t.mem = s.mem) (a : Long) : t.byteAt a = s.byteAt a := by
  simp [State.byteAt, h]

theorem wordAt_congr {s t : State} (h : t.mem = s.mem) (a : Long) : t.wordAt a = s.wordAt a := by
  simp [State.wordAt, byteAt_congr h]

theorem longAt_congr {s t : State} (h : t.mem = s.mem) (a : Long) : t.longAt a = s.longAt a := by
  simp [State.longAt, wordAt_congr h]

/-- Two addresses that differ by a small amount reach different bytes. -/
theorem physical_add_ne (a : Long) {i j : Nat} (hi : i < addressSpace) (hj : j < addressSpace) (h : i ≠ j) :
    physical (a + BitVec.ofNat 32 i) ≠ physical (a + BitVec.ofNat 32 j) := by
  unfold physical addressSpace at *
  simp only [BitVec.toNat_add, BitVec.toNat_ofNat]
  omega

theorem get_setByte_same (s : State) (a : Long) (v : Byte) : Memory.get (s.setByte a v).mem (physical a) = v :=
  get_set_same _ _ _

theorem get_setByte_of_ne (s : State) (a : Long) (v : Byte) {x : Nat} (h : x ≠ physical a) :
    Memory.get (s.setByte a v).mem x = Memory.get s.mem x := get_set_of_ne _ _ h

theorem get_setWord_of_ne (s : State) (a : Long) (v : Word) {x : Nat} (h0 : x ≠ physical a)
    (h1 : x ≠ physical (a + 1)) : Memory.get (s.setWord a v).mem x = Memory.get s.mem x := by
  unfold State.setWord
  rw [get_setByte_of_ne _ _ _ h1, get_setByte_of_ne _ _ _ h0]

theorem physical_ne_succ (a : Long) : physical a ≠ physical (a + 1) := by
  have := physical_add_ne a (i := 0) (j := 1) (by decide) (by decide) (by decide)
  simpa using this

/-- A word read back after it is written. -/
theorem wordAt_setWord_same (s : State) (a : Long) (v : Word) : (s.setWord a v).wordAt a = v := by
  unfold State.setWord State.wordAt State.byteAt
  rw [get_setByte_same, get_setByte_of_ne _ _ _ (physical_ne_succ a), get_setByte_same]
  ext i hi
  simp only [BitVec.getElem_append, BitVec.getElem_extractLsb', Nat.zero_add]
  split
  · exact (BitVec.getLsbD_eq_getElem hi)
  · next h => rw [show 8 + (i - 8) = i by omega]; exact (BitVec.getLsbD_eq_getElem hi)

end Sys2Proof.Machine
end

