-- ==== Sys2Proof/Laws/Access.lean ====
section
/-! SUPPORT. Processing and its accesses: how the monad applies, and what every access answers on a platform that
answers all bus cycles. -/

namespace Sys2Proof.Machine

/-! ### The monad -/

@[simp] theorem bind_apply {α β : Type} (x : M α) (f : α → M β) (s : State) :
    (x >>= f) s = match x s with
      | .ok a t => f a t
      | .error e t => .error e t := by
  show EStateM.bind x f s = _
  unfold EStateM.bind
  cases x s <;> rfl

@[simp] theorem map_apply {α β : Type} (f : α → β) (x : M α) (s : State) :
    (f <$> x) s = match x s with
      | .ok a t => .ok (f a) t
      | .error e t => .error e t := by
  show EStateM.map f x s = _
  unfold EStateM.map
  cases x s <;> rfl

@[simp] theorem pure_apply {α : Type} (a : α) (s : State) : (pure a : M α) s = .ok a s := rfl

@[simp] theorem get_apply (s : State) : (get : M State) s = .ok s s := rfl

@[simp] theorem modify_apply (f : State → State) (s : State) : (modify f : M Unit) s = .ok () (f s) := rfl

/-! ### Alignment -/

theorem isEven_iff (a : Long) : isEven a = true ↔ a.getLsbD 0 = false := by
  simp [isEven]

theorem isEven_add_two (a : Long) (h : isEven a = true) : isEven (a + 2) = true := by
  simp only [isEven, BitVec.getLsbD, BitVec.toNat_add, Nat.testBit_zero, Bool.not_eq_true',
    decide_eq_false_iff_not] at *
  have : (2 : Long).toNat = 2 := rfl
  omega

theorem requireEven_even {fc : BitVec 3} {a : Long} {r : Bool} {alt : Alt} {s : State} (h : isEven a = true) :
    requireEven fc a r alt s = .ok () s := by
  unfold requireEven
  rw [(isEven_iff a).mp h]
  rfl

theorem requireEven_odd {fc : BitVec 3} {a : Long} {r : Bool} {alt : Alt} {s : State} (h : isEven a = false) :
    requireEven fc a r alt s = .error (.access ⟨.address, a, r, fc, alt⟩) s := by
  have : a.getLsbD 0 = true := by simpa [isEven] using h
  unfold requireEven
  rw [this]
  rfl

/-! ### One cycle -/

theorem busFault_quiet {s : State} (h : s.platform = .plain) (fc : BitVec 3) (a : Long) (r w : Bool) :
    s.busFault fc a r w = false := by
  simp [State.busFault, h, Platform.plain]

theorem atDevice_quiet {s : State} (h : s.platform = .plain) (fc : BitVec 3) (a : Long) (r w : Bool) :
    s.atDevice fc a r w = false := by
  simp [State.atDevice, h, Platform.plain]

theorem beginCycle_quiet {s : State} (h : s.platform = .plain) : beginCycle s = .ok () s := by
  have e : s.cycleBegun = s := by
    cases s
    simp only at h
    subst h
    rfl
  have n : s.platform.resetAfter ≠ some 0 := by rw [h]; exact fun e => by cases e
  show (if _ then _ else _) = _
  rw [if_neg n, e]

theorem cycle_quiet {α : Type} {s : State} (h : s.platform = .plain) (fc : BitVec 3) (a : Long) (r w : Bool) (alt : Alt)
    (device ok : State → State × α) : cycle fc a r w alt device ok s = .ok (ok s).2 (ok s).1 := by
  simp [cycle, beginCycle_quiet h, answerCycle, busFault_quiet h, atDevice_quiet h]

theorem openOrder_quiet {s : State} (h : s.platform = .plain) (b : Bool) : openOrder b s = .ok b s := if_pos h

/-- Processing that completes does so whatever it would have left open. -/
theorem leavingOpen_ok {α : Type} {x : M α} {s t : State} {v : α} (h : x s = .ok v t) (items : Alt) :
    leavingOpen items x s = .ok v t := by
  simp [leavingOpen, h]

/-- Everything a bus cycle can do (20_memory.md R67, R88, 70_reset_and_hazards.md R420). -/
theorem cycle_cases {α : Type} (fc : BitVec 3) (a : Long) (r w : Bool) (alt : Alt) (device memory : State → State × α)
    (s : State) :
    (s.platform.resetAfter = some 0 ∧ cycle fc a r w alt device memory s = .error .reset s) ∨
      (s.platform.resetAfter ≠ some 0 ∧
        ((s.cycleBegun.busFault fc a r w = true ∧
            cycle fc a r w alt device memory s =
              .error (.access ⟨.bus, a, r, fc, alt⟩) (s.cycleBegun.record (.aborted fc (busAddress a) r))) ∨
          (s.cycleBegun.busFault fc a r w = false ∧ s.cycleBegun.atDevice fc a r w = true ∧
            cycle fc a r w alt device memory s = .ok (device s.cycleBegun).2 (device s.cycleBegun).1) ∨
          (s.cycleBegun.busFault fc a r w = false ∧ s.cycleBegun.atDevice fc a r w = false ∧
            cycle fc a r w alt device memory s = .ok (memory s.cycleBegun).2 (memory s.cycleBegun).1))) := by
  by_cases h : s.platform.resetAfter = some 0
  · exact .inl ⟨h, by simp [cycle, beginCycle, h]⟩
  · refine .inr ⟨h, ?_⟩
    by_cases hf : s.cycleBegun.busFault fc a r w = true
    · exact .inl ⟨hf, by simp [cycle, beginCycle, h, answerCycle, hf]⟩
    · by_cases hd : s.cycleBegun.atDevice fc a r w = true
      · exact .inr (.inl ⟨by simpa using hf, hd, by simp [cycle, beginCycle, h, answerCycle, hf, hd]⟩)
      · exact .inr (.inr ⟨by simpa using hf, by simpa using hd, by simp [cycle, beginCycle, h, answerCycle, hf, hd]⟩)

/-- The state a read access leaves: only the record of bus cycles grows (20_memory.md R67). -/
def State.afterRead (s : State) (sz : Size) (fc : BitVec 3) (a : Long) : State :=
  match sz with
  | .b => s.record (.readByte fc (busAddress a) (s.byteAt a))
  | .w => s.record (.readWord fc (busAddress a) (s.wordAt a))
  | .l => (s.record (.readWord fc (busAddress a) (s.wordAt a))).record
      (.readWord fc (busAddress (a + 2)) (s.wordAt (a + 2)))

/-- The state a write access leaves (20_memory.md R67, R72). -/
def State.afterWrite (s : State) (sz : Size) (fc : BitVec 3) (a : Long) (v : BitVec sz.bits) (lowFirst : Bool) :
    State :=
  match sz with
  | .b => (s.setByte a v).record (.writeByte fc (busAddress a) v)
  | .w => (s.setWord a v).record (.writeWord fc (busAddress a) v)
  | .l =>
    let hi := BitVec.extractLsb' 16 16 (v : Long)
    let lo := BitVec.extractLsb' 0 16 (v : Long)
    if lowFirst then
      (((s.setWord (a + 2) lo).record (.writeWord fc (busAddress (a + 2)) lo)).setWord a hi).record
        (.writeWord fc (busAddress a) hi)
    else
      (((s.setWord a hi).record (.writeWord fc (busAddress a) hi)).setWord (a + 2) lo).record
        (.writeWord fc (busAddress (a + 2)) lo)

theorem readWordCycle_quiet {s : State} (h : s.platform = .plain) (fc : BitVec 3) (a : Long) (alt : Alt) :
    readWordCycle fc a alt s = .ok (s.wordAt a) (s.record (.readWord fc (busAddress a) (s.wordAt a))) := by
  simp [readWordCycle, cycle_quiet h, cellWordAt_plain h]

theorem writeWordCycle_quiet {s : State} (h : s.platform = .plain) (fc : BitVec 3) (a : Long) (v : Word) (alt : Alt) :
    writeWordCycle fc a v alt s = .ok () ((s.setWord a v).record (.writeWord fc (busAddress a) v)) := by
  simp [writeWordCycle, cycle_quiet h, setCellWord_plain h]

/-- A read access that the platform answers, at an aligned address (20_memory.md R67). -/
theorem memRead_quiet {s : State} (h : s.platform = .plain) {sz : Size} {a : Long} (ha : isAligned sz a = true)
    (fc : BitVec 3) (alt : Alt) : memRead sz fc a alt s = .ok (s.readAt sz a) (s.afterRead sz fc a) := by
  cases sz with
  | b => simp [memRead, readByteCycle, cycle_quiet h, cellAt_plain h, State.readAt, State.afterRead]
  | w =>
    have he : isEven a = true := by simpa [isAligned] using ha
    simp [memRead, readWordCycle_quiet h, requireEven_even he, State.readAt, State.afterRead]
  | l =>
    have he : isEven a = true := by simpa [isAligned] using ha
    have h' : ∀ e, (s.record e).platform = .plain := fun e => h
    have hw : ∀ e b, (s.record e).wordAt b = s.wordAt b := fun e b => wordAt_congr rfl b
    simp [memRead, readHighFirst, requireEven_even he, openOrder_quiet h, readWordCycle_quiet h,
      readWordCycle_quiet (h' _), State.readAt, State.longAt, State.afterRead, hw]

/-- A write access that the platform answers, at an aligned address (20_memory.md R67). -/
theorem memWrite_quiet {s : State} (h : s.platform = .plain) {sz : Size} {a : Long} (ha : isAligned sz a = true)
    (fc : BitVec 3) (v : BitVec sz.bits) (alt : Alt) (lowFirst : Bool) :
    memWrite sz fc a v alt lowFirst s = .ok () (s.afterWrite sz fc a v lowFirst) := by
  cases sz with
  | b => simp [memWrite, writeByteCycle, cycle_quiet h, setCell_plain h, State.afterWrite]
  | w =>
    have he : isEven a = true := by simpa [isAligned] using ha
    simp [memWrite, requireEven_even he, writeWordCycle_quiet h, State.afterWrite]
  | l =>
    have he : isEven a = true := by simpa [isAligned] using ha
    have h' : ∀ b w e, ((s.setWord b w).record e).platform = .plain := fun b w e => by simp [h]
    cases lowFirst <;>
    simp [memWrite, requireEven_even he, openOrder_quiet h, writeWordCycle_quiet h, writeWordCycle_quiet (h' _ _ _),
      State.afterWrite]

/-- A word or long access at an odd address is an address error, and nothing is accessed (20_memory.md R63). -/
theorem memRead_odd {s : State} {sz : Size} {a : Long} (ha : isAligned sz a = false) (fc : BitVec 3) (alt : Alt) :
    memRead sz fc a alt s = .error (.access ⟨.address, a, true, fc, alt⟩) s := by
  cases sz with
  | b => simp [isAligned] at ha
  | w =>
    have he : isEven a = false := by simpa [isAligned] using ha
    simp [memRead, requireEven_odd he]
  | l =>
    have he : isEven a = false := by simpa [isAligned] using ha
    simp [memRead, requireEven_odd he]

theorem memWrite_odd {s : State} {sz : Size} {a : Long} (ha : isAligned sz a = false) (fc : BitVec 3)
    (v : BitVec sz.bits) (alt : Alt) (lowFirst : Bool) :
    memWrite sz fc a v alt lowFirst s = .error (.access ⟨.address, a, false, fc, alt⟩) s := by
  cases sz with
  | b => simp [isAligned] at ha
  | w =>
    have he : isEven a = false := by simpa [isAligned] using ha
    simp [memWrite, requireEven_odd he]
  | l =>
    have he : isEven a = false := by simpa [isAligned] using ha
    simp [memWrite, requireEven_odd he]

/-! ### What accesses leave alone -/

section
variable (s : State) (sz : Size) (fc : BitVec 3) (x : Long)

@[simp] theorem afterRead_d : (s.afterRead sz fc x).d = s.d := by cases sz <;> rfl
@[simp] theorem afterRead_a : (s.afterRead sz fc x).a = s.a := by cases sz <;> rfl
@[simp] theorem afterRead_usp : (s.afterRead sz fc x).usp = s.usp := by cases sz <;> rfl
@[simp] theorem afterRead_ssp : (s.afterRead sz fc x).ssp = s.ssp := by cases sz <;> rfl
@[simp] theorem afterRead_pc : (s.afterRead sz fc x).pc = s.pc := by cases sz <;> rfl
@[simp] theorem afterRead_sr : (s.afterRead sz fc x).sr = s.sr := by cases sz <;> rfl
@[simp] theorem afterRead_ir : (s.afterRead sz fc x).ir = s.ir := by cases sz <;> rfl
@[simp] theorem afterRead_run : (s.afterRead sz fc x).run = s.run := by cases sz <;> rfl
@[simp] theorem afterRead_xgroup : (s.afterRead sz fc x).xgroup = s.xgroup := by cases sz <;> rfl
@[simp] theorem afterRead_prevIpl : (s.afterRead sz fc x).prevIpl = s.prevIpl := by cases sz <;> rfl
@[simp] theorem afterRead_stopTrace : (s.afterRead sz fc x).stopTrace = s.stopTrace := by cases sz <;> rfl
@[simp] theorem afterRead_handlerFetch : (s.afterRead sz fc x).handlerFetch = s.handlerFetch := by cases sz <;> rfl
@[simp] theorem afterRead_mem : (s.afterRead sz fc x).mem = s.mem := by cases sz <;> rfl
@[simp] theorem afterRead_ipl : (s.afterRead sz fc x).ipl = s.ipl := by cases sz <;> rfl
@[simp] theorem afterRead_iack : (s.afterRead sz fc x).iack = s.iack := by cases sz <;> rfl
@[simp] theorem afterRead_platform : (s.afterRead sz fc x).platform = s.platform := by cases sz <;> rfl
@[simp] theorem afterRead_extReset : (s.afterRead sz fc x).extReset = s.extReset := by cases sz <;> rfl
@[simp] theorem afterRead_draws : (s.afterRead sz fc x).draws = s.draws := by cases sz <;> rfl

variable (v : BitVec sz.bits) (lf : Bool)

@[simp] theorem afterWrite_d : (s.afterWrite sz fc x v lf).d = s.d := by
  cases sz <;> cases lf <;> simp [State.afterWrite]
@[simp] theorem afterWrite_a : (s.afterWrite sz fc x v lf).a = s.a := by
  cases sz <;> cases lf <;> simp [State.afterWrite]
@[simp] theorem afterWrite_usp : (s.afterWrite sz fc x v lf).usp = s.usp := by
  cases sz <;> cases lf <;> simp [State.afterWrite]
@[simp] theorem afterWrite_ssp : (s.afterWrite sz fc x v lf).ssp = s.ssp := by
  cases sz <;> cases lf <;> simp [State.afterWrite]
@[simp] theorem afterWrite_pc : (s.afterWrite sz fc x v lf).pc = s.pc := by
  cases sz <;> cases lf <;> simp [State.afterWrite]
@[simp] theorem afterWrite_sr : (s.afterWrite sz fc x v lf).sr = s.sr := by
  cases sz <;> cases lf <;> simp [State.afterWrite]
@[simp] theorem afterWrite_ir : (s.afterWrite sz fc x v lf).ir = s.ir := by
  cases sz <;> cases lf <;> simp [State.afterWrite]
@[simp] theorem afterWrite_run : (s.afterWrite sz fc x v lf).run = s.run := by
  cases sz <;> cases lf <;> simp [State.afterWrite]
@[simp] theorem afterWrite_xgroup : (s.afterWrite sz fc x v lf).xgroup = s.xgroup := by
  cases sz <;> cases lf <;> simp [State.afterWrite]
@[simp] theorem afterWrite_prevIpl : (s.afterWrite sz fc x v lf).prevIpl = s.prevIpl := by
  cases sz <;> cases lf <;> simp [State.afterWrite]
@[simp] theorem afterWrite_stopTrace : (s.afterWrite sz fc x v lf).stopTrace = s.stopTrace := by
  cases sz <;> cases lf <;> simp [State.afterWrite]
@[simp] theorem afterWrite_handlerFetch : (s.afterWrite sz fc x v lf).handlerFetch = s.handlerFetch := by
  cases sz <;> cases lf <;> simp [State.afterWrite]
@[simp] theorem afterWrite_ipl : (s.afterWrite sz fc x v lf).ipl = s.ipl := by
  cases sz <;> cases lf <;> simp [State.afterWrite]
@[simp] theorem afterWrite_iack : (s.afterWrite sz fc x v lf).iack = s.iack := by
  cases sz <;> cases lf <;> simp [State.afterWrite]
@[simp] theorem afterWrite_platform : (s.afterWrite sz fc x v lf).platform = s.platform := by
  cases sz <;> cases lf <;> simp [State.afterWrite]
@[simp] theorem afterWrite_extReset : (s.afterWrite sz fc x v lf).extReset = s.extReset := by
  cases sz <;> cases lf <;> simp [State.afterWrite]
@[simp] theorem afterWrite_draws : (s.afterWrite sz fc x v lf).draws = s.draws := by
  cases sz <;> cases lf <;> simp [State.afterWrite]

@[simp] theorem afterRead_readAt (sz' : Size) (b : Long) : (s.afterRead sz fc x).readAt sz' b = s.readAt sz' b := by
  cases sz'
  · exact byteAt_congr (by simp) b
  · exact wordAt_congr (by simp) b
  · exact longAt_congr (by simp) b

@[simp] theorem afterRead_dreg (n : Reg) : (s.afterRead sz fc x).dreg n = s.dreg n := dreg_congr (by simp) n
@[simp] theorem afterRead_areg (n : Reg) : (s.afterRead sz fc x).areg n = s.areg n :=
  areg_congr (by simp) (by simp) (by simp) (by simp) n
@[simp] theorem afterWrite_dreg (n : Reg) : (s.afterWrite sz fc x v lf).dreg n = s.dreg n := dreg_congr (by simp) n
@[simp] theorem afterWrite_areg (n : Reg) : (s.afterWrite sz fc x v lf).areg n = s.areg n :=
  areg_congr (by simp) (by simp) (by simp) (by simp) n

end

/-! ### Reading back what was written -/

theorem mem_operandBytes {sz : Size} {a : Long} {x : Nat} :
    x ∈ operandBytes sz a ↔ ∃ k < sz.bytes, x = physical (a + BitVec.ofNat 32 k) := by
  simp [operandBytes, bytesFrom, eq_comm]

theorem get_afterWrite_of_notMem {s : State} {sz : Size} {fc : BitVec 3} {a : Long} {v : BitVec sz.bits} {lf : Bool}
    {x : Nat} (h : x ∉ operandBytes sz a) : Memory.get (s.afterWrite sz fc a v lf).mem x = Memory.get s.mem x := by
  have hk : ∀ k < sz.bytes, x ≠ physical (a + BitVec.ofNat 32 k) := fun k hk e => h (mem_operandBytes.mpr ⟨k, hk, e⟩)
  cases sz with
  | b =>
    have h0 := hk 0 (by decide)
    simp only [BitVec.add_zero] at h0
    simp only [State.afterWrite, record_mem]
    exact get_setByte_of_ne _ _ _ h0
  | w =>
    have h0 := hk 0 (by decide)
    have h1 := hk 1 (by decide)
    simp only [BitVec.add_zero] at h0 h1
    simp only [State.afterWrite, record_mem]
    exact get_setWord_of_ne _ _ _ h0 h1
  | l =>
    have h0 := hk 0 (by decide)
    have h1 := hk 1 (by decide)
    have h2 := hk 2 (by decide)
    have h3 := hk 3 (by decide)
    simp only [BitVec.add_zero] at h0 h1 h2 h3
    have h3' : x ≠ physical (a + 2 + 1) := by rw [BitVec.add_assoc]; exact h3
    cases lf
    · simp only [State.afterWrite, record_mem, Bool.false_eq_true, ↓reduceIte]
      exact (get_setWord_of_ne _ _ _ h2 h3').trans (get_setWord_of_ne _ _ _ h0 h1)
    · simp only [State.afterWrite, record_mem, ↓reduceIte]
      exact (get_setWord_of_ne _ _ _ h0 h1).trans (get_setWord_of_ne _ _ _ h2 h3')

/-- A word that a write of another word does not touch. -/
theorem wordAt_setWord_of_ne (s : State) (a b : Long) (v : Word) (h0 : physical b ≠ physical a)
    (h1 : physical b ≠ physical (a + 1)) (h2 : physical (b + 1) ≠ physical a)
    (h3 : physical (b + 1) ≠ physical (a + 1)) : (s.setWord a v).wordAt b = s.wordAt b := by
  unfold State.wordAt State.byteAt
  rw [get_setWord_of_ne _ _ _ h0 h1, get_setWord_of_ne _ _ _ h2 h3]

theorem word_append (v : Long) : BitVec.extractLsb' 16 16 v ++ BitVec.extractLsb' 0 16 v = v := by
  ext i hi
  simp only [BitVec.getElem_append, BitVec.getElem_extractLsb', Nat.zero_add]
  split
  · exact BitVec.getLsbD_eq_getElem hi
  · rw [show 16 + (i - 16) = i by omega]; exact BitVec.getLsbD_eq_getElem hi

/-- An operand read back after it is written (20_memory.md R60, R85). -/
theorem readAt_afterWrite_same (s : State) (sz : Size) (fc : BitVec 3) (a : Long) (v : BitVec sz.bits) (lf : Bool) :
    (s.afterWrite sz fc a v lf).readAt sz a = v := by
  cases sz with
  | b =>
    simp only [State.afterWrite, State.readAt, State.byteAt, record_mem]
    exact get_setByte_same _ _ _
  | w =>
    simp only [State.afterWrite, State.readAt]
    rw [wordAt_congr (record_mem _ _)]
    exact wordAt_setWord_same _ _ _
  | l =>
    have e : ∀ i j : Nat, i < addressSpace → j < addressSpace → i ≠ j →
        physical (a + BitVec.ofNat 32 i) ≠ physical (a + BitVec.ofNat 32 j) := fun i j => physical_add_ne a
    have z : a = a + BitVec.ofNat 32 0 := by simp
    have o : a + 1 = a + BitVec.ofNat 32 1 := rfl
    have t : a + 2 = a + BitVec.ofNat 32 2 := rfl
    have u : a + 2 + 1 = a + BitVec.ofNat 32 3 := by rw [BitVec.add_assoc]; rfl
    have n1 : ∀ i j : Nat, i < 4 → j < 4 → i ≠ j →
        physical (a + BitVec.ofNat 32 i) ≠ physical (a + BitVec.ofNat 32 j) :=
      fun i j hi hj => e i j (by unfold addressSpace; omega) (by unfold addressSpace; omega)
    have hlo : ∀ (s : State) (w : Word), (s.setWord a w).wordAt (a + 2) = s.wordAt (a + 2) := fun s w => by
      apply wordAt_setWord_of_ne
      · rw [t]; nth_rewrite 2 [z]; exact n1 2 0 (by decide) (by decide) (by decide)
      · rw [t, o]; exact n1 2 1 (by decide) (by decide) (by decide)
      · rw [u]; nth_rewrite 2 [z]; exact n1 3 0 (by decide) (by decide) (by decide)
      · rw [u, o]; exact n1 3 1 (by decide) (by decide) (by decide)
    have hhi : ∀ (s : State) (w : Word), (s.setWord (a + 2) w).wordAt a = s.wordAt a := fun s w => by
      apply wordAt_setWord_of_ne
      · rw [t]; nth_rewrite 1 [z]; exact n1 0 2 (by decide) (by decide) (by decide)
      · rw [u]; nth_rewrite 1 [z]; exact n1 0 3 (by decide) (by decide) (by decide)
      · rw [t, o]; exact n1 1 2 (by decide) (by decide) (by decide)
      · rw [u, o]; exact n1 1 3 (by decide) (by decide) (by decide)
    have hr : ∀ (s : State) ev b, (s.record ev).wordAt b = s.wordAt b := fun s ev b => wordAt_congr (record_mem _ _) b
    cases lf <;>
    simp only [State.afterWrite, State.readAt, State.longAt, Bool.false_eq_true, ↓reduceIte, hr, hlo, hhi,
      wordAt_setWord_same] <;> exact word_append v

end Sys2Proof.Machine
end

