-- ==== Sys2Proof/Laws/Canonical.lean ====
section
/-! SUPPORT. The canonical form of memory, kept by every access whether it completes or aborts; and what of such properties
composes. -/

namespace Sys2Proof.Machine

/-- Processing keeps a property of the state, where it completes and where an access aborts it. -/
def Keeps {α : Type} (P : State → Prop) (x : M α) : Prop :=
  ∀ s, P s → match x s with
    | .ok _ t => P t
    | .error _ t => P t

theorem keeps_pure {α : Type} {P : State → Prop} (a : α) : Keeps P (pure a : M α) := fun _ h => h

theorem keeps_get {P : State → Prop} : Keeps P (get : M State) := fun _ h => h

theorem keeps_modify {P : State → Prop} {f : State → State} (h : ∀ s, P s → P (f s)) : Keeps P (modify f : M Unit) :=
  fun s hs => h s hs

theorem keeps_bind {α β : Type} {P : State → Prop} {x : M α} {f : α → M β} (hx : Keeps P x) (hf : ∀ a, Keeps P (f a)) :
    Keeps P (x >>= f) := fun s hs => by
  have := hx s hs
  simp only [bind_apply]
  cases h : x s with
  | ok a t =>
    rw [h] at this
    exact hf a t this
  | error e t =>
    rw [h] at this
    exact this

theorem keeps_ite {α : Type} {P : State → Prop} {c : Prop} [Decidable c] {x y : M α} (hx : Keeps P x) (hy : Keeps P y) :
    Keeps P (if c then x else y) := by
  split
  · exact hx
  · exact hy

/-- Memory has its canonical form. -/
abbrev Canonical (s : State) : Prop := Memory.wf s.mem = true

/-- An update that leaves memory alone. -/
theorem keeps_modify_mem {f : State → State} (h : ∀ s, (f s).mem = s.mem) : Keeps Canonical (modify f : M Unit) :=
  keeps_modify fun s hs => by rw [Canonical, h]; exact hs

theorem keeps_beginCycle {P : State → Prop} (hb : ∀ s, P s → P s.cycleBegun) : Keeps P beginCycle := fun s hs => by
  unfold beginCycle
  by_cases h : s.platform.resetAfter = some 0
  · rw [if_pos h]
    exact hs
  · rw [if_neg h]
    exact hb s hs

theorem keeps_openOrder {P : State → Prop} (hd : ∀ s, P s → P s.drawn) (b : Bool) : Keeps P (openOrder b) :=
  fun s hs => by
    unfold openOrder
    by_cases h : s.platform = .plain
    · rw [if_pos h]
      exact hs
    · rw [if_neg h]
      exact hd s hs

theorem keeps_leavingOpen {α : Type} {P : State → Prop} {x : M α} (hx : Keeps P x) (items : Alt) :
    Keeps P (leavingOpen items x) := fun s hs => by
  have := hx s hs
  unfold leavingOpen
  cases h : x s with
  | ok v t =>
    rw [h] at this
    exact this
  | error e t =>
    rw [h] at this
    cases e <;> exact this

theorem keeps_cycle {α : Type} {P : State → Prop} (hb : ∀ s, P s → P s.cycleBegun)
    (hr : ∀ s e, P s → P (s.record e)) (fc : BitVec 3) (a : Long)
    (r w : Bool) (alt : Alt) {device ok : State → State × α} (hd : ∀ s, P s → P (device s).1)
    (h : ∀ s, P s → P (ok s).1) : Keeps P (cycle fc a r w alt device ok) :=
  keeps_bind (keeps_beginCycle hb) fun _ s hs => by
    unfold answerCycle
    by_cases hf : s.busFault fc a r w = true
    · rw [if_pos hf]
      exact hr s _ hs
    · rw [if_neg hf]
      by_cases hv : s.atDevice fc a r w = true
      · rw [if_pos hv]
        exact hd s hs
      · rw [if_neg hv]
        exact h s hs

theorem keeps_requireEven {P : State → Prop} (fc : BitVec 3) (a : Long) (r : Bool) (alt : Alt) :
    Keeps P (requireEven fc a r alt) := fun s hs => by
  unfold requireEven
  by_cases ho : a.getLsbD 0 = true
  · rw [if_pos ho]
    exact hs
  · rw [if_neg ho]
    exact hs

theorem canonical_cycleBegun (s : State) (h : Canonical s) : Canonical s.cycleBegun := wf_cycleBegun h

theorem canonical_record (s : State) (e : BusEvent) (h : Canonical s) : Canonical (s.record e) := h

theorem canonical_readWordCycle (fc : BitVec 3) (a : Long) (alt : Alt) : Keeps Canonical (readWordCycle fc a alt) :=
  keeps_cycle canonical_cycleBegun canonical_record fc a true true alt (fun _ h => h) fun _ h => h

theorem canonical_writeWordCycle (fc : BitVec 3) (a : Long) (v : Word) (alt : Alt) :
    Keeps Canonical (writeWordCycle fc a v alt) :=
  keeps_cycle canonical_cycleBegun canonical_record fc a false true alt (fun _ h => h)
    fun _ h => wf_setCellWord h fc a v

theorem canonical_readHighFirst (fc : BitVec 3) (a : Long) (alt : Alt) : Keeps Canonical (readHighFirst fc a alt) :=
  keeps_bind (canonical_readWordCycle _ _ _) fun _ => keeps_bind (canonical_readWordCycle _ _ _) fun _ => keeps_pure _

theorem canonical_readLowFirst (fc : BitVec 3) (a : Long) (alt : Alt) : Keeps Canonical (readLowFirst fc a alt) :=
  keeps_bind (canonical_readWordCycle _ _ _) fun _ => keeps_bind (canonical_readWordCycle _ _ _) fun _ => keeps_pure _

theorem canonical_memRead (sz : Size) (fc : BitVec 3) (a : Long) (alt : Alt) : Keeps Canonical (memRead sz fc a alt) := by
  cases sz with
  | b => exact keeps_cycle canonical_cycleBegun canonical_record fc a true false alt (fun _ h => h) fun _ h => h
  | w => exact keeps_bind (keeps_requireEven _ _ _ _) fun _ => canonical_readWordCycle _ _ _
  | l =>
    refine keeps_bind (keeps_requireEven _ _ _ _) fun _ => keeps_bind (keeps_openOrder (fun _ h => h) _) fun low => ?_
    cases low
    · exact canonical_readHighFirst _ _ _
    · exact canonical_readLowFirst _ _ _

theorem canonical_memWrite (sz : Size) (fc : BitVec 3) (a : Long) (v : BitVec sz.bits) (alt : Alt) (lf : Bool) :
    Keeps Canonical (memWrite sz fc a v alt lf) := by
  cases sz with
  | b =>
    exact keeps_cycle canonical_cycleBegun canonical_record fc a false false alt (fun _ h => h)
      fun _ h => wf_setCell h fc a v
  | w => exact keeps_bind (keeps_requireEven _ _ _ _) fun _ => canonical_writeWordCycle _ _ _ _
  | l =>
    refine keeps_bind (keeps_requireEven _ _ _ _) fun _ => keeps_bind (keeps_openOrder (fun _ h => h) _) fun low => ?_
    cases low <;>
    exact keeps_bind (canonical_writeWordCycle _ _ _ _) fun _ => canonical_writeWordCycle _ _ _ _

theorem canonical_readModifyWrite (fc : BitVec 3) (a : Long) (alt : Alt) (f : Byte → Byte) :
    Keeps Canonical (readModifyWrite fc a alt f) :=
  keeps_bind (keeps_beginCycle canonical_cycleBegun) fun _ s hs => by
    unfold answerReadModifyWrite
    by_cases hr : s.busFault fc a true false = true
    · simp only [if_pos hr]
      exact hs
    · by_cases hw : s.busFault fc a false false = true <;> by_cases hv : s.atDevice fc a true false = true <;>
        by_cases hx : s.atDevice fc a false false = true <;>
        simp only [hr, hw, hv, hx, ↓reduceIte, Bool.false_eq_true] <;>
        first | exact hs | exact wf_setCell hs fc a _

theorem canonical_setAreg (s : State) (n : Reg) (v : Long) : (s.setAreg n v).mem = s.mem := by simp

theorem canonical_fetchWord : Keeps Canonical fetchWord :=
  keeps_bind keeps_get fun _ => keeps_bind (canonical_memRead _ _ _ _) fun _ =>
    keeps_bind (keeps_modify_mem fun _ => rfl) fun _ => keeps_pure _

theorem canonical_fetchWords : ∀ n, Keeps Canonical (fetchWords n)
  | 0 => keeps_pure _
  | n + 1 => keeps_bind canonical_fetchWord fun _ => canonical_fetchWords n

theorem canonical_pushLong (v : Long) : Keeps Canonical (pushLong v) :=
  keeps_bind keeps_get fun _ => keeps_bind (keeps_modify_mem fun _ => canonical_setAreg _ _ _) fun _ =>
    canonical_memWrite _ _ _ _ _ _

theorem canonical_pushWord (v : Word) : Keeps Canonical (pushWord v) :=
  keeps_bind keeps_get fun _ => keeps_bind (keeps_modify_mem fun _ => canonical_setAreg _ _ _) fun _ =>
    canonical_memWrite _ _ _ _ _ _

theorem canonical_popLong : Keeps Canonical popLong :=
  keeps_bind keeps_get fun _ => keeps_bind (canonical_memRead _ _ _ _) fun _ =>
    keeps_bind (keeps_modify_mem fun _ => canonical_setAreg _ _ _) fun _ => keeps_pure _

theorem canonical_popWord : Keeps Canonical popWord :=
  keeps_bind keeps_get fun _ => keeps_bind (canonical_memRead _ _ _ _) fun _ =>
    keeps_bind (keeps_modify_mem fun _ => canonical_setAreg _ _ _) fun _ => keeps_pure _

end Sys2Proof.Machine
end

