-- ==== Sys2Proof/Laws/Operands.lean ====
section
/-! SUPPORT. Effective addresses and operands on a platform that answers every bus cycle: what each operand form
answers and leaves. -/

namespace Sys2Proof.Machine

/-! ### Instruction words -/

/-- The state after a number of further words have been fetched: `PC` moves on, the words and the bus cycles are noted. -/
def State.fetched (s : State) : Nat → State
  | 0 => s
  | n + 1 => ((s.afterRead .w (s.fc true) s.pc).tookWord (s.wordAt s.pc)).fetched n

@[simp] theorem fetched_d (s : State) (n : Nat) : (s.fetched n).d = s.d := by
  induction n generalizing s with
  | zero => rfl
  | succ n ih => simp [State.fetched, ih]
@[simp] theorem fetched_a (s : State) (n : Nat) : (s.fetched n).a = s.a := by
  induction n generalizing s with
  | zero => rfl
  | succ n ih => simp [State.fetched, ih]
@[simp] theorem fetched_usp (s : State) (n : Nat) : (s.fetched n).usp = s.usp := by
  induction n generalizing s with
  | zero => rfl
  | succ n ih => simp [State.fetched, ih]
@[simp] theorem fetched_ssp (s : State) (n : Nat) : (s.fetched n).ssp = s.ssp := by
  induction n generalizing s with
  | zero => rfl
  | succ n ih => simp [State.fetched, ih]
@[simp] theorem fetched_sr (s : State) (n : Nat) : (s.fetched n).sr = s.sr := by
  induction n generalizing s with
  | zero => rfl
  | succ n ih => simp [State.fetched, ih]
@[simp] theorem fetched_ir (s : State) (n : Nat) : (s.fetched n).ir = s.ir := by
  induction n generalizing s with
  | zero => rfl
  | succ n ih => simp [State.fetched, ih]
@[simp] theorem fetched_run (s : State) (n : Nat) : (s.fetched n).run = s.run := by
  induction n generalizing s with
  | zero => rfl
  | succ n ih => simp [State.fetched, ih]
@[simp] theorem fetched_xgroup (s : State) (n : Nat) : (s.fetched n).xgroup = s.xgroup := by
  induction n generalizing s with
  | zero => rfl
  | succ n ih => simp [State.fetched, ih]
@[simp] theorem fetched_prevIpl (s : State) (n : Nat) : (s.fetched n).prevIpl = s.prevIpl := by
  induction n generalizing s with
  | zero => rfl
  | succ n ih => simp [State.fetched, ih]
@[simp] theorem fetched_stopTrace (s : State) (n : Nat) : (s.fetched n).stopTrace = s.stopTrace := by
  induction n generalizing s with
  | zero => rfl
  | succ n ih => simp [State.fetched, ih]
@[simp] theorem fetched_handlerFetch (s : State) (n : Nat) : (s.fetched n).handlerFetch = s.handlerFetch := by
  induction n generalizing s with
  | zero => rfl
  | succ n ih => simp [State.fetched, ih]
@[simp] theorem fetched_mem (s : State) (n : Nat) : (s.fetched n).mem = s.mem := by
  induction n generalizing s with
  | zero => rfl
  | succ n ih => simp [State.fetched, ih]
@[simp] theorem fetched_ipl (s : State) (n : Nat) : (s.fetched n).ipl = s.ipl := by
  induction n generalizing s with
  | zero => rfl
  | succ n ih => simp [State.fetched, ih]
@[simp] theorem fetched_iack (s : State) (n : Nat) : (s.fetched n).iack = s.iack := by
  induction n generalizing s with
  | zero => rfl
  | succ n ih => simp [State.fetched, ih]
@[simp] theorem fetched_platform (s : State) (n : Nat) : (s.fetched n).platform = s.platform := by
  induction n generalizing s with
  | zero => rfl
  | succ n ih => simp [State.fetched, ih]
@[simp] theorem fetched_extReset (s : State) (n : Nat) : (s.fetched n).extReset = s.extReset := by
  induction n generalizing s with
  | zero => rfl
  | succ n ih => simp [State.fetched, ih]
@[simp] theorem fetched_draws (s : State) (n : Nat) : (s.fetched n).draws = s.draws := by
  induction n generalizing s with
  | zero => rfl
  | succ n ih => simp [State.fetched, ih]

@[simp] theorem fetched_pc (s : State) (n : Nat) : (s.fetched n).pc = s.pc + BitVec.ofNat 32 (2 * n) := by
  induction n generalizing s with
  | zero => simp [State.fetched]
  | succ n ih =>
    rw [State.fetched, ih, tookWord_pc, afterRead_pc, BitVec.add_assoc]
    congr 1
    apply BitVec.eq_of_toNat_eq
    have h2 : (2 : Long).toNat = 2 := rfl
    simp only [BitVec.toNat_add, BitVec.toNat_ofNat, h2]
    omega

@[simp] theorem fetched_dreg (s : State) (n : Nat) (r : Reg) : (s.fetched n).dreg r = s.dreg r := dreg_congr (by simp) r
@[simp] theorem fetched_areg (s : State) (n : Nat) (r : Reg) : (s.fetched n).areg r = s.areg r :=
  areg_congr (by simp) (by simp) (by simp) (by simp) r
@[simp] theorem fetched_readAt (s : State) (n : Nat) (sz : Size) (a : Long) :
    (s.fetched n).readAt sz a = s.readAt sz a := by
  cases sz
  · exact byteAt_congr (by simp) a
  · exact wordAt_congr (by simp) a
  · exact longAt_congr (by simp) a

/-- Further words fetched at an even `PC` (10_state.md R30). -/
theorem fetchWord_ready {s : State} (h : s.ready) : fetchWord s = .ok (s.wordAt s.pc) (s.fetched 1) := by
  simp only [fetchWord, bind_apply, get_apply]
  rw [memRead_quiet h.1 (by simp [isAligned, h.2])]
  rfl

theorem ready_fetched {s : State} (h : s.ready) (n : Nat) : (s.fetched n).ready := by
  refine ⟨by simpa using h.1, ?_⟩
  induction n generalizing s with
  | zero => exact h.2
  | succ n ih => exact ih ⟨by simpa using h.1, isEven_add_two _ h.2⟩

theorem fetchWords_ready {s : State} (h : s.ready) (n : Nat) : fetchWords n s = .ok () (s.fetched n) := by
  induction n generalizing s with
  | zero => rfl
  | succ n ih =>
    simp only [fetchWords, bind_apply, fetchWord_ready h]
    rw [ih (ready_fetched h 1)]
    rfl

/-! ### The step of an address register -/

section
variable (s : State) (ea : Ea) (sz : Size)

@[simp] theorem stepAddress_d : (s.stepAddress ea sz).d = s.d := by
  cases ea <;> simp [State.stepAddress]
@[simp] theorem stepAddress_pc : (s.stepAddress ea sz).pc = s.pc := by
  cases ea <;> simp [State.stepAddress]
@[simp] theorem stepAddress_sr : (s.stepAddress ea sz).sr = s.sr := by
  cases ea <;> simp [State.stepAddress]
@[simp] theorem stepAddress_ir : (s.stepAddress ea sz).ir = s.ir := by
  cases ea <;> simp [State.stepAddress]
@[simp] theorem stepAddress_run : (s.stepAddress ea sz).run = s.run := by
  cases ea <;> simp [State.stepAddress]
@[simp] theorem stepAddress_xgroup : (s.stepAddress ea sz).xgroup = s.xgroup := by
  cases ea <;> simp [State.stepAddress]
@[simp] theorem stepAddress_prevIpl : (s.stepAddress ea sz).prevIpl = s.prevIpl := by
  cases ea <;> simp [State.stepAddress]
@[simp] theorem stepAddress_stopTrace : (s.stepAddress ea sz).stopTrace = s.stopTrace := by
  cases ea <;> simp [State.stepAddress]
@[simp] theorem stepAddress_handlerFetch : (s.stepAddress ea sz).handlerFetch = s.handlerFetch := by
  cases ea <;> simp [State.stepAddress]
@[simp] theorem stepAddress_mem : (s.stepAddress ea sz).mem = s.mem := by
  cases ea <;> simp [State.stepAddress]
@[simp] theorem stepAddress_ipl : (s.stepAddress ea sz).ipl = s.ipl := by
  cases ea <;> simp [State.stepAddress]
@[simp] theorem stepAddress_iack : (s.stepAddress ea sz).iack = s.iack := by
  cases ea <;> simp [State.stepAddress]
@[simp] theorem stepAddress_platform : (s.stepAddress ea sz).platform = s.platform := by
  cases ea <;> simp [State.stepAddress]
@[simp] theorem stepAddress_extReset : (s.stepAddress ea sz).extReset = s.extReset := by
  cases ea <;> simp [State.stepAddress]
@[simp] theorem stepAddress_draws : (s.stepAddress ea sz).draws = s.draws := by
  cases ea <;> simp [State.stepAddress]
@[simp] theorem stepAddress_dreg (n : Reg) : (s.stepAddress ea sz).dreg n = s.dreg n := dreg_congr (by simp) n
@[simp] theorem stepAddress_readAt (sz' : Size) (x : Long) :
    (s.stepAddress ea sz).readAt sz' x = s.readAt sz' x := by
  cases sz'
  · exact byteAt_congr (by simp) x
  · exact wordAt_congr (by simp) x
  · exact longAt_congr (by simp) x

end

theorem setAreg_address_congr {s t : State} (h : s.sameAddress t) (hs : t.sr.s = s.sr.s) (n : Reg) (v : Long) :
    (s.setAreg n v).sameAddress (t.setAreg n v) := by
  obtain ⟨ha, hu, hp⟩ := h
  unfold State.setAreg State.sameAddress
  split
  · simp [ha, hu, hp]
  · rw [hs]
    split <;> simp [ha, hu, hp]

/-- The step of an address register depends on the address registers and S alone. -/
theorem stepAddress_congr {s t : State} (h : s.sameAddress t) (hs : t.sr.s = s.sr.s) (ea : Ea) (sz : Size) :
    (s.stepAddress ea sz).sameAddress (t.stepAddress ea sz) := by
  have hr : ∀ n, t.areg n = s.areg n := fun n => areg_congr h.1 h.2.1 h.2.2 hs n
  cases ea <;> simp only [State.stepAddress, hr] <;> first | exact h | exact setAreg_address_congr h hs _ _

/-! ### Effective addresses -/

/-- The state after an effective address has been evaluated (40_data_movement.md R150). -/
abbrev State.evaluated (s : State) (ea : Ea) (sz : Size) : State := (s.fetched ea.words.length).stepAddress ea sz

theorem evalEa_ready {s : State} (h : s.ready) (ea : Ea) (sz : Size) :
    evalEa ea sz s = .ok (s.location ea sz) (s.evaluated ea sz) := by
  simp only [evalEa, bind_apply, get_apply, fetchWords_ready h, modify_apply, pure_apply]

theorem evaluated_sameAddress (s : State) (ea : Ea) (sz : Size) :
    (s.stepAddress ea sz).sameAddress (s.evaluated ea sz) :=
  stepAddress_congr ⟨by simp, by simp, by simp⟩ (by simp) ea sz

theorem ready_evaluated {s : State} (h : s.ready) (ea : Ea) (sz : Size) : (s.evaluated ea sz).ready :=
  ⟨by simpa using h.1, by simpa using (ready_fetched h ea.words.length).2⟩

/-- The state after a source operand has been read. -/
def State.operandRead (s : State) (ea : Ea) (sz : Size) : State :=
  if isMemoryEa ea then
    (s.evaluated ea sz).afterRead sz (s.fc (isProgramEa ea)) (s.effectiveAddress ea sz)
  else s.evaluated ea sz

theorem location_memory (s : State) {ea : Ea} (h : isMemoryEa ea = true) (sz : Size) :
    ∃ alt lf, s.location ea sz = .mem (s.effectiveAddress ea sz) (isProgramEa ea) alt lf := by
  cases ea <;> simp_all [isMemoryEa, State.location, State.effectiveAddress, isProgramEa]

section
variable (s : State) (ea : Ea) (sz : Size)

@[simp] theorem operandRead_d : (s.operandRead ea sz).d = s.d := by
  unfold State.operandRead; split <;> simp
@[simp] theorem operandRead_sr : (s.operandRead ea sz).sr = s.sr := by
  unfold State.operandRead; split <;> simp
@[simp] theorem operandRead_ir : (s.operandRead ea sz).ir = s.ir := by
  unfold State.operandRead; split <;> simp
@[simp] theorem operandRead_run : (s.operandRead ea sz).run = s.run := by
  unfold State.operandRead; split <;> simp
@[simp] theorem operandRead_xgroup : (s.operandRead ea sz).xgroup = s.xgroup := by
  unfold State.operandRead; split <;> simp
@[simp] theorem operandRead_prevIpl : (s.operandRead ea sz).prevIpl = s.prevIpl := by
  unfold State.operandRead; split <;> simp
@[simp] theorem operandRead_stopTrace : (s.operandRead ea sz).stopTrace = s.stopTrace := by
  unfold State.operandRead; split <;> simp
@[simp] theorem operandRead_handlerFetch : (s.operandRead ea sz).handlerFetch = s.handlerFetch := by
  unfold State.operandRead; split <;> simp
@[simp] theorem operandRead_mem : (s.operandRead ea sz).mem = s.mem := by
  unfold State.operandRead; split <;> simp
@[simp] theorem operandRead_ipl : (s.operandRead ea sz).ipl = s.ipl := by
  unfold State.operandRead; split <;> simp
@[simp] theorem operandRead_iack : (s.operandRead ea sz).iack = s.iack := by
  unfold State.operandRead; split <;> simp
@[simp] theorem operandRead_platform : (s.operandRead ea sz).platform = s.platform := by
  unfold State.operandRead; split <;> simp
@[simp] theorem operandRead_extReset : (s.operandRead ea sz).extReset = s.extReset := by
  unfold State.operandRead; split <;> simp
@[simp] theorem operandRead_draws : (s.operandRead ea sz).draws = s.draws := by
  unfold State.operandRead; split <;> simp
@[simp] theorem operandRead_pc :
    (s.operandRead ea sz).pc = s.pc + BitVec.ofNat 32 (2 * ea.words.length) := by
  unfold State.operandRead; split <;> simp
@[simp] theorem operandRead_dreg (n : Reg) : (s.operandRead ea sz).dreg n = s.dreg n := dreg_congr (by simp) n
@[simp] theorem operandRead_readAt (sz' : Size) (x : Long) :
    (s.operandRead ea sz).readAt sz' x = s.readAt sz' x := by
  cases sz'
  · exact byteAt_congr (by simp) x
  · exact wordAt_congr (by simp) x
  · exact longAt_congr (by simp) x

theorem operandRead_sameAddress : (s.stepAddress ea sz).sameAddress (s.operandRead ea sz) := by
  have h := evaluated_sameAddress s ea sz
  unfold State.operandRead
  split
  · exact ⟨by simpa using h.1, by simpa using h.2.1, by simpa using h.2.2⟩
  · exact h

theorem operandRead_areg (n : Reg) : (s.operandRead ea sz).areg n = (s.stepAddress ea sz).areg n :=
  have h := operandRead_sameAddress s ea sz
  areg_congr h.1 h.2.1 h.2.2 (by simp) n

end

theorem ready_operandRead {s : State} (h : s.ready) (ea : Ea) (sz : Size) : (s.operandRead ea sz).ready := by
  refine ⟨by simpa using h.1, ?_⟩
  have := (ready_fetched h ea.words.length).2
  simpa using this

@[simp] theorem operand_memory (s : State) {ea : Ea} (h : isMemoryEa ea = true) (sz : Size) :
    s.operand ea sz = s.readAt sz (s.effectiveAddress ea sz) := by
  cases ea <;> first | rfl | simp [isMemoryEa] at h

/-- `Read(EvalEA(mode, reg, sz), sz)` of an aligned operand (40_data_movement.md R150). -/
theorem readEa_ready {s : State} (h : s.ready) {ea : Ea} {sz : Size} (ha : s.operandAligned ea sz = true) :
    readEa sz ea s = .ok (s.operand ea sz) (s.operandRead ea sz) := by
  simp only [readEa, bind_apply, evalEa_ready h]
  by_cases hm : isMemoryEa ea = true
  · obtain ⟨alt, lf, hl⟩ := location_memory s hm sz
    have hal : isAligned sz (s.effectiveAddress ea sz) = true := by simpa [State.operandAligned, hm] using ha
    rw [hl]
    simp only [readLoc, bind_apply, get_apply]
    rw [memRead_quiet (by simpa using h.1) hal]
    simp [State.operandRead, hm, State.fc]
  · cases ea <;> simp_all [isMemoryEa, State.location, readLoc, State.operand, State.operandRead, State.stepAddress]

/-- `Read(EvalEA(mode, reg, sz), sz)` of a word or long operand at an odd address (20_memory.md R63). -/
theorem readEa_odd {s : State} (h : s.ready) {ea : Ea} {sz : Size} (ha : s.operandAligned ea sz = false) :
    ∃ alt, readEa sz ea s =
      .error (.access ⟨.address, s.effectiveAddress ea sz, true, s.fc (isProgramEa ea), alt⟩)
      (s.evaluated ea sz) := by
  have hm : isMemoryEa ea = true := by
    by_contra hn
    simp [State.operandAligned, hn] at ha
  have hal : isAligned sz (s.effectiveAddress ea sz) = false := by simpa [State.operandAligned, hm] using ha
  obtain ⟨alt, lf, hl⟩ := location_memory s hm sz
  refine ⟨alt, ?_⟩
  simp only [readEa, bind_apply, evalEa_ready h, hl, readLoc, get_apply]
  rw [memRead_odd hal]
  simp [State.fc]

/-! ### Destinations -/

/-- The state after an operand evaluated in `s` has been written in `t`. -/
def State.stored (t : State) (s : State) (ea : Ea) (sz : Size) (v : BitVec sz.bits) : State :=
  match s.location ea sz with
  | .dreg n => t.setDregLow n v
  | .areg n => t.setAreg n (v.signExtend 32)
  | .mem a _ _ lf => t.afterWrite sz (t.fc false) a v lf
  | .imm _ => t

section
variable (t s : State) (ea : Ea) (sz : Size) (v : BitVec sz.bits)

@[simp] theorem stored_pc : (t.stored s ea sz v).pc = t.pc := by
  unfold State.stored; split <;> simp [State.setDregLow]
@[simp] theorem stored_sr : (t.stored s ea sz v).sr = t.sr := by
  unfold State.stored; split <;> simp [State.setDregLow]
@[simp] theorem stored_ir : (t.stored s ea sz v).ir = t.ir := by
  unfold State.stored; split <;> simp [State.setDregLow]
@[simp] theorem stored_run : (t.stored s ea sz v).run = t.run := by
  unfold State.stored; split <;> simp [State.setDregLow]
@[simp] theorem stored_xgroup : (t.stored s ea sz v).xgroup = t.xgroup := by
  unfold State.stored; split <;> simp [State.setDregLow]
@[simp] theorem stored_prevIpl : (t.stored s ea sz v).prevIpl = t.prevIpl := by
  unfold State.stored; split <;> simp [State.setDregLow]
@[simp] theorem stored_stopTrace : (t.stored s ea sz v).stopTrace = t.stopTrace := by
  unfold State.stored; split <;> simp [State.setDregLow]
@[simp] theorem stored_handlerFetch : (t.stored s ea sz v).handlerFetch = t.handlerFetch := by
  unfold State.stored; split <;> simp [State.setDregLow]
@[simp] theorem stored_ipl : (t.stored s ea sz v).ipl = t.ipl := by
  unfold State.stored; split <;> simp [State.setDregLow]
@[simp] theorem stored_iack : (t.stored s ea sz v).iack = t.iack := by
  unfold State.stored; split <;> simp [State.setDregLow]
@[simp] theorem stored_platform : (t.stored s ea sz v).platform = t.platform := by
  unfold State.stored; split <;> simp [State.setDregLow]
@[simp] theorem stored_extReset : (t.stored s ea sz v).extReset = t.extReset := by
  unfold State.stored; split <;> simp [State.setDregLow]
@[simp] theorem stored_draws : (t.stored s ea sz v).draws = t.draws := by
  unfold State.stored; split <;> simp [State.setDregLow]
theorem stored_a (h : ea.isData = true) : (t.stored s ea sz v).a = t.a := by
  cases ea <;> simp_all [State.stored, State.location, State.setDregLow, Ea.isData]
theorem stored_usp (h : ea.isData = true) : (t.stored s ea sz v).usp = t.usp := by
  cases ea <;> simp_all [State.stored, State.location, State.setDregLow, Ea.isData]
theorem stored_ssp (h : ea.isData = true) : (t.stored s ea sz v).ssp = t.ssp := by
  cases ea <;> simp_all [State.stored, State.location, State.setDregLow, Ea.isData]

end

/-- `Write(loc, sz, v)` of an aligned operand, in a state whose memory and inputs a read may have left
(40_data_movement.md R150). -/
theorem writeLoc_ready {s t : State} (h : t.platform = .plain) {ea : Ea} {sz : Size} (ha : s.operandAligned ea sz = true)
    (v : BitVec sz.bits) : writeLoc sz (s.location ea sz) v t = .ok () (t.stored s ea sz v) := by
  by_cases hm : isMemoryEa ea = true
  · obtain ⟨alt, lf, hl⟩ := location_memory s hm sz
    have hal : isAligned sz (s.effectiveAddress ea sz) = true := by simpa [State.operandAligned, hm] using ha
    simp only [State.stored, hl, writeLoc, bind_apply, get_apply]
    rw [memWrite_quiet h hal]
  · cases ea <;> simp_all [isMemoryEa, State.location, writeLoc, State.stored]

/-- What writing to a data alterable operand evaluated in `s` leaves, from any state that agrees with `s` after the
evaluation (30_encoding.md R105 to R114). -/
theorem operandWritten_stored {s t : State} (ha : (s.stepAddress ea sz).sameAddress t) (hd : t.d = s.d)
    (hm : t.mem = s.mem) (hea : ea.isDataAlterable = true) (v : BitVec sz.bits) :
    s.operandWritten (t.stored s ea sz v) ea sz v := by
  have hdata : ea.isData = true := by simp_all [Ea.isDataAlterable]
  refine ⟨?_, ?_⟩
  · rw [State.sameAddress, stored_a _ _ _ _ _ hdata, stored_usp _ _ _ _ _ hdata, stored_ssp _ _ _ _ _ hdata]
    exact ha
  · by_cases hme : isMemoryEa ea = true
    · obtain ⟨alt, lf, hl⟩ := location_memory s hme sz
      have key : (t.stored s ea sz v).d = s.d ∧
          (t.stored s ea sz v).readAt sz (s.effectiveAddress ea sz) = v ∧
          s.sameMemoryBut (t.stored s ea sz v) sz (s.effectiveAddress ea sz) := by
        simp only [State.stored, hl]
        refine ⟨by simp [hd], readAt_afterWrite_same _ _ _ _ _ _, fun x hx => ?_⟩
        rw [get_afterWrite_of_notMem hx, hm]
      cases ea <;> first | exact key | simp [isMemoryEa] at hme
    · cases ea with
      | dn n =>
        simp only [State.stored, State.location]
        refine ⟨?_, fun m hne => ?_, fun x => ?_⟩
        · simp [State.setDregLow, dreg_congr hd]
        · simp only [State.setDregLow]
          rw [dreg_setDreg_of_ne _ hne, dreg_congr hd]
        · simp [State.setDregLow, hm]
      | an n => simp [Ea.isData] at hdata
      | imm v => simp [Ea.isDataAlterable, Ea.isAlterable] at hea
      | _ => simp [isMemoryEa] at hme

theorem readAt_congr {s t : State} (h : t.mem = s.mem) (sz : Size) (a : Long) : t.readAt sz a = s.readAt sz a := by
  cases sz
  · exact byteAt_congr h a
  · exact wordAt_congr h a
  · exact longAt_congr h a

/-- Which destination holds what depends on the registers and memory alone. -/
theorem operandWritten_congr {s t u : State} {ea : Ea} {sz : Size} {v : BitVec sz.bits} (hd : u.d = t.d)
    (ha : u.a = t.a) (hu : u.usp = t.usp) (hp : u.ssp = t.ssp) (hm : u.mem = t.mem)
    (h : s.operandWritten t ea sz v) : s.operandWritten u ea sz v := by
  obtain ⟨hA, hB⟩ := h
  refine ⟨by rw [State.sameAddress, ha, hu, hp]; exact hA, ?_⟩
  cases ea <;>
    simp only [hd, State.sameDataBut, State.sameMemory, State.sameMemoryBut, hm, dreg_congr hd, readAt_congr hm]
      at hB ⊢ <;> exact hB

/-- The state after a location has been read in `t`, its operand evaluated in `s`. -/
def State.locationRead (t s : State) (ea : Ea) (sz : Size) : State :=
  if isMemoryEa ea then t.afterRead sz (t.fc (isProgramEa ea)) (s.effectiveAddress ea sz) else t

theorem readLoc_ready {s t : State} (h : t.platform = .plain) {ea : Ea} {sz : Size}
    (ha : s.operandAligned ea sz = true) (hd : t.d = s.d) (hm : t.mem = s.mem) (hn : ea.isData = true) :
    readLoc sz (s.location ea sz) t = .ok (s.operand ea sz) (t.locationRead s ea sz) := by
  by_cases hme : isMemoryEa ea = true
  · obtain ⟨alt, lf, hl⟩ := location_memory s hme sz
    have hal : isAligned sz (s.effectiveAddress ea sz) = true := by simpa [State.operandAligned, hme] using ha
    have hr : t.readAt sz (s.effectiveAddress ea sz) = s.readAt sz (s.effectiveAddress ea sz) := by
      cases sz
      · exact byteAt_congr hm _
      · exact wordAt_congr hm _
      · exact longAt_congr hm _
    simp only [hl, readLoc, bind_apply, get_apply]
    rw [memRead_quiet h hal, operand_memory s hme, hr]
    simp [State.locationRead, hme]
  · cases ea <;>
      simp_all [isMemoryEa, State.location, readLoc, State.operand, State.locationRead, Ea.isData, State.dreg]

section
variable (t s : State) (ea : Ea) (sz : Size)

@[simp] theorem locationRead_d : (t.locationRead s ea sz).d = t.d := by
  unfold State.locationRead; split <;> simp
@[simp] theorem locationRead_a : (t.locationRead s ea sz).a = t.a := by
  unfold State.locationRead; split <;> simp
@[simp] theorem locationRead_usp : (t.locationRead s ea sz).usp = t.usp := by
  unfold State.locationRead; split <;> simp
@[simp] theorem locationRead_ssp : (t.locationRead s ea sz).ssp = t.ssp := by
  unfold State.locationRead; split <;> simp
@[simp] theorem locationRead_pc : (t.locationRead s ea sz).pc = t.pc := by
  unfold State.locationRead; split <;> simp
@[simp] theorem locationRead_sr : (t.locationRead s ea sz).sr = t.sr := by
  unfold State.locationRead; split <;> simp
@[simp] theorem locationRead_ir : (t.locationRead s ea sz).ir = t.ir := by
  unfold State.locationRead; split <;> simp
@[simp] theorem locationRead_run : (t.locationRead s ea sz).run = t.run := by
  unfold State.locationRead; split <;> simp
@[simp] theorem locationRead_xgroup : (t.locationRead s ea sz).xgroup = t.xgroup := by
  unfold State.locationRead; split <;> simp
@[simp] theorem locationRead_prevIpl : (t.locationRead s ea sz).prevIpl = t.prevIpl := by
  unfold State.locationRead; split <;> simp
@[simp] theorem locationRead_stopTrace : (t.locationRead s ea sz).stopTrace = t.stopTrace := by
  unfold State.locationRead; split <;> simp
@[simp] theorem locationRead_handlerFetch : (t.locationRead s ea sz).handlerFetch = t.handlerFetch := by
  unfold State.locationRead; split <;> simp
@[simp] theorem locationRead_mem : (t.locationRead s ea sz).mem = t.mem := by
  unfold State.locationRead; split <;> simp
@[simp] theorem locationRead_ipl : (t.locationRead s ea sz).ipl = t.ipl := by
  unfold State.locationRead; split <;> simp
@[simp] theorem locationRead_iack : (t.locationRead s ea sz).iack = t.iack := by
  unfold State.locationRead; split <;> simp
@[simp] theorem locationRead_platform : (t.locationRead s ea sz).platform = t.platform := by
  unfold State.locationRead; split <;> simp
@[simp] theorem locationRead_extReset : (t.locationRead s ea sz).extReset = t.extReset := by
  unfold State.locationRead; split <;> simp
@[simp] theorem locationRead_draws : (t.locationRead s ea sz).draws = t.draws := by
  unfold State.locationRead; split <;> simp

end

/-- An operand `(An)+` of CMPM, aligned: its value, and An stepped (41_integer_arithmetic.md R192). -/
theorem readThenStep_ready {s : State} (h : s.platform = .plain) {sz : Size} {n : Reg}
    (ha : isAligned sz (s.areg n) = true) :
    readThenStep sz n s =
      .ok (s.readAt sz (s.areg n)) ((s.afterRead sz (s.fc false) (s.areg n)).stepAddress (.post n) sz) := by
  simp only [readThenStep, bind_apply, get_apply]
  rw [memRead_quiet h ha]
  rfl

/-- A destination read, computed on and written back after the condition codes: everything it leaves
(43_shift_rotate.md R250, 44_bit_manipulation.md R274). -/
theorem modifyEaCodesFirst_ready {s : State} (h : s.ready) {ea : Ea} {sz : Size}
    (ha : s.operandAligned ea sz = true) (hea : ea.isDataAlterable = true) (op : Unary sz.bits) :
    ∃ t, modifyEaCodesFirst sz ea op s = .ok () t ∧ s.operandWritten t ea sz (op (s.operand ea sz) s.sr).1 ∧
      t.sr = (op (s.operand ea sz) s.sr).2 ∧ t.pc = s.pc + BitVec.ofNat 32 (2 * ea.words.length) ∧
      s.sameSystem t ∧ t.draws = s.draws := by
  have hdata : ea.isData = true := by simp_all [Ea.isDataAlterable]
  have hq : (s.evaluated ea sz).platform = .plain := by simpa using h.1
  simp only [modifyEaCodesFirst, bind_apply, evalEa_ready h]
  rw [readLoc_ready hq ha (by simp) (by simp) hdata]
  simp only [get_apply, modify_apply]
  rw [writeLoc_ready (by simpa using h.1) ha]
  have hs : ((s.evaluated ea sz).locationRead s ea sz).sr = s.sr := by simp
  rw [hs]
  refine ⟨_, rfl, operandWritten_stored ?_ (by simp) (by simp) hea _, by simp, by simp, ?_, by simp⟩
  · have := evaluated_sameAddress s ea sz
    exact ⟨by simpa using this.1, by simpa using this.2.1, by simpa using this.2.2⟩
  · simp [State.sameSystem]

/-- A destination read, computed on and written back: everything it leaves (30_encoding.md R110). -/
theorem modifyEa_ready {s : State} (h : s.ready) {ea : Ea} {sz : Size} (ha : s.operandAligned ea sz = true)
    (hea : ea.isDataAlterable = true) (op : Unary sz.bits) :
    ∃ t, modifyEa sz ea op s = .ok () t ∧ s.operandWritten t ea sz (op (s.operand ea sz) s.sr).1 ∧
      t.sr = (op (s.operand ea sz) s.sr).2 ∧ t.pc = s.pc + BitVec.ofNat 32 (2 * ea.words.length) ∧
      s.sameSystem t ∧ t.draws = s.draws := by
  have hdata : ea.isData = true := by simp_all [Ea.isDataAlterable]
  have hq : (s.evaluated ea sz).platform = .plain := by simpa using h.1
  simp only [modifyEa, modifyLoc, bind_apply, evalEa_ready h]
  rw [readLoc_ready hq ha (by simp) (by simp) hdata]
  simp only [get_apply]
  rw [writeLoc_ready (by simpa using h.1) ha]
  have hs : ((s.evaluated ea sz).locationRead s ea sz).sr = s.sr := by simp
  have hA : (s.stepAddress ea sz).sameAddress ((s.evaluated ea sz).locationRead s ea sz) := by
    have := evaluated_sameAddress s ea sz
    exact ⟨by simpa using this.1, by simpa using this.2.1, by simpa using this.2.2⟩
  rw [hs]
  refine ⟨_, rfl, ?_, by simp, by simp, ?_, by simp⟩
  · exact operandWritten_congr (by simp) (by simp) (by simp) (by simp) (by simp)
      (operandWritten_stored hA (by simp) (by simp) hea _)
  · simp [State.sameSystem]

end Sys2Proof.Machine
end

