-- ==== Sys2Proof/Laws/Exceptions.lean ====
section
/-! SUPPORT. The stack, taking an exception, what an abort leaves open, external reset and the instruction at `PC`: what
each operation answers and leaves, on the plain platform where a statement says so. -/

namespace Sys2Proof.Machine

/-! ### Address registers -/

theorem setAreg_sameAddressBut (s : State) (n : Reg) (v : Long) : s.sameAddressBut (s.setAreg n v) n := by
  refine ⟨fun m hm => areg_setAreg_of_ne s hm v, fun hs => ?_, fun hs => ?_⟩ <;>
    simp only [State.setAreg] <;> split <;> simp [hs]

/-! ### Even addresses -/

theorem isEven_toNat (a : Long) : isEven a = true ↔ a.toNat % 2 = 0 := by
  simp [isEven, BitVec.getLsbD]

theorem isEven_sub_even {a b : Long} (h : isEven a = true) (hb : isEven b = true) : isEven (a - b) = true := by
  rw [isEven_toNat] at *
  rw [BitVec.toNat_sub]
  omega

theorem isEven_add_even {a b : Long} (h : isEven a = true) (hb : isEven b = true) : isEven (a + b) = true := by
  rw [isEven_toNat] at *
  rw [BitVec.toNat_add]
  omega

theorem isAligned_of_isEven {a : Long} (h : isEven a = true) (sz : Size) : isAligned sz a = true := by
  simp [isAligned, h]

/-! ### Disjoint operands -/

theorem mem_bytesFrom {a : Long} {n x : Nat} : x ∈ bytesFrom a n ↔ ∃ k < n, x = physical (a + BitVec.ofNat 32 k) := by
  simp [bytesFrom, eq_comm]

/-- Two operands at different offsets from one address share no byte. -/
theorem bytesFrom_disjoint {a b : Long} {m n i : Nat} (hb : b = a + BitVec.ofNat 32 i) (hi : m ≤ i)
    (hn : i + n < addressSpace) {x : Nat} (hx : x ∈ bytesFrom b n) : x ∉ bytesFrom a m := by
  rw [mem_bytesFrom] at *
  rintro ⟨j, hj, hxj⟩
  obtain ⟨k, hk, rfl⟩ := hx
  subst hb
  rw [BitVec.add_assoc, ← BitVec.ofNat_add] at hxj
  exact physical_add_ne a (by omega) (by omega) (by omega) hxj

/-- An operand depends on its own bytes alone. -/
theorem readAt_of_bytes {s t : State} {sz : Size} {a : Long}
    (h : ∀ x ∈ operandBytes sz a, Memory.get t.mem x = Memory.get s.mem x) : t.readAt sz a = s.readAt sz a := by
  have hb : ∀ k < sz.bytes, t.byteAt (a + BitVec.ofNat 32 k) = s.byteAt (a + BitVec.ofNat 32 k) := fun k hk =>
    h _ (mem_operandBytes.mpr ⟨k, hk, rfl⟩)
  cases sz with
  | b => simpa [State.readAt] using hb 0 (by decide)
  | w =>
    have h0 := hb 0 (by decide)
    have h1 := hb 1 (by decide)
    simp only [BitVec.add_zero] at h0
    show t.wordAt a = s.wordAt a
    unfold State.wordAt
    rw [h0, show a + 1 = a + BitVec.ofNat 32 1 from rfl, h1]
  | l =>
    have h0 := hb 0 (by decide)
    have h1 := hb 1 (by decide)
    have h2 := hb 2 (by decide)
    have h3 := hb 3 (by decide)
    simp only [BitVec.add_zero] at h0
    show t.longAt a = s.longAt a
    unfold State.longAt State.wordAt
    rw [h0, show a + 1 = a + BitVec.ofNat 32 1 from rfl, h1, show a + 2 = a + BitVec.ofNat 32 2 from rfl, h2,
      show a + BitVec.ofNat 32 2 + 1 = a + BitVec.ofNat 32 3 from by rw [BitVec.add_assoc]; rfl, h3]

/-- An operand that a write does not touch. -/
theorem readAt_afterWrite_of_disjoint {s : State} {sz sz' : Size} {fc : BitVec 3} {a b : Long} {v : BitVec sz.bits}
    {lf : Bool} (h : ∀ x ∈ operandBytes sz' b, x ∉ operandBytes sz a) :
    (s.afterWrite sz fc a v lf).readAt sz' b = s.readAt sz' b :=
  readAt_of_bytes fun x hx => get_afterWrite_of_notMem (h x hx)

/-! ### Push and pop -/

/-- `Push(4, v)` on an even active stack pointer (00_scope.md R11). -/
theorem pushLong_ready {s : State} (h : s.platform = .plain) (he : isEven (s.areg 7) = true) (v : Long) :
    pushLong v s = .ok ()
      ((s.setAreg 7 (s.areg 7 - 4)).afterWrite .l (s.fc false) (s.areg 7 - 4) v false) := by
  simp only [pushLong, bind_apply, get_apply, modify_apply]
  rw [memWrite_quiet (by simpa using h) (isAligned_of_isEven (isEven_sub_even he (by decide)) _)]

/-- `Push(2, v)` on an even active stack pointer (00_scope.md R11). -/
theorem pushWord_ready {s : State} (h : s.platform = .plain) (he : isEven (s.areg 7) = true) (v : Word) :
    pushWord v s = .ok ()
      ((s.setAreg 7 (s.areg 7 - 2)).afterWrite .w (s.fc false) (s.areg 7 - 2) v false) := by
  simp only [pushWord, bind_apply, get_apply, modify_apply]
  rw [memWrite_quiet (by simpa using h) (isAligned_of_isEven (isEven_sub_even he (by decide)) _)]

/-- `Pop(4)` from an even active stack pointer (00_scope.md R11). -/
theorem popLong_ready {s : State} (h : s.platform = .plain) (he : isEven (s.areg 7) = true) :
    popLong s = .ok (s.longAt (s.areg 7)) ((s.afterRead .l (s.fc false) (s.areg 7)).setAreg 7 (s.areg 7 + 4)) := by
  simp only [popLong, bind_apply, get_apply]
  rw [memRead_quiet h (isAligned_of_isEven he _)]
  rfl

/-- `Pop(2)` from an even active stack pointer (00_scope.md R11). -/
theorem popWord_ready {s : State} (h : s.platform = .plain) (he : isEven (s.areg 7) = true) :
    popWord s = .ok (s.wordAt (s.areg 7)) ((s.afterRead .w (s.fc false) (s.areg 7)).setAreg 7 (s.areg 7 + 2)) := by
  simp only [popWord, bind_apply, get_apply]
  rw [memRead_quiet h (isAligned_of_isEven he _)]
  rfl

/-- A push on an odd active stack pointer is an address error, and nothing is written (20_memory.md R63). -/
theorem pushLong_odd {s : State} (he : isEven (s.areg 7) = false) (v : Long) :
    pushLong v s = .error (.access ⟨.address, s.areg 7 - 4, false, s.fc false, [.either (addressX 7) (s.areg 7)]⟩)
      (s.setAreg 7 (s.areg 7 - 4)) := by
  have ho : isEven (s.areg 7 - 4) = false := by
    by_contra hn
    have := isEven_add_even (b := 4) (Bool.not_eq_false _ ▸ hn) (by decide)
    rw [BitVec.sub_add_cancel] at this
    simp [he] at this
  simp only [pushLong, bind_apply, get_apply, modify_apply]
  rw [memWrite_odd (by simpa [isAligned] using ho)]

/-! ### Taking an exception -/

theorem vectorAddress_eq (v : Byte) : vectorAddress v = v.setWidth 32 * 4 := by
  apply BitVec.eq_of_toNat_eq
  have := v.isLt
  simp only [vectorAddress, BitVec.toNat_shiftLeft, BitVec.toNat_setWidth, BitVec.toNat_mul, Nat.shiftLeft_eq]
  rfl

theorem isEven_vectorAddress (v : Byte) : isEven (vectorAddress v) = true := by
  rw [isEven_iff]
  simp [vectorAddress]

/-- The acknowledge cycle: the vector number of the platform's answer, and a read with function code 7 in the record
(20_memory.md R93, 60_exceptions.md R374). -/
theorem acquireVector_acknowledge {s : State} (h : s.platform = .plain) (level : BitVec 3) :
    acquireVector (.acknowledge level) s = .ok (answeredVector level (s.iackAnswer level))
      (s.record (.iack 7 (acknowledgeAddress level) (s.iackAnswer level))) := by
  simp [acquireVector, beginCycle_quiet h, answerAcknowledge]

/-- A group 1 or group 2 exception with an even SSP, from internal logic or with the platform's answer: everything it leaves
(60_exceptions.md R350, R351). -/
theorem takeException_ready {s : State} (h : s.platform = .plain) (he : isEven s.ssp = true) (g : XGroup)
    (src : VectorSource) (pc : Long) :
    ∃ t, takeException g src pc s = .ok () t ∧
      s.exceptionTaken t g (enteredSr s.sr src)
        (match src with
          | .internal v => v
          | .acknowledge level => answeredVector level (s.iackAnswer level)) pc ∧
      t.draws = s.draws := by
  have hS : ∀ src, (enteredSr s.sr src).s = true := fun src => by cases src <;> rfl
  -- the state in which the frame is stacked
  obtain ⟨u, v, hu, huv, hd, ha, husp, hssp, hsr, hmem, hbf, hrest⟩ :
      ∃ u v, acquireVector src { s with xgroup := openGroup s.xgroup g, sr := enteredSr s.sr src } = .ok v u ∧
        v = (match src with
          | .internal v => v
          | .acknowledge level => answeredVector level (s.iackAnswer level)) ∧
        u.d = s.d ∧ u.a = s.a ∧ u.usp = s.usp ∧ u.ssp = s.ssp ∧ u.sr = enteredSr s.sr src ∧ u.mem = s.mem ∧
        u.platform = .plain ∧ (u.ir = s.ir ∧ u.prevIpl = s.prevIpl ∧ u.stopTrace = s.stopTrace ∧ u.ipl = s.ipl ∧
          u.iack = s.iack ∧ u.extReset = s.extReset ∧ u.draws = s.draws) := by
    cases src with
    | internal v => exact ⟨_, v, rfl, rfl, rfl, rfl, rfl, rfl, rfl, rfl, h, rfl, rfl, rfl, rfl, rfl, rfl, rfl⟩
    | acknowledge level =>
      exact ⟨_, _, acquireVector_acknowledge (by exact h) level, rfl, rfl, rfl, rfl, rfl, rfl, rfl, h, rfl, rfl, rfl, rfl, rfl, rfl,
        rfl⟩
  have hus : u.sr.s = true := by rw [hsr]; exact hS src
  have h7 : ∀ w : State, w.sr.s = true → w.areg 7 = w.ssp := fun w hw => by simp [State.areg, hw]
  have hu7 : u.areg 7 = s.ssp := by rw [h7 u hus, hssp]
  have hset : ∀ (w : State) (x : Long), w.sr.s = true → w.setAreg 7 x = { w with ssp := x } := fun w x hw => by
    simp [State.setAreg, hw]
  -- the first push
  have hp1 := pushLong_ready hbf (by rw [hu7]; exact he) pc
  rw [hu7, hset u _ hus] at hp1
  generalize hw : ({ u with ssp := s.ssp - 4 } : State).afterWrite .l (u.fc false) (s.ssp - 4) pc false = w at hp1
  have hws : w.sr.s = true := by rw [← hw]; simpa using hus
  have hw7 : w.areg 7 = s.ssp - 4 := by rw [h7 w hws, ← hw]; simp
  -- the second push
  have hp2 := pushWord_ready (s := w) (by rw [← hw]; simpa using hbf)
    (by rw [hw7]; exact isEven_sub_even he (by decide)) s.sr.toWord
  rw [hw7, hset w _ hws, show s.ssp - 4 - 2 = s.ssp - 6 from by rw [BitVec.sub_sub]; rfl] at hp2
  generalize hx : ({ w with ssp := s.ssp - 6 } : State).afterWrite .w (w.fc false) (s.ssp - 6) s.sr.toWord false = x
    at hp2
  have hxb : x.platform = .plain := by rw [← hx, ← hw]; simpa using hbf
  have hpc4 : s.ssp - 4 = s.ssp - 6 + BitVec.ofNat 32 2 := by
    rw [show (6 : Long) = 4 + 2 from rfl, ← BitVec.sub_sub, show BitVec.ofNat 32 2 = (2 : Long) from rfl,
      BitVec.sub_add_cancel]
  have hmemx : ∀ y, y ∉ bytesFrom (s.ssp - 6) 6 → Memory.get x.mem y = Memory.get s.mem y := fun y hy => by
    have hy1 : y ∉ operandBytes .w (s.ssp - 6) := fun hm => hy (by
      obtain ⟨k, hk, rfl⟩ := mem_operandBytes.mp hm
      exact mem_bytesFrom.mpr ⟨k, lt_of_lt_of_le hk (by decide), rfl⟩)
    have hy2 : y ∉ operandBytes .l (s.ssp - 4) := fun hm => hy (by
      obtain ⟨k, hk, rfl⟩ := mem_operandBytes.mp hm
      refine mem_bytesFrom.mpr ⟨2 + k, by have : k < 4 := hk; omega, ?_⟩
      rw [hpc4, BitVec.add_assoc, ← BitVec.ofNat_add])
    rw [← hx, get_afterWrite_of_notMem hy1]
    show Memory.get w.mem y = _
    rw [← hw, get_afterWrite_of_notMem hy2]
    show Memory.get u.mem y = _
    rw [hmem]
  have hword : x.wordAt (s.ssp - 6) = s.sr.toWord := by
    show x.readAt .w _ = _
    rw [← hx, readAt_afterWrite_same]
  have hlong : x.longAt (s.ssp - 4) = pc := by
    show x.readAt .l _ = _
    rw [← hx, readAt_afterWrite_of_disjoint fun y hy => bytesFrom_disjoint hpc4 (by decide) (by decide) hy,
      ← hw]
    exact readAt_afterWrite_same _ .l _ _ _ _
  have hfields : x.sr = enteredSr s.sr src ∧ x.ssp = s.ssp - 6 ∧ x.usp = s.usp ∧ x.a = s.a ∧ x.d = s.d ∧
      x.ir = s.ir ∧ x.prevIpl = s.prevIpl ∧ x.stopTrace = s.stopTrace ∧ x.ipl = s.ipl ∧ x.iack = s.iack ∧
      x.extReset = s.extReset ∧ x.draws = s.draws := by
    rw [← hx, ← hw]
    simp [hsr, husp, ha, hd, hrest]
  clear hx hw hpc4
  simp only [takeException, bind_apply, get_apply, modify_apply, hu, hp1, hp2,
    memRead_quiet hxb (isAligned_of_isEven (isEven_vectorAddress v) .l)]
  obtain ⟨f1, f2, f3, f4, f5, f6, f7, f8, f9, f10, f11, f12⟩ := hfields
  have hr : ∀ (sz : Size) (a : Long) (t : State), t.mem = x.mem → t.readAt sz a = x.readAt sz a :=
    fun sz a t e => readAt_congr e sz a
  rw [← huv]
  refine ⟨_, rfl, ⟨by simpa using f1, by simpa using f2, by simpa using f3, by simpa using f4, by simpa using f5,
    ?_, ?_, ?_, ?_, rfl, rfl, rfl, by simpa using f6, by simpa using f7, by simpa using f8, by simpa using f9,
    by simpa using f10, by simpa [h] using hxb, by simpa using f11⟩, by simpa using f12⟩
  · exact (wordAt_congr (by simp) _).trans hword
  · exact (longAt_congr (by simp) _).trans hlong
  · intro y hy
    simpa using hmemx y hy
  · rw [← vectorAddress_eq]
    exact (longAt_congr (s := x) (by simp) _).symm

/-! ### What an abort leaves open -/

/-- What settling the open items cannot change: `PC`, memory, T, S and the mask where no item is of the status register,
and all that is no register (60_exceptions.md R394). -/
structure SettledFrom (s t : State) : Prop where
  pc : t.pc = s.pc
  mem : t.mem = s.mem
  ir : t.ir = s.ir
  run : t.run = s.run
  xgroup : t.xgroup = s.xgroup
  prevIpl : t.prevIpl = s.prevIpl
  stopTrace : t.stopTrace = s.stopTrace
  handlerFetch : t.handlerFetch = s.handlerFetch
  ipl : t.ipl = s.ipl
  iack : t.iack = s.iack
  platform : t.platform = s.platform
  extReset : t.extReset = s.extReset
  extWords : t.extWords = s.extWords
  bus : t.bus = s.bus

theorem settledFrom_setXreg (s : State) (x : Fin 16) (v : Long) : SettledFrom s (s.setXreg x v) := by
  unfold State.setXreg
  split <;> constructor <;> simp

theorem settledFrom_settleItem (s : State) (u : Unsettled) : SettledFrom s (settleItem s u) := by
  have key : ∀ x v, SettledFrom s (s.drawn.setXreg x v) := fun x v =>
    have h := settledFrom_setXreg s.drawn x v
    ⟨h.1, h.2, h.3, h.4, h.5, h.6, h.7, h.8, h.9, h.10, h.11, h.12, h.13, h.14⟩
  have same : SettledFrom s s.drawn := by constructor <;> rfl
  have sr : ∀ r, SettledFrom s (s.drawn.setSr r) := fun r => by constructor <;> rfl
  rcases u with ⟨x, v⟩ | ⟨x, n⟩ | ⟨_ | w⟩
  · show SettledFrom s (if Config.freeBit s.draws then s.drawn.setXreg x v else s.drawn)
    by_cases h : Config.freeBit s.draws = true
    · rw [if_pos h]
      exact key x v
    · rw [if_neg h]
      exact same
  · exact key _ _
  · exact sr _
  · show SettledFrom s (if Config.freeBit s.draws then s.drawn.setSr (Sr.ofWord w) else s.drawn)
    by_cases h : Config.freeBit s.draws = true
    · rw [if_pos h]
      exact sr _
    · rw [if_neg h]
      exact same

theorem settledFrom_settle (items : Alt) (s : State) : SettledFrom s (settle items s) := by
  induction items generalizing s with
  | nil => constructor <;> rfl
  | cons u items ih =>
    have h := settledFrom_settleItem s u
    have k := ih (settleItem s u)
    exact ⟨k.1.trans h.1, k.2.trans h.2, k.3.trans h.3, k.4.trans h.4, k.5.trans h.5, k.6.trans h.6, k.7.trans h.7,
      k.8.trans h.8, k.9.trans h.9, k.10.trans h.10, k.11.trans h.11, k.12.trans h.12, k.13.trans h.13,
      k.14.trans h.14⟩

/-! ### External reset -/

/-- The two reads of a long word, the high-order word first, on a platform that answers (20_memory.md R72). -/
theorem readHighFirst_quiet {s : State} (h : s.platform = .plain) (fc : BitVec 3) (a : Long) (alt : Alt) :
    readHighFirst fc a alt s = .ok (s.longAt a) (s.afterRead .l fc a) := by
  have h' : ∀ e, (s.record e).platform = .plain := fun e => h
  have hw : ∀ e b, (s.record e).wordAt b = s.wordAt b := fun e b => wordAt_congr rfl b
  simp [readHighFirst, readWordCycle_quiet h, readWordCycle_quiet (h' _), State.longAt, State.afterRead, hw]

/-- Everything an external reset leaves on a platform that answers (70_reset_and_hazards.md R420). -/
theorem resetException_quiet {s : State} (h : s.platform = .plain) :
    resetException s =
      { ((({ s.resetBegun.afterRead .l 6 0 with ssp := s.longAt 0 } : State).afterRead .l 6 4)) with
        pc := s.longAt 4, run := .normal } := by
  have h1 : s.resetBegun.platform = .plain := by rw [resetBegun_platform, h]; rfl
  have h2 : ({ s.resetBegun.afterRead .l 6 0 with ssp := s.longAt 0 } : State).platform = .plain := by simpa using h1
  have l0 : s.resetBegun.longAt 0 = s.longAt 0 := longAt_congr rfl 0
  have l4 : ({ s.resetBegun.afterRead .l 6 0 with ssp := s.longAt 0 } : State).longAt 4 = s.longAt 4 :=
    longAt_congr (by simp) 4
  simp only [resetException, loadResetVector, bind_apply, readHighFirst_quiet h1, l0, modify_apply,
    readHighFirst_quiet h2, l4]

/-! ### The instruction at `PC` -/

/-- The fetch of the operation word, which begins a step's record of bus cycles (60_exceptions.md R362, R405). -/
theorem fetchOperation_ready {s : State} (h : s.ready) :
    fetchOperation ({ s with bus := [] } : State).sampled = .ok (s.wordAt s.pc) s.begun := by
  have h' : ({ s with bus := [] } : State).sampled.ready := h
  simp only [fetchOperation, bind_apply, fetchWord_ready h', modify_apply, pure_apply]
  rfl

/-- On a platform that answers, the instruction that runs is the one the words in memory decode to (60_exceptions.md
R362). -/
theorem instructionStep_ready {s : State} (h : s.ready) :
    instructionStep ({ s with bus := [] } : State).sampled =
      runWords (s.wordAt s.pc) (s.begun.wordsAt (s.pc + 2) 4) s.begun := by
  have hp : s.begun.platform = .plain := h.1
  simp only [instructionStep, fetchOperation_ready h, hp, if_true, runFetched]
  rfl

end Sys2Proof.Machine
end

