-- ==== Sys2Proof/Laws/Patterns.lean ====
section
/-! SUPPORT. The operand patterns that instructions share, on a platform that answers every bus cycle: everything each
leaves. -/

namespace Sys2Proof.Machine

/-! ### Operands and `PC` -/

/-- The address of an operand that is not relative to `PC` does not depend on `PC`. -/
theorem effectiveAddress_fetched (s : State) (n : Nat) {ea : Ea} (h : ea.isAlterable = true) (sz : Size) :
    (s.fetched n).effectiveAddress ea sz = s.effectiveAddress ea sz := by
  cases ea <;> simp_all [State.effectiveAddress, Ea.isAlterable, State.indexValue]

theorem operand_fetched (s : State) (n : Nat) {ea : Ea} (h : ea.isAlterable = true) (sz : Size) :
    (s.fetched n).operand ea sz = s.operand ea sz := by
  cases ea <;> simp_all [State.operand, Ea.isAlterable, State.effectiveAddress, State.indexValue]

theorem operandAligned_fetched (s : State) (n : Nat) {ea : Ea} (h : ea.isAlterable = true) (sz : Size) :
    (s.fetched n).operandAligned ea sz = s.operandAligned ea sz := by
  simp [State.operandAligned, effectiveAddress_fetched s n h]

theorem operandWritten_fetched {s t : State} {n : Nat} {ea : Ea} (h : ea.isAlterable = true) {sz : Size}
    {v : BitVec sz.bits} (hw : (s.fetched n).operandWritten t ea sz v) : s.operandWritten t ea sz v := by
  obtain ⟨hA, hB⟩ := hw
  have hs : (s.stepAddress ea sz).sameAddress ((s.fetched n).stepAddress ea sz) :=
    stepAddress_congr ⟨by simp, by simp, by simp⟩ (by simp) ea sz
  refine ⟨⟨hA.1.trans hs.1, hA.2.1.trans hs.2.1, hA.2.2.trans hs.2.2⟩, ?_⟩
  have he := effectiveAddress_fetched s n h sz
  cases ea <;>
    simp only [State.sameDataBut, State.sameMemory, State.sameMemoryBut, fetched_d, fetched_dreg, fetched_mem, he]
      at hB ⊢ <;> exact hB

/-! ### Patterns -/

/-- `<ea>,Dn` with a result: everything it leaves (41_integer_arithmetic.md R183). -/
theorem eaToDn_ready {s : State} (h : s.ready) {ea : Ea} {sz : Size} (ha : s.operandAligned ea sz = true) (dn : Reg)
    (op : Binary sz.bits) :
    ∃ t, eaToDn sz ea dn op s = .ok () t ∧
      (s.stepAddress ea sz).onlyData t dn
        (setLow (s.dreg dn) (op (s.operand ea sz) ((s.dreg dn).setWidth sz.bits) s.sr).1)
        (op (s.operand ea sz) ((s.dreg dn).setWidth sz.bits) s.sr).2
        (s.pc + BitVec.ofNat 32 (2 * ea.words.length)) := by
  have hA := operandRead_sameAddress s ea sz
  simp only [eaToDn, bind_apply, readEa_ready h ha, modify_apply]
  refine ⟨_, rfl, ?_, ?_, ?_, ?_, ?_, ?_, ?_, ?_⟩
  · simp [State.setDregLow]
  · intro m hm
    simp only [State.setDregLow]
    rw [dreg_congr (setSr_d _ _), dreg_setDreg_of_ne _ hm]
    simp
  · simp
  · simp [State.setDregLow]
  · exact ⟨by simpa [State.setDregLow] using hA.1, by simpa [State.setDregLow] using hA.2.1,
      by simpa [State.setDregLow] using hA.2.2⟩
  · intro x
    simp [State.setDregLow]
  · simp [State.sameSystem, State.setDregLow]
  · simp [State.setDregLow]

/-- `<ea>,An`: everything it leaves (10_state.md R24). -/
theorem eaToAn_ready {s : State} (h : s.ready) {ea : Ea} {sz : WideSize}
    (ha : s.operandAligned ea sz.toSize = true) (an : Reg) (op : Long → Long → Long) :
    ∃ t, eaToAn sz ea an op s = .ok () t ∧
      (s.stepAddress ea sz.toSize).onlyAddress t an
        (op ((s.operand ea sz.toSize).signExtend 32) ((s.stepAddress ea sz.toSize).areg an))
        (s.pc + BitVec.ofNat 32 (2 * ea.words.length)) := by
  have hA := operandRead_sameAddress s ea sz.toSize
  have hr := operandRead_areg s ea sz.toSize
  simp only [eaToAn, bind_apply, readEa_ready h ha, modify_apply]
  refine ⟨_, rfl, ?_, ⟨fun m hm => ?_, fun hs => ?_, fun hs => ?_⟩, ?_, ?_, ?_, ?_, ?_, ?_⟩
  · simp [hr]
  · rw [areg_setAreg_of_ne _ hm, hr]
  · have := (setAreg_sameAddressBut (s.operandRead ea sz.toSize) an
      (op ((s.operand ea sz.toSize).signExtend 32) ((s.operandRead ea sz.toSize).areg an))).2.1 (by simpa using hs)
    exact this.trans hA.2.1
  · have := (setAreg_sameAddressBut (s.operandRead ea sz.toSize) an
      (op ((s.operand ea sz.toSize).signExtend 32) ((s.operandRead ea sz.toSize).areg an))).2.2 (by simpa using hs)
    exact this.trans hA.2.2
  · simp
  · simp
  · simp
  · intro x
    simp
  · simp [State.sameSystem]
  · simp

/-- A destination read, computed on and written back, by shape (30_encoding.md R110). -/
theorem modifyEa_onlyOperand {s : State} (h : s.ready) {ea : Ea} {sz : Size} (ha : s.operandAligned ea sz = true)
    (hea : ea.isDataAlterable = true) (op : Unary sz.bits) :
    ∃ t, modifyEa sz ea op s = .ok () t ∧
      s.onlyOperand t ea sz (op (s.operand ea sz) s.sr).1 (op (s.operand ea sz) s.sr).2
        (s.pc + BitVec.ofNat 32 (2 * ea.words.length)) := by
  obtain ⟨t, ht, h1, h2, h3, h4, h5⟩ := modifyEa_ready h ha hea op
  exact ⟨t, ht, h1, h2, h3, h4, h5⟩

/-- A destination written back after the condition codes, by shape (43_shift_rotate.md R250, 44_bit_manipulation.md
R274). -/
theorem modifyEaCodesFirst_onlyOperand {s : State} (h : s.ready) {ea : Ea} {sz : Size}
    (ha : s.operandAligned ea sz = true) (hea : ea.isDataAlterable = true) (op : Unary sz.bits) :
    ∃ t, modifyEaCodesFirst sz ea op s = .ok () t ∧
      s.onlyOperand t ea sz (op (s.operand ea sz) s.sr).1 (op (s.operand ea sz) s.sr).2
        (s.pc + BitVec.ofNat 32 (2 * ea.words.length)) := by
  obtain ⟨t, ht, h1, h2, h3, h4, h5⟩ := modifyEaCodesFirst_ready h ha hea op
  exact ⟨t, ht, h1, h2, h3, h4, h5⟩

/-- `Dn,<ea>`: everything it leaves (41_integer_arithmetic.md R183). -/
theorem dnToEa_ready {s : State} (h : s.ready) {ea : Ea} {sz : Size} (ha : s.operandAligned ea sz = true)
    (hea : ea.isDataAlterable = true) (dn : Reg) (op : Binary sz.bits) :
    ∃ t, dnToEa sz dn ea op s = .ok () t ∧
      s.onlyOperand t ea sz (op ((s.dreg dn).setWidth sz.bits) (s.operand ea sz) s.sr).1
        (op ((s.dreg dn).setWidth sz.bits) (s.operand ea sz) s.sr).2
        (s.pc + BitVec.ofNat 32 (2 * ea.words.length)) := by
  simp only [dnToEa, bind_apply, get_apply]
  exact modifyEa_onlyOperand h ha hea _

/-- `#imm,<ea>`: everything it leaves (41_integer_arithmetic.md R185). -/
theorem immToEa_ready {s : State} (h : s.ready) {v : Imm} {ea : Ea} (ha : s.operandAligned ea v.size = true)
    (hea : ea.isDataAlterable = true) (op : Binary v.size.bits) :
    ∃ t, immToEa v ea op s = .ok () t ∧
      s.onlyOperand t ea v.size (op v.value (s.operand ea v.size) s.sr).1 (op v.value (s.operand ea v.size) s.sr).2
        (s.pc + BitVec.ofNat 32 (2 * (v.words.length + ea.words.length))) := by
  have hal : ea.isAlterable = true := by simp_all [Ea.isDataAlterable]
  obtain ⟨t, ht, h1, h2, h3, h4, h5⟩ := modifyEa_onlyOperand (ready_fetched h v.words.length)
    (by rw [operandAligned_fetched s _ hal]; exact ha) hea fun d sr => op v.value d sr
  simp only [immToEa, bind_apply, fetchWords_ready h]
  rw [operand_fetched s _ hal] at h1 h2
  refine ⟨t, ht, operandWritten_fetched hal (by simpa using h1), by simpa using h2, ?_, ?_, by simpa using h5⟩
  · rw [h3, fetched_pc, BitVec.add_assoc, ← BitVec.ofNat_add, Nat.mul_add]
  · simpa [State.sameSystem] using h4

end Sys2Proof.Machine
end

