-- ==== Sys2Proof/Laws/PerInstr.lean ====
section
/-! SUPPORT. What holds of every instruction as syntax, one lemma per constructor: an instruction has one to five words
(30_encoding.md R100). -/

namespace Sys2Proof.Laws.EncodeLength

/-- An instruction is encoded in one to five words (30_encoding.md R100). -/
def Statement (i : Instr) : Prop := 1 ≤ (encode i).length ∧ (encode i).length ≤ 5

/-- The extension words of an effective address are at most two (30_encoding.md R101). -/
theorem ea_words_le (ea : Ea) : ea.words.length ≤ 2 := by
  cases ea <;> simp [Ea.words]
  case imm v => cases v <;> simp [Imm.words]

theorem imm_words_le (v : Imm) : v.words.length ≤ 2 := by
  cases v <;> simp [Imm.words]

theorem branch_words_le (d : BranchDisp) : d.words.length ≤ 1 := by
  cases d <;> simp [BranchDisp.words]

/-- The words of an instruction are its operation word, its own words and the extension words. -/
theorem length_encode (i : Instr) :
    (encode i).length = 1 + (i.ownWords.length + (i.eas.map fun ea => ea.words.length).sum) := by
  simp [encode, List.length_flatMap, Nat.add_comm]

/-- Few own words and few extension words make at most five words. -/
theorem statement_of {i : Instr} (h : i.ownWords.length + (i.eas.map fun ea => ea.words.length).sum ≤ 4) :
    Statement i := by
  unfold Statement
  rw [length_encode]
  omega

theorem oriToCcr (v : Byte) : Statement (.oriToCcr v) := statement_of (show 1 + 0 ≤ 4 by decide)
theorem oriToSr (v : Word) : Statement (.oriToSr v) := statement_of (show 1 + 0 ≤ 4 by decide)
theorem ori (v : Imm) (ea : Ea) : Statement (.ori v ea) := by
  have h0 := ea_words_le ea
  have h1 := imm_words_le v
  exact statement_of (show v.words.length + (ea.words.length + 0) ≤ 4 by omega)
theorem andiToCcr (v : Byte) : Statement (.andiToCcr v) := statement_of (show 1 + 0 ≤ 4 by decide)
theorem andiToSr (v : Word) : Statement (.andiToSr v) := statement_of (show 1 + 0 ≤ 4 by decide)
theorem andi (v : Imm) (ea : Ea) : Statement (.andi v ea) := by
  have h0 := ea_words_le ea
  have h1 := imm_words_le v
  exact statement_of (show v.words.length + (ea.words.length + 0) ≤ 4 by omega)
theorem eoriToCcr (v : Byte) : Statement (.eoriToCcr v) := statement_of (show 1 + 0 ≤ 4 by decide)
theorem eoriToSr (v : Word) : Statement (.eoriToSr v) := statement_of (show 1 + 0 ≤ 4 by decide)
theorem eori (v : Imm) (ea : Ea) : Statement (.eori v ea) := by
  have h0 := ea_words_le ea
  have h1 := imm_words_le v
  exact statement_of (show v.words.length + (ea.words.length + 0) ≤ 4 by omega)
theorem subi (v : Imm) (ea : Ea) : Statement (.subi v ea) := by
  have h0 := ea_words_le ea
  have h1 := imm_words_le v
  exact statement_of (show v.words.length + (ea.words.length + 0) ≤ 4 by omega)
theorem addi (v : Imm) (ea : Ea) : Statement (.addi v ea) := by
  have h0 := ea_words_le ea
  have h1 := imm_words_le v
  exact statement_of (show v.words.length + (ea.words.length + 0) ≤ 4 by omega)
theorem cmpi (v : Imm) (ea : Ea) : Statement (.cmpi v ea) := by
  have h0 := ea_words_le ea
  have h1 := imm_words_le v
  exact statement_of (show v.words.length + (ea.words.length + 0) ≤ 4 by omega)
theorem btstStatic (bit : Byte) (ea : Ea) : Statement (.btstStatic bit ea) := by
  have h0 := ea_words_le ea
  exact statement_of (show 1 + (ea.words.length + 0) ≤ 4 by omega)
theorem btstDynamic (dn : Reg) (ea : Ea) : Statement (.btstDynamic dn ea) := by
  have h0 := ea_words_le ea
  exact statement_of (show 0 + (ea.words.length + 0) ≤ 4 by omega)
theorem bchgStatic (bit : Byte) (ea : Ea) : Statement (.bchgStatic bit ea) := by
  have h0 := ea_words_le ea
  exact statement_of (show 1 + (ea.words.length + 0) ≤ 4 by omega)
theorem bchgDynamic (dn : Reg) (ea : Ea) : Statement (.bchgDynamic dn ea) := by
  have h0 := ea_words_le ea
  exact statement_of (show 0 + (ea.words.length + 0) ≤ 4 by omega)
theorem bclrStatic (bit : Byte) (ea : Ea) : Statement (.bclrStatic bit ea) := by
  have h0 := ea_words_le ea
  exact statement_of (show 1 + (ea.words.length + 0) ≤ 4 by omega)
theorem bclrDynamic (dn : Reg) (ea : Ea) : Statement (.bclrDynamic dn ea) := by
  have h0 := ea_words_le ea
  exact statement_of (show 0 + (ea.words.length + 0) ≤ 4 by omega)
theorem bsetStatic (bit : Byte) (ea : Ea) : Statement (.bsetStatic bit ea) := by
  have h0 := ea_words_le ea
  exact statement_of (show 1 + (ea.words.length + 0) ≤ 4 by omega)
theorem bsetDynamic (dn : Reg) (ea : Ea) : Statement (.bsetDynamic dn ea) := by
  have h0 := ea_words_le ea
  exact statement_of (show 0 + (ea.words.length + 0) ≤ 4 by omega)
theorem movepToRegW (d : Word) (ay : Reg) (dx : Reg) : Statement (.movepToRegW d ay dx) := statement_of (show 1 + 0 ≤ 4 by decide)
theorem movepToRegL (d : Word) (ay : Reg) (dx : Reg) : Statement (.movepToRegL d ay dx) := statement_of (show 1 + 0 ≤ 4 by decide)
theorem movepToMemW (dx : Reg) (d : Word) (ay : Reg) : Statement (.movepToMemW dx d ay) := statement_of (show 1 + 0 ≤ 4 by decide)
theorem movepToMemL (dx : Reg) (d : Word) (ay : Reg) : Statement (.movepToMemL dx d ay) := statement_of (show 1 + 0 ≤ 4 by decide)
theorem moveB (src dst : Ea) : Statement (.moveB src dst) := by
  have h0 := ea_words_le src
  have h1 := ea_words_le dst
  exact statement_of (show 0 + (src.words.length + (dst.words.length + 0)) ≤ 4 by omega)
theorem moveW (src dst : Ea) : Statement (.moveW src dst) := by
  have h0 := ea_words_le src
  have h1 := ea_words_le dst
  exact statement_of (show 0 + (src.words.length + (dst.words.length + 0)) ≤ 4 by omega)
theorem moveaW (src : Ea) (an : Reg) : Statement (.moveaW src an) := by
  have h0 := ea_words_le src
  exact statement_of (show 0 + (src.words.length + 0) ≤ 4 by omega)
theorem moveL (src dst : Ea) : Statement (.moveL src dst) := by
  have h0 := ea_words_le src
  have h1 := ea_words_le dst
  exact statement_of (show 0 + (src.words.length + (dst.words.length + 0)) ≤ 4 by omega)
theorem moveaL (src : Ea) (an : Reg) : Statement (.moveaL src an) := by
  have h0 := ea_words_le src
  exact statement_of (show 0 + (src.words.length + 0) ≤ 4 by omega)
theorem negx (sz : Size) (ea : Ea) : Statement (.negx sz ea) := by
  have h0 := ea_words_le ea
  exact statement_of (show 0 + (ea.words.length + 0) ≤ 4 by omega)
theorem moveFromSr (ea : Ea) : Statement (.moveFromSr ea) := by
  have h0 := ea_words_le ea
  exact statement_of (show 0 + (ea.words.length + 0) ≤ 4 by omega)
theorem chk (ea : Ea) (dn : Reg) : Statement (.chk ea dn) := by
  have h0 := ea_words_le ea
  exact statement_of (show 0 + (ea.words.length + 0) ≤ 4 by omega)
theorem lea (ea : Ea) (an : Reg) : Statement (.lea ea an) := by
  have h0 := ea_words_le ea
  exact statement_of (show 0 + (ea.words.length + 0) ≤ 4 by omega)
theorem clr (sz : Size) (ea : Ea) : Statement (.clr sz ea) := by
  have h0 := ea_words_le ea
  exact statement_of (show 0 + (ea.words.length + 0) ≤ 4 by omega)
theorem neg (sz : Size) (ea : Ea) : Statement (.neg sz ea) := by
  have h0 := ea_words_le ea
  exact statement_of (show 0 + (ea.words.length + 0) ≤ 4 by omega)
theorem moveToCcr (ea : Ea) : Statement (.moveToCcr ea) := by
  have h0 := ea_words_le ea
  exact statement_of (show 0 + (ea.words.length + 0) ≤ 4 by omega)
theorem notEa (sz : Size) (ea : Ea) : Statement (.notEa sz ea) := by
  have h0 := ea_words_le ea
  exact statement_of (show 0 + (ea.words.length + 0) ≤ 4 by omega)
theorem moveToSr (ea : Ea) : Statement (.moveToSr ea) := by
  have h0 := ea_words_le ea
  exact statement_of (show 0 + (ea.words.length + 0) ≤ 4 by omega)
theorem nbcd (ea : Ea) : Statement (.nbcd ea) := by
  have h0 := ea_words_le ea
  exact statement_of (show 0 + (ea.words.length + 0) ≤ 4 by omega)
theorem swap (dn : Reg) : Statement (.swap dn) := statement_of (show 0 + 0 ≤ 4 by decide)
theorem pea (ea : Ea) : Statement (.pea ea) := by
  have h0 := ea_words_le ea
  exact statement_of (show 0 + (ea.words.length + 0) ≤ 4 by omega)
theorem extW (dn : Reg) : Statement (.extW dn) := statement_of (show 0 + 0 ≤ 4 by decide)
theorem extL (dn : Reg) : Statement (.extL dn) := statement_of (show 0 + 0 ≤ 4 by decide)
theorem movemToMem (sz : WideSize) (mask : Word) (ea : Ea) : Statement (.movemToMem sz mask ea) := by
  have h0 := ea_words_le ea
  exact statement_of (show 1 + (ea.words.length + 0) ≤ 4 by omega)
theorem tst (sz : Size) (ea : Ea) : Statement (.tst sz ea) := by
  have h0 := ea_words_le ea
  exact statement_of (show 0 + (ea.words.length + 0) ≤ 4 by omega)
theorem tas (ea : Ea) : Statement (.tas ea) := by
  have h0 := ea_words_le ea
  exact statement_of (show 0 + (ea.words.length + 0) ≤ 4 by omega)
theorem illegal : Statement .illegal := statement_of (show 0 + 0 ≤ 4 by decide)
theorem illegal4AFA : Statement .illegal4AFA := statement_of (show 0 + 0 ≤ 4 by decide)
theorem illegal4AFB : Statement .illegal4AFB := statement_of (show 0 + 0 ≤ 4 by decide)
theorem movemToReg (sz : WideSize) (mask : Word) (ea : Ea) : Statement (.movemToReg sz mask ea) := by
  have h0 := ea_words_le ea
  exact statement_of (show 1 + (ea.words.length + 0) ≤ 4 by omega)
theorem trap (v : Fin 16) : Statement (.trap v) := statement_of (show 0 + 0 ≤ 4 by decide)
theorem link (an : Reg) (d : Word) : Statement (.link an d) := statement_of (show 1 + 0 ≤ 4 by decide)
theorem unlk (an : Reg) : Statement (.unlk an) := statement_of (show 0 + 0 ≤ 4 by decide)
theorem moveToUsp (an : Reg) : Statement (.moveToUsp an) := statement_of (show 0 + 0 ≤ 4 by decide)
theorem moveFromUsp (an : Reg) : Statement (.moveFromUsp an) := statement_of (show 0 + 0 ≤ 4 by decide)
theorem reset : Statement .reset := statement_of (show 0 + 0 ≤ 4 by decide)
theorem nop : Statement .nop := statement_of (show 0 + 0 ≤ 4 by decide)
theorem stop (v : Word) : Statement (.stop v) := statement_of (show 1 + 0 ≤ 4 by decide)
theorem rte : Statement .rte := statement_of (show 0 + 0 ≤ 4 by decide)
theorem rts : Statement .rts := statement_of (show 0 + 0 ≤ 4 by decide)
theorem trapv : Statement .trapv := statement_of (show 0 + 0 ≤ 4 by decide)
theorem rtr : Statement .rtr := statement_of (show 0 + 0 ≤ 4 by decide)
theorem jsr (ea : Ea) : Statement (.jsr ea) := by
  have h0 := ea_words_le ea
  exact statement_of (show 0 + (ea.words.length + 0) ≤ 4 by omega)
theorem jmp (ea : Ea) : Statement (.jmp ea) := by
  have h0 := ea_words_le ea
  exact statement_of (show 0 + (ea.words.length + 0) ≤ 4 by omega)
theorem addq (q : Fin 8) (sz : Size) (ea : Ea) : Statement (.addq q sz ea) := by
  have h0 := ea_words_le ea
  exact statement_of (show 0 + (ea.words.length + 0) ≤ 4 by omega)
theorem subq (q : Fin 8) (sz : Size) (ea : Ea) : Statement (.subq q sz ea) := by
  have h0 := ea_words_le ea
  exact statement_of (show 0 + (ea.words.length + 0) ≤ 4 by omega)
theorem scc (c : Cond) (ea : Ea) : Statement (.scc c ea) := by
  have h0 := ea_words_le ea
  exact statement_of (show 0 + (ea.words.length + 0) ≤ 4 by omega)
theorem dbcc (c : Cond) (dn : Reg) (d : Word) : Statement (.dbcc c dn d) := statement_of (show 1 + 0 ≤ 4 by decide)
theorem bra (d : BranchDisp) : Statement (.bra d) := by
  have h0 := branch_words_le d
  exact statement_of (show d.words.length + 0 ≤ 4 by omega)
theorem bsr (d : BranchDisp) : Statement (.bsr d) := by
  have h0 := branch_words_le d
  exact statement_of (show d.words.length + 0 ≤ 4 by omega)
theorem bcc (c : Cond) (d : BranchDisp) : Statement (.bcc c d) := by
  have h0 := branch_words_le d
  exact statement_of (show d.words.length + 0 ≤ 4 by omega)
theorem moveq (v : Byte) (dn : Reg) : Statement (.moveq v dn) := statement_of (show 0 + 0 ≤ 4 by decide)
theorem orToDn (sz : Size) (ea : Ea) (dn : Reg) : Statement (.orToDn sz ea dn) := by
  have h0 := ea_words_le ea
  exact statement_of (show 0 + (ea.words.length + 0) ≤ 4 by omega)
theorem orToMem (sz : Size) (dn : Reg) (ea : Ea) : Statement (.orToMem sz dn ea) := by
  have h0 := ea_words_le ea
  exact statement_of (show 0 + (ea.words.length + 0) ≤ 4 by omega)
theorem divu (ea : Ea) (dn : Reg) : Statement (.divu ea dn) := by
  have h0 := ea_words_le ea
  exact statement_of (show 0 + (ea.words.length + 0) ≤ 4 by omega)
theorem divs (ea : Ea) (dn : Reg) : Statement (.divs ea dn) := by
  have h0 := ea_words_le ea
  exact statement_of (show 0 + (ea.words.length + 0) ≤ 4 by omega)
theorem sbcdReg (dy dx : Reg) : Statement (.sbcdReg dy dx) := statement_of (show 0 + 0 ≤ 4 by decide)
theorem sbcdMem (ay ax : Reg) : Statement (.sbcdMem ay ax) := statement_of (show 0 + 0 ≤ 4 by decide)
theorem subToDn (sz : Size) (ea : Ea) (dn : Reg) : Statement (.subToDn sz ea dn) := by
  have h0 := ea_words_le ea
  exact statement_of (show 0 + (ea.words.length + 0) ≤ 4 by omega)
theorem subToMem (sz : Size) (dn : Reg) (ea : Ea) : Statement (.subToMem sz dn ea) := by
  have h0 := ea_words_le ea
  exact statement_of (show 0 + (ea.words.length + 0) ≤ 4 by omega)
theorem subaW (ea : Ea) (an : Reg) : Statement (.subaW ea an) := by
  have h0 := ea_words_le ea
  exact statement_of (show 0 + (ea.words.length + 0) ≤ 4 by omega)
theorem subaL (ea : Ea) (an : Reg) : Statement (.subaL ea an) := by
  have h0 := ea_words_le ea
  exact statement_of (show 0 + (ea.words.length + 0) ≤ 4 by omega)
theorem subxReg (sz : Size) (dy dx : Reg) : Statement (.subxReg sz dy dx) := statement_of (show 0 + 0 ≤ 4 by decide)
theorem subxMem (sz : Size) (ay ax : Reg) : Statement (.subxMem sz ay ax) := statement_of (show 0 + 0 ≤ 4 by decide)
theorem lineA (w : BitVec 12) : Statement (.lineA w) := statement_of (show 0 + 0 ≤ 4 by decide)
theorem cmp (sz : Size) (ea : Ea) (dn : Reg) : Statement (.cmp sz ea dn) := by
  have h0 := ea_words_le ea
  exact statement_of (show 0 + (ea.words.length + 0) ≤ 4 by omega)
theorem cmpaW (ea : Ea) (an : Reg) : Statement (.cmpaW ea an) := by
  have h0 := ea_words_le ea
  exact statement_of (show 0 + (ea.words.length + 0) ≤ 4 by omega)
theorem cmpaL (ea : Ea) (an : Reg) : Statement (.cmpaL ea an) := by
  have h0 := ea_words_le ea
  exact statement_of (show 0 + (ea.words.length + 0) ≤ 4 by omega)
theorem cmpm (sz : Size) (ay ax : Reg) : Statement (.cmpm sz ay ax) := statement_of (show 0 + 0 ≤ 4 by decide)
theorem eor (sz : Size) (dn : Reg) (ea : Ea) : Statement (.eor sz dn ea) := by
  have h0 := ea_words_le ea
  exact statement_of (show 0 + (ea.words.length + 0) ≤ 4 by omega)
theorem andToDn (sz : Size) (ea : Ea) (dn : Reg) : Statement (.andToDn sz ea dn) := by
  have h0 := ea_words_le ea
  exact statement_of (show 0 + (ea.words.length + 0) ≤ 4 by omega)
theorem andToMem (sz : Size) (dn : Reg) (ea : Ea) : Statement (.andToMem sz dn ea) := by
  have h0 := ea_words_le ea
  exact statement_of (show 0 + (ea.words.length + 0) ≤ 4 by omega)
theorem mulu (ea : Ea) (dn : Reg) : Statement (.mulu ea dn) := by
  have h0 := ea_words_le ea
  exact statement_of (show 0 + (ea.words.length + 0) ≤ 4 by omega)
theorem muls (ea : Ea) (dn : Reg) : Statement (.muls ea dn) := by
  have h0 := ea_words_le ea
  exact statement_of (show 0 + (ea.words.length + 0) ≤ 4 by omega)
theorem abcdReg (dy dx : Reg) : Statement (.abcdReg dy dx) := statement_of (show 0 + 0 ≤ 4 by decide)
theorem abcdMem (ay ax : Reg) : Statement (.abcdMem ay ax) := statement_of (show 0 + 0 ≤ 4 by decide)
theorem exgDD (dx dy : Reg) : Statement (.exgDD dx dy) := statement_of (show 0 + 0 ≤ 4 by decide)
theorem exgAA (ax ay : Reg) : Statement (.exgAA ax ay) := statement_of (show 0 + 0 ≤ 4 by decide)
theorem exgDA (dx ay : Reg) : Statement (.exgDA dx ay) := statement_of (show 0 + 0 ≤ 4 by decide)
theorem addToDn (sz : Size) (ea : Ea) (dn : Reg) : Statement (.addToDn sz ea dn) := by
  have h0 := ea_words_le ea
  exact statement_of (show 0 + (ea.words.length + 0) ≤ 4 by omega)
theorem addToMem (sz : Size) (dn : Reg) (ea : Ea) : Statement (.addToMem sz dn ea) := by
  have h0 := ea_words_le ea
  exact statement_of (show 0 + (ea.words.length + 0) ≤ 4 by omega)
theorem addaW (ea : Ea) (an : Reg) : Statement (.addaW ea an) := by
  have h0 := ea_words_le ea
  exact statement_of (show 0 + (ea.words.length + 0) ≤ 4 by omega)
theorem addaL (ea : Ea) (an : Reg) : Statement (.addaL ea an) := by
  have h0 := ea_words_le ea
  exact statement_of (show 0 + (ea.words.length + 0) ≤ 4 by omega)
theorem addxReg (sz : Size) (dy dx : Reg) : Statement (.addxReg sz dy dx) := statement_of (show 0 + 0 ≤ 4 by decide)
theorem addxMem (sz : Size) (ay ax : Reg) : Statement (.addxMem sz ay ax) := statement_of (show 0 + 0 ≤ 4 by decide)
theorem asrMem (ea : Ea) : Statement (.asrMem ea) := by
  have h0 := ea_words_le ea
  exact statement_of (show 0 + (ea.words.length + 0) ≤ 4 by omega)
theorem asrImm (n : Fin 8) (sz : Size) (dy : Reg) : Statement (.asrImm n sz dy) := statement_of (show 0 + 0 ≤ 4 by decide)
theorem asrReg (dx : Reg) (sz : Size) (dy : Reg) : Statement (.asrReg dx sz dy) := statement_of (show 0 + 0 ≤ 4 by decide)
theorem aslMem (ea : Ea) : Statement (.aslMem ea) := by
  have h0 := ea_words_le ea
  exact statement_of (show 0 + (ea.words.length + 0) ≤ 4 by omega)
theorem aslImm (n : Fin 8) (sz : Size) (dy : Reg) : Statement (.aslImm n sz dy) := statement_of (show 0 + 0 ≤ 4 by decide)
theorem aslReg (dx : Reg) (sz : Size) (dy : Reg) : Statement (.aslReg dx sz dy) := statement_of (show 0 + 0 ≤ 4 by decide)
theorem lsrMem (ea : Ea) : Statement (.lsrMem ea) := by
  have h0 := ea_words_le ea
  exact statement_of (show 0 + (ea.words.length + 0) ≤ 4 by omega)
theorem lsrImm (n : Fin 8) (sz : Size) (dy : Reg) : Statement (.lsrImm n sz dy) := statement_of (show 0 + 0 ≤ 4 by decide)
theorem lsrReg (dx : Reg) (sz : Size) (dy : Reg) : Statement (.lsrReg dx sz dy) := statement_of (show 0 + 0 ≤ 4 by decide)
theorem lslMem (ea : Ea) : Statement (.lslMem ea) := by
  have h0 := ea_words_le ea
  exact statement_of (show 0 + (ea.words.length + 0) ≤ 4 by omega)
theorem lslImm (n : Fin 8) (sz : Size) (dy : Reg) : Statement (.lslImm n sz dy) := statement_of (show 0 + 0 ≤ 4 by decide)
theorem lslReg (dx : Reg) (sz : Size) (dy : Reg) : Statement (.lslReg dx sz dy) := statement_of (show 0 + 0 ≤ 4 by decide)
theorem roxrMem (ea : Ea) : Statement (.roxrMem ea) := by
  have h0 := ea_words_le ea
  exact statement_of (show 0 + (ea.words.length + 0) ≤ 4 by omega)
theorem roxrImm (n : Fin 8) (sz : Size) (dy : Reg) : Statement (.roxrImm n sz dy) := statement_of (show 0 + 0 ≤ 4 by decide)
theorem roxrReg (dx : Reg) (sz : Size) (dy : Reg) : Statement (.roxrReg dx sz dy) := statement_of (show 0 + 0 ≤ 4 by decide)
theorem roxlMem (ea : Ea) : Statement (.roxlMem ea) := by
  have h0 := ea_words_le ea
  exact statement_of (show 0 + (ea.words.length + 0) ≤ 4 by omega)
theorem roxlImm (n : Fin 8) (sz : Size) (dy : Reg) : Statement (.roxlImm n sz dy) := statement_of (show 0 + 0 ≤ 4 by decide)
theorem roxlReg (dx : Reg) (sz : Size) (dy : Reg) : Statement (.roxlReg dx sz dy) := statement_of (show 0 + 0 ≤ 4 by decide)
theorem rorMem (ea : Ea) : Statement (.rorMem ea) := by
  have h0 := ea_words_le ea
  exact statement_of (show 0 + (ea.words.length + 0) ≤ 4 by omega)
theorem rorImm (n : Fin 8) (sz : Size) (dy : Reg) : Statement (.rorImm n sz dy) := statement_of (show 0 + 0 ≤ 4 by decide)
theorem rorReg (dx : Reg) (sz : Size) (dy : Reg) : Statement (.rorReg dx sz dy) := statement_of (show 0 + 0 ≤ 4 by decide)
theorem rolMem (ea : Ea) : Statement (.rolMem ea) := by
  have h0 := ea_words_le ea
  exact statement_of (show 0 + (ea.words.length + 0) ≤ 4 by omega)
theorem rolImm (n : Fin 8) (sz : Size) (dy : Reg) : Statement (.rolImm n sz dy) := statement_of (show 0 + 0 ≤ 4 by decide)
theorem rolReg (dx : Reg) (sz : Size) (dy : Reg) : Statement (.rolReg dx sz dy) := statement_of (show 0 + 0 ≤ 4 by decide)
theorem lineF (w : BitVec 12) : Statement (.lineF w) := statement_of (show 0 + 0 ≤ 4 by decide)

end Sys2Proof.Laws.EncodeLength
end

