-- ==== Sys2Proof/Tests/Slice0.lean ====
section
/-! SUPPORT. Tests: ill-formed terms refused, words written out from the encodings, one step of each instruction with the
values of spec/95_test_vectors.md (the vector's number stands at the end of the line; "hand" marks a value worked out from
the rule), and for each statement with hypotheses a witness that meets them. -/

open Sys2Proof Sys2Proof.Machine

set_option Elab.async false

namespace Sys2Proof.Tests

/-! ## Helpers -/

/-- The start of the vectors: supervisor state, `PC` at $1000, SSP at $8000 (spec/95_test_vectors.md, notation). -/
def base : State := { State.reset with xgroup := .none, pc := 0x1000, ssp := 0x8000, sr := Sr.ofWord 0x2000 }

/-- The same in user state, all condition codes set, USP at $4000. -/
def user : State := { base with sr := Sr.ofWord 0x001F, usp := 0x4000 }

/-- One step of the words at $1000, from the start changed by `before`, ends in a next state that passes `after`. -/
def runs (words : List Word) (before : State → State) (after : State → Bool) : Bool :=
  match step (before (base.storeWords 0x1000 words)) with
  | .next t => after t
  | .fault _ | .refused _ => false

/-- The instruction that all of the words are. -/
def decoded (words : List Word) : Option Instr :=
  match decode words with
  | .ok (i, []) => some i
  | .ok (_, _ :: _) | .error _ => none

/-- The outcome is a next state. -/
def completes : Host.Outcome State Fault Refusal → Bool
  | .next _ => true
  | .fault _ | .refused _ => false

/-- The next state of an outcome. -/
def after : Host.Outcome State Fault Refusal → State
  | .next t => t
  | .fault _ | .refused _ => State.reset

theorem next_after {o : Host.Outcome State Fault Refusal} (h : completes o = true) : o = .next (after o) := by
  cases o <;> simp_all [completes, after]

theorem decode_of_decoded {words : List Word} {i : Instr} (h : decoded words = some i) : decode words = .ok (i, []) := by
  unfold decoded at h
  split at h <;> simp_all

/-! ## Terms that no operation word stands for -/

/-- Each check of `Instr.wellFormed` refuses a term (30_encoding.md R120, R121, R106, R117, R127). -/
theorem test_ill_formed :
    (Instr.ori (.b 1) (.an 0)).wellFormed = false ∧ (Instr.andi (.w 1) (.pcDisp 0)).wellFormed = false ∧
    (Instr.btstStatic 0 (.imm (.b 0))).wellFormed = false ∧ (Instr.btstDynamic 0 (.an 1)).wellFormed = false ∧
    (Instr.btstDynamic 0 (.imm (.w 0))).wellFormed = false ∧ (Instr.bsetDynamic 0 (.pcDisp 0)).wellFormed = false ∧
    (Instr.moveB (.an 0) (.dn 0)).wellFormed = false ∧ (Instr.moveW (.dn 0) (.an 0)).wellFormed = false ∧
    (Instr.moveL (.imm (.w 0)) (.dn 0)).wellFormed = false ∧ (Instr.moveaW (.imm (.l 0)) 0).wellFormed = false ∧
    (Instr.clr .b (.an 0)).wellFormed = false ∧ (Instr.tst .w (.pcDisp 2)).wellFormed = false ∧
    (Instr.moveFromSr (.imm (.w 0))).wellFormed = false ∧ (Instr.chk (.an 0) 1).wellFormed = false ∧
    (Instr.lea (.post 0) 1).wellFormed = false ∧ (Instr.moveToCcr (.an 2)).wellFormed = false ∧
    (Instr.pea (.dn 0)).wellFormed = false ∧ (Instr.movemToMem .w 1 (.post 0)).wellFormed = false ∧
    (Instr.movemToReg .w 1 (.pre 0)).wellFormed = false ∧ (Instr.jmp (.imm (.w 0))).wellFormed = false ∧
    (Instr.addq 1 .b (.an 0)).wellFormed = false ∧ (Instr.subq 1 .w (.pcDisp 0)).wellFormed = false ∧
    (Instr.scc .t (.an 0)).wellFormed = false ∧ (Instr.bra (.byte 0)).wellFormed = false ∧
    (Instr.bcc .t (.word 4)).wellFormed = false ∧ (Instr.bcc .f (.byte 4)).wellFormed = false ∧
    (Instr.orToDn .w (.an 0) 0).wellFormed = false ∧ (Instr.andToMem .w 0 (.dn 0)).wellFormed = false ∧
    (Instr.divu (.an 0) 0).wellFormed = false ∧ (Instr.addToDn .b (.an 0) 0).wellFormed = false ∧
    (Instr.cmpaL (.imm (.b 0)) 0).wellFormed = false ∧ (Instr.eor .w 0 (.an 0)).wellFormed = false ∧
    (Instr.rolMem (.dn 0)).wellFormed = false := by decide +kernel

/-- A meaning refuses such a term (log 23). -/
theorem test_ill_formed_refused : exec (.lea (.post 0) 1) base = .refused .illFormed := by rfl

/-! ## Words -/

/-- Line 0000: immediate operations (30_encoding.md). -/
theorem test_decode_immediate :
    decoded [0b0000_0000_0011_1100, 0x0015] = some (.oriToCcr 0x15) ∧
    decoded [0b0000_0000_0111_1100, 0x2700] = some (.oriToSr 0x2700) ∧
    decoded [0b0000_0000_00_000_011, 0x007F] = some (.ori (.b 0x7F) (.dn 3)) ∧
    decoded [0b0000_0010_0011_1100, 0x00EF] = some (.andiToCcr 0xEF) ∧
    decoded [0b0000_0010_0111_1100, 0xDFFF] = some (.andiToSr 0xDFFF) ∧
    decoded [0b0000_0010_01_010_101, 0x0FF0] = some (.andi (.w 0x0FF0) (.ind 5)) ∧
    decoded [0b0000_1010_0011_1100, 0x0001] = some (.eoriToCcr 1) ∧
    decoded [0b0000_1010_0111_1100, 0x8000] = some (.eoriToSr 0x8000) ∧
    decoded [0b0000_1010_10_011_110, 0x1234, 0x5678] = some (.eori (.l 0x12345678) (.post 6)) ∧
    decoded [0b0000_0100_01_100_100, 0x0002] = some (.subi (.w 2) (.pre 4)) ∧
    decoded [0b0000_0110_10_101_001, 0x0001, 0x0002, 0xFFFE] = some (.addi (.l 0x00010002) (.disp 1 0xFFFE)) ∧
    decoded [0b0000_1100_00_111_000, 0x0009, 0x8000] = some (.cmpi (.b 9) (.absW 0x8000)) := by decide +kernel

/-- Line 0000: bits and MOVEP (30_encoding.md). -/
theorem test_decode_bits_and_movep :
    decoded [0b0000_1000_00_111_010, 0x0007, 0x0010] = some (.btstStatic 7 (.pcDisp 0x0010)) ∧
    decoded [0b0000_101_100_111_100, 0x0042] = some (.btstDynamic 5 (.imm (.b 0x42))) ∧
    decoded [0b0000_1000_01_000_010, 0x0003] = some (.bchgStatic 3 (.dn 2)) ∧
    decoded [0b0000_110_101_010_001] = some (.bchgDynamic 6 (.ind 1)) ∧
    decoded [0b0000_1000_10_111_001, 0x0004, 0x0012, 0x3456] = some (.bclrStatic 4 (.absL 0x00123456)) ∧
    decoded [0b0000_001_110_100_111] = some (.bclrDynamic 1 (.pre 7)) ∧
    decoded [0b0000_1000_11_010_000, 0x0007] = some (.bsetStatic 7 (.ind 0)) ∧
    decoded [0b0000_010_111_110_011, 0xC8FE] = some (.bsetDynamic 2 (.idx 3 { isAddr := true, reg := 4, long := true, disp := 0xFE })) ∧
    decoded [0b0000_001_100_001_110, 0x0012] = some (.movepToRegW 0x0012 6 1) ∧
    decoded [0b0000_001_101_001_110, 0x0012] = some (.movepToRegL 0x0012 6 1) ∧
    decoded [0b0000_010_110_001_101, 0xFFFF] = some (.movepToMemW 2 0xFFFF 5) ∧
    decoded [0b0000_010_111_001_101, 0xFFFF] = some (.movepToMemL 2 0xFFFF 5) := by decide +kernel

/-- Lines 0001 to 0011: MOVE (30_encoding.md). -/
theorem test_decode_move :
    decoded [0b0001_110_011_000_001] = some (.moveB (.dn 1) (.post 6)) ∧
    decoded [0b0001_011_100_111_011, 0x207F] = some (.moveB (.pcIdx { isAddr := false, reg := 2, long := false, disp := 0x7F }) (.pre 3)) ∧
    decoded [0b0011_001_111_111_100, 0x1234, 0x0002, 0x0004] = some (.moveW (.imm (.w 0x1234)) (.absL 0x00020004)) ∧
    decoded [0b0011_010_001_001_101] = some (.moveaW (.an 5) 2) ∧
    decoded [0b0010_100_101_111_000, 0x1000, 0x0008] = some (.moveL (.absW 0x1000) (.disp 4 0x0008)) ∧
    decoded [0b0010_111_001_010_011] = some (.moveaL (.ind 3) 7) := by decide +kernel

/-- Line 0100: operands and status register (30_encoding.md). -/
theorem test_decode_operands :
    decoded [0b0100_0000_00_000_110] = some (.negx .b (.dn 6)) ∧
    decoded [0b0100_0000_11_011_010] = some (.moveFromSr (.post 2)) ∧
    decoded [0b0100_011_110_101_001, 0x0004] = some (.chk (.disp 1 4) 3) ∧
    decoded [0b0100_110_111_111_010, 0xFFF0] = some (.lea (.pcDisp 0xFFF0) 6) ∧
    decoded [0b0100_0010_01_100_101] = some (.clr .w (.pre 5)) ∧
    decoded [0b0100_0100_10_010_100] = some (.neg .l (.ind 4)) ∧
    decoded [0b0100_0100_11_111_100, 0x001F] = some (.moveToCcr (.imm (.w 0x001F))) ∧
    decoded [0b0100_0110_01_000_111] = some (.notEa .w (.dn 7)) ∧
    decoded [0b0100_0110_11_000_001] = some (.moveToSr (.dn 1)) ∧
    decoded [0b0100_1000_00_000_101] = some (.nbcd (.dn 5)) ∧
    decoded [0b0100_1000_01_000_011] = some (.swap 3) ∧
    decoded [0b0100_1000_01_010_110] = some (.pea (.ind 6)) ∧
    decoded [0b0100_1000_10_000_010] = some (.extW 2) ∧
    decoded [0b0100_1000_11_000_010] = some (.extL 2) ∧
    decoded [0b0100_1000_10_010_011, 0x0181] = some (.movemToMem .w 0x0181 (.ind 3)) ∧
    decoded [0b0100_1000_11_100_111, 0xC080] = some (.movemToMem .l 0xC080 (.pre 7)) ∧
    decoded [0b0100_1100_11_011_111, 0x0103] = some (.movemToReg .l 0x0103 (.post 7)) ∧
    decoded [0b0100_1010_00_111_000, 0x7FFE] = some (.tst .b (.absW 0x7FFE)) ∧
    decoded [0b0100_1010_11_010_001] = some (.tas (.ind 1)) := by decide +kernel

/-- Line 0100: control (30_encoding.md). -/
theorem test_decode_control :
    decoded [0b0100_1010_1111_1100] = some (.illegal) ∧
    decoded [0b0100_1010_1111_1010] = some (.illegal4AFA) ∧
    decoded [0b0100_1010_1111_1011] = some (.illegal4AFB) ∧
    decoded [0b0100_1110_0100_1101] = some (.trap 13) ∧
    decoded [0b0100_1110_0101_0_110, 0xFFF8] = some (.link 6 0xFFF8) ∧
    decoded [0b0100_1110_0101_1_110] = some (.unlk 6) ∧
    decoded [0b0100_1110_0110_0_101] = some (.moveToUsp 5) ∧
    decoded [0b0100_1110_0110_1_101] = some (.moveFromUsp 5) ∧
    decoded [0b0100_1110_0111_0000] = some (.reset) ∧
    decoded [0b0100_1110_0111_0001] = some (.nop) ∧
    decoded [0b0100_1110_0111_0010, 0x2300] = some (.stop 0x2300) ∧
    decoded [0b0100_1110_0111_0011] = some (.rte) ∧
    decoded [0b0100_1110_0111_0101] = some (.rts) ∧
    decoded [0b0100_1110_0111_0110] = some (.trapv) ∧
    decoded [0b0100_1110_0111_0111] = some (.rtr) ∧
    decoded [0b0100_1110_10_111_001, 0x0000, 0x2000] = some (.jsr (.absL 0x00002000)) ∧
    decoded [0b0100_1110_11_010_100] = some (.jmp (.ind 4)) := by decide +kernel

/-- Lines 0101 to 0111 (30_encoding.md). -/
theorem test_decode_quick_and_branches :
    decoded [0b0101_011_0_01_001_010] = some (.addq 3 .w (.an 2)) ∧
    decoded [0b0101_000_1_10_000_001] = some (.subq 0 .l (.dn 1)) ∧
    decoded [0b0101_1010_11_000_100] = some (.scc .pl (.dn 4)) ∧
    decoded [0b0101_0001_11001_110, 0xFFFC] = some (.dbcc .f 6 0xFFFC) ∧
    decoded [0b0110_0000_1111_1110] = some (.bra (.byte 0xFE)) ∧
    decoded [0b0110_0001_0000_0000, 0x0100] = some (.bsr (.word 0x0100)) ∧
    decoded [0b0110_1111_0001_0000] = some (.bcc .le (.byte 0x10)) ∧
    decoded [0b0110_0010_0000_0000, 0x8000] = some (.bcc .hi (.word 0x8000)) ∧
    decoded [0b0111_101_0_1000_0000] = some (.moveq 0x80 5) := by decide +kernel

/-- Lines 1000 to 1011 (30_encoding.md). -/
theorem test_decode_or_sub_cmp :
    decoded [0b1000_001_0_01_010_010] = some (.orToDn .w (.ind 2) 1) ∧
    decoded [0b1000_001_1_00_010_010] = some (.orToMem .b 1 (.ind 2)) ∧
    decoded [0b1000_100_011_000_001] = some (.divu (.dn 1) 4) ∧
    decoded [0b1000_100_111_011_001] = some (.divs (.post 1) 4) ∧
    decoded [0b1000_110_100_000_001] = some (.sbcdReg 1 6) ∧
    decoded [0b1000_110_100_001_001] = some (.sbcdMem 1 6) ∧
    decoded [0b1001_010_0_10_001_011] = some (.subToDn .l (.an 3) 2) ∧
    decoded [0b1001_010_1_10_011_011] = some (.subToMem .l 2 (.post 3)) ∧
    decoded [0b1001_101_011_000_000] = some (.subaW (.dn 0) 5) ∧
    decoded [0b1001_101_111_001_001] = some (.subaL (.an 1) 5) ∧
    decoded [0b1001_011_1_01_000_100] = some (.subxReg .w 4 3) ∧
    decoded [0b1001_011_1_00_001_100] = some (.subxMem .b 4 3) ∧
    decoded [0b1010_000100100011] = some (.lineA 0x123) ∧
    decoded [0b1011_111_0_00_000_110] = some (.cmp .b (.dn 6) 7) ∧
    decoded [0b1011_001_011_010_010] = some (.cmpaW (.ind 2) 1) ∧
    decoded [0b1011_001_111_111_100, 0x0001, 0x8000] = some (.cmpaL (.imm (.l 0x00018000)) 1) ∧
    decoded [0b1011_101_1_10_001_010] = some (.cmpm .l 2 5) ∧
    decoded [0b1011_010_1_01_000_101] = some (.eor .w 2 (.dn 5)) := by decide +kernel

/-- Lines 1100, 1101 and 1111 (30_encoding.md). -/
theorem test_decode_and_add :
    decoded [0b1100_110_0_00_100_010] = some (.andToDn .b (.pre 2) 6) ∧
    decoded [0b1100_110_1_10_100_010] = some (.andToMem .l 6 (.pre 2)) ∧
    decoded [0b1100_001_011_000_011] = some (.mulu (.dn 3) 1) ∧
    decoded [0b1100_001_111_000_011] = some (.muls (.dn 3) 1) ∧
    decoded [0b1100_000_100_000_001] = some (.abcdReg 1 0) ∧
    decoded [0b1100_000_100_001_001] = some (.abcdMem 1 0) ∧
    decoded [0b1100_001_101_000_011] = some (.exgDD 1 3) ∧
    decoded [0b1100_001_101_001_011] = some (.exgAA 1 3) ∧
    decoded [0b1100_001_110_001_011] = some (.exgDA 1 3) ∧
    decoded [0b1101_000_0_01_000_001] = some (.addToDn .w (.dn 1) 0) ∧
    decoded [0b1101_000_1_01_010_001] = some (.addToMem .w 0 (.ind 1)) ∧
    decoded [0b1101_110_011_000_111] = some (.addaW (.dn 7) 6) ∧
    decoded [0b1101_110_111_000_111] = some (.addaL (.dn 7) 6) ∧
    decoded [0b1101_100_1_10_000_010] = some (.addxReg .l 2 4) ∧
    decoded [0b1101_100_1_01_001_010] = some (.addxMem .w 2 4) ∧
    decoded [0b1111_101010111100] = some (.lineF 0xABC) := by decide +kernel

/-- Line 1110: shifts and rotates (30_encoding.md). -/
theorem test_decode_shifts :
    decoded [0b1110_0000_11_010_011] = some (.asrMem (.ind 3)) ∧
    decoded [0b1110_101_0_00_000_110] = some (.asrImm 5 .b 6) ∧
    decoded [0b1110_101_0_10_100_110] = some (.asrReg 5 .l 6) ∧
    decoded [0b1110_0001_11_010_011] = some (.aslMem (.ind 3)) ∧
    decoded [0b1110_101_1_00_000_110] = some (.aslImm 5 .b 6) ∧
    decoded [0b1110_101_1_10_100_110] = some (.aslReg 5 .l 6) ∧
    decoded [0b1110_0010_11_010_011] = some (.lsrMem (.ind 3)) ∧
    decoded [0b1110_101_0_00_001_110] = some (.lsrImm 5 .b 6) ∧
    decoded [0b1110_101_0_10_101_110] = some (.lsrReg 5 .l 6) ∧
    decoded [0b1110_0011_11_010_011] = some (.lslMem (.ind 3)) ∧
    decoded [0b1110_101_1_00_001_110] = some (.lslImm 5 .b 6) ∧
    decoded [0b1110_101_1_10_101_110] = some (.lslReg 5 .l 6) ∧
    decoded [0b1110_0100_11_010_011] = some (.roxrMem (.ind 3)) ∧
    decoded [0b1110_101_0_00_010_110] = some (.roxrImm 5 .b 6) ∧
    decoded [0b1110_101_0_10_110_110] = some (.roxrReg 5 .l 6) ∧
    decoded [0b1110_0101_11_010_011] = some (.roxlMem (.ind 3)) ∧
    decoded [0b1110_101_1_00_010_110] = some (.roxlImm 5 .b 6) ∧
    decoded [0b1110_101_1_10_110_110] = some (.roxlReg 5 .l 6) ∧
    decoded [0b1110_0110_11_010_011] = some (.rorMem (.ind 3)) ∧
    decoded [0b1110_101_0_00_011_110] = some (.rorImm 5 .b 6) ∧
    decoded [0b1110_101_0_10_111_110] = some (.rorReg 5 .l 6) ∧
    decoded [0b1110_0111_11_010_011] = some (.rolMem (.ind 3)) ∧
    decoded [0b1110_101_1_00_011_110] = some (.rolImm 5 .b 6) ∧
    decoded [0b1110_101_1_10_111_110] = some (.rolReg 5 .l 6) := by decide +kernel

/-- Words that no instruction starts with (30_encoding.md R140, R141). -/
theorem test_illegal_words :
    ∀ w ∈ ([0x1048, 0x4E74, 0x42C0, 0x4848, 0x4E7A, 0x06C0, 0x0E00, 0x4AC8, 0x00FC, 0x80C8, 0xC1C8, 0xE8C0, 0x5FFA, 0x003D] : List Nat),
      decodeTableWord 16 w = none := by decide +kernel

/-- The host's two entries agree with the decoder: the first word in bits 15 to 0, the second above it. -/
theorem test_table_words :
    decodeTableWord 16 0xD041 = some (.addToDn .w (.dn 1) 0) ∧
      decodeTableWord 32 0x12340640 = some (.addi (.w 0x1234) (.dn 0)) ∧
      (State.reset.withFetchWord 32 0x12340640).wordAt 2 = 0x1234 := by decide +kernel

/-! ## One step -/

theorem test_exg_data : runs [0xC543]
    (fun s => (({ s with sr := { s.sr with z := true } } : State).setDreg 2 0x1).setDreg 3 0x80000000)
    (fun t => t.dreg 2 == 0x80000000 && t.dreg 3 == 0x1 && t.sr.codes == 0b00100) = true := by decide +kernel -- T2
theorem test_exg_address : runs [0xC14F] (fun s => s.setAreg 0 0x1000)
    (fun t => t.areg 0 == 0x8000 && t.areg 7 == 0x1000) = true := by decide +kernel -- T3
theorem test_exg_data_address : runs [0xC189] (fun s => (s.setDreg 0 0x11111111).setAreg 1 0x22222222)
    (fun t => t.dreg 0 == 0x22222222 && t.areg 1 == 0x11111111 && t.pc == 0x1002) = true := by decide +kernel -- T1
theorem test_lea : runs [0x43F0, 0x10FE] (fun s => (s.setAreg 0 0x2000).setDreg 1 0x1234FFFC)
    (fun t => t.areg 1 == 0x1FFA) = true := by decide +kernel -- T5
theorem test_link : runs [0x4E56, 0xFFF8] (fun s => (s.setAreg 7 0x2000).setAreg 6 0xAAAAAAAA)
    (fun t => t.longAt 0x1FFC == 0xAAAAAAAA && t.areg 6 == 0x1FFC && t.areg 7 == 0x1FF4) = true := by decide +kernel -- T9
theorem test_unlk : runs [0x4E5E] (fun s => ((s.setLong 0x1FFC 0xAAAAAAAA).setAreg 6 0x1FFC).setAreg 7 0x1F00)
    (fun t => t.areg 7 == 0x2000 && t.areg 6 == 0xAAAAAAAA) = true := by decide +kernel -- T11
theorem test_move_byte : runs [0x1001]
    (fun s => (({ s with sr := { s.sr with n := true, v := true, c := true } } : State).setDreg 1 0x0).setDreg 0 0xFFFFFFFF)
    (fun t => t.dreg 0 == 0xFFFFFF00 && t.sr.codes == 0b00100) = true := by decide +kernel -- T13
theorem test_move_word : runs [0x31FC, 0x1234, 0x2000] id
    (fun t => t.wordAt 0x2000 == 0x1234 && t.pc == 0x1006 && t.sr.codes == 0b00000) = true := by decide +kernel -- T17
theorem test_move_long : runs [0x2318] (fun s => ((s.setLong 0x3000 0x80000001).setAreg 0 0x3000).setAreg 1 0x4004)
    (fun t => t.longAt 0x4000 == 0x80000001 && t.areg 0 == 0x3004 && t.areg 1 == 0x4000 && t.sr.codes == 0b01000) = true := by decide +kernel -- T14
theorem test_movea_word : runs [0x3041] (fun s => ({ s with sr := { s.sr with z := true } } : State).setDreg 1 0x8001)
    (fun t => t.areg 0 == 0xFFFF8001 && t.sr.codes == 0b00100) = true := by decide +kernel -- T20
theorem test_movea_long : runs [0x2041] (fun s => s.setDreg 1 0x80000001)
    (fun t => t.areg 0 == 0x80000001) = true := by decide +kernel -- T21
theorem test_movem_to_memory : runs [0x48E0, 0x00C0] (fun s => (s.setAreg 0 0x3008).setAreg 1 0x11)
    (fun t => t.longAt 0x3000 == 0x3008 && t.longAt 0x3004 == 0x11 && t.areg 0 == 0x3000) = true := by decide +kernel -- T24
theorem test_movem_predecrement : runs [0x48E7, 0xC080]
    (fun s => (((s.setAreg 7 0x2000).setDreg 0 0x1).setDreg 1 0x2).setAreg 0 0x3)
    (fun t => t.longAt 0x1FF4 == 0x1 && t.longAt 0x1FF8 == 0x2 && t.longAt 0x1FFC == 0x3 && t.areg 7 == 0x1FF4) = true := by decide +kernel -- T22
theorem test_movem_to_registers : runs [0x4C98, 0x0201]
    (fun s => (((s.setWord 0x3000 0x8000).setWord 0x3002 0x0010).setWord 0x3004 0x0000).setAreg 0 0x3000)
    (fun t => t.dreg 0 == 0xFFFF8000 && t.areg 1 == 0x10 && t.areg 0 == 0x3004) = true := by decide +kernel -- T25
theorem test_movep_to_memory : runs [0x01C8, 0x0000]
    (fun s => (((s.setLong 0x4000 0xFFFFFFFF).setLong 0x4004 0xFFFFFFFF).setDreg 0 0x12345678).setAreg 0 0x4000)
    (fun t => t.longAt 0x4000 == 0x12FF34FF && t.longAt 0x4004 == 0x56FF78FF) = true := by decide +kernel -- T28
theorem test_movep_to_register : runs [0x0108, 0x0001]
    (fun s => ((s.setLong 0x4000 0x00AB00CD).setDreg 0 0xFFFFFFFF).setAreg 0 0x4000)
    (fun t => t.dreg 0 == 0xFFFFABCD) = true := by decide +kernel -- T29
theorem test_moveq : runs [0x70FF] (fun s => s.setDreg 0 0x0)
    (fun t => t.dreg 0 == 0xFFFFFFFF && t.sr.codes == 0b01000) = true := by decide +kernel -- T30
theorem test_pea : runs [0x487A, 0x0008] (fun s => s.setAreg 7 0x2000)
    (fun t => t.longAt 0x1FFC == 0x100A && t.areg 7 == 0x1FFC) = true := by decide +kernel -- T34
theorem test_swap : runs [0x4840] (fun s => s.setDreg 0 0x12348000)
    (fun t => t.dreg 0 == 0x80001234 && t.sr.codes == 0b01000) = true := by decide +kernel -- T35
theorem test_add_word : runs [0xD041] (fun s => (s.setDreg 0 0x7FFF).setDreg 1 0x1)
    (fun t => t.dreg 0 == 0x8000 && t.sr.codes == 0b01010) = true := by decide +kernel -- T38
theorem test_add_byte : runs [0xD001] (fun s => (s.setDreg 0 0x12345680).setDreg 1 0xFFFFFF80)
    (fun t => t.dreg 0 == 0x12345600 && t.sr.codes == 0b10111) = true := by decide +kernel -- T40
theorem test_add_to_memory : runs [0xD150] (fun s => ((s.setWord 0x3000 0xFFFF).setDreg 0 0x1).setAreg 0 0x3000)
    (fun t => t.wordAt 0x3000 == 0x0 && t.sr.codes == 0b10101) = true := by decide +kernel -- T41
theorem test_adda_word : runs [0xD0C1]
    (fun s => (({ s with sr := { s.sr with z := true } } : State).setAreg 0 0x10000).setDreg 1 0xFFFF)
    (fun t => t.areg 0 == 0xFFFF && t.sr.codes == 0b00100) = true := by decide +kernel -- T44
theorem test_adda_long : runs [0xD1C1] (fun s => (s.setAreg 0 0xFFFFFFFF).setDreg 1 0x2)
    (fun t => t.areg 0 == 0x1 && t.sr.codes == 0b00000) = true := by decide +kernel -- T45
theorem test_addi : runs [0x0610, 0xFF7F] (fun s => (s.setByte 0x3000 0x01).setAreg 0 0x3000)
    (fun t => t.byteAt 0x3000 == 0x80 && t.sr.codes == 0b01010) = true := by decide +kernel -- T47
theorem test_addq_address : runs [0x5248]
    (fun s => ({ s with sr := { s.sr with n := true, z := true } } : State).setAreg 0 0xFFFF)
    (fun t => t.areg 0 == 0x10000 && t.sr.codes == 0b01100) = true := by decide +kernel -- T50
theorem test_addq_eight : runs [0x5080] (fun s => s.setDreg 0 0xFFFFFFF8)
    (fun t => t.dreg 0 == 0x0 && t.sr.codes == 0b10101) = true := by decide +kernel -- T49
theorem test_addx_register : runs [0xD181]
    (fun s => (({ s with sr := { s.sr with x := true } } : State).setDreg 0 0xFFFFFFFF).setDreg 1 0x0)
    (fun t => t.dreg 0 == 0x0 && t.sr.codes == 0b10001) = true := by decide +kernel -- T53
theorem test_addx_memory : runs [0xD308]
    (fun s => (((({ s with sr := { s.sr with x := true, z := true } } : State).setByte 0x3000 0xFF).setByte 0x3010 0x00).setAreg 0 0x3001).setAreg 1 0x3011)
    (fun t => t.byteAt 0x3010 == 0x0 && t.areg 0 == 0x3000 && t.areg 1 == 0x3010 && t.sr.codes == 0b10101) = true := by decide +kernel -- T54
theorem test_clr : runs [0x4240]
    (fun s => ({ s with sr := { s.sr with x := true, n := true } } : State).setDreg 0 0x12345678)
    (fun t => t.dreg 0 == 0x12340000 && t.sr.codes == 0b10100) = true := by decide +kernel -- T55
theorem test_cmp : runs [0xB081] (fun s => (s.setDreg 0 0x7FFFFFFF).setDreg 1 0xFFFFFFFF)
    (fun t => t.sr.codes == 0b01011) = true := by decide +kernel -- T59
theorem test_cmpa_word : runs [0xB0C0] (fun s => (s.setAreg 0 0xFFFFFFFF).setDreg 0 0xFFFF)
    (fun t => t.sr.codes == 0b00100) = true := by decide +kernel -- T60
theorem test_cmpa_long : runs [0xB1C0] (fun s => (s.setAreg 0 0x0).setDreg 0 0x1)
    (fun t => t.sr.codes == 0b01001) = true := by decide +kernel -- T61
theorem test_cmpi : runs [0x0C40, 0x8000] (fun s => s.setDreg 0 0x7FFF)
    (fun t => t.sr.codes == 0b01011) = true := by decide +kernel -- T63
theorem test_cmpm : runs [0xB148] (fun s => ((s.setWord 0x3000 0x0001).setWord 0x3002 0x0002).setAreg 0 0x3000)
    (fun t => t.areg 0 == 0x3004 && t.sr.codes == 0b00000) = true := by decide +kernel -- T65
theorem test_divs_negative_divisor : runs [0x81C1] (fun s => (s.setDreg 0 0x7).setDreg 1 0xFFFE)
    (fun t => t.dreg 0 == 0x1FFFD && t.sr.codes == 0b01000) = true := by decide +kernel -- T67
theorem test_divs_overflow : runs [0x81C1] (fun s => (s.setDreg 0 0x8000).setDreg 1 0x1)
    (fun t => t.dreg 0 == 0x8000 && !t.sr.x && t.sr.v && !t.sr.c) = true := by decide +kernel -- T69
theorem test_divu : runs [0x80C1] (fun s => (s.setDreg 0 0x10003).setDreg 1 0x2)
    (fun t => t.dreg 0 == 0x18001 && t.sr.codes == 0b01000) = true := by decide +kernel -- T72
theorem test_divu_overflow : runs [0x80C1] (fun s => (s.setDreg 0 0x20000).setDreg 1 0x2)
    (fun t => t.dreg 0 == 0x20000 && !t.sr.x && t.sr.v && !t.sr.c) = true := by decide +kernel -- T73
theorem test_ext_word : runs [0x4880] (fun s => s.setDreg 0 0x12340080)
    (fun t => t.dreg 0 == 0x1234FF80 && t.sr.codes == 0b01000) = true := by decide +kernel -- T76
theorem test_ext_long : runs [0x48C0] (fun s => s.setDreg 0 0x8000)
    (fun t => t.dreg 0 == 0xFFFF8000 && t.sr.codes == 0b01000) = true := by decide +kernel -- T78
theorem test_muls : runs [0xC1C1] (fun s => (s.setDreg 0 0x1234FFFE).setDreg 1 0x3)
    (fun t => t.dreg 0 == 0xFFFFFFFA && t.sr.codes == 0b01000) = true := by decide +kernel -- T79
theorem test_mulu : runs [0xC0C1] (fun s => (s.setDreg 0 0xFFFF).setDreg 1 0xFFFF)
    (fun t => t.dreg 0 == 0xFFFE0001 && t.sr.codes == 0b01000) = true := by decide +kernel -- T82
theorem test_neg : runs [0x4400] (fun s => s.setDreg 0 0x80)
    (fun t => t.dreg 0 == 0x80 && t.sr.codes == 0b11011) = true := by decide +kernel -- T85
theorem test_negx : runs [0x4000]
    (fun s => ({ s with sr := { s.sr with x := true, z := true } } : State).setDreg 0 0x0)
    (fun t => t.dreg 0 == 0xFF && t.sr.codes == 0b11001) = true := by decide +kernel -- T87
theorem test_sub_byte : runs [0x9001] (fun s => (s.setDreg 0 0x80).setDreg 1 0x1)
    (fun t => t.dreg 0 == 0x7F && t.sr.codes == 0b00010) = true := by decide +kernel -- T90
theorem test_sub_to_memory : runs [0x91A0] (fun s => ((s.setLong 0x3000 0x00000000).setDreg 0 0x1).setAreg 0 0x3004)
    (fun t => t.longAt 0x3000 == 0xFFFFFFFF && t.areg 0 == 0x3000 && t.sr.codes == 0b11001) = true := by decide +kernel -- T91
theorem test_suba_word : runs [0x90C1] (fun s => (s.setAreg 0 0x10000).setDreg 1 0xFFFF)
    (fun t => t.areg 0 == 0x10001) = true := by decide +kernel -- T92
theorem test_suba_long : runs [0x91C8] (fun s => s.setAreg 0 0x12345678)
    (fun t => t.areg 0 == 0x0 && t.sr.codes == 0b00000) = true := by decide +kernel -- T93
theorem test_subi : runs [0x0400, 0x0001] (fun s => s.setDreg 0 0x0)
    (fun t => t.dreg 0 == 0xFF && t.sr.codes == 0b11001) = true := by decide +kernel -- T94
theorem test_subq_address : runs [0x5188] (fun s => s.setAreg 0 0x4)
    (fun t => t.areg 0 == 0xFFFFFFFC && t.sr.codes == 0b00000) = true := by decide +kernel -- T96
theorem test_subx_register : runs [0x9101]
    (fun s => (({ s with sr := { s.sr with x := true, z := true } } : State).setDreg 0 0x0).setDreg 1 0x0)
    (fun t => t.dreg 0 == 0xFF && t.sr.codes == 0b11001) = true := by decide +kernel -- T98
theorem test_tas_register : runs [0x4AC0] (fun s => s.setDreg 0 0x0)
    (fun t => t.dreg 0 == 0x80 && t.sr.codes == 0b00100) = true := by decide +kernel -- T100
theorem test_tas_memory : runs [0x4AD0] (fun s => (s.setByte 0x3000 0x80).setAreg 0 0x3000)
    (fun t => t.byteAt 0x3000 == 0x80 && t.sr.codes == 0b01000) = true := by decide +kernel -- T101
theorem test_tst : runs [0x4A40]
    (fun s => ({ s with sr := { s.sr with v := true, c := true, x := true } } : State).setDreg 0 0x8000)
    (fun t => t.sr.codes == 0b11000) = true := by decide +kernel -- T102
theorem test_and : runs [0xC041]
    (fun s => (({ s with sr := { s.sr with x := true, v := true, c := true } } : State).setDreg 0 0x1234FF0F).setDreg 1 0xF0F0)
    (fun t => t.dreg 0 == 0x1234F000 && t.sr.codes == 0b11000) = true := by decide +kernel -- T105
theorem test_and_to_memory : runs [0xC190]
    (fun s => ((s.setLong 0x3000 0x12345678).setDreg 0 0xFFFF).setAreg 0 0x3000)
    (fun t => t.longAt 0x3000 == 0x5678 && t.sr.codes == 0b00000) = true := by decide +kernel -- T106
theorem test_andi : runs [0x0200, 0x000F] (fun s => s.setDreg 0 0x123456F7)
    (fun t => t.dreg 0 == 0x12345607 && t.sr.codes == 0b00000) = true := by decide +kernel -- T107
theorem test_or : runs [0x8001] (fun s => (s.setDreg 0 0x1).setDreg 1 0x80)
    (fun t => t.dreg 0 == 0x81 && t.sr.codes == 0b01000) = true := by decide +kernel -- T109
theorem test_or_to_memory : runs [0x8158] (fun s => ((s.setWord 0x3000 0x00F0).setDreg 0 0xF).setAreg 0 0x3000)
    (fun t => t.wordAt 0x3000 == 0xFF && t.areg 0 == 0x3002 && t.sr.codes == 0b00000) = true := by decide +kernel -- T110
theorem test_ori : runs [0x0040, 0x8000] (fun s => s.setDreg 0 0x1)
    (fun t => t.dreg 0 == 0x8001 && t.sr.codes == 0b01000) = true := by decide +kernel -- T111
theorem test_eor : runs [0xB380] (fun s => (s.setDreg 0 0xFFFF0000).setDreg 1 0xFF00FF00)
    (fun t => t.dreg 0 == 0xFFFF00 && t.sr.codes == 0b00000) = true := by decide +kernel -- T112
theorem test_eori : runs [0x0A00, 0x00FF] (fun s => s.setDreg 0 0xFF)
    (fun t => t.dreg 0 == 0x0 && t.sr.codes == 0b00100) = true := by decide +kernel -- T114
theorem test_not : runs [0x4610] (fun s => (s.setByte 0x3000 0x55).setAreg 0 0x3000)
    (fun t => t.byteAt 0x3000 == 0xAA && t.sr.codes == 0b01000) = true := by decide +kernel -- T117
theorem test_asl_immediate : runs [0xE140] (fun s => s.setDreg 0 0x101)
    (fun t => t.dreg 0 == 0x100 && t.sr.codes == 0b10011) = true := by decide +kernel -- T119
theorem test_asl_register : runs [0xE3A0] (fun s => (s.setDreg 0 0x1).setDreg 1 0x20)
    (fun t => t.dreg 0 == 0x0 && t.sr.codes == 0b10111) = true := by decide +kernel -- T120
theorem test_asl_memory : runs [0xE1D0] (fun s => (s.setWord 0x3000 0xC000).setAreg 0 0x3000)
    (fun t => t.wordAt 0x3000 == 0x8000 && t.sr.codes == 0b11001) = true := by decide +kernel -- T122
theorem test_asr_immediate : runs [0xE080] (fun s => s.setDreg 0 0x7FFFFF00)
    (fun t => t.dreg 0 == 0x7FFFFF && t.sr.codes == 0b00000) = true := by decide +kernel -- T125
theorem test_asr_register : runs [0xE220] (fun s => (s.setDreg 0 0x80).setDreg 1 0x3F)
    (fun t => t.dreg 0 == 0xFF && t.sr.codes == 0b11001) = true := by decide +kernel -- T124
theorem test_lsl_immediate : runs [0xE188] (fun s => s.setDreg 0 0x12345678)
    (fun t => t.dreg 0 == 0x34567800 && t.sr.codes == 0b00000) = true := by decide +kernel -- T126
theorem test_lsr_register : runs [0xE228]
    (fun s => (({ s with sr := { s.sr with x := true } } : State).setDreg 1 0x9).setDreg 0 0xFF)
    (fun t => t.dreg 0 == 0x0 && t.sr.codes == 0b00100) = true := by decide +kernel -- T128
theorem test_lsr_memory : runs [0xE2D0] (fun s => (s.setWord 0x3000 0x0001).setAreg 0 0x3000)
    (fun t => t.wordAt 0x3000 == 0x0 && t.sr.codes == 0b10101) = true := by decide +kernel -- T131
theorem test_rol_immediate : runs [0xE958]
    (fun s => ({ s with sr := { s.sr with x := true } } : State).setDreg 0 0x1234)
    (fun t => t.dreg 0 == 0x2341 && t.sr.codes == 0b10001) = true := by decide +kernel -- T132
theorem test_rol_register : runs [0xE338] (fun s => (s.setDreg 0 0x81).setDreg 1 0x8)
    (fun t => t.dreg 0 == 0x81 && t.sr.codes == 0b01001) = true := by decide +kernel -- T133
theorem test_ror_immediate : runs [0xE098] (fun s => s.setDreg 0 0x12345678)
    (fun t => t.dreg 0 == 0x78123456 && t.sr.codes == 0b00000) = true := by decide +kernel -- T136
theorem test_roxl_immediate : runs [0xE310] (fun s => s.setDreg 0 0x80)
    (fun t => t.dreg 0 == 0x0 && t.sr.codes == 0b10101) = true := by decide +kernel -- T137
theorem test_roxl_register : runs [0xE370] (fun s => (s.setDreg 0 0x8000).setDreg 1 0x11)
    (fun t => t.dreg 0 == 0x8000 && t.sr.codes == 0b01000) = true := by decide +kernel -- T138
theorem test_roxr_immediate : runs [0xE250]
    (fun s => ({ s with sr := { s.sr with x := true } } : State).setDreg 0 0x1)
    (fun t => t.dreg 0 == 0x8000 && t.sr.codes == 0b11001) = true := by decide +kernel -- T140
theorem test_roxr_memory : runs [0xE4D0]
    (fun s => (({ s with sr := { s.sr with x := true } } : State).setWord 0x3000 0x0000).setAreg 0 0x3000)
    (fun t => t.wordAt 0x3000 == 0x8000 && t.sr.codes == 0b01000) = true := by decide +kernel -- T141
theorem test_btst_register : runs [0x0300]
    (fun s => (({ s with sr := { s.sr with x := true, n := true, v := true, c := true } } : State).setDreg 1 0x21).setDreg 0 0x2)
    (fun t => t.dreg 0 == 0x2 && t.sr.codes == 0b11011) = true := by decide +kernel -- T142
theorem test_btst_program : runs [0x083A, 0x0003, 0x0002, 0x0800] id
    (fun t => t.pc == 0x1006 && !t.sr.z) = true := by decide +kernel -- T147
theorem test_bset_memory : runs [0x08D0, 0x0007] (fun s => (s.setByte 0x3000 0x00).setAreg 0 0x3000)
    (fun t => t.byteAt 0x3000 == 0x80 && t.sr.z) = true := by decide +kernel -- T148
theorem test_bset_register : runs [0x03C0] (fun s => (s.setDreg 1 0x3F).setDreg 0 0x0)
    (fun t => t.dreg 0 == 0x80000000 && t.sr.z) = true := by decide +kernel -- T149
theorem test_bclr_register : runs [0x0380] (fun s => (s.setDreg 1 0x1F).setDreg 0 0x80000000)
    (fun t => t.dreg 0 == 0x0 && !t.sr.z) = true := by decide +kernel -- T150
theorem test_bclr_memory : runs [0x0890, 0x0000] (fun s => (s.setByte 0x3000 0xFE).setAreg 0 0x3000)
    (fun t => t.byteAt 0x3000 == 0xFE && t.sr.z) = true := by decide +kernel -- T151
theorem test_bchg_register : runs [0x0340] (fun s => (s.setDreg 1 0x10).setDreg 0 0x0)
    (fun t => t.dreg 0 == 0x10000 && t.sr.z) = true := by decide +kernel -- T153
theorem test_bchg_memory : runs [0x0850, 0x0008] (fun s => (s.setByte 0x3000 0x01).setAreg 0 0x3000)
    (fun t => t.byteAt 0x3000 == 0x0 && !t.sr.z) = true := by decide +kernel -- T152
theorem test_abcd_memory : runs [0xC308]
    (fun s => (((({ s with sr := { s.sr with z := true } } : State).setByte 0x3000 0x25).setByte 0x3010 0x75).setAreg 0 0x3001).setAreg 1 0x3011)
    (fun t => t.byteAt 0x3010 == 0x0 && t.areg 0 == 0x3000 && t.areg 1 == 0x3010 && t.sr.x && t.sr.z && t.sr.c) = true := by decide +kernel -- T157
theorem test_abcd_register : runs [0xC101]
    (fun s => (({ s with sr := { s.sr with z := true } } : State).setDreg 0 0x99).setDreg 1 0x1)
    (fun t => t.dreg 0 == 0x0 && t.sr.x && t.sr.z && t.sr.c) = true := by decide +kernel -- T155
theorem test_sbcd : runs [0x8101]
    (fun s => (({ s with sr := { s.sr with z := true } } : State).setDreg 0 0x0).setDreg 1 0x1)
    (fun t => t.dreg 0 == 0x99 && t.sr.x && !t.sr.z && t.sr.c) = true := by decide +kernel -- T160
theorem test_nbcd : runs [0x4810]
    (fun s => (({ s with sr := { s.sr with x := true } } : State).setByte 0x3000 0x99).setAreg 0 0x3000)
    (fun t => t.byteAt 0x3000 == 0x0 && t.sr.x && !t.sr.z && t.sr.c) = true := by decide +kernel -- T165
theorem test_bcc_word : runs [0x6600, 0xFFFC] id
    (fun t => t.pc == 0xFFE) = true := by decide +kernel -- T168
theorem test_bcc_byte : runs [0x6F02] (fun s => { s with sr := { s.sr with n := true } })
    (fun t => t.pc == 0x1004) = true := by decide +kernel -- T171
theorem test_bra : runs [0x60FE] id
    (fun t => t.pc == 0x1000) = true := by decide +kernel -- T181
theorem test_bsr : runs [0x6120] id
    (fun t => t.longAt 0x7FFC == 0x1002 && t.areg 7 == 0x7FFC && t.pc == 0x1022) = true := by decide +kernel -- T188
theorem test_scc_true : runs [0x57C0]
    (fun s => ({ s with sr := { s.sr with z := true } } : State).setDreg 0 0x12345678)
    (fun t => t.dreg 0 == 0x123456FF) = true := by decide +kernel -- T190
theorem test_scc_false : runs [0x57C0] (fun s => s.setDreg 0 0x12345678)
    (fun t => t.dreg 0 == 0x12345600) = true := by decide +kernel -- T191
theorem test_jmp : runs [0x4EF0, 0x0002] (fun s => (s.setAreg 0 0x2000).setDreg 0 0xFFFE)
    (fun t => t.pc == 0x2000) = true := by decide +kernel -- T198
theorem test_jsr : runs [0x4EB9, 0x0000, 0x2000] id
    (fun t => t.longAt 0x7FFC == 0x1006 && t.areg 7 == 0x7FFC && t.pc == 0x2000) = true := by decide +kernel -- T199
theorem test_rts : runs [0x4E75] (fun s => (s.setLong 0x7FFC 0x00001006).setAreg 7 0x7FFC)
    (fun t => t.pc == 0x1006 && t.areg 7 == 0x8000) = true := by decide +kernel -- T201
theorem test_rtr : runs [0x4E77]
    (fun s => (({ s with sr := Sr.ofWord 0x0000, usp := 0x7FFA } : State).setWord 0x7FFA 0x271F).setLong 0x7FFC 0x00001006)
    (fun t => t.sr.toWord == 0x1F && t.pc == 0x1006 && t.usp == 0x8000) = true := by decide +kernel -- T203
theorem test_nop : runs [0x4E71] (fun s => { s with sr := Sr.ofWord 0x2715 })
    (fun t => t.pc == 0x1002 && t.sr.toWord == 0x2715) = true := by decide +kernel -- T204
theorem test_andi_to_ccr : runs [0x023C, 0xFF00] (fun s => { s with sr := Sr.ofWord 0x271F })
    (fun t => t.sr.toWord == 0x2700) = true := by decide +kernel -- T206
theorem test_eori_to_ccr : runs [0x0A3C, 0x0010] (fun s => { s with sr := Sr.ofWord 0x0000 })
    (fun t => t.sr.toWord == 0x10) = true := by decide +kernel -- T207
theorem test_ori_to_ccr : runs [0x003C, 0x00FF] (fun s => { s with sr := Sr.ofWord 0x0000 })
    (fun t => t.sr.toWord == 0x1F) = true := by decide +kernel -- T209
theorem test_move_to_ccr : runs [0x44C0] (fun s => ({ s with sr := Sr.ofWord 0x2700 } : State).setDreg 0 0xFF15)
    (fun t => t.sr.toWord == 0x2715) = true := by decide +kernel -- T210
theorem test_andi_to_sr : runs [0x027C, 0xDFFF] (fun s => { s with sr := Sr.ofWord 0x2000, usp := 0x4000 })
    (fun t => t.sr.toWord == 0x0 && t.areg 7 == 0x4000) = true := by decide +kernel -- T213
theorem test_andi_to_sr_in_user_state : runs [0x027C, 0xDFFF]
    (fun s => ({ s with sr := Sr.ofWord 0x0000 } : State).setLong 0x0020 0x00000600)
    (fun t => t.wordAt 0x7FFA == 0x0 && t.longAt 0x7FFC == 0x1000 && t.sr.toWord == 0x2000 && t.pc == 0x600 && t.ssp == 0x7FFA) = true := by decide +kernel -- T214
theorem test_eori_to_sr : runs [0x0A7C, 0x2000] (fun s => { s with sr := Sr.ofWord 0x2700 })
    (fun t => t.sr.toWord == 0x700) = true := by decide +kernel -- T215
theorem test_ori_to_sr : runs [0x007C, 0xFFFF]
    (fun s => ({ s with sr := Sr.ofWord 0x2000 } : State).setLong 0x0024 0x00000700)
    (fun t => t.sr.toWord == 0xA71F && t.pc == 0x1004) = true := by decide +kernel -- T217
theorem test_move_to_sr : runs [0x46FC, 0x2000] (fun s => { s with sr := Sr.ofWord 0x2700 })
    (fun t => t.sr.toWord == 0x2000) = true := by decide +kernel -- T218
theorem test_move_from_sr : runs [0x40C0] (fun s => ({ s with sr := Sr.ofWord 0x0015 } : State).setDreg 0 0xFFFFFFFF)
    (fun t => t.dreg 0 == 0xFFFF0015) = true := by decide +kernel -- T222
theorem test_move_to_usp : runs [0x4E60] (fun s => s.setAreg 0 0x4000)
    (fun t => t.usp == 0x4000 && t.ssp == 0x8000) = true := by decide +kernel -- T224
theorem test_move_from_usp : runs [0x4E69] (fun s => { s with usp := 0x4000 })
    (fun t => t.areg 1 == 0x4000) = true := by decide +kernel -- T225
theorem test_rte : runs [0x4E73]
    (fun s => (({ s with sr := Sr.ofWord 0x2700, ssp := 0x7FFA, usp := 0x4000 } : State).setWord 0x7FFA 0x0000).setLong 0x7FFC 0x00001000)
    (fun t => t.sr.toWord == 0x0 && t.pc == 0x1000 && t.ssp == 0x8000 && t.areg 7 == 0x4000) = true := by decide +kernel -- T227
theorem test_reset : runs [0x4E70] (fun s => { s with sr := Sr.ofWord 0x2700 })
    (fun t => t.pc == 0x1002 && t.sr.toWord == 0x2700) = true := by decide +kernel -- T230
theorem test_stop : runs [0x4E72, 0x2000] (fun s => { s with sr := Sr.ofWord 0x2700 })
    (fun t => t.sr.toWord == 0x2000 && t.pc == 0x1004 && t.run == .stopped) = true := by decide +kernel -- T232
theorem test_chk_inside : runs [0x4181] (fun s => (s.setDreg 0 0xA).setDreg 1 0xA)
    (fun t => t.pc == 0x1002) = true := by decide +kernel -- T235
theorem test_trap : runs [0x4E40]
    (fun s => ({ s with sr := Sr.ofWord 0x0000, usp := 0x4000 } : State).setLong 0x0080 0x00003000)
    (fun t => t.wordAt 0x7FFA == 0x0 && t.longAt 0x7FFC == 0x1002 && t.ssp == 0x7FFA && t.sr.toWord == 0x2000 && t.pc == 0x3000 && t.usp == 0x4000) = true := by decide +kernel -- T239
theorem test_trapv_clear : runs [0x4E76] id
    (fun t => t.pc == 0x1002) = true := by decide +kernel -- T241
theorem test_trapv_set : runs [0x4E76]
    (fun s => ({ s with sr := { s.sr with v := true } } : State).setLong 0x001C 0x00000A00)
    (fun t => t.longAt 0x7FFC == 0x1002 && t.pc == 0xA00) = true := by decide +kernel -- T242
theorem test_illegal : runs [0x4AFC] (fun s => ({ s with sr := Sr.ofWord 0x0000 } : State).setLong 0x0010 0x00000B00)
    (fun t => t.longAt 0x7FFC == 0x1000 && t.wordAt 0x7FFA == 0x0 && t.sr.toWord == 0x2000 && t.pc == 0xB00) = true := by decide +kernel -- T243
theorem test_illegal_4AFA : runs [0x4AFA]
    (fun s => ({ s with sr := Sr.ofWord 0x2000 } : State).setLong 0x0010 0x00000B00)
    (fun t => t.longAt 0x7FFC == 0x1000 && t.pc == 0xB00) = true := by decide +kernel -- T244
theorem test_line_1010 : runs [0xA123]
    (fun s => ({ s with sr := Sr.ofWord 0x2000 } : State).setLong 0x0028 0x00000C00)
    (fun t => t.longAt 0x7FFC == 0x1000 && t.pc == 0xC00) = true := by decide +kernel -- T247
theorem test_line_1111 : runs [0xFFFF]
    (fun s => ({ s with sr := Sr.ofWord 0x2000 } : State).setLong 0x002C 0x00000D00)
    (fun t => t.longAt 0x7FFC == 0x1000 && t.pc == 0xD00) = true := by decide +kernel -- T248
theorem test_dbcc_counts : runs [0x51C8, 0xFFFC] (fun s => s.setDreg 0 0x10002)
    (fun t => t.dreg 0 == 0x10001 && t.pc == 0xFFE) = true := by decide +kernel -- T183
theorem test_dbcc_expires : runs [0x51C8, 0xFFFC] (fun s => s.setDreg 0 0x10000)
    (fun t => t.dreg 0 == 0x1FFFF && t.pc == 0x1004) = true := by decide +kernel -- T184
theorem test_movep_long_to_register : runs [0x0148, 0x0000]
    (fun s => ((s.setLong 0x4000 0x12FF34FF).setLong 0x4004 0x56FF78FF).setAreg 0 0x4000)
    (fun t => t.dreg 0 == 0x12345678) = true := by decide +kernel -- hand, R161
theorem test_movep_word_to_memory : runs [0x0188, 0x0001] (fun s => (s.setDreg 0 0x1234ABCD).setAreg 0 0x4000)
    (fun t => t.longAt 0x4000 == 0x00AB00CD) = true := by decide +kernel -- hand, R161
theorem test_subx_memory : runs [0x9149]
    (fun s => ((({ s with sr := Sr.ofWord 0x2014 } : State).setWord 0x3000 1).setAreg 1 0x3002).setAreg 0 0x4002)
    (fun t => t.wordAt 0x4000 == 0xFFFE && t.sr.codes == 0b11001) = true := by decide +kernel -- hand, R204
theorem test_sbcd_memory : runs [0x8109]
    (fun s => (((({ s with sr := Sr.ofWord 0x2014 } : State).setByte 0x3000 0x19).setByte 0x4000 0x42).setAreg 1
      0x3001).setAreg 0 0x4001)
    (fun t => t.byteAt 0x4000 == 0x22 && !t.sr.x && !t.sr.z && !t.sr.c) = true := by decide +kernel -- hand, R283
theorem test_lsl_register : runs [0xE368] (fun s => (s.setDreg 1 16).setDreg 0 0x10001)
    (fun t => t.dreg 0 == 0x10000 && t.sr.codes == 0b10101) = true := by decide +kernel -- hand, R255
theorem test_lsl_memory : runs [0xE3D0] (fun s => (s.setWord 0x3000 0x8001).setAreg 0 0x3000)
    (fun t => t.wordAt 0x3000 == 2 && t.sr.codes == 0b10001) = true := by decide +kernel -- hand, R255
theorem test_lsr_immediate : runs [0xE248] (fun s => s.setDreg 0 3)
    (fun t => t.dreg 0 == 1 && t.sr.codes == 0b10001) = true := by decide +kernel -- hand, R256
theorem test_asr_memory : runs [0xE0D0] (fun s => (s.setWord 0x3000 0x8001).setAreg 0 0x3000)
    (fun t => t.wordAt 0x3000 == 0xC000 && t.sr.codes == 0b11001) = true := by decide +kernel -- hand, R254
theorem test_rol_memory : runs [0xE7D0] (fun s => (s.setWord 0x3000 0x8000).setAreg 0 0x3000)
    (fun t => t.wordAt 0x3000 == 1 && t.sr.codes == 0b00001) = true := by decide +kernel -- hand, R257
theorem test_ror_register : runs [0xE278] (fun s => (s.setDreg 1 17).setDreg 0 0x20001)
    (fun t => t.dreg 0 == 0x28000 && t.sr.codes == 0b01001) = true := by decide +kernel -- hand, R258
theorem test_ror_memory : runs [0xE6D0] (fun s => (s.setWord 0x3000 2).setAreg 0 0x3000)
    (fun t => t.wordAt 0x3000 == 1 && t.sr.codes == 0) = true := by decide +kernel -- hand, R258
theorem test_roxl_memory : runs [0xE5D0] (fun s => ({ s with sr := Sr.ofWord 0x2010 } : State).setAreg 0 0x3000)
    (fun t => t.wordAt 0x3000 == 1 && t.sr.codes == 0) = true := by decide +kernel -- hand, R259
theorem test_roxr_register : runs [0xE230]
    (fun s => (({ s with sr := Sr.ofWord 0x2010 } : State).setDreg 1 9).setDreg 0 0x5A)
    (fun t => t.dreg 0 == 0x5A && t.sr.codes == 0b10001) = true := by decide +kernel -- hand, R260
theorem test_illegal_4AFB : runs [0x4AFB] (fun s => s.setLong 0x10 0xB00)
    (fun t => t.longAt 0x7FFC == 0x1000 && t.pc == 0xB00) = true := by decide +kernel -- hand, R327
theorem test_address_error : runs [0x3010] (fun s => s.setAreg 0 0x3001)
    (fun t => t.ssp == 0x7FF2 && t.sr.s && t.dreg 1 == 0 && t.xgroup == .g0) = true := by decide +kernel -- T19
theorem test_trace : runs [0x4E71] (fun s => ({ s with sr := Sr.ofWord 0xA000 } : State).setLong 0x24 0x700)
    (fun t => t.pc == 0x700 && t.longAt 0x7FFC == 0x1002 && t.wordAt 0x7FFA == 0xA000 && !t.sr.t) = true := by
  decide +kernel -- hand, R380
theorem test_autovector : runs [0x4E71] (fun s => ({ s with ipl := 5 } : State).setLong 0x74 0x900)
    (fun t => t.pc == 0x900 && t.longAt 0x7FFC == 0x1000 && t.sr.toWord == 0x2500) = true := by
  decide +kernel -- hand, R375
/-- A region of the platform that answers all cycles at the addresses from `lo` on and below `hi`. -/
def region (kind : RegionKind) (lo hi : Nat) (onRead onWrite : Bool) : Platform :=
  { Platform.plain with regions := [Region.mk kind 0xFF lo hi onRead onWrite true true] }

theorem test_bus_error :
    (match memWrite .w 5 0x3000 5 [] false { base with platform := region .busError 0x3000 0x3001 true true } with
      | .error (.access f) t => f.kind == .bus && f.addr == 0x3000 && !f.isRead && f.fc == 5 && t.wordAt 0x3000 == 0
      | .error .reset _ | .ok _ _ => false) = true := by decide +kernel -- hand, R81, R393
theorem test_device_write : runs [0x3080]
    (fun s => { (s.setAreg 0 0x3000).setDreg 0 5 with platform := region .device 0x3000 0x3001 true true })
    (fun t => t.wordAt 0x3000 == 0 && t.pc == 0x1002 && t.bus.length == 2) = true := by decide +kernel -- hand, R76
theorem test_device_program_read : runs [0x303A, 0x1FFE]
    (fun s => { s with platform := region .device 0x3000 0x3001 true true })
    (fun t => t.draws == 1 && t.pc == 0x1004) = true := by decide +kernel -- hand, R64, R76
theorem test_tas_device_takes_write : runs [0x4AD0]
    (fun s => { (s.setAreg 0 0x3000).setByte 0x3000 5 with platform := region .device 0x3000 0x3001 false true })
    (fun t => t.byteAt 0x3000 == 5 && t.sr.codes == 0 && t.draws == 0) = true := by decide +kernel -- hand, R76, R205
theorem test_tas_device_gives_read : runs [0x4AD0]
    (fun s => { s.setAreg 0 0x3000 with platform := region .device 0x3000 0x3001 true false })
    (fun t => t.draws == 1 && t.pc == 0x1002) = true := by decide +kernel -- hand, R76, R205
theorem test_write_between_cycles : runs [0x0108, 0x0000]
    (fun s => { (s.setAreg 0 0x3000).setLong 0x3000 0x12003400 with
      platform := { Platform.plain with writes := [[], [], [], [(0x3000, 0xAA), (0x3002, 0x99)]] } })
    (fun t => t.dreg 0 == 0x1299 && t.byteAt 0x3000 == 0xAA) = true := by decide +kernel -- hand, R88
theorem test_write_before_extension_word : runs [0x303C, 0x1111]
    (fun s => { s with platform := { Platform.plain with writes := [[], [(0x1002, 0x22), (0x1003, 0x33)]] } })
    (fun t => t.dreg 0 == 0x2233 && t.pc == 0x1004) = true := by decide +kernel -- hand, R88
theorem test_reset_between_cycles : runs [0x0188, 0x0000]
    (fun s => { ((s.setAreg 0 0x3000).setDreg 0 0x1234).setLong 0 0x9000 with
      platform := { Platform.plain with resetAfter := some 3 } })
    (fun t => t.byteAt 0x3000 == 0x12 && t.byteAt 0x3002 == 0 && t.ssp == 0x9000 && t.sr.i == 7 && t.xgroup == .g0 &&
      t.dreg 0 == 0x1234) = true := by decide +kernel -- hand, R420
/-- A reset before the last cycle finds what the pseudocode has written by then: ASL and BSET their codes, MOVEP.W the
first byte; before its first read CMPM has stepped nothing. -/
theorem test_reset_finds_pseudocode_order :
    let at' (n : Nat) (s : State) : State := { s with platform := { Platform.plain with resetAfter := some n } }
    runs [0xE1D0] (fun s => at' 2 ((s.setAreg 0 0x3000).setWord 0x3000 0xC000))
      (fun t => t.wordAt 0x3000 == 0xC000 && t.sr.codes == 0b11001) = true ∧
    runs [0x08D0, 0x0007] (fun s => at' 3 (s.setAreg 0 0x3000)) (fun t => t.byteAt 0x3000 == 0 && t.sr.z) = true ∧
    runs [0x0108, 0x0001] (fun s => at' 3 (((s.setAreg 0 0x4000).setLong 0x4000 0x00AB00CD).setDreg 0 0xFFFFFFFF))
      (fun t => t.dreg 0 == 0xFFFFABFF) = true ∧
    runs [0xB148] (fun s => at' 1 (s.setAreg 0 0x3000)) (fun t => t.areg 0 == 0x3000 && t.sr.i == 7) = true := by
  decide +kernel -- hand, R161, R192, R253, R274, R420
/-- Program references have their own memory, from cell $1000000 on. -/
theorem test_space_map :
    let platform := { Platform.plain with spaces := [SpaceWindow.mk 0x44 0 0x1000000 0x1000000] }
    let s := { (base.setWord 0x1000 0xBEEF).setAreg 0 0x1000 with platform := platform }
    (match step (s.storeWords 0x1000 [0x3010]) with
      | .next t => t.dreg 0 == 0xBEEF
      | .fault _ | .refused _ => false) = true := by decide +kernel -- hand, R66
theorem test_acknowledge_cycle : runs [0x4E71] (fun s => { s with ipl := 5 })
    (fun t => t.bus.head? == some (.iack 7 0xFFFFFA .autovector)) = true := by decide +kernel -- hand, R93

/-! ## Witnesses: states and operands that meet the hypotheses of the statements -/

/-- The words of an instruction placed at `PC`. -/
def placed (words : List Word) (s : State) : State := s.storeWords s.pc words

/-- `A0` at the last word of the address space, `A1` at address 0, every data register all ones, X and Z set. -/
def edge : State := { (base.setAreg 0 0x00FFFFFE).setAreg 1 0 with d := Vector.replicate 8 0xFFFFFFFF, sr := Sr.ofWord 0x2014 }

theorem witness_DecodeOfEncode : (Instr.moveL (.absL 0) (.absL 0xFFFFFFFF)).wellFormed = true := by decide +kernel

theorem witness_DecodedOperationWord :
    decode [0x23F9, 0, 0, 0xFFFF, 0xFFFF] = .ok (.moveL (.absL 0) (.absL 0xFFFFFFFF), []) :=
  decode_of_decoded (by decide +kernel)

theorem executes_iff (s : State) : s.executes ↔
    s.extReset = false ∧ s.run = .normal ∧ ¬(s.sr.i < s.ipl ∨ (s.ipl = 7 ∧ s.prevIpl ≠ 7)) := Iff.rfl

theorem interruptDue_iff (s : State) : s.interruptDue ↔ s.sr.i < s.ipl ∨ (s.ipl = 7 ∧ s.prevIpl ≠ 7) := Iff.rfl

/-- The instruction the words at `PC` start with. -/
def ahead (s : State) : Option Instr := (decode (s.wordsAt s.pc 5)).toOption.map Prod.fst

theorem decode_of_ahead {s : State} {i : Instr} (h : ahead s = some i) :
    ∃ rest, decode (s.wordsAt s.pc 5) = .ok (i, rest) := by
  unfold ahead at h
  match hd : decode (s.wordsAt s.pc 5) with
  | .ok (j, rest) => simp_all [Except.toOption]
  | .error _ => simp_all [Except.toOption]

theorem illegal_of_ahead {s : State} (h : (match decode (s.wordsAt s.pc 5) with
    | .error .illegal => true
    | .error .truncated | .ok _ => false) = true) : decode (s.wordsAt s.pc 5) = .error .illegal := by
  split at h <;> simp_all

/-- Without T; and with T, for a word that is trapped. -/
theorem witness_StepRunsDecodedInstruction :
    let s := placed [0xD041] base
    let r := placed [0xA123] { user with sr := Sr.ofWord 0x8000 }
    (s.ready ∧ s.executes ∧ (∃ rest, decode (s.wordsAt s.pc 5) = .ok (.addToDn .w (.dn 1) 0, rest)) ∧ s.sr.t = false) ∧
      r.ready ∧ r.executes ∧ (∃ rest, decode (r.wordsAt r.pc 5) = .ok (.lineA 0x123, rest)) ∧
      isExecuted (.lineA 0x123) r.begun = false := by
  simp only [executes_iff]
  exact ⟨⟨by decide +kernel, by decide +kernel, decode_of_ahead (by decide +kernel), by decide +kernel⟩,
    by decide +kernel, by decide +kernel, decode_of_ahead (by decide +kernel), by decide +kernel⟩

/-- An instruction that ends in the normal state, one that stops the processor, and one that is aborted. -/
theorem witness_TraceFollowsInstruction :
    let traced := { base with sr := Sr.ofWord 0xA000 }
    let s := placed [0x4E71] traced
    let r := placed [0x4E72, 0x2000] traced
    let q := placed [0x4A50] (traced.setAreg 0 1)
    (s.ready ∧ s.executes ∧ (∃ rest, decode (s.wordsAt s.pc 5) = .ok (.nop, rest)) ∧ s.sr.t = true ∧
      isExecuted .nop s.begun = true ∧ ∃ u, exec .nop s.begun = .next u ∧ u.xgroup ≠ .g0 ∧ u.run = .normal ∧
        u.platform = .plain ∧ isEven u.ssp = true) ∧
    (r.ready ∧ r.executes ∧ (∃ rest, decode (r.wordsAt r.pc 5) = .ok (.stop 0x2000, rest)) ∧ r.sr.t = true ∧
      isExecuted (.stop 0x2000) r.begun = true ∧ ∃ u, exec (.stop 0x2000) r.begun = .next u ∧ u.run ≠ .normal) ∧
    (q.ready ∧ q.executes ∧ (∃ rest, decode (q.wordsAt q.pc 5) = .ok (.tst .w (.ind 0), rest)) ∧ q.sr.t = true ∧
      isExecuted (.tst .w (.ind 0)) q.begun = true ∧ ∃ u, exec (.tst .w (.ind 0)) q.begun = .next u ∧ u.xgroup = .g0) := by
  simp only [executes_iff]
  exact ⟨⟨by decide +kernel, by decide +kernel, decode_of_ahead (by decide +kernel), by decide +kernel, by decide +kernel,
      _, next_after (by decide +kernel), by decide +kernel⟩,
    ⟨by decide +kernel, by decide +kernel, decode_of_ahead (by decide +kernel), by decide +kernel, by decide +kernel,
      _, next_after (by decide +kernel), by decide +kernel⟩,
    by decide +kernel, by decide +kernel, decode_of_ahead (by decide +kernel), by decide +kernel, by decide +kernel,
      _, next_after (by decide +kernel), by decide +kernel⟩

theorem witness_IllegalWordTraps :
    let s := placed [0x4E74] user
    s.ready ∧ s.executes ∧ isEven s.ssp = true ∧ decode (s.wordsAt s.pc 5) = .error .illegal := by
  simp only [executes_iff]
  exact ⟨by decide +kernel, by decide +kernel, by decide +kernel, illegal_of_ahead (by decide +kernel)⟩

theorem witness_OddProgramCounterFaults :
    let s := { user with pc := 0xFFFFFFFF }
    s.platform = .plain ∧ s.executes ∧ s.xgroup ≠ .g0 ∧ isEven s.pc = false ∧ isEven s.ssp = true := by
  simp only [executes_iff]
  decide +kernel

/-- One level above the mask in the normal state; level 7 under mask 7 at its edge, in the stopped state. -/
theorem witness_InterruptTaken :
    let s := { base with sr := Sr.ofWord 0x2300, ipl := 4 }
    let r := { base with sr := Sr.ofWord 0x2700, ipl := 7, prevIpl := 6, run := .stopped }
    (s.platform = .plain ∧ s.extReset = false ∧ isEven s.ssp = true ∧ s.interruptDue ∧ s.run = .normal) ∧
      r.platform = .plain ∧ r.extReset = false ∧ isEven r.ssp = true ∧ r.interruptDue ∧ r.run = .stopped ∧
        r.stopTrace = false := by
  simp only [interruptDue_iff]
  decide +kernel

theorem witness_HaltedAndStoppedRest :
    let h := { base with run := .halted }
    let s := { base with run := .stopped, sr := Sr.ofWord 0x2700, ipl := 7, prevIpl := 7 }
    let t := { base with run := .stopped, stopTrace := true }
    (h.extReset = false ∧ h.run = .halted) ∧
      (s.extReset = false ∧ s.run = .stopped ∧ s.stopTrace = false ∧ ¬s.interruptDue) ∧
      t.extReset = false ∧ t.run = .stopped ∧ t.stopTrace = true ∧ t.platform = .plain ∧ isEven t.ssp = true := by
  simp only [interruptDue_iff]
  decide +kernel

theorem witness_ExternalResetTaken :
    let s := { user with run := .halted, extReset := true }
    s.extReset = true ∧ s.platform = .plain := by decide +kernel

/-- A step that stores a byte. -/
theorem witness_StepKeepsMemoryCanonical :
    let s := placed [0x50D0] edge
    Memory.wf s.mem = true ∧ ∃ t, step s = .next t :=
  ⟨by decide +kernel, _, next_after (by decide +kernel)⟩

/-- One instruction that runs in user state and one that traps. -/
theorem witness_UserStateProtected :
    user.sr.s = false ∧ (∃ t, exec (.moveToCcr (.imm (.w 0xFFFF))) user = .next t) ∧
      ∃ t, exec (.moveToSr (.imm (.w 0xFFFF))) user = .next t :=
  ⟨by decide +kernel, ⟨_, next_after (by decide +kernel)⟩, _, next_after (by decide +kernel)⟩

theorem witness_SupervisorKeepsUsp :
    let s := { base with usp := 0x4000 }
    s.sr.s = true ∧ (∀ an, Instr.moveFromUsp 3 ≠ .moveToUsp an) ∧ ∃ t, exec (.moveFromUsp 3) s = .next t :=
  ⟨by decide +kernel, by simp, _, next_after (by decide +kernel)⟩

theorem witness_PartialRegisterWrite : Size.w.bits ≤ 16 := by decide +kernel

/-- Width 1, the least, for the statements about flags of any width. -/
theorem witness_AddFlagsExact_SubFlagsExact_ConditionsAfterCompareAndLogic : 0 < 1 := by decide

theorem witness_DecimalArithmetic : bcdValid 0x99 = true ∧ bcdValid 0x00 = true := by decide +kernel

/-- A postincremented word at the end of the address space; a long word there, which wraps; an odd byte. -/
theorem witness_AddSubToDataRegister :
    edge.ready ∧ (Ea.post 0).fits .w = true ∧ edge.operandAligned (.post 0) .w = true ∧ (Ea.ind 0).fits .l = true ∧
      edge.operandAligned (.ind 0) .l = true ∧ (Ea.disp 0 1).fits .b = true ∧ edge.operandAligned (.disp 0 1) .b = true := by
  decide +kernel

theorem witness_AddSubToDestination :
    edge.ready ∧ (Ea.pre 1).isMemoryAlterable = true ∧ edge.operandAligned (.pre 1) .l = true ∧
      (Ea.dn 7).isDataAlterable = true ∧ edge.operandAligned (.dn 7) (Imm.w 0xFFFF).size = true := by decide +kernel

/-- The field 0, which stands for 8, on memory and on an address register. -/
theorem witness_AddSubQuick :
    edge.ready ∧ (Ea.pre 1).isDataAlterable = true ∧ edge.operandAligned (.pre 1) .w = true ∧ Size.w ≠ .b := by
  decide +kernel

/-- The source names the destination register. -/
theorem witness_AddressRegisterArithmetic :
    edge.ready ∧ (Ea.post 0).fits .w = true ∧ edge.operandAligned (.post 0) .w = true ∧ (Ea.an 0).fits .l = true ∧
      edge.operandAligned (.an 0) .l = true := by decide +kernel

/-- Both operands through one register, downwards through address 0. -/
theorem witness_ExtendedArithmetic :
    edge.ready ∧ edge.operandAligned (.pre 1) .l = true ∧
      (edge.stepAddress (.pre 1) .l).operandAligned (.pre 1) .l = true := by decide +kernel

theorem witness_UnaryOperations :
    edge.ready ∧ (Ea.pre 1).isDataAlterable = true ∧ edge.operandAligned (.pre 1) .l = true := by decide +kernel

theorem witness_Comparisons :
    edge.ready ∧ (Ea.an 0).fits .l = true ∧ edge.operandAligned (.an 0) .l = true ∧
      (Ea.post 0).isDataAlterable = true ∧ edge.operandAligned (.post 0) (Imm.l 0).size = true ∧
      (Ea.post 0).fits .w = true ∧ edge.operandAligned (.post 0) .w = true ∧
      (edge.stepAddress (.post 0) .w).operandAligned (.post 0) .w = true := by decide +kernel

theorem witness_Multiplication :
    edge.ready ∧ (Ea.dn 0).isData = true ∧ (Ea.dn 0).fits .w = true ∧ edge.operandAligned (.dn 0) .w = true := by
  decide +kernel

/-- The last quotient that fits, unsigned; the first that does not; the last and the first, signed. -/
theorem witness_Division :
    let s := base.setDreg 0 0x0001FFFF
    let r := base.setDreg 0 0x00020000
    let p := base.setDreg 0 0xFFFF8000
    let q := base.setDreg 0 0x00008000
    let two := Ea.imm (.w 2)
    let one := Ea.imm (.w 1)
    s.ready ∧ two.isData = true ∧ two.fits .w = true ∧ s.operandAligned two .w = true ∧ s.operand two .w ≠ 0 ∧
      (s.dreg 0).toNat / (s.operand two .w).toNat < 2 ^ 16 ∧
      r.ready ∧ r.operandAligned two .w = true ∧ ¬(r.dreg 0).toNat / (r.operand two .w).toNat < 2 ^ 16 ∧
      p.ready ∧ p.operandAligned one .w = true ∧ p.operand one .w ≠ 0 ∧
      outOfRange 16 ((p.dreg 0).toInt.tdiv (p.operand one .w).toInt) = false ∧
      q.ready ∧ q.operandAligned one .w = true ∧
      outOfRange 16 ((q.dreg 0).toInt.tdiv (q.operand one .w).toInt) = true := by decide +kernel

theorem witness_ZeroDivideTraps :
    user.ready ∧ (Ea.post 0).isData = true ∧ (Ea.post 0).fits .w = true ∧ user.operandAligned (.post 0) .w = true ∧
      user.operand (.post 0) .w = 0 ∧ isEven (user.stepAddress (.post 0) .w).ssp = true := by decide +kernel

theorem witness_LogicToDataRegister :
    edge.ready ∧ (Ea.post 0).isData = true ∧ (Ea.post 0).fits .l = true ∧ edge.operandAligned (.post 0) .l = true := by
  decide +kernel

theorem witness_LogicToDestination :
    edge.ready ∧ edge.operandAligned (.pre 1) .l = true ∧ (Ea.pre 1).isMemoryAlterable = true ∧
      (Ea.pre 1).isDataAlterable = true ∧ edge.operandAligned (.pre 1) (Imm.b 0xFF).size = true := by decide +kernel

theorem witness_ShiftsAreOneBitSteps :
    ((roxr, .roxr) : Shift Size.b.bits × ShiftKind) ∈ ([(asl, .asl), (asr, .asr), (lsl, .lsl), (lsr, .lsr), (rol, .rol),
      (ror, .ror), (roxl, .roxl), (roxr, .roxr)] : List (Shift Size.b.bits × ShiftKind)) := by simp

/-- Memory under the last address; a register count of 63, whose register is all ones. -/
theorem witness_ShiftInstructions :
    edge.ready ∧ (Ea.ind 0).isMemoryAlterable = true ∧ edge.operandAligned (.ind 0) .w = true ∧
      (edge.dreg 1).toNat % 64 = 63 := by decide +kernel

/-- The highest bit number, static and dynamic. -/
theorem witness_BitsOfDataRegister : edge.ready ∧ (255 : Byte).toNat % 32 = 31 ∧ (edge.dreg 0).toNat % 32 = 31 := by
  decide +kernel

theorem witness_BitsOfMemory :
    edge.ready ∧ (Instr.btstStatic 7 (.pcDisp 1)).wellFormed = true ∧
      (Instr.btstDynamic 7 (.imm (.b 0x80))).wellFormed = true ∧ (∀ n, Ea.pcDisp 1 ≠ .dn n) ∧
      (Ea.disp 0 1).isMemoryAlterable = true := by
  refine ⟨by decide +kernel, by decide +kernel, by decide +kernel, by simp, by decide +kernel⟩

theorem witness_DecimalInstructions : edge.ready ∧ (Ea.pre 7).isDataAlterable = true := by decide +kernel

theorem witness_MoveInstruction :
    edge.ready ∧ (Ea.post 0).isDataAlterable = true ∧ (Ea.post 0).fits .l = true ∧ edge.operandAligned (.post 0) .l = true ∧
      (edge.stepAddress (.post 0) .l).operandAligned (.post 0) .l = true := by decide +kernel

theorem witness_EffectiveAddresses :
    user.ready ∧ (Ea.pcIdx { isAddr := true, reg := 7, long := true, disp := 0x80 }).isControl = true ∧
      isEven (user.areg 7) = true ∧ isMemoryEa (.absW 0x8000) = true ∧
      ∀ n, Ea.absW 0x8000 ≠ .post n ∧ Ea.absW 0x8000 ≠ .pre n :=
  ⟨by decide +kernel, by decide +kernel, by decide +kernel, by decide +kernel, by decide +kernel⟩

/-- With `A7` and with another register. -/
theorem witness_LinkAndUnlink :
    user.ready ∧ isEven (user.areg 7) = true ∧ isEven (user.areg 6) = true := by decide +kernel

/-- Every register, the predecremented one among them; an empty mask at an odd address; every register from address 0. -/
theorem witness_MoveRegistersToMemory :
    edge.ready ∧ (Ea.pre 1).isMovemToMem = true ∧ isEven (edge.areg 1) = true ∧
      (maskRegisters 0xFFFF true).length = 16 ∧ (maskRegisters 0 true).length = 0 ∧
      (Ea.ind 1).isMovemToMem = true ∧ (∀ n, Ea.ind 1 ≠ .pre n) ∧ isEven (edge.effectiveAddress (.ind 1) .l) = true := by
  refine ⟨by decide +kernel, by decide +kernel, by decide +kernel, by decide +kernel, by decide +kernel, by decide +kernel,
    by simp, by decide +kernel⟩

theorem witness_MoveMemoryToRegisters :
    edge.ready ∧ (Ea.post 0).isMovemToReg = true ∧
      isEven ((edge.advanced 1).effectiveAddress (.post 0) WideSize.l.toSize) = true := by decide +kernel

theorem witness_MovePeripheral : edge.ready := by decide +kernel

theorem witness_StoreOperations :
    edge.ready ∧ (Ea.pre 1).isDataAlterable = true ∧ edge.operandAligned (.pre 1) .w = true := by decide +kernel

theorem witness_BranchesAndJumps :
    edge.ready ∧ (BranchDisp.byte 0xFF).wellFormed = true ∧ (BranchDisp.word 0).wellFormed = true ∧
      Cond.le.isBranch = true ∧ (Ea.ind 0).isControl = true := by decide +kernel

theorem witness_CallsAndReturns :
    user.ready ∧ isEven (user.areg 7) = true ∧ (BranchDisp.byte 1).wellFormed = true ∧
      (Ea.absL 0xFFFFFFFF).isControl = true := by decide +kernel

theorem witness_CallThenReturn :
    user.ready ∧ isEven (user.areg 7) = true ∧
      ((Instr.bsr (.word 0x8000)).wellFormed = true ∧ ∃ t, exec (.bsr (.word 0x8000)) user = .next t) ∧
      (Instr.jsr (.absL 0xFFFFFF)).wellFormed = true ∧ ∃ t, exec (.jsr (.absL 0xFFFFFF)) user = .next t :=
  ⟨by decide +kernel, by decide +kernel, ⟨by decide +kernel, _, next_after (by decide +kernel)⟩, by decide +kernel, _,
    next_after (by decide +kernel)⟩

theorem witness_ConditionCodeWrites :
    user.ready ∧ (Ea.post 0).isData = true ∧ (Ea.post 0).fits .w = true ∧ user.operandAligned (.post 0) .w = true := by
  decide +kernel

theorem witness_SupervisorInstructions :
    edge.sr.s = true ∧ edge.ready ∧ (Ea.post 0).isData = true ∧ (Ea.post 0).fits .w = true ∧
      edge.operandAligned (.post 0) .w = true ∧ isEven edge.ssp = true := by decide +kernel

theorem witness_PrivilegeViolationTaken :
    user.sr.s = false ∧ user.platform = .plain ∧ isEven user.ssp = true ∧
      (∀ i ∈ [Instr.oriToSr 0, .andiToSr 0, .eoriToSr 0, .stop 0, .moveToSr (.dn 0), .moveToUsp 7, .moveFromUsp 7, .reset,
        .rte], i.wellFormed = true) := by decide +kernel

theorem witness_TrapInstructions :
    user.sr.v = true ∧ base.sr.v = false ∧ user.platform = .plain ∧ isEven user.ssp = true := by decide +kernel

/-- The value 0, the bound itself, below zero, above the bound. -/
theorem witness_CheckBounds :
    let ea := Ea.imm (.w 10)
    let value := fun n : Long => ((((user.setDreg 0 n).dreg 0).setWidth 16).toInt, ((user.setDreg 0 n).operand ea .w).toInt)
    user.ready ∧ ea.isData = true ∧ ea.fits .w = true ∧ user.operandAligned ea .w = true ∧
      value 0 = (0, 10) ∧ value 10 = (10, 10) ∧ value 0xFFFF = (-1, 10) ∧ value 11 = (11, 10) ∧
      isEven (user.stepAddress ea .w).ssp = true := by decide +kernel

theorem witness_TrapThenReturn :
    user.platform = .plain ∧ isEven user.ssp = true ∧ ∃ t, exec (.trap 15) user = .next t :=
  ⟨by decide +kernel, by decide +kernel, _, next_after (by decide +kernel)⟩

/-- A word at the last address of a region, the first address of another, memory in a space of its own, a write of
another master, and a reset that is due. -/
theorem witness_PlatformCycles :
    let r := Region.mk .busError 0xFF 0x4000 0x4002 true true true true
    let q := Region.mk .device 0xFF 0x4002 0x5000 true true true true
    let w := SpaceWindow.mk 0x44 0 0x1000000 0x1000000
    let s := { base with platform := { regions := [r, q], spaces := [w], writes := [[(5, 1)]], resetAfter := some 1 } }
    let b := s.cycleBegun
    isEven 0x4000 = true ∧ s.platform.resetAfter ≠ some 0 ∧ b.busFault 6 0x4000 true true = true ∧
      b.busFault 5 0x4000 false true = true ∧ b.busFault 6 0x4002 true true = false ∧
      b.atDevice 6 0x4002 true true = true ∧ b.busFault 5 0x4002 false true = false ∧
      b.atDevice 5 0x4002 false true = true ∧ b.busFault 6 0x5000 true true = false ∧
      b.atDevice 6 0x5000 true true = false ∧ b.busFault 6 0x5000 false true = false ∧
      b.atDevice 6 0x5000 false true = false ∧
      b.platform.cell 6 (physical 0x5000) ≠ b.platform.cell 6 (physical (0x5000 + 1)) ∧
      b.platform.resetAfter = some 0 := by decide +kernel

theorem witness_GroupZeroFrame : user.platform = .plain ∧ isEven user.ssp = true ∧ user.xgroup = .none := by decide +kernel

/-- The last byte of the address space, in user state and in supervisor state; `A7` itself odd. -/
theorem witness_MisalignedSourceFaults :
    let s := user.setAreg 0 0xFFFFFF
    let r := base.setAreg 0 0xFFFFFF
    let q := base.setAreg 7 0x8001
    s.ready ∧ s.xgroup = .none ∧ r.ready ∧ r.xgroup = .none ∧ q.ready ∧ q.xgroup = .none ∧
      (∀ i ∈ [Instr.addToDn .w (.post 0) 7, .tst .w (.post 0), .moveL (.post 0) (.pre 7), .moveaW (.post 0) 0,
        .cmpaL (.post 0) 1, .divs (.post 0) 3, .chk (.post 0) 2, .moveToCcr (.post 0), .cmpm .l 0 0],
        i.wellFormed = true ∧ isPrivileged i = false) ∧
      s.operandAligned (.post 0) .w = false ∧ s.operandAligned (.post 0) .l = false ∧
      (Instr.moveToSr (.post 0)).wellFormed = true ∧ r.sr.s = true ∧ r.operandAligned (.post 0) .w = false ∧
      (Instr.movemToReg .l 0xFFFF (.post 0)).wellFormed = true ∧
      (s.advanced 1).operandAligned (.post 0) .l = false ∧
      (Instr.addxMem .w 7 7).wellFormed = true ∧ q.operandAligned (.pre 7) .w = false := by decide +kernel

theorem witness_DoubleFaultHalts :
    State.reset.xgroup = .g0 ∧ isEven { base with ssp := 0x7FFF }.ssp = false := by decide +kernel

end Sys2Proof.Tests
end

section
/-! The mode of the machine (S, T, the mask, the stack pointer that S does not select) through processing: what every
operation of the model keeps of it. -/

namespace Sys2Proof.Machine

/-! ### The relation that processing keeps -/

/-- The bits of the status register that are no condition codes agree (10_state.md R31). -/
structure Sr.SameSystemByte (a b : Sr) : Prop where
  trace : b.t = a.t
  supervisor : b.s = a.s
  mask : b.i = a.i

/-- `t` is reached from `s` within one privilege state: S, T, the mask and the stack pointer that S does not select are
as they were (10_state.md R27, R34), and so is the exception in progress. A plain platform stays plain, and no external
reset is scheduled on the way. -/
structure Within (s t : State) : Prop where
  sr : s.sr.SameSystemByte t.sr
  usp : s.sr.s = true → t.usp = s.usp
  ssp : s.sr.s = false → t.ssp = s.ssp
  xgroup : t.xgroup = s.xgroup
  plain : s.platform = .plain → t.platform = .plain
  noReset : s.platform.resetAfter = none → t.platform.resetAfter = none

theorem Within.refl (s : State) : Within s s := ⟨⟨rfl, rfl, rfl⟩, fun _ => rfl, fun _ => rfl, rfl, id, id⟩

theorem Within.trans {s t u : State} (h : Within s t) (k : Within t u) : Within s u where
  sr := ⟨k.sr.trace.trans h.sr.trace, k.sr.supervisor.trans h.sr.supervisor, k.sr.mask.trans h.sr.mask⟩
  usp hs := (k.usp (h.sr.supervisor.trans hs)).trans (h.usp hs)
  ssp hs := (k.ssp (h.sr.supervisor.trans hs)).trans (h.ssp hs)
  xgroup := k.xgroup.trans h.xgroup
  plain hp := k.plain (h.plain hp)
  noReset hn := k.noReset (h.noReset hn)

/-- An update of none of the fields that `Within` speaks of. -/
theorem within_of_eq {s t : State} (hsr : t.sr = s.sr) (hu : t.usp = s.usp) (hp : t.ssp = s.ssp)
    (hx : t.xgroup = s.xgroup) (hpl : t.platform = s.platform) : Within s t where
  sr := by rw [hsr]; exact ⟨rfl, rfl, rfl⟩
  usp _ := hu
  ssp _ := hp
  xgroup := hx
  plain h := by rw [hpl, h]
  noReset h := by rw [hpl, h]

theorem within_setDreg (s : State) (n : Reg) (v : Long) : Within s (s.setDreg n v) := within_of_eq rfl rfl rfl rfl rfl

theorem within_setPc (s : State) (v : Long) : Within s (s.setPc v) := within_of_eq rfl rfl rfl rfl rfl

theorem within_record (s : State) (e : BusEvent) : Within s (s.record e) := within_of_eq rfl rfl rfl rfl rfl

theorem within_drawn (s : State) : Within s s.drawn := within_of_eq rfl rfl rfl rfl rfl

theorem within_setCell (s : State) (fc : BitVec 3) (a : Long) (v : Byte) : Within s (s.setCell fc a v) :=
  within_of_eq rfl rfl rfl rfl rfl

theorem within_tookWord (s : State) (w : Word) : Within s (s.tookWord w) := within_of_eq rfl rfl rfl rfl rfl

theorem within_halt (s : State) : Within s s.halt := within_of_eq rfl rfl rfl rfl rfl

theorem within_setSr {s : State} {sr : Sr} (h : s.sr.SameSystemByte sr) : Within s (s.setSr sr) :=
  ⟨h, fun _ => rfl, fun _ => rfl, rfl, id, id⟩

theorem within_cycleBegun (s : State) : Within s s.cycleBegun where
  sr := ⟨rfl, rfl, rfl⟩
  usp _ := rfl
  ssp _ := rfl
  xgroup := rfl
  plain h := by simp [State.cycleBegun, h, Platform.plain]
  noReset h := by simp [State.cycleBegun, h]

/-- A write of an address register reaches the stack pointer that S selects alone (10_state.md R27). -/
theorem within_setAreg (s : State) (n : Reg) (v : Long) : Within s (s.setAreg n v) where
  sr := by rw [setAreg_sr]; exact ⟨rfl, rfl, rfl⟩
  usp := (setAreg_sameAddressBut s n v).2.1
  ssp := (setAreg_sameAddressBut s n v).2.2
  xgroup := setAreg_xgroup s n v
  plain h := (setAreg_platform s n v).trans h
  noReset h := by rw [setAreg_platform]; exact h

theorem within_setXreg (s : State) (x : Fin 16) (v : Long) : Within s (s.setXreg x v) := by
  unfold State.setXreg
  split
  · exact within_setDreg _ _ _
  · exact within_setAreg _ _ _

theorem within_setDregLow {w : Nat} (s : State) (n : Reg) (v : BitVec w) : Within s (s.setDregLow n v) :=
  within_setDreg _ _ _

theorem within_stepAddress (s : State) (ea : Ea) (sz : Size) : Within s (s.stepAddress ea sz) := by
  cases ea with
  | post n => exact within_setAreg _ _ _
  | pre n => exact within_setAreg _ _ _
  | _ => exact Within.refl s

/-! ### What an abort leaves open -/

/-- An item that is a register (60_exceptions.md R394). -/
def Unsettled.isRegister : Unsettled → Bool
  | .either _ _ | .low _ _ => true
  | .status _ => false

@[simp] theorem isRegister_either (x : Fin 16) (v : Long) : (Unsettled.either x v).isRegister = true := rfl

@[simp] theorem isRegister_low (x : Fin 16) (n : Nat) : (Unsettled.low x n).isRegister = true := rfl

/-- Every item left open is a register. -/
def OnlyRegisters (items : Alt) : Prop := items.all Unsettled.isRegister = true

@[simp] theorem onlyRegisters_nil : OnlyRegisters [] := rfl

@[simp] theorem onlyRegisters_cons (u : Unsettled) (items : Alt) :
    OnlyRegisters (u :: items) ↔ u.isRegister = true ∧ OnlyRegisters items := by
  simp [OnlyRegisters]

@[simp] theorem onlyRegisters_append (x y : Alt) : OnlyRegisters (x ++ y) ↔ OnlyRegisters x ∧ OnlyRegisters y := by
  simp [OnlyRegisters, List.all_append, -List.all_eq_true]

theorem onlyRegisters_ite {c : Prop} [Decidable c] {x y : Alt} (hx : OnlyRegisters x) (hy : OnlyRegisters y) :
    OnlyRegisters (if c then x else y) := by
  split
  · exact hx
  · exact hy

theorem within_settleItem {s : State} {u : Unsettled} (h : u.isRegister = true) : Within s (settleItem s u) := by
  cases u with
  | either x v =>
    simp only [settleItem]
    split
    · exact (within_drawn s).trans (within_setXreg _ _ _)
    · exact within_drawn s
  | low x n => exact (within_drawn s).trans (within_setXreg _ _ _)
  | status w => cases h

theorem within_settle {items : Alt} (h : OnlyRegisters items) (s : State) : Within s (settle items s) := by
  induction items generalizing s with
  | nil => exact Within.refl s
  | cons u items ih =>
    obtain ⟨hu, hitems⟩ := (onlyRegisters_cons u items).mp h
    exact (within_settleItem hu).trans (ih hitems _)

/-! ### Processing -/

/-- Every run of `x` ends in `Q` of the states where it completes, in `E` where it is aborted. -/
def Runs {α : Type} (Q : State → State → Prop) (E : State → Abort → State → Prop) (x : M α) : Prop :=
  ∀ s, match x s with
    | .ok _ t => Q s t
    | .error e t => E s e t

theorem Runs.ok {α : Type} {Q E} {x : M α} (h : Runs Q E x) {s t : State} {a : α} (e : x s = .ok a t) : Q s t := by
  have := h s
  rwa [e] at this

theorem Runs.error {α : Type} {Q E} {x : M α} (h : Runs Q E x) {s t : State} {a : Abort} (e : x s = .error a t) :
    E s a t := by
  have := h s
  rwa [e] at this

theorem runs_bind {α β : Type} {Q₁ Q₂ Q E₁ E₂ E} {x : M α} {f : α → M β} (hx : Runs Q₁ E₁ x)
    (hf : ∀ a, Runs Q₂ E₂ (f a)) (hQ : ∀ {s t u}, Q₁ s t → Q₂ t u → Q s u) (hE₁ : ∀ {s e t}, E₁ s e t → E s e t)
    (hE₂ : ∀ {s t e u}, Q₁ s t → E₂ t e u → E s e u) : Runs Q E (x >>= f) := fun s => by
  rw [bind_apply]
  cases h : x s with
  | ok a t =>
    have key := hf a t
    dsimp only
    cases k : f a t with
    | ok b u => rw [k] at key; exact hQ (hx.ok h) key
    | error e u => rw [k] at key; exact hE₂ (hx.ok h) key
  | error e t => exact hE₁ (hx.error h)

theorem runs_get {α : Type} {Q E} {f : State → M α} (h : ∀ s, Runs Q E (f s)) : Runs Q E (get >>= f) := fun s => h s s

theorem runs_modify {Q E} {f : State → State} (h : ∀ s, Q s (f s)) : Runs Q E (modify f : M Unit) := h

/-- Aborted within one privilege state; what is left open satisfies `A`, and a reset was scheduled if one came. -/
structure StoppedWithin (A : Alt → Prop) (s : State) (e : Abort) (t : State) : Prop where
  within : Within s t
  items : ∀ f, e = .access f → A f.alt
  reset : e = .reset → s.platform.resetAfter ≠ none

theorem Within.stopped {A s t e u} (h : Within s t) (k : StoppedWithin A t e u) : StoppedWithin A s e u :=
  ⟨h.trans k.within, k.items, fun he hn => k.reset he (h.noReset hn)⟩

/-- Processing that stays within one privilege state; the items an abort leaves open satisfy `A`. -/
def QuietWith {α : Type} (A : Alt → Prop) (x : M α) : Prop := Runs Within (StoppedWithin A) x

/-- Processing that stays within one privilege state and leaves registers alone open. -/
abbrev Quiet {α : Type} (x : M α) : Prop := QuietWith OnlyRegisters x

section
variable {α β : Type} {A : Alt → Prop}

theorem quiet_pure (a : α) : QuietWith A (pure a : M α) := fun s => Within.refl s

theorem quiet_get : QuietWith A (get : M State) := fun s => Within.refl s

theorem quiet_modify {f : State → State} (h : ∀ s, Within s (f s)) : QuietWith A (modify f : M Unit) := fun s => h s

theorem quiet_bind {x : M α} {f : α → M β} (hx : QuietWith A x) (hf : ∀ a, QuietWith A (f a)) :
    QuietWith A (x >>= f) :=
  runs_bind hx hf Within.trans id Within.stopped

theorem quiet_ite {c : Prop} [Decidable c] {x y : M α} (hx : QuietWith A x) (hy : QuietWith A y) :
    QuietWith A (if c then x else y) := by
  split
  · exact hx
  · exact hy

theorem quiet_leavingOpen {items : Alt} (hi : OnlyRegisters items) {x : M α} (hx : Quiet x) :
    Quiet (leavingOpen items x) := fun s => by
  unfold leavingOpen
  cases h : x s with
  | ok a t => exact hx.ok h
  | error e t =>
    have k := hx.error h
    cases e with
    | access f =>
      refine ⟨k.within, fun g hg => ?_, fun he => by cases he⟩
      cases hg
      exact (onlyRegisters_append _ _).mpr ⟨k.items f rfl, hi⟩
    | reset => exact k

/-! ### Bus cycles -/

theorem quiet_beginCycle : QuietWith A beginCycle := fun s => by
  unfold beginCycle
  by_cases h : s.platform.resetAfter = some 0
  · rw [if_pos h]
    exact ⟨Within.refl s, fun _ hf => (by cases hf), fun _ hn => by rw [h] at hn; cases hn⟩
  · rw [if_neg h]
    exact within_cycleBegun s

/-- A bus error leaves open what the access says. -/
theorem stoppedWithin_access {alt : Alt} (hA : A alt) {s t : State} (h : Within s t) (k : AccessKind) (a : Long)
    (r : Bool) (fc : BitVec 3) : StoppedWithin A s (.access ⟨k, a, r, fc, alt⟩) t :=
  ⟨h, fun f hf => by cases hf; exact hA, fun he => by cases he⟩

theorem quiet_cycle {alt : Alt} (hA : A alt) {device memory : State → State × α} (hd : ∀ s, Within s (device s).1)
    (hm : ∀ s, Within s (memory s).1) (fc : BitVec 3) (a : Long) (r w : Bool) :
    QuietWith A (cycle fc a r w alt device memory) :=
  quiet_bind quiet_beginCycle fun _ s => by
    unfold answerCycle
    by_cases hf : s.busFault fc a r w = true
    · rw [if_pos hf]
      exact stoppedWithin_access hA (within_record _ _) _ _ _ _
    · rw [if_neg hf]
      by_cases hv : s.atDevice fc a r w = true
      · rw [if_pos hv]
        exact hd s
      · rw [if_neg hv]
        exact hm s

variable {alt : Alt} (hA : A alt)
include hA

theorem quiet_readByteCycle (fc : BitVec 3) (a : Long) : QuietWith A (readByteCycle fc a alt) :=
  quiet_cycle hA (fun _ => (within_drawn _).trans (within_record _ _)) (fun _ => within_record _ _) _ _ _ _

theorem quiet_readWordCycle (fc : BitVec 3) (a : Long) : QuietWith A (readWordCycle fc a alt) :=
  quiet_cycle hA (fun _ => (within_drawn _).trans (within_record _ _)) (fun _ => within_record _ _) _ _ _ _

theorem quiet_writeByteCycle (fc : BitVec 3) (a : Long) (v : Byte) : QuietWith A (writeByteCycle fc a v alt) :=
  quiet_cycle hA (fun _ => within_record _ _) (fun _ => (within_setCell _ _ _ _).trans (within_record _ _)) _ _ _ _

theorem quiet_writeWordCycle (fc : BitVec 3) (a : Long) (v : Word) : QuietWith A (writeWordCycle fc a v alt) :=
  quiet_cycle hA (fun _ => within_record _ _)
    (fun _ => ((within_setCell _ _ _ _).trans (within_setCell _ _ _ _)).trans (within_record _ _)) _ _ _ _

theorem quiet_requireEven (fc : BitVec 3) (a : Long) (r : Bool) : QuietWith A (requireEven fc a r alt) := fun s => by
  unfold requireEven
  by_cases h : a.getLsbD 0 = true
  · rw [if_pos h]
    exact stoppedWithin_access hA (Within.refl s) _ _ _ _
  · rw [if_neg h]
    exact Within.refl s

omit hA in
theorem quiet_openOrder (b : Bool) : QuietWith A (openOrder b) := fun s => by
  unfold openOrder
  by_cases h : s.platform = .plain
  · rw [if_pos h]
    exact Within.refl s
  · rw [if_neg h]
    exact within_drawn s

theorem quiet_readHighFirst (fc : BitVec 3) (a : Long) : QuietWith A (readHighFirst fc a alt) :=
  quiet_bind (quiet_readWordCycle hA _ _) fun _ => quiet_bind (quiet_readWordCycle hA _ _) fun _ => quiet_pure _

theorem quiet_readLowFirst (fc : BitVec 3) (a : Long) : QuietWith A (readLowFirst fc a alt) :=
  quiet_bind (quiet_readWordCycle hA _ _) fun _ => quiet_bind (quiet_readWordCycle hA _ _) fun _ => quiet_pure _

theorem quiet_memRead (sz : Size) (fc : BitVec 3) (a : Long) : QuietWith A (memRead sz fc a alt) := by
  cases sz with
  | b => exact quiet_readByteCycle hA _ _
  | w => exact quiet_bind (quiet_requireEven hA _ _ _) fun _ => quiet_readWordCycle hA _ _
  | l =>
    exact quiet_bind (quiet_requireEven hA _ _ _) fun _ => quiet_bind (quiet_openOrder _) fun _ =>
      quiet_ite (quiet_readLowFirst hA _ _) (quiet_readHighFirst hA _ _)

theorem quiet_memWrite (sz : Size) (fc : BitVec 3) (a : Long) (v : BitVec sz.bits) (lowFirst : Bool) :
    QuietWith A (memWrite sz fc a v alt lowFirst) := by
  cases sz with
  | b => exact quiet_writeByteCycle hA _ _ _
  | w => exact quiet_bind (quiet_requireEven hA _ _ _) fun _ => quiet_writeWordCycle hA _ _ _
  | l =>
    exact quiet_bind (quiet_requireEven hA _ _ _) fun _ => quiet_bind (quiet_openOrder _) fun _ =>
      quiet_ite (quiet_bind (quiet_writeWordCycle hA _ _ _) fun _ => quiet_writeWordCycle hA _ _ _)
        (quiet_bind (quiet_writeWordCycle hA _ _ _) fun _ => quiet_writeWordCycle hA _ _ _)

theorem quiet_readModifyWrite (fc : BitVec 3) (a : Long) (f : Byte → Byte) :
    QuietWith A (readModifyWrite fc a alt f) :=
  quiet_bind quiet_beginCycle fun _ s => by
    have hread : Within s (if s.atDevice fc a true false then s.drawn else s) := by
      split
      · exact within_drawn s
      · exact Within.refl s
    unfold answerReadModifyWrite
    by_cases hr : s.busFault fc a true false = true
    · rw [if_pos hr]
      exact stoppedWithin_access hA (within_record _ _) _ _ _ _
    · rw [if_neg hr]
      by_cases hw : s.busFault fc a false false = true
      · simp only [hw, if_true]
        exact stoppedWithin_access hA (hread.trans (within_record _ _)) _ _ _ _
      · simp only [hw]
        refine hread.trans (Within.trans ?_ (within_record _ _))
        by_cases hd : s.atDevice fc a false false = true
        · rw [if_pos hd]
          exact Within.refl _
        · rw [if_neg hd]
          exact within_setCell _ _ _ _

end

/-! ### Instruction words, free values, the stack -/

theorem onlyRegisters_either (x : Fin 16) (v : Long) : OnlyRegisters [.either x v] := rfl

theorem onlyRegisters_low (x : Fin 16) (n : Nat) : OnlyRegisters [.low x n] := rfl

theorem quiet_fetchWord : Quiet fetchWord :=
  quiet_bind quiet_get fun _ => quiet_bind (quiet_memRead onlyRegisters_nil _ _ _) fun _ =>
    quiet_bind (quiet_modify fun _ => within_tookWord _ _) fun _ => quiet_pure _

theorem quiet_fetchWords : ∀ n, Quiet (fetchWords n)
  | 0 => quiet_pure _
  | n + 1 => quiet_bind quiet_fetchWord fun _ => quiet_fetchWords n

theorem quiet_drawBit : Quiet drawBit := within_drawn

theorem quiet_drawWord : Quiet drawWord := within_drawn

theorem quiet_drawLong : Quiet drawLong := within_drawn

theorem quiet_drawOneToFive : Quiet drawOneToFive := within_drawn

theorem quiet_pushLong (v : Long) : Quiet (pushLong v) :=
  quiet_bind quiet_get fun _ => quiet_bind (quiet_modify fun _ => within_setAreg _ _ _) fun _ =>
    quiet_memWrite (onlyRegisters_either _ _) _ _ _ _ _

theorem quiet_pushWord (v : Word) : Quiet (pushWord v) :=
  quiet_bind quiet_get fun _ => quiet_bind (quiet_modify fun _ => within_setAreg _ _ _) fun _ =>
    quiet_memWrite (onlyRegisters_either _ _) _ _ _ _ _

theorem quiet_popLong : Quiet popLong :=
  quiet_bind quiet_get fun _ => quiet_bind (quiet_memRead (onlyRegisters_either _ _) _ _ _) fun _ =>
    quiet_bind (quiet_modify fun _ => within_setAreg _ _ _) fun _ => quiet_pure _

theorem quiet_popWord : Quiet popWord :=
  quiet_bind quiet_get fun _ => quiet_bind (quiet_memRead (onlyRegisters_either _ _) _ _ _) fun _ =>
    quiet_bind (quiet_modify fun _ => within_setAreg _ _ _) fun _ => quiet_pure _

end Sys2Proof.Machine
end

section
/-! Operand forms and operand patterns keep the mode of the machine. -/

namespace Sys2Proof.Machine

/-! ### Operands -/

/-- What an access to a location leaves open is registers. -/
def Loc.OpensRegisters : Loc → Prop
  | .mem _ _ alt _ => OnlyRegisters alt
  | .dreg _ | .areg _ | .imm _ => True

theorem location_opensRegisters (s : State) (ea : Ea) (sz : Size) : (s.location ea sz).OpensRegisters := by
  cases ea <;> trivial

/-- An operand evaluated and then used, whatever location it names. -/
theorem quiet_evalEa_bind {α : Type} {f : Loc → M α} (ea : Ea) (sz : Size)
    (hf : ∀ loc : Loc, loc.OpensRegisters → Quiet (f loc)) : Quiet (evalEa ea sz >>= f) := by
  simp only [evalEa, bind_assoc, pure_bind]
  exact quiet_bind quiet_get fun s => quiet_bind (quiet_fetchWords _) fun _ =>
    quiet_bind (quiet_modify fun _ => within_stepAddress _ _ _) fun _ => hf _ (location_opensRegisters s ea sz)

theorem quiet_evalEa (ea : Ea) (sz : Size) : Quiet (evalEa ea sz) := by
  rw [← bind_pure (evalEa ea sz)]
  exact quiet_evalEa_bind ea sz fun _ _ => quiet_pure _

theorem quiet_readLoc {loc : Loc} (h : loc.OpensRegisters) (sz : Size) : Quiet (readLoc sz loc) := by
  cases loc with
  | dreg n => exact quiet_bind quiet_get fun _ => quiet_pure _
  | areg n => exact quiet_bind quiet_get fun _ => quiet_pure _
  | mem a program alt lf => exact quiet_bind quiet_get fun _ => quiet_memRead h _ _ _
  | imm v => exact quiet_pure _

theorem quiet_writeLoc {loc : Loc} (h : loc.OpensRegisters) (sz : Size) (v : BitVec sz.bits) :
    Quiet (writeLoc sz loc v) := by
  cases loc with
  | dreg n => exact quiet_modify fun _ => within_setDregLow _ _ _
  | areg n => exact quiet_modify fun _ => within_setAreg _ _ _
  | mem a program alt lf => exact quiet_bind quiet_get fun _ => quiet_memWrite h _ _ _ _ _
  | imm v => exact quiet_pure _

theorem quiet_readEa (sz : Size) (ea : Ea) : Quiet (readEa sz ea) :=
  quiet_evalEa_bind ea sz fun _ h => quiet_readLoc h sz

theorem quiet_controlAddress (ea : Ea) : Quiet (controlAddress ea) :=
  quiet_bind quiet_get fun _ => quiet_bind (quiet_evalEa _ _) fun _ => quiet_pure _

/-! ### Computations write condition codes alone -/

/-- A one-operand computation leaves the system byte of the status register alone. -/
def Unary.CodesOnly {w : Nat} (op : Unary w) : Prop := ∀ (d : BitVec w) (sr : Sr), sr.SameSystemByte (op d sr).2

/-- A two-operand computation leaves the system byte of the status register alone. -/
def Binary.CodesOnly {w : Nat} (op : Binary w) : Prop := ∀ (s d : BitVec w) (sr : Sr), sr.SameSystemByte (op s d sr).2

theorem codesOnly_addOp {w : Nat} : Binary.CodesOnly (addOp (w := w)) := fun _ _ _ => ⟨rfl, rfl, rfl⟩
theorem codesOnly_subOp {w : Nat} : Binary.CodesOnly (subOp (w := w)) := fun _ _ _ => ⟨rfl, rfl, rfl⟩
theorem codesOnly_addxOp {w : Nat} : Binary.CodesOnly (addxOp (w := w)) := fun _ _ _ => ⟨rfl, rfl, rfl⟩
theorem codesOnly_subxOp {w : Nat} : Binary.CodesOnly (subxOp (w := w)) := fun _ _ _ => ⟨rfl, rfl, rfl⟩
theorem codesOnly_andOp {w : Nat} : Binary.CodesOnly (andOp (w := w)) := fun _ _ _ => ⟨rfl, rfl, rfl⟩
theorem codesOnly_orOp {w : Nat} : Binary.CodesOnly (orOp (w := w)) := fun _ _ _ => ⟨rfl, rfl, rfl⟩
theorem codesOnly_eorOp {w : Nat} : Binary.CodesOnly (eorOp (w := w)) := fun _ _ _ => ⟨rfl, rfl, rfl⟩
theorem codesOnly_notOp {w : Nat} : Unary.CodesOnly (notOp (w := w)) := fun _ _ => ⟨rfl, rfl, rfl⟩
theorem codesOnly_negOp {w : Nat} : Unary.CodesOnly (negOp (w := w)) := fun _ _ => ⟨rfl, rfl, rfl⟩
theorem codesOnly_negxOp {w : Nat} : Unary.CodesOnly (negxOp (w := w)) := fun _ _ => ⟨rfl, rfl, rfl⟩

/-- An update of the status register that writes condition codes alone. -/
theorem quiet_modifySr {f : State → Sr} (h : ∀ s : State, s.sr.SameSystemByte (f s)) :
    Quiet (modify fun s => s.setSr (f s)) := quiet_modify fun s => within_setSr (h s)

/-! ### Operand patterns -/

theorem quiet_setCompare {w : Nat} (v d : BitVec w) : Quiet (setCompare v d) := quiet_modifySr fun _ => ⟨rfl, rfl, rfl⟩

theorem quiet_setLogic {w : Nat} (v : BitVec w) : Quiet (setLogic v) := quiet_modifySr fun _ => ⟨rfl, rfl, rfl⟩

/-- The status register computed before further processing, and written after it. -/
theorem quiet_setSr_after {x : State → M Unit} {f : State → Sr} (hx : ∀ s, Quiet (x s))
    (h : ∀ s : State, s.sr.SameSystemByte (f s)) :
    Quiet (do
      let s ← get
      x s
      modify fun t => t.setSr (f s)) := fun s => by
  simp only [bind_apply, get_apply, modify_apply]
  cases k : x s s with
  | ok a t =>
    have hw := (hx s).ok k
    exact hw.trans (within_setSr ⟨(h s).trace.trans hw.sr.trace.symm, (h s).supervisor.trans hw.sr.supervisor.symm,
      (h s).mask.trans hw.sr.mask.symm⟩)
  | error e t => exact (hx s).error k

/-- The status register written before further processing. -/
theorem quiet_setSr_before {x : State → M Unit} {f : State → Sr} (hx : ∀ s, Quiet (x s))
    (h : ∀ s : State, s.sr.SameSystemByte (f s)) :
    Quiet (do
      let s ← get
      modify fun t => t.setSr (f s)
      x s) := fun s => by
  have key := quiet_bind (quiet_modifySr h) (fun _ => hx s) s
  simpa only [bind_apply, get_apply, modify_apply] using key

theorem quiet_modifyLoc {loc : Loc} (h : loc.OpensRegisters) {sz : Size} {op : Unary sz.bits} (hop : op.CodesOnly) :
    Quiet (modifyLoc sz loc op) :=
  quiet_bind (quiet_readLoc h sz) fun d => quiet_setSr_after (fun _ => quiet_writeLoc h sz _) fun s => hop d s.sr

theorem quiet_modifyEa {sz : Size} (ea : Ea) {op : Unary sz.bits} (hop : op.CodesOnly) : Quiet (modifyEa sz ea op) :=
  quiet_evalEa_bind ea sz fun _ h => quiet_modifyLoc h hop

theorem quiet_modifyEaCodesFirst {sz : Size} (ea : Ea) {op : Unary sz.bits} (hop : op.CodesOnly) :
    Quiet (modifyEaCodesFirst sz ea op) :=
  quiet_evalEa_bind ea sz fun _ h => quiet_bind (quiet_readLoc h sz) fun d =>
    quiet_setSr_before (fun _ => quiet_writeLoc h sz _) fun s => hop d s.sr

theorem quiet_eaToDn {sz : Size} (ea : Ea) (dn : Reg) {op : Binary sz.bits} (hop : op.CodesOnly) :
    Quiet (eaToDn sz ea dn op) :=
  quiet_bind (quiet_readEa _ _) fun _ =>
    quiet_modify fun _ => (within_setDregLow _ _ _).trans (within_setSr (hop _ _ _))

theorem quiet_dnToEa {sz : Size} (dn : Reg) (ea : Ea) {op : Binary sz.bits} (hop : op.CodesOnly) :
    Quiet (dnToEa sz dn ea op) :=
  quiet_bind quiet_get fun _ => quiet_modifyEa ea (hop _)

theorem quiet_immToEa (v : Imm) (ea : Ea) {op : Binary v.size.bits} (hop : op.CodesOnly) : Quiet (immToEa v ea op) :=
  quiet_bind (quiet_fetchWords _) fun _ => quiet_modifyEa ea (hop _)

theorem quiet_eaToAn (sz : WideSize) (ea : Ea) (an : Reg) (op : Long → Long → Long) : Quiet (eaToAn sz ea an op) :=
  quiet_bind (quiet_readEa _ _) fun _ => quiet_modify fun _ => within_setAreg _ _ _

theorem quiet_regToReg {sz : Size} (dy dx : Reg) {op : Binary sz.bits} (hop : op.CodesOnly) :
    Quiet (regToReg sz dy dx op) :=
  quiet_modify fun _ => (within_setDregLow _ _ _).trans (within_setSr (hop _ _ _))

theorem quiet_memToMem {sz : Size} (ay ax : Reg) {op : Binary sz.bits} (hop : op.CodesOnly) :
    Quiet (memToMem sz ay ax op) :=
  quiet_bind (quiet_readEa _ _) fun _ => quiet_modifyEa _ (hop _)

/-! ### Arithmetic -/

theorem quiet_discardRead {loc : Loc} (h : loc.OpensRegisters) (sz : Size) : Quiet (discardRead sz loc) := by
  unfold discardRead
  exact quiet_ite (quiet_bind (quiet_readLoc h sz) fun _ => quiet_pure _) (quiet_pure _)

theorem quiet_clearEa (sz : Size) (ea : Ea) : Quiet (clearEa sz ea) :=
  quiet_evalEa_bind ea sz fun _ h => quiet_bind (quiet_discardRead h sz) fun _ =>
    quiet_bind (quiet_writeLoc h sz _) fun _ => quiet_modifySr fun _ => ⟨rfl, rfl, rfl⟩

theorem quiet_quickEa (q : Fin 8) {sz : Size} (ea : Ea) {op : Binary sz.bits} (hop : op.CodesOnly)
    (addressOp : Long → Long → Long) : Quiet (quickEa q sz ea op addressOp) := by
  cases ea with
  | an n => exact quiet_modify fun _ => within_setAreg _ _ _
  | _ => exact quiet_modifyEa _ (hop _)

theorem quiet_compareDn (sz : Size) (ea : Ea) (dn : Reg) : Quiet (compareDn sz ea dn) :=
  quiet_bind (quiet_readEa _ _) fun _ => quiet_bind quiet_get fun _ => quiet_setCompare _ _

theorem quiet_compareAn (sz : WideSize) (ea : Ea) (an : Reg) : Quiet (compareAn sz ea an) :=
  quiet_bind (quiet_readEa _ _) fun _ => quiet_bind quiet_get fun _ => quiet_setCompare _ _

theorem quiet_compareImm (v : Imm) (ea : Ea) : Quiet (compareImm v ea) :=
  quiet_bind (quiet_fetchWords _) fun _ => quiet_bind (quiet_readEa _ _) fun _ => quiet_setCompare _ _

theorem quiet_readThenStep (sz : Size) (n : Reg) : Quiet (readThenStep sz n) :=
  quiet_bind quiet_get fun _ => quiet_bind (quiet_memRead onlyRegisters_nil _ _ _) fun _ =>
    quiet_bind (quiet_modify fun _ => within_stepAddress _ _ _) fun _ => quiet_pure _

theorem quiet_compareMem (sz : Size) (ay ax : Reg) : Quiet (compareMem sz ay ax) :=
  quiet_bind (quiet_readThenStep _ _) fun _ => quiet_bind (quiet_readThenStep _ _) fun _ => quiet_setCompare _ _

theorem quiet_divideOverflow : Quiet divideOverflow :=
  quiet_bind quiet_drawBit fun _ => quiet_bind quiet_drawBit fun _ => quiet_modifySr fun _ => ⟨rfl, rfl, rfl⟩

theorem quiet_multiplyDn (ea : Ea) (dn : Reg) (multiply : Word → Word → Long) : Quiet (multiplyDn ea dn multiply) :=
  quiet_bind (quiet_readEa _ _) fun _ =>
    quiet_modify fun _ => (within_setDreg _ _ _).trans (within_setSr ⟨rfl, rfl, rfl⟩)

theorem quiet_extendDn (dn : Reg) (w : Nat) (f : Long → BitVec w) : Quiet (extendDn dn w f) :=
  quiet_modify fun _ => (within_setDregLow _ _ _).trans (within_setSr ⟨rfl, rfl, rfl⟩)

theorem quiet_testAndSet (ea : Ea) : Quiet (testAndSet ea) :=
  quiet_evalEa_bind ea .b fun loc h => by
    have register : Quiet (do
        let d : Byte ← readLoc .b loc
        setLogic d
        writeLoc .b loc (d ||| 0x80#8)) :=
      quiet_bind (quiet_readLoc h .b) fun _ => quiet_bind (quiet_setLogic _) fun _ => quiet_writeLoc h .b _
    cases loc with
    | mem a program alt lf =>
      exact quiet_bind quiet_get fun _ => quiet_bind (quiet_readModifyWrite h _ _ _) fun _ => quiet_setLogic _
    | _ => exact register

theorem quiet_testEa (sz : Size) (ea : Ea) : Quiet (testEa sz ea) :=
  quiet_bind (quiet_readEa _ _) fun _ => quiet_setLogic _

/-! ### Decimal arithmetic and bits -/

theorem quiet_setDecimal (r : Byte) (c : Bool) : Quiet (setDecimal r c) :=
  quiet_bind quiet_drawBit fun _ => quiet_bind quiet_drawBit fun _ => quiet_modifySr fun _ => ⟨rfl, rfl, rfl⟩

theorem quiet_decimalLoc {loc : Loc} (h : loc.OpensRegisters) (op : Byte → Bool → Byte × Bool) :
    Quiet (decimalLoc loc op) :=
  quiet_bind (quiet_readLoc h .b) fun _ => quiet_bind quiet_get fun _ =>
    quiet_bind (quiet_writeLoc h .b _) fun _ => quiet_setDecimal _ _

theorem quiet_decimalReg (dy dx : Reg) (op : Byte → Byte → Bool → Byte × Bool) : Quiet (decimalReg dy dx op) :=
  quiet_bind quiet_get fun _ => quiet_decimalLoc (loc := .dreg dx) trivial _

theorem quiet_decimalMem (ay ax : Reg) (op : Byte → Byte → Bool → Byte × Bool) : Quiet (decimalMem ay ax op) :=
  quiet_bind (quiet_readEa .b _) fun _ => quiet_evalEa_bind _ _ fun _ h => quiet_decimalLoc h _

theorem quiet_decimalNegate (ea : Ea) : Quiet (decimalNegate ea) :=
  quiet_evalEa_bind _ _ fun _ h => quiet_decimalLoc h _

theorem quiet_setZeroOfBit (bit : Bool) : Quiet (setZeroOfBit bit) := quiet_modifySr fun _ => ⟨rfl, rfl, rfl⟩

theorem quiet_bitTest (raw : Nat) (ea : Ea) : Quiet (bitTest raw ea) := by
  cases ea with
  | dn n => exact quiet_bind quiet_get fun _ => quiet_setZeroOfBit _
  | _ => exact quiet_bind (quiet_readEa .b _) fun _ => quiet_setZeroOfBit _

theorem quiet_bitChange (raw : Nat) (ea : Ea) (f : Bool → Bool) : Quiet (bitChange raw ea f) := by
  have memory : ∀ ea, Quiet (modifyEaCodesFirst .b ea fun (v : Byte) sr =>
      (setBit v (raw % 8) (f (v.getLsbD (raw % 8))), sr.zeroOfBit (v.getLsbD (raw % 8)))) :=
    fun ea => quiet_modifyEaCodesFirst ea fun _ _ => ⟨rfl, rfl, rfl⟩
  cases ea with
  | dn n =>
    exact quiet_bind quiet_get fun _ => quiet_bind (quiet_setZeroOfBit _) fun _ =>
      quiet_modify fun _ => within_setDreg _ _ _
  | _ => exact memory _

theorem quiet_bitOfRegister (dn : Reg) {k : Nat → M Unit} (h : ∀ n, Quiet (k n)) : Quiet (bitOfRegister dn k) :=
  quiet_bind quiet_get fun _ => h _

theorem quiet_bitOfWord (bit : Byte) {k : Nat → M Unit} (h : ∀ n, Quiet (k n)) : Quiet (bitOfWord bit k) :=
  quiet_bind (quiet_fetchWords _) fun _ => h _

/-! ### Program control -/

theorem quiet_branchTarget (d : BranchDisp) : Quiet (branchTarget d) :=
  quiet_bind quiet_get fun _ => quiet_bind (quiet_fetchWords _) fun _ => quiet_pure _

theorem quiet_branchIf (c : Cond) (d : BranchDisp) : Quiet (branchIf c d) :=
  quiet_bind (quiet_branchTarget d) fun _ => quiet_modify fun s => by
    split
    · exact within_setPc _ _
    · exact Within.refl s

theorem quiet_branchAlways (d : BranchDisp) : Quiet (branchAlways d) :=
  quiet_bind (quiet_branchTarget d) fun _ => quiet_modify fun _ => within_setPc _ _

theorem quiet_branchSubroutine (d : BranchDisp) : Quiet (branchSubroutine d) :=
  quiet_bind (quiet_branchTarget d) fun _ => quiet_bind quiet_get fun _ => quiet_bind (quiet_pushLong _) fun _ =>
    quiet_modify fun _ => within_setPc _ _

theorem quiet_decrementBranch (c : Cond) (dn : Reg) (d : Word) : Quiet (decrementBranch c dn d) :=
  quiet_bind quiet_get fun _ => quiet_bind (quiet_fetchWords _) fun _ => quiet_modify fun s => by
    split
    · exact Within.refl s
    · dsimp only
      split
      · exact (within_setDregLow _ _ _).trans (within_setPc _ _)
      · exact within_setDregLow _ _ _

theorem quiet_setByCondition (c : Cond) (ea : Ea) : Quiet (setByCondition c ea) :=
  quiet_evalEa_bind _ _ fun _ h => quiet_bind (quiet_discardRead h _) fun _ => quiet_bind quiet_get fun _ =>
    quiet_writeLoc h _ _

theorem quiet_jumpTo (ea : Ea) : Quiet (jumpTo ea) :=
  quiet_bind (quiet_controlAddress _) fun _ => quiet_modify fun _ => within_setPc _ _

theorem quiet_jumpSubroutine (ea : Ea) : Quiet (jumpSubroutine ea) :=
  quiet_bind (quiet_controlAddress _) fun _ => quiet_bind quiet_get fun _ => quiet_bind (quiet_pushLong _) fun _ =>
    quiet_modify fun _ => within_setPc _ _

theorem quiet_returnFromSubroutine : Quiet returnFromSubroutine :=
  quiet_bind quiet_popLong fun _ => quiet_modify fun _ => within_setPc _ _

theorem quiet_returnRestore : Quiet returnRestore :=
  quiet_bind quiet_popWord fun _ => quiet_bind (quiet_modifySr fun _ => ⟨rfl, rfl, rfl⟩) fun _ =>
    quiet_bind quiet_popLong fun _ => quiet_modify fun _ => within_setPc _ _

/-! ### Data movement -/

theorem quiet_exchange (x y : Fin 16) : Quiet (exchange x y) :=
  quiet_modify fun _ => (within_setXreg _ _ _).trans (within_setXreg _ _ _)

theorem quiet_moveEa (sz : Size) (src dst : Ea) : Quiet (moveEa sz src dst) :=
  quiet_bind (quiet_readEa _ _) fun _ => quiet_evalEa_bind _ _ fun _ h =>
    quiet_bind (quiet_writeLoc h _ _) fun _ => quiet_setLogic _

theorem quiet_storeUp (sz : Size) (mask : Word) : ∀ regs a, Quiet (storeUp sz mask regs a)
  | [], _ => quiet_pure _
  | _ :: rest, _ =>
    quiet_ite (quiet_bind quiet_get fun _ => quiet_bind (quiet_memWrite onlyRegisters_nil _ _ _ _ _) fun _ =>
      quiet_storeUp sz mask rest _) (quiet_storeUp sz mask rest _)

theorem quiet_storeDown (sz : Size) (mask : Word) (an : Reg) : ∀ regs a, Quiet (storeDown sz mask an regs a)
  | [], _ => quiet_pure _
  | _ :: rest, _ =>
    quiet_ite (quiet_bind quiet_get fun _ => quiet_bind (quiet_memWrite (onlyRegisters_either _ _) _ _ _ _ _) fun _ =>
      quiet_storeDown sz mask an rest _) (quiet_storeDown sz mask an rest _)

theorem onlyRegisters_runningAddress (an : Option Reg) (a : Long) : OnlyRegisters (runningAddress an a) := by
  cases an <;> rfl

theorem onlyRegisters_pendingLoads (mask : Word) (regs : List (Fin 16)) : OnlyRegisters (pendingLoads mask regs) := by
  simp [OnlyRegisters, pendingLoads]

theorem onlyRegisters_unmaskedStep (ea : Ea) : OnlyRegisters (unmaskedStep ea) := by
  cases ea <;> rfl

theorem quiet_loadUp (sz : Size) (mask : Word) (program : Bool) (an : Option Reg) :
    ∀ regs a, Quiet (loadUp sz mask program an regs a)
  | [], _ => quiet_pure _
  | _ :: rest, _ =>
    quiet_ite (quiet_bind quiet_get fun _ =>
      quiet_bind (quiet_leavingOpen (onlyRegisters_pendingLoads _ _)
        (quiet_memRead (onlyRegisters_runningAddress _ _) _ _ _)) fun _ =>
      quiet_bind (quiet_modify fun _ => within_setXreg _ _ _) fun _ => quiet_loadUp sz mask program an rest _)
      (quiet_loadUp sz mask program an rest _)

theorem quiet_moveRegistersToMemory (sz : Size) (mask : Word) (ea : Ea) : Quiet (moveRegistersToMemory sz mask ea) :=
  quiet_bind (quiet_leavingOpen (onlyRegisters_unmaskedStep _) (quiet_fetchWords _)) fun _ => by
    cases ea with
    | pre n =>
      exact quiet_bind quiet_get fun _ => quiet_bind (quiet_storeDown _ _ _ _ _) fun _ =>
        quiet_modify fun _ => within_setAreg _ _ _
    | _ =>
      exact quiet_bind quiet_get fun _ => quiet_bind (quiet_evalEa _ _) fun _ =>
        quiet_bind (quiet_storeUp _ _ _ _) fun _ => quiet_pure _

theorem quiet_moveMemoryToRegisters (sz : Size) (mask : Word) (ea : Ea) : Quiet (moveMemoryToRegisters sz mask ea) :=
  quiet_bind (quiet_leavingOpen (onlyRegisters_pendingLoads _ _) (quiet_fetchWords _)) fun _ => by
    cases ea with
    | post n =>
      exact quiet_bind quiet_get fun _ => quiet_bind (quiet_loadUp _ _ _ _ _ _) fun _ =>
        quiet_bind quiet_get fun _ => quiet_bind (quiet_memRead (onlyRegisters_runningAddress _ _) .w _ _) fun _ =>
        quiet_modify fun _ => within_setAreg _ _ _
    | _ =>
      exact quiet_bind quiet_get fun _ =>
        quiet_bind (quiet_leavingOpen (onlyRegisters_pendingLoads _ _) (quiet_evalEa _ _)) fun _ =>
        quiet_bind (quiet_loadUp _ _ _ _ _ _) fun _ => quiet_bind quiet_get fun _ =>
        quiet_bind (quiet_memRead onlyRegisters_nil .w _ _) fun _ => quiet_pure _

theorem quiet_movepAddress (d : Word) (ay : Reg) : Quiet (movepAddress d ay) :=
  quiet_bind (quiet_fetchWords _) fun _ => quiet_bind quiet_get fun _ => quiet_pure _

theorem quiet_movepRead (a : Long) : Quiet (movepRead a) :=
  quiet_bind quiet_get fun _ => quiet_memRead onlyRegisters_nil .b _ _

theorem quiet_movepWrite (a : Long) (v : Byte) : Quiet (movepWrite a v) :=
  quiet_bind quiet_get fun _ => quiet_memWrite onlyRegisters_nil .b _ _ _ _

theorem quiet_movepLoadWord (d : Word) (ay dx : Reg) : Quiet (movepLoadWord d ay dx) :=
  quiet_bind (quiet_movepAddress _ _) fun _ => quiet_bind (quiet_movepRead _) fun _ =>
    quiet_bind (quiet_modify fun _ => within_setDregLow _ _ _) fun _ => quiet_bind (quiet_movepRead _) fun _ =>
    quiet_modify fun _ => within_setDregLow _ _ _

theorem quiet_movepLoadLong (d : Word) (ay dx : Reg) : Quiet (movepLoadLong d ay dx) :=
  quiet_bind (quiet_movepAddress _ _) fun _ => quiet_bind (quiet_movepRead _) fun _ =>
    quiet_bind (quiet_movepRead _) fun _ => quiet_bind (quiet_movepRead _) fun _ =>
    quiet_bind (quiet_movepRead _) fun _ => quiet_modify fun _ => within_setDreg _ _ _

theorem quiet_movepStoreWord (dx : Reg) (d : Word) (ay : Reg) : Quiet (movepStoreWord dx d ay) :=
  quiet_bind (quiet_movepAddress _ _) fun _ => quiet_bind quiet_get fun _ => quiet_bind (quiet_movepWrite _ _) fun _ =>
    quiet_movepWrite _ _

theorem quiet_movepStoreLong (dx : Reg) (d : Word) (ay : Reg) : Quiet (movepStoreLong dx d ay) :=
  quiet_bind (quiet_movepAddress _ _) fun _ => quiet_bind quiet_get fun _ => quiet_bind (quiet_movepWrite _ _) fun _ =>
    quiet_bind (quiet_movepWrite _ _) fun _ => quiet_bind (quiet_movepWrite _ _) fun _ => quiet_movepWrite _ _

theorem quiet_linkFrame (an : Reg) (d : Word) : Quiet (linkFrame an d) :=
  quiet_bind (quiet_leavingOpen (onlyRegisters_low _ _) (quiet_fetchWords _)) fun _ => quiet_bind quiet_get fun _ =>
    quiet_bind (quiet_modify fun _ => within_setAreg _ _ _) fun _ => quiet_bind quiet_get fun _ =>
    quiet_bind (quiet_memWrite (onlyRegisters_either _ _) .l _ _ _ _) fun _ =>
    quiet_bind (quiet_modify fun _ => within_setAreg _ _ _) fun _ => quiet_modify fun _ => within_setAreg _ _ _

theorem quiet_unlinkFrame (an : Reg) : Quiet (unlinkFrame an) :=
  quiet_bind (quiet_modify fun _ => within_setAreg _ _ _) fun _ => quiet_bind quiet_get fun _ =>
    quiet_bind (quiet_memRead onlyRegisters_nil .l _ _) fun _ =>
    quiet_bind (quiet_modify fun _ => within_setAreg _ _ _) fun _ => quiet_modify fun _ => within_setAreg _ _ _

theorem quiet_loadEffectiveAddress (ea : Ea) (an : Reg) : Quiet (loadEffectiveAddress ea an) :=
  quiet_bind (quiet_controlAddress _) fun _ => quiet_modify fun _ => within_setAreg _ _ _

theorem quiet_pushEffectiveAddress (ea : Ea) : Quiet (pushEffectiveAddress ea) :=
  quiet_bind (quiet_controlAddress _) fun _ => quiet_pushLong _

theorem quiet_setDregLogic (dn : Reg) (f : State → Long) : Quiet (setDregLogic dn f) :=
  quiet_modify fun _ => (within_setDreg _ _ _).trans (within_setSr ⟨rfl, rfl, rfl⟩)

/-! ### Shifts, and condition codes written as such -/

theorem quiet_shiftDn {sz : Size} (dy : Reg) (n : State → Nat) (op : Shift sz.bits) : Quiet (shiftDn sz dy n op) :=
  quiet_modify fun _ => (within_setDregLow _ _ _).trans (within_setSr ⟨rfl, rfl, rfl⟩)

theorem quiet_shiftMem (ea : Ea) (op : Shift 16) : Quiet (shiftMem ea op) :=
  quiet_modifyEaCodesFirst _ fun _ _ => ⟨rfl, rfl, rfl⟩

theorem quiet_immToCcr (v : Byte) (f : BitVec 5 → BitVec 5 → BitVec 5) : Quiet (immToCcr v f) :=
  quiet_bind (quiet_fetchWords _) fun _ => quiet_modifySr fun _ => ⟨rfl, rfl, rfl⟩

theorem quiet_moveToCodes (ea : Ea) : Quiet (moveToCodes ea) :=
  quiet_bind (quiet_readEa .w _) fun _ => quiet_modifySr fun _ => ⟨rfl, rfl, rfl⟩

theorem quiet_moveFromStatus (ea : Ea) : Quiet (moveFromStatus ea) :=
  quiet_evalEa_bind _ _ fun _ h => quiet_bind (quiet_discardRead h _) fun _ => quiet_bind quiet_get fun _ =>
    quiet_writeLoc h _ _

end Sys2Proof.Machine
end

section
/-! Exception processing: the supervisor state it enters, the mask it keeps, and the frame it stacks on a plain
platform (60_exceptions.md R350, R391, R405). -/

namespace Sys2Proof.Machine

/-! ### Entering supervisor state -/

/-- `t` is reached from `s` by entering an exception: S set, T cleared, the mask kept; the user stack pointer is not
reached from supervisor state (60_exceptions.md R350, 10_state.md R27). -/
structure Entered (s t : State) : Prop where
  supervisor : t.sr.s = true
  trace : t.sr.t = false
  mask : t.sr.i = s.sr.i
  usp : t.usp = s.usp
  noReset : s.platform.resetAfter = none → t.platform.resetAfter = none

theorem Entered.trans {s t u : State} (h : Entered s t) (k : Entered t u) : Entered s u :=
  ⟨k.supervisor, k.trace, k.mask.trans h.mask, k.usp.trans h.usp, fun hn => k.noReset (h.noReset hn)⟩

theorem Entered.within {s t u : State} (h : Entered s t) (k : Within t u) : Entered s u :=
  ⟨k.sr.supervisor.trans h.supervisor, k.sr.trace.trans h.trace, k.sr.mask.trans h.mask,
    (k.usp h.supervisor).trans h.usp, fun hn => k.noReset (h.noReset hn)⟩

/-- Aborted in exception processing. -/
structure StoppedEntered (s : State) (e : Abort) (t : State) : Prop where
  entered : Entered s t
  xgroup : t.xgroup ≠ .none
  reset : e = .reset → s.platform.resetAfter ≠ none

/-- `Within`, but for the group of the exception, which the end of exception processing resets. -/
def Resumes (s t : State) : Prop := Within s { t with xgroup := s.xgroup }

theorem Within.resumes {s t u : State} (h : Within s t) (k : Resumes t u) : Resumes s u :=
  have w := h.trans k
  ⟨w.sr, w.usp, w.ssp, rfl, w.plain, w.noReset⟩

theorem runs_quiet_bind {α β : Type} {x : M α} {f : α → M β} (hx : Quiet x)
    (hf : ∀ a, Runs Resumes (StoppedWithin OnlyRegisters) (f a)) :
    Runs Resumes (StoppedWithin OnlyRegisters) (x >>= f) :=
  runs_bind hx hf Within.resumes id Within.stopped

/-- An update that enters an exception, and the processing in supervisor state after it. -/
theorem runs_enter {enter : State → State} {rest : M Unit} (he : ∀ s, Entered s (enter s))
    (hx : ∀ s, (enter s).xgroup ≠ .none) (hr : Runs Resumes (StoppedWithin OnlyRegisters) rest) :
    Runs Entered StoppedEntered (do modify enter; rest) :=
  runs_bind (Q₁ := fun s t => t = enter s) (E₁ := fun _ _ _ => False) (fun _ => rfl) (fun _ => hr)
    (fun {s t u} ht k => by
      subst ht
      exact ⟨k.sr.supervisor.trans (he s).supervisor, k.sr.trace.trans (he s).trace, k.sr.mask.trans (he s).mask,
        (k.usp (he s).supervisor).trans (he s).usp, fun hn => k.noReset ((he s).noReset hn)⟩)
    False.elim
    (fun {s t e u} ht k => by
      subst ht
      exact ⟨(he s).within k.within, by rw [k.within.xgroup]; exact hx s,
        fun hr hn => k.reset hr ((he s).noReset hn)⟩)

theorem openGroup_ne_none (before : XGroup) {g : XGroup} (hg : g ≠ .none) : openGroup before g ≠ .none := by
  unfold openGroup
  split
  · nofun
  · exact hg

/-- Every run of an exception from internal logic (60_exceptions.md R350). -/
theorem takeException_enters {g : XGroup} (hg : g ≠ .none) (v : Byte) (pc : Long) :
    Runs Entered StoppedEntered (takeException g (.internal v) pc) := runs_get fun before =>
  runs_enter (enter := fun s => { s with xgroup := openGroup s.xgroup g, sr := enteredSr s.sr (.internal v) })
    (fun _ => ⟨rfl, rfl, rfl, rfl, id⟩) (fun _ => openGroup_ne_none _ hg)
    (runs_quiet_bind (quiet_pure v) fun _ => runs_quiet_bind (quiet_pushLong pc) fun _ =>
      runs_quiet_bind (quiet_pushWord before.sr.toWord) fun _ =>
      runs_quiet_bind (quiet_memRead onlyRegisters_nil .l _ _) fun _ =>
      runs_modify fun _ => within_of_eq rfl rfl rfl rfl rfl)

theorem quiet_notInstructionBit (op : Option Long) (x : XGroup) (first : Bool) :
    Quiet (notInstructionBit op x first) := by
  cases x with
  | none => exact quiet_ite quiet_drawBit (quiet_pure _)
  | _ => exact quiet_pure _

theorem quiet_stackedPc (op : Option Long) (x : XGroup) : Quiet (stackedPc op x) := by
  cases op with
  | none => exact quiet_drawLong
  | some op =>
    cases x with
    | none => exact quiet_bind quiet_drawOneToFive fun _ => quiet_pure _
    | _ => exact quiet_drawLong

theorem quiet_stackedIr (op : Option Long) (x : XGroup) (ir : Word) : Quiet (stackedIr op x ir) := by
  cases x with
  | none =>
    cases op with
    | none => exact quiet_drawWord
    | some op => exact quiet_pure _
  | g2 => cases op <;> exact quiet_pure _
  | g0 | g1 => cases op <;> exact quiet_drawWord

/-- Every run of a group 0 exception (60_exceptions.md R391). -/
theorem groupZeroSequence_enters (op : Option Long) (f : AccessFault) :
    Runs Entered StoppedEntered (groupZeroSequence op f) := runs_get fun before =>
  runs_enter (enter := fun s =>
      { s with xgroup := .g0, handlerFetch := false, sr := { s.sr with s := true, t := false } })
    (fun _ => ⟨rfl, rfl, rfl, rfl, id⟩) (fun _ => XGroup.noConfusion)
    (runs_quiet_bind (quiet_notInstructionBit op before.xgroup before.handlerFetch) fun _ =>
      runs_quiet_bind (quiet_stackedPc op before.xgroup) fun _ =>
      runs_quiet_bind (quiet_stackedIr op before.xgroup before.ir) fun _ => runs_quiet_bind quiet_drawWord fun _ =>
      runs_quiet_bind (quiet_pushLong _) fun _ => runs_quiet_bind (quiet_pushWord before.sr.toWord) fun _ =>
      runs_quiet_bind (quiet_pushWord _) fun _ => runs_quiet_bind (quiet_pushLong f.addr) fun _ =>
      runs_quiet_bind (quiet_pushWord _) fun _ => runs_quiet_bind (quiet_memRead onlyRegisters_nil .l _ _) fun _ =>
      runs_modify fun _ => within_of_eq rfl rfl rfl rfl rfl)

/-! ### The frame on a plain platform -/

/-- Frames can be stacked: a plain platform, supervisor state, an even SSP. -/
structure StackReady (s : State) : Prop where
  plain : s.platform = .plain
  supervisor : s.sr.s = true
  even : isEven s.ssp = true

/-- `n` bytes have been stacked on SSP, and the words above them read as before. -/
structure Stacked (s t : State) (n : Nat) : Prop where
  ready : StackReady t
  ssp : t.ssp = s.ssp - BitVec.ofNat 32 n
  above : ∀ i, i + n + 2 < addressSpace →
    t.wordAt (s.ssp + BitVec.ofNat 32 i) = s.wordAt (s.ssp + BitVec.ofNat 32 i)

theorem Stacked.trans {s t u : State} {m n : Nat} (h : Stacked s t m) (k : Stacked t u n) : Stacked s u (m + n) where
  ready := k.ready
  ssp := by rw [k.ssp, h.ssp, BitVec.sub_sub, BitVec.ofNat_add]
  above i hi := by
    have e : s.ssp + BitVec.ofNat 32 i = t.ssp + BitVec.ofNat 32 (m + i) := by
      rw [h.ssp, BitVec.ofNat_add, ← BitVec.add_assoc, BitVec.sub_add_cancel]
    rw [e, k.above _ (by omega), ← e, h.above i (by omega)]

/-- The state after a push of a size. -/
def State.pushed (s : State) (sz : Size) (v : BitVec sz.bits) : State :=
  (s.setAreg 7 (s.areg 7 - BitVec.ofNat 32 sz.bytes)).afterWrite sz (s.fc false) (s.areg 7 - BitVec.ofNat 32 sz.bytes) v
    false

theorem stacked_pushed {s : State} (h : StackReady s) {sz : Size} (hsz : sz ≠ .b) (v : BitVec sz.bits) :
    Stacked s (s.pushed sz v) sz.bytes ∧ (s.pushed sz v).readAt sz (s.ssp - BitVec.ofNat 32 sz.bytes) = v := by
  have h7 := areg_seven_supervisor s h.supervisor
  have hssp : (s.pushed sz v).ssp = s.ssp - BitVec.ofNat 32 sz.bytes := by
    simp [State.pushed, setAreg_seven_supervisor s h.supervisor, h7]
  have heven : isEven (BitVec.ofNat 32 sz.bytes) = true := by
    cases sz with
    | b => exact absurd rfl hsz
    | _ => decide
  refine ⟨⟨⟨by simp [State.pushed, h.plain], by simp [State.pushed, h.supervisor], ?_⟩, hssp, fun i hi => ?_⟩, ?_⟩
  · rw [hssp]
    exact isEven_sub_even h.even heven
  · have hb : s.ssp + BitVec.ofNat 32 i = s.ssp - BitVec.ofNat 32 sz.bytes + BitVec.ofNat 32 (sz.bytes + i) := by
      rw [BitVec.ofNat_add, ← BitVec.add_assoc, BitVec.sub_add_cancel]
    have key : (s.pushed sz v).readAt .w (s.ssp + BitVec.ofNat 32 i) =
        (s.setAreg 7 (s.areg 7 - BitVec.ofNat 32 sz.bytes)).readAt .w (s.ssp + BitVec.ofNat 32 i) := by
      rw [State.pushed, h7]
      exact readAt_afterWrite_of_disjoint fun x hx =>
        bytesFrom_disjoint hb (Nat.le_add_right _ _) (by rw [show Size.w.bytes = 2 from rfl]; omega) hx
    exact key.trans (wordAt_congr (setAreg_mem _ _ _) _)
  · rw [State.pushed, h7]
    exact readAt_afterWrite_same _ _ _ _ _ _

theorem pushLong_stacks {s : State} (h : StackReady s) (v : Long) : ∃ t, pushLong v s = .ok () t ∧ Stacked s t 4 :=
  ⟨s.pushed .l v, pushLong_ready h.plain (by rw [areg_seven_supervisor s h.supervisor]; exact h.even) v,
    (stacked_pushed (sz := .l) h nofun v).1⟩

theorem pushWord_stacks {s : State} (h : StackReady s) (v : Word) :
    ∃ t, pushWord v s = .ok () t ∧ Stacked s t 2 ∧ t.wordAt t.ssp = v := by
  obtain ⟨k, hv⟩ := stacked_pushed (sz := .w) h nofun v
  exact ⟨s.pushed .w v, pushWord_ready h.plain (by rw [areg_seven_supervisor s h.supervisor]; exact h.even) v, k,
    by rw [k.ssp]; exact hv⟩

/-- At most one value is drawn. -/
def DrawsAtMostOne {α : Type} (x : M α) : Prop := ∀ s, ∃ v t, x s = .ok v t ∧ (t = s ∨ t = s.drawn)

theorem notInstructionBit_draws (op : Option Long) (x : XGroup) (first : Bool) :
    DrawsAtMostOne (notInstructionBit op x first) := fun s => by
  cases x with
  | none =>
    by_cases h : (op.isNone && first) = true
    · exact ⟨_, _, by simp only [notInstructionBit, h, if_true]; rfl, .inr rfl⟩
    · exact ⟨_, _, by simp only [notInstructionBit, h]; rfl, .inl rfl⟩
  | _ => exact ⟨_, _, rfl, .inl rfl⟩

theorem stackedPc_draws (op : Option Long) (x : XGroup) : DrawsAtMostOne (stackedPc op x) := fun s => by
  cases op with
  | none => exact ⟨_, _, rfl, .inr rfl⟩
  | some op => cases x <;> exact ⟨_, _, rfl, .inr rfl⟩

theorem stackedIr_draws (op : Option Long) (x : XGroup) (ir : Word) : DrawsAtMostOne (stackedIr op x ir) := fun s => by
  cases x with
  | none =>
    cases op with
    | none => exact ⟨_, _, rfl, .inr rfl⟩
    | some op => exact ⟨_, _, rfl, .inl rfl⟩
  | g2 => cases op <;> exact ⟨_, _, rfl, .inl rfl⟩
  | g0 | g1 => cases op <;> exact ⟨_, _, rfl, .inr rfl⟩

/-- The accesses of a group 0 exception: its seven-word frame and its vector (60_exceptions.md R391). -/
def stackGroupZero (f : AccessFault) (pc : Long) (sr ir ssw : Word) : M Unit := do
  pushLong pc
  pushWord sr
  pushWord ir
  pushLong f.addr
  pushWord ssw
  let handler ← memRead .l 5 (vectorAddress f.vector) []
  modify fun s => { s with pc := handler, run := .normal }

/-- The free values of a group 0 frame are drawn before its accesses, which find supervisor state, and the SSP and the
platform of the state that was left. -/
theorem groupZeroSequence_eq (op : Option Long) (f : AccessFault) (s : State) :
    ∃ (pc : Long) (ir ssw : Word) (u : State), u.platform = s.platform ∧ u.sr.s = true ∧ u.ssp = s.ssp ∧
      groupZeroSequence op f s = stackGroupZero f pc s.sr.toWord ir ssw u := by
  obtain ⟨ni, s₁, h₁, d₁⟩ := notInstructionBit_draws op s.xgroup s.handlerFetch
    { s with xgroup := .g0, handlerFetch := false, sr := { s.sr with s := true, t := false } }
  obtain ⟨pc, s₂, h₂, d₂⟩ := stackedPc_draws op s.xgroup s₁
  obtain ⟨ir, s₃, h₃, d₃⟩ := stackedIr_draws op s.xgroup s.ir s₂
  refine ⟨pc, ir, specialStatusWord (Config.freeWord s₃.draws) f.isRead ni f.fc, s₃.drawn, ?_, ?_, ?_, ?accesses⟩
  case accesses =>
    rw [groupZeroSequence, bind_apply]
    simp only [get_apply]
    rw [bind_apply]
    simp only [modify_apply]
    rw [bind_apply, h₁]
    dsimp only
    rw [bind_apply, h₂]
    dsimp only
    rw [bind_apply, h₃]
    rfl
  all_goals
    rcases d₁ with rfl | rfl <;> rcases d₂ with rfl | rfl <;> rcases d₃ with rfl | rfl <;> rfl

theorem stackGroupZero_ready {s : State} (h : StackReady s) (f : AccessFault) (pc : Long) (sr ir ssw : Word) :
    ∃ t, stackGroupZero f pc sr ir ssw s = .ok () t ∧ t.ssp = s.ssp - 14 ∧ t.wordAt (s.ssp - 6) = sr ∧
      t.pc = t.longAt (f.vector.setWidth 32 * 4) := by
  obtain ⟨s₁, e₁, k₁⟩ := pushLong_stacks h pc
  obtain ⟨s₂, e₂, k₂, hsr⟩ := pushWord_stacks k₁.ready sr
  obtain ⟨s₃, e₃, k₃, -⟩ := pushWord_stacks k₂.ready ir
  obtain ⟨s₄, e₄, k₄⟩ := pushLong_stacks k₃.ready f.addr
  obtain ⟨s₅, e₅, k₅, -⟩ := pushWord_stacks k₄.ready ssw
  have hread := memRead_quiet k₅.ready.plain (isAligned_of_isEven (isEven_vectorAddress f.vector) .l) 5 []
  have above : Stacked s s₂ 6 := k₁.trans k₂
  have below : Stacked s₂ s₅ 8 := (k₃.trans k₄).trans k₅
  simp only [stackGroupZero, bind_apply, e₁, e₂, e₃, e₄, e₅, hread, modify_apply]
  refine ⟨_, rfl, ?_, ?_, ?_⟩
  · show State.ssp (s₅.afterRead .l 5 (vectorAddress f.vector)) = _
    rw [afterRead_ssp]
    exact (above.trans below).ssp
  · have keep := below.above 0 (by decide)
    rw [BitVec.add_zero, hsr, above.ssp] at keep
    exact (wordAt_congr (by simp) _).trans keep
  · rw [← vectorAddress_eq]
    exact (longAt_congr (s := s₅) (by simp) _).symm

/-- A group 0 exception on a plain platform with an even SSP: the frame, with the status register word of the state that
was left, and the vector (60_exceptions.md R391). -/
theorem groupZeroSequence_even {s : State} (hp : s.platform = .plain) (he : isEven s.ssp = true) (op : Option Long)
    (f : AccessFault) :
    ∃ t, groupZeroSequence op f s = .ok () t ∧ t.ssp = s.ssp - 14 ∧ t.wordAt (s.ssp - 6) = s.sr.toWord ∧
      t.pc = t.longAt (f.vector.setWidth 32 * 4) := by
  obtain ⟨pc, ir, ssw, u, up, us, ussp, hu⟩ := groupZeroSequence_eq op f s
  rw [hu, ← ussp]
  exact stackGroupZero_ready ⟨up.trans hp, us, by rw [ussp]; exact he⟩ f pc _ ir ssw

/-- With an odd SSP the first push of a group 0 frame faults (60_exceptions.md R405). -/
theorem groupZeroSequence_odd {s : State} (ho : isEven s.ssp = false) (op : Option Long) (f : AccessFault) :
    ∃ g t, groupZeroSequence op f s = .error (.access g) t := by
  obtain ⟨pc, ir, ssw, u, -, us, ussp, hu⟩ := groupZeroSequence_eq op f s
  have h7 : isEven (u.areg 7) = false := by rw [areg_seven_supervisor u us, ussp]; exact ho
  exact ⟨_, _, by rw [hu, stackGroupZero, bind_apply, pushLong_odd h7]⟩

theorem isEven_sub_four {a : Long} (h : isEven a = false) : isEven (a - 4) = false := by
  by_contra hn
  have := isEven_add_even (b := 4) (Bool.not_eq_false _ ▸ hn) (by decide)
  rw [BitVec.sub_add_cancel, h] at this
  cases this

/-- With an odd SSP the first push of a group 1 or 2 exception faults, and SSP stays odd (20_memory.md R63). -/
theorem takeException_odd {s : State} (ho : isEven s.ssp = false) (g : XGroup) (v : Byte) (pc : Long) :
    ∃ f t, takeException g (.internal v) pc s = .error (.access f) t ∧ t.platform = s.platform ∧
      isEven t.ssp = false := by
  have push := pushLong_odd
    (s := { s with xgroup := openGroup s.xgroup g, sr := enteredSr s.sr (.internal v) }) (by exact ho) pc
  simp only [takeException, acquireVector, bind_apply, get_apply, modify_apply, pure_apply, push]
  exact ⟨_, _, rfl, rfl, isEven_sub_four ho⟩

/-! ### An exception as a whole -/

/-- Processing within one privilege state, and then the entry to an exception. -/
def Excepted (s t : State) : Prop := ∃ u, Within s u ∧ Entered u t

theorem Entered.excepted {s t : State} (h : Entered s t) : Excepted s t := ⟨s, Within.refl s, h⟩

theorem Within.excepted {s t u : State} (h : Within s t) : Excepted t u → Excepted s u
  | ⟨v, hv, k⟩ => ⟨v, h.trans hv, k⟩

theorem Excepted.within {s t u : State} (k : Within t u) : Excepted s t → Excepted s u
  | ⟨v, hv, h⟩ => ⟨v, hv, h.within k⟩

theorem Excepted.entered {s t u : State} (k : Entered t u) : Excepted s t → Excepted s u
  | ⟨v, hv, h⟩ => ⟨v, hv, h.trans k⟩

theorem Excepted.usp {s t : State} (hs : s.sr.s = true) : Excepted s t → t.usp = s.usp
  | ⟨_, hv, h⟩ => h.usp.trans (hv.usp hs)

theorem Excepted.noReset {s t : State} (hn : s.platform.resetAfter = none) :
    Excepted s t → t.platform.resetAfter = none
  | ⟨_, hv, h⟩ => h.noReset (hv.noReset hn)

theorem Excepted.sr {s t : State} : Excepted s t → t.sr.s = true ∧ t.sr.t = false ∧ t.sr.i = s.sr.i
  | ⟨_, hv, h⟩ => ⟨h.supervisor, h.trace, h.mask.trans hv.sr.mask⟩

/-- The frame of an exception taken in user state with SSP at `ssp`, and the handler at its vector
(60_exceptions.md R351, R391). -/
def State.inHandler (t : State) (ssp : Long) : Prop :=
  (t.ssp = ssp - 6 ∨ t.ssp = ssp - 14) ∧ (t.wordAt (ssp - 6)).getLsbD 13 = false ∧
    ∃ v : Byte, t.pc = t.longAt (v.setWidth 32 * 4)

/-- An exception has been taken from `s`, or has ended in a halt; what the plain platform shows of it in user state. -/
structure Taken (s t : State) : Prop where
  excepted : Excepted s t
  frame : s.sr.s = false → s.platform = .plain → t.run = .halted ∨ t.inHandler s.ssp

/-- Aborted while an exception was taken from `s`: on the plain platform, by an odd SSP. -/
structure StoppedTaking (s : State) (e : Abort) (t : State) : Prop where
  excepted : Excepted s t
  xgroup : t.xgroup ≠ .none
  reset : e = .reset → s.platform.resetAfter ≠ none
  odd : s.platform = .plain → t.platform = .plain ∧ isEven t.ssp = false

theorem Within.taken {s t u : State} (h : Within s t) (k : Taken t u) : Taken s u where
  excepted := h.excepted k.excepted
  frame hs hp := by
    have := k.frame (h.sr.supervisor.trans hs) (h.plain hp)
    rwa [h.ssp hs] at this

theorem Within.stoppedTaking {s t u : State} {e : Abort} (h : Within s t) (k : StoppedTaking t e u) :
    StoppedTaking s e u :=
  ⟨h.excepted k.excepted, k.xgroup, fun he hn => k.reset he (h.noReset hn), fun hp => k.odd (h.plain hp)⟩

/-- The bits of the status register as a word (10_state.md R31): those that do not exist read as 0. -/
theorem toWord_getLsbD (sr : Sr) {k : Nat} (hk : k < 16) :
    sr.toWord.getLsbD k =
      match k with
      | 0 => sr.c | 1 => sr.v | 2 => sr.z | 3 => sr.n | 4 => sr.x
      | 8 => sr.i.getLsbD 0 | 9 => sr.i.getLsbD 1 | 10 => sr.i.getLsbD 2
      | 13 => sr.s | 15 => sr.t
      | _ => false := by
  simp only [Sr.toWord, BitVec.getLsbD_append]
  interval_cases k <;> simp

theorem toWord_supervisor (sr : Sr) : sr.toWord.getLsbD 13 = sr.s := toWord_getLsbD sr (by decide)

/-- An exception from internal logic: taken, or aborted on the way, on a plain platform by an odd SSP alone. -/
theorem runs_takeException {g : XGroup} (hg : g ≠ .none) (v : Byte) (pc : Long) :
    Runs Taken StoppedTaking (takeException g (.internal v) pc) := fun s => by
  have hrun := takeException_enters hg v pc
  cases h : takeException g (.internal v) pc s with
  | error e t =>
    have stopped := hrun.error h
    refine ⟨stopped.entered.excepted, stopped.xgroup, stopped.reset, fun hp => ?_⟩
    cases he : isEven s.ssp with
    | false =>
      obtain ⟨f, u, hu, hpl, hodd⟩ := takeException_odd he g v pc
      rw [h] at hu
      cases hu
      exact ⟨hpl.trans hp, hodd⟩
    | true =>
      obtain ⟨u, hu, -⟩ := takeException_ready hp he g (.internal v) pc
      rw [h] at hu
      cases hu
  | ok a t =>
    refine ⟨(hrun.ok h).excepted, fun hs hp => .inr ?_⟩
    cases he : isEven s.ssp with
    | false =>
      obtain ⟨f, u, hu, -⟩ := takeException_odd he g v pc
      rw [h] at hu
      cases hu
    | true =>
      obtain ⟨u, hu, hx, -⟩ := takeException_ready hp he g (.internal v) pc
      rw [h] at hu
      cases hu
      obtain ⟨-, hssp, -, -, -, hword, -, -, hpc, -⟩ := hx
      exact ⟨.inl hssp, by rw [hword, toWord_supervisor, hs], v, hpc⟩

end Sys2Proof.Machine
end

section
/-! How the run of an instruction can end: within its privilege state, in an exception, or in an external reset. -/

namespace Sys2Proof.Machine

/-! ### Meanings that can raise an exception -/

/-- The meaning of an instruction that stays within its privilege state or takes an exception. -/
def Contained (x : M Unit) : Prop :=
  Runs (fun s t => Within s t ∨ Taken s t) (fun s e t => StoppedWithin OnlyRegisters s e t ∨ StoppedTaking s e t) x

theorem contained_of_quiet {x : M Unit} (h : Quiet x) : Contained x := fun s => by
  cases k : x s with
  | ok a t => exact .inl (h.ok k)
  | error e t => exact .inl (h.error k)

theorem contained_takeException {g : XGroup} (hg : g ≠ .none) (v : Byte) (pc : Long) :
    Contained (takeException g (.internal v) pc) := fun s => by
  cases k : takeException g (.internal v) pc s with
  | ok a t => exact .inr ((runs_takeException hg v pc).ok k)
  | error e t => exact .inr ((runs_takeException hg v pc).error k)

theorem contained_bind {α : Type} {x : M α} {f : α → M Unit} (hx : Quiet x) (hf : ∀ a, Contained (f a)) :
    Contained (x >>= f) :=
  runs_bind hx hf (fun h k => k.imp h.trans h.taken) .inl (fun h k => k.imp h.stopped h.stoppedTaking)

theorem contained_ite {c : Prop} [Decidable c] {x y : M Unit} (hx : Contained x) (hy : Contained y) :
    Contained (if c then x else y) := by
  split
  · exact hx
  · exact hy

theorem contained_raiseTrap (v : Byte) : Contained (raiseTrap v) :=
  contained_bind quiet_get fun _ => contained_takeException XGroup.noConfusion v _

theorem contained_trapWord (v : Byte) : Contained (trapWord v) :=
  contained_bind quiet_get fun _ => contained_takeException XGroup.noConfusion v _

theorem contained_zeroDivide : Contained zeroDivide :=
  contained_bind quiet_drawBit fun _ => contained_bind quiet_drawBit fun _ => contained_bind quiet_drawBit fun _ =>
    contained_bind (quiet_modifySr fun _ => ⟨rfl, rfl, rfl⟩) fun _ => contained_raiseTrap _

theorem contained_divideDn (ea : Ea) (dn : Reg) (divide : Long → Word → Option (Word × Word)) :
    Contained (divideDn ea dn divide) :=
  contained_bind (quiet_readEa .w _) fun m => contained_ite contained_zeroDivide <|
    contained_of_quiet <| quiet_bind quiet_get fun s => by
      split
      · exact quiet_divideOverflow
      · exact quiet_modify fun _ => (within_setDreg _ _ _).trans (within_setSr ⟨rfl, rfl, rfl⟩)

theorem contained_checkBounds (ea : Ea) (dn : Reg) : Contained (checkBounds ea dn) :=
  contained_bind (quiet_readEa .w _) fun _ => contained_bind quiet_get fun _ =>
    contained_bind quiet_drawBit fun _ => contained_bind quiet_drawBit fun _ => contained_bind quiet_drawBit fun _ =>
    contained_bind (quiet_modifySr fun _ => ⟨rfl, rfl, rfl⟩) fun _ =>
    contained_ite (contained_bind (quiet_modifySr fun _ => ⟨rfl, rfl, rfl⟩) fun _ => contained_raiseTrap _) <|
    contained_ite (contained_bind (quiet_modifySr fun _ => ⟨rfl, rfl, rfl⟩) fun _ => contained_raiseTrap _) <|
    contained_of_quiet <| quiet_bind quiet_drawBit fun _ => quiet_modifySr fun _ => ⟨rfl, rfl, rfl⟩

theorem contained_trapOnOverflow : Contained trapOnOverflow :=
  contained_bind quiet_get fun _ => contained_ite (contained_raiseTrap _) (contained_of_quiet (quiet_pure _))

/-! ### External reset -/

/-- In supervisor state, `Within`. -/
def WithinSupervisor (s t : State) : Prop := s.sr.s = true → Within s t

theorem WithinSupervisor.trans {s t u : State} (h : WithinSupervisor s t) (k : WithinSupervisor t u) :
    WithinSupervisor s u := fun hs => (h hs).trans (k ((h hs).sr.supervisor.trans hs))

theorem runs_loadResetVector : Runs WithinSupervisor (fun s _ t => WithinSupervisor s t) loadResetVector := by
  have read : ∀ a, Runs WithinSupervisor (fun s _ t => WithinSupervisor s t) (readHighFirst 6 a []) := fun a s => by
    have hq : Quiet (readHighFirst 6 a []) := quiet_readHighFirst onlyRegisters_nil 6 a
    cases k : readHighFirst 6 a [] s with
    | ok v t => exact fun _ => hq.ok k
    | error e t => exact fun _ => (hq.error k).within
  have bind : ∀ {α : Type} {x : M α} {f : α → M Unit}, Runs WithinSupervisor (fun s _ t => WithinSupervisor s t) x →
      (∀ a, Runs WithinSupervisor (fun s _ t => WithinSupervisor s t) (f a)) →
      Runs WithinSupervisor (fun s _ t => WithinSupervisor s t) (x >>= f) := fun hx hf =>
    runs_bind hx hf (fun h k => h.trans k) id (fun h k => h.trans k)
  refine bind (read 0) fun ssp => bind (runs_modify fun s hs => ?_) fun _ => bind (read 4) fun pc =>
    runs_modify fun s _ => within_of_eq rfl rfl rfl rfl rfl
  exact ⟨⟨rfl, rfl, rfl⟩, fun _ => rfl, fun hu => (by rw [hs] at hu; cases hu), rfl, id, id⟩

/-- An external reset leaves supervisor state, T off, mask 7, and USP as it was (70_reset_and_hazards.md R420). -/
theorem resetException_sr (s : State) : (resetException s).sr.s = true ∧ (resetException s).sr.t = false ∧
    (resetException s).sr.i = 7 ∧ (resetException s).usp = s.usp := by
  have key : Within s.resetBegun (resetException s) := by
    unfold resetException
    cases k : loadResetVector s.resetBegun with
    | ok a t => exact runs_loadResetVector.ok k rfl
    | error e t => exact (runs_loadResetVector.error k rfl).trans (within_halt t)
  exact ⟨key.sr.supervisor, key.sr.trace, key.sr.mask, key.usp rfl⟩

/-! ### Group 0 exceptions -/

/-- An external reset has been taken from `s`, which had one scheduled. -/
structure Restarted (s t : State) : Prop where
  scheduled : s.platform.resetAfter ≠ none
  supervisor : t.sr.s = true
  trace : t.sr.t = false
  mask : t.sr.i = 7
  usp : s.sr.s = true → t.usp = s.usp

/-- How an instruction begun in `s` can end. -/
def Ends (s t : State) : Prop := Within s t ∨ Taken s t ∨ Restarted s t

theorem Within.ends {s t u : State} (h : Within s t) : Ends t u → Ends s u
  | .inl k => .inl (h.trans k)
  | .inr (.inl k) => .inr (.inl (h.taken k))
  | .inr (.inr k) => .inr (.inr ⟨fun hn => k.scheduled (h.noReset hn), k.supervisor, k.trace, k.mask,
      fun hs => (k.usp (h.sr.supervisor.trans hs)).trans (h.usp hs)⟩)

theorem Within.restarted {s t : State} (h : Within s t) (hr : s.platform.resetAfter ≠ none) :
    Restarted s (resetException t) :=
  have ⟨hs, ht, hi, hu⟩ := resetException_sr t
  ⟨hr, hs, ht, hi, fun h' => hu.trans (h.usp h')⟩

theorem Excepted.restarted {s t : State} (h : Excepted s t) (hr : s.platform.resetAfter ≠ none) :
    Restarted s (resetException t) :=
  have ⟨hs, ht, hi, hu⟩ := resetException_sr t
  ⟨hr, hs, ht, hi, fun h' => hu.trans (h.usp h')⟩

/-- What a group 0 exception can do: a halt at once, the exception, a halt in it, or an external reset in it
(60_exceptions.md R391, R405, 70_reset_and_hazards.md R420). -/
theorem groupZero_cases (op : Option Long) (f : AccessFault) (s : State) :
    (s.xgroup = .g0 ∧ groupZero op f s = s.halt) ∨
      (∃ t, groupZeroSequence op f s = .ok () t ∧ groupZero op f s = t) ∨
      (∃ g t, groupZeroSequence op f s = .error (.access g) t ∧ groupZero op f s = t.halt) ∨
      ∃ t, groupZeroSequence op f s = .error .reset t ∧ groupZero op f s = resetException t := by
  unfold groupZero
  by_cases hx : s.xgroup = .g0
  · exact .inl ⟨hx, if_pos hx⟩
  · rw [if_neg hx]
    cases k : groupZeroSequence op f s with
    | ok a t => exact .inr (.inl ⟨t, rfl, rfl⟩)
    | error e t =>
      cases e with
      | access g => exact .inr (.inr (.inl ⟨g, t, rfl, rfl⟩))
      | reset => exact .inr (.inr (.inr ⟨t, rfl, rfl⟩))

theorem groupZero_ends (op : Option Long) (f : AccessFault) (s : State) : Ends s (groupZero op f s) := by
  have hrun := groupZeroSequence_enters op f
  obtain ⟨-, e⟩ | ⟨t, k, e⟩ | ⟨g, t, k, e⟩ | ⟨t, k, e⟩ := groupZero_cases op f s <;> rw [e]
  · exact .inl (within_halt s)
  · refine .inr (.inl ⟨(hrun.ok k).excepted, fun hs hp => .inr ?_⟩)
    cases he : isEven s.ssp with
    | false =>
      obtain ⟨g, u, hu⟩ := groupZeroSequence_odd he op f
      rw [k] at hu
      cases hu
    | true =>
      obtain ⟨u, hu, hssp, hword, hpc⟩ := groupZeroSequence_even hp he op f
      rw [k] at hu
      cases hu
      exact ⟨.inr hssp, by rw [hword, toWord_supervisor, hs], _, hpc⟩
  · exact .inr (.inl ⟨((hrun.error k).entered.within (within_halt t)).excepted, fun _ _ => .inl rfl⟩)
  · exact .inr (.inr ((hrun.error k).entered.excepted.restarted ((hrun.error k).reset rfl)))

/-- With an odd SSP and no external reset a group 0 exception halts (60_exceptions.md R405). -/
theorem groupZero_odd_halts {s : State} (ho : isEven s.ssp = false) (op : Option Long) (f : AccessFault) :
    (groupZero op f s).run = .halted := by
  obtain ⟨g, u, hu⟩ := groupZeroSequence_odd ho op f
  obtain ⟨-, e⟩ | ⟨t, k, -⟩ | ⟨-, t, -, e⟩ | ⟨t, k, -⟩ := groupZero_cases op f s
  · rw [e]; rfl
  · rw [hu] at k; cases k
  · rw [e]; rfl
  · rw [hu] at k; cases k

/-- A group 0 exception leaves USP alone, whatever the privilege state it comes from. -/
theorem groupZero_usp (op : Option Long) (f : AccessFault) (s : State) : (groupZero op f s).usp = s.usp := by
  have hrun := groupZeroSequence_enters op f
  obtain ⟨-, e⟩ | ⟨t, k, e⟩ | ⟨g, t, k, e⟩ | ⟨t, k, e⟩ := groupZero_cases op f s <;> rw [e]
  · rfl
  · exact (hrun.ok k).usp
  · exact (hrun.error k).entered.usp
  · exact (resetException_sr t).2.2.2.trans (hrun.error k).entered.usp

/-- A fault in the taking of an exception from `s`, group 0 processing after it. -/
theorem Excepted.ends_groupZero {s t : State} (h : Excepted s t)
    (hodd : s.platform = .plain → isEven t.ssp = false) (op : Option Long) (f : AccessFault) :
    Ends s (groupZero op f t) := by
  have hrun := groupZeroSequence_enters op f
  have frame : s.sr.s = false → s.platform = .plain →
      (groupZero op f t).run = .halted ∨ (groupZero op f t).inHandler s.ssp :=
    fun _ hp => .inl (groupZero_odd_halts (hodd hp) op f)
  obtain ⟨-, e⟩ | ⟨u, k, e⟩ | ⟨g, u, k, e⟩ | ⟨u, k, e⟩ := groupZero_cases op f t
  · exact .inr (.inl ⟨e ▸ h.within (within_halt t), frame⟩)
  · exact .inr (.inl ⟨e ▸ h.entered (hrun.ok k), frame⟩)
  · exact .inr (.inl ⟨e ▸ h.entered ((hrun.error k).entered.within (within_halt u)), frame⟩)
  · rw [e]
    exact .inr (.inr ((h.entered (hrun.error k).entered).restarted fun hn => (hrun.error k).reset rfl (h.noReset hn)))

/-! ### What an abort leaves -/

@[simp] theorem onlyRegisters_steppedOpen (s : State) (ea : Ea) (sz : Size) : OnlyRegisters (steppedOpen s ea sz) := by
  cases ea <;> rfl

@[simp] theorem onlyRegisters_destinationOpen (s : State) (ea : Ea) (sz : Size) :
    OnlyRegisters (destinationOpen s ea sz) := by
  cases ea <;> rfl

@[simp] theorem onlyRegisters_bitOpen (s : State) (ea : Ea) : OnlyRegisters (bitOpen s ea) :=
  onlyRegisters_destinationOpen _ _ _

@[simp] theorem onlyRegisters_movemOpen (s : State) (sz : WideSize) (mask : Word) (ea : Ea) :
    OnlyRegisters (movemOpen s sz mask ea) := by
  cases ea <;> rfl

@[simp] theorem onlyRegisters_stackOpen (v : Long) : OnlyRegisters (stackOpen v) := rfl

/-- Only a privileged instruction leaves the status register open (60_exceptions.md R394). -/
theorem onlyRegisters_leftOpen {i : Instr} (h : isPrivileged i = false) (s : State) : OnlyRegisters (leftOpen i s) := by
  cases i with
  | oriToSr | andiToSr | eoriToSr | moveToSr | stop => cases h
  | dbcc c dn d => exact onlyRegisters_ite rfl rfl
  | unlk an => exact onlyRegisters_ite rfl rfl
  | _ => simp [leftOpen, steppedPairOpen]

/-- No register differs, nor the system byte. -/
def SameRegisters (s t : State) : Prop := Within s t ∧ t.ssp = s.ssp ∧ t.usp = s.usp

theorem keeps_drawCodes (s : State) : Keeps (SameRegisters s) drawCodes := by
  have draw : Keeps (SameRegisters s) drawBit := fun t h => ⟨h.1.trans (within_drawn t), h.2⟩
  exact keeps_bind draw fun _ => keeps_bind draw fun _ => keeps_bind draw fun _ => keeps_bind draw fun _ =>
    keeps_bind draw fun _ => keeps_modify fun t h => ⟨h.1.trans (within_setSr ⟨rfl, rfl, rfl⟩), h.2⟩

/-- The registers settled, outside exception processing (60_exceptions.md R394, R396). -/
def registersSettled (i : Instr) (s : State) (f : AccessFault) (t : State) : State :=
  if t.xgroup == .none then settle (f.alt ++ leftOpen i s) t else t

/-- An abort settles the registers, and after them the condition codes alone. -/
theorem settleAbort_codes (i : Instr) (s : State) (f : AccessFault) (t : State) :
    SameRegisters (registersSettled i s f t) (settleAbort i s f t) := by
  have same : SameRegisters (registersSettled i s f t) (registersSettled i s f t) := ⟨Within.refl _, rfl, rfl⟩
  have drawn := keeps_drawCodes _ _ same
  unfold settleAbort
  rw [← registersSettled]
  dsimp only
  split
  · cases k : drawCodes (registersSettled i s f t) with
    | ok a w => rwa [k] at drawn
    | error e w => rwa [k] at drawn
  · exact same

/-- Outside exception processing, an abort that leaves registers alone open stays within the privilege state. -/
theorem within_settleAbort {i : Instr} {s : State} {f : AccessFault} (h : OnlyRegisters (f.alt ++ leftOpen i s))
    (t : State) : Within t (settleAbort i s f t) := by
  refine Within.trans ?_ (settleAbort_codes i s f t).1
  unfold registersSettled
  split
  · exact within_settle h t
  · exact Within.refl t

/-- In exception processing an abort settles no register (60_exceptions.md R396). -/
theorem settleAbort_taking {t : State} (hx : t.xgroup ≠ .none) (i : Instr) (s : State) (f : AccessFault) :
    Within t (settleAbort i s f t) ∧ (settleAbort i s f t).ssp = t.ssp := by
  have hc := settleAbort_codes i s f t
  rw [registersSettled, if_neg (by simpa using hx)] at hc
  exact ⟨hc.1, hc.2.1⟩

/-! ### The run of an instruction -/

/-- What a run of an instruction answers comes from its meaning, or from the privilege violation. -/
theorem runInstruction_cases {i : Instr} {m x : M Unit} {s t : State}
    (hx : (if isPrivileged i && !s.sr.s then privilegeViolation (s.pc - 2) else m) = x)
    (h : runInstruction i m s = .next t) :
    x s = .ok () t ∨
      (∃ f u, x s = .error (.access f) u ∧ t = groupZero (some (s.pc - 2)) f (settleAbort i s f u)) ∨
      ∃ u, x s = .error .reset u ∧ t = resetException u := by
  unfold runInstruction at h
  rw [hx] at h
  split at h
  · cases k : x s with
    | ok a u =>
      rw [k] at h
      cases h
      exact .inl rfl
    | error e u =>
      rw [k] at h
      cases e with
      | access f =>
        cases h
        exact .inr (.inl ⟨f, u, rfl, rfl⟩)
      | reset =>
        cases h
        exact .inr (.inr ⟨u, rfl, rfl⟩)
  · cases h

theorem StoppedTaking.ends_groupZero {s t : State} {f : AccessFault} (h : StoppedTaking s (.access f) t) (i : Instr)
    (r : State) (op : Option Long) : Ends s (groupZero op f (settleAbort i r f t)) := by
  obtain ⟨hw, hssp⟩ := settleAbort_taking h.xgroup i r f
  exact (h.excepted.within hw).ends_groupZero (fun hp => by rw [hssp]; exact (h.odd hp).2) op f

/-- An instruction whose meaning is contained ends in one of the three ways. -/
theorem ends_of_contained {i : Instr} {m : M Unit} {s t : State} (hp : isPrivileged i = false) (hm : Contained m)
    (h : runInstruction i m s = .next t) : Ends s t := by
  obtain k | ⟨f, u, k, rfl⟩ | ⟨u, k, rfl⟩ := runInstruction_cases (x := m) (by simp [hp]) h
  · exact (hm.ok k).imp id .inl
  · obtain hu | hu := hm.error k
    · have items := (onlyRegisters_append _ _).mpr ⟨hu.items f rfl, onlyRegisters_leftOpen hp s⟩
      exact (hu.within.trans (within_settleAbort items u)).ends (groupZero_ends _ _ _)
    · exact hu.ends_groupZero _ _ _
  · obtain hu | hu := hm.error k
    · exact .inr (.inr (hu.within.restarted (hu.reset rfl)))
    · exact .inr (.inr (hu.excepted.restarted (hu.reset rfl)))

/-- A privileged instruction in user state ends as the privilege violation does (60_exceptions.md R385). -/
theorem ends_of_violation {i : Instr} {m : M Unit} {s t : State} (hp : isPrivileged i = true) (hs : s.sr.s = false)
    (h : runInstruction i m s = .next t) : Ends s t := by
  have hm : Runs Taken StoppedTaking (privilegeViolation (s.pc - 2)) := runs_takeException XGroup.noConfusion 8 _
  obtain k | ⟨f, u, k, rfl⟩ | ⟨u, k, rfl⟩ :=
    runInstruction_cases (x := privilegeViolation (s.pc - 2)) (by simp [hp, hs]) h
  · exact .inr (.inl (hm.ok k))
  · exact (hm.error k).ends_groupZero _ _ _
  · exact .inr (.inr ((hm.error k).excepted.restarted ((hm.error k).reset rfl)))

end Sys2Proof.Machine
end

section
/-! Every instruction's meaning, and what the run of an instruction cannot change (10_state.md R27, R34, R37). -/

namespace Sys2Proof.Machine

/-! ### The meaning of every instruction -/

/-- The instruction runs as some meaning, which is contained where the instruction is not privileged. -/
def HasMeaning (i : Instr) : Prop :=
  ∃ m, (∀ s, exec i s = runInstruction i m s) ∧ (isPrivileged i = false → Contained m)

theorem hasMeaning_of_contained {i : Instr} {m : M Unit} (e : ∀ s, exec i s = runInstruction i m s) (h : Contained m) :
    HasMeaning i := ⟨m, e, fun _ => h⟩

theorem hasMeaning_of_quiet {i : Instr} {m : M Unit} (e : ∀ s, exec i s = runInstruction i m s) (h : Quiet m) :
    HasMeaning i := hasMeaning_of_contained e (contained_of_quiet h)

theorem hasMeaning_of_privileged {i : Instr} {m : M Unit} (e : ∀ s, exec i s = runInstruction i m s)
    (h : isPrivileged i = true) : HasMeaning i := ⟨m, e, fun hn => by rw [h] at hn; cases hn⟩

theorem hasMeaning (i : Instr) : HasMeaning i := by
  cases i with
  | oriToSr | andiToSr | eoriToSr | moveToSr | moveToUsp | moveFromUsp | reset | stop | rte =>
    exact hasMeaning_of_privileged (fun _ => rfl) rfl
  | trap => exact hasMeaning_of_contained (fun _ => rfl) (contained_raiseTrap _)
  | trapv => exact hasMeaning_of_contained (fun _ => rfl) contained_trapOnOverflow
  | chk => exact hasMeaning_of_contained (fun _ => rfl) (contained_checkBounds _ _)
  | divu | divs => exact hasMeaning_of_contained (fun _ => rfl) (contained_divideDn _ _ _)
  | illegal | illegal4AFA | illegal4AFB | lineA | lineF =>
    exact hasMeaning_of_contained (fun _ => rfl) (contained_trapWord _)
  | oriToCcr | andiToCcr | eoriToCcr => exact hasMeaning_of_quiet (fun _ => rfl) (quiet_immToCcr _ _)
  | moveToCcr => exact hasMeaning_of_quiet (fun _ => rfl) (quiet_moveToCodes _)
  | moveFromSr => exact hasMeaning_of_quiet (fun _ => rfl) (quiet_moveFromStatus _)
  | ori => exact hasMeaning_of_quiet (fun _ => rfl) (quiet_immToEa _ _ codesOnly_orOp)
  | andi => exact hasMeaning_of_quiet (fun _ => rfl) (quiet_immToEa _ _ codesOnly_andOp)
  | eori => exact hasMeaning_of_quiet (fun _ => rfl) (quiet_immToEa _ _ codesOnly_eorOp)
  | subi => exact hasMeaning_of_quiet (fun _ => rfl) (quiet_immToEa _ _ codesOnly_subOp)
  | addi => exact hasMeaning_of_quiet (fun _ => rfl) (quiet_immToEa _ _ codesOnly_addOp)
  | cmpi => exact hasMeaning_of_quiet (fun _ => rfl) (quiet_compareImm _ _)
  | btstStatic => exact hasMeaning_of_quiet (fun _ => rfl) (quiet_bitOfWord _ fun _ => quiet_bitTest _ _)
  | btstDynamic => exact hasMeaning_of_quiet (fun _ => rfl) (quiet_bitOfRegister _ fun _ => quiet_bitTest _ _)
  | bchgStatic | bclrStatic | bsetStatic =>
    exact hasMeaning_of_quiet (fun _ => rfl) (quiet_bitOfWord _ fun _ => quiet_bitChange _ _ _)
  | bchgDynamic | bclrDynamic | bsetDynamic =>
    exact hasMeaning_of_quiet (fun _ => rfl) (quiet_bitOfRegister _ fun _ => quiet_bitChange _ _ _)
  | movepToRegW => exact hasMeaning_of_quiet (fun _ => rfl) (quiet_movepLoadWord _ _ _)
  | movepToRegL => exact hasMeaning_of_quiet (fun _ => rfl) (quiet_movepLoadLong _ _ _)
  | movepToMemW => exact hasMeaning_of_quiet (fun _ => rfl) (quiet_movepStoreWord _ _ _)
  | movepToMemL => exact hasMeaning_of_quiet (fun _ => rfl) (quiet_movepStoreLong _ _ _)
  | moveB | moveW | moveL => exact hasMeaning_of_quiet (fun _ => rfl) (quiet_moveEa _ _ _)
  | moveaW | moveaL | subaW | subaL | addaW | addaL =>
    exact hasMeaning_of_quiet (fun _ => rfl) (quiet_eaToAn _ _ _ _)
  | negx => exact hasMeaning_of_quiet (fun _ => rfl) (quiet_modifyEa _ codesOnly_negxOp)
  | neg => exact hasMeaning_of_quiet (fun _ => rfl) (quiet_modifyEa _ codesOnly_negOp)
  | notEa => exact hasMeaning_of_quiet (fun _ => rfl) (quiet_modifyEa _ codesOnly_notOp)
  | lea => exact hasMeaning_of_quiet (fun _ => rfl) (quiet_loadEffectiveAddress _ _)
  | pea => exact hasMeaning_of_quiet (fun _ => rfl) (quiet_pushEffectiveAddress _)
  | clr => exact hasMeaning_of_quiet (fun _ => rfl) (quiet_clearEa _ _)
  | nbcd => exact hasMeaning_of_quiet (fun _ => rfl) (quiet_decimalNegate _)
  | swap | moveq => exact hasMeaning_of_quiet (fun _ => rfl) (quiet_setDregLogic _ _)
  | extW dn => exact hasMeaning_of_quiet (fun _ => rfl) (quiet_extendDn dn 16 fun d => (d.setWidth 8).signExtend 16)
  | extL dn => exact hasMeaning_of_quiet (fun _ => rfl) (quiet_extendDn dn 32 fun d => (d.setWidth 16).signExtend 32)
  | movemToMem => exact hasMeaning_of_quiet (fun _ => rfl) (quiet_moveRegistersToMemory _ _ _)
  | movemToReg => exact hasMeaning_of_quiet (fun _ => rfl) (quiet_moveMemoryToRegisters _ _ _)
  | tst => exact hasMeaning_of_quiet (fun _ => rfl) (quiet_testEa _ _)
  | tas => exact hasMeaning_of_quiet (fun _ => rfl) (quiet_testAndSet _)
  | link => exact hasMeaning_of_quiet (fun _ => rfl) (quiet_linkFrame _ _)
  | unlk => exact hasMeaning_of_quiet (fun _ => rfl) (quiet_unlinkFrame _)
  | nop => exact hasMeaning_of_quiet (fun _ => rfl) (quiet_pure ())
  | rts => exact hasMeaning_of_quiet (fun _ => rfl) quiet_returnFromSubroutine
  | rtr => exact hasMeaning_of_quiet (fun _ => rfl) quiet_returnRestore
  | jsr => exact hasMeaning_of_quiet (fun _ => rfl) (quiet_jumpSubroutine _)
  | jmp => exact hasMeaning_of_quiet (fun _ => rfl) (quiet_jumpTo _)
  | addq => exact hasMeaning_of_quiet (fun _ => rfl) (quiet_quickEa _ _ codesOnly_addOp _)
  | subq => exact hasMeaning_of_quiet (fun _ => rfl) (quiet_quickEa _ _ codesOnly_subOp _)
  | scc => exact hasMeaning_of_quiet (fun _ => rfl) (quiet_setByCondition _ _)
  | dbcc => exact hasMeaning_of_quiet (fun _ => rfl) (quiet_decrementBranch _ _ _)
  | bra => exact hasMeaning_of_quiet (fun _ => rfl) (quiet_branchAlways _)
  | bsr => exact hasMeaning_of_quiet (fun _ => rfl) (quiet_branchSubroutine _)
  | bcc => exact hasMeaning_of_quiet (fun _ => rfl) (quiet_branchIf _ _)
  | orToDn => exact hasMeaning_of_quiet (fun _ => rfl) (quiet_eaToDn _ _ codesOnly_orOp)
  | andToDn => exact hasMeaning_of_quiet (fun _ => rfl) (quiet_eaToDn _ _ codesOnly_andOp)
  | subToDn => exact hasMeaning_of_quiet (fun _ => rfl) (quiet_eaToDn _ _ codesOnly_subOp)
  | addToDn => exact hasMeaning_of_quiet (fun _ => rfl) (quiet_eaToDn _ _ codesOnly_addOp)
  | orToMem => exact hasMeaning_of_quiet (fun _ => rfl) (quiet_dnToEa _ _ codesOnly_orOp)
  | andToMem => exact hasMeaning_of_quiet (fun _ => rfl) (quiet_dnToEa _ _ codesOnly_andOp)
  | eor => exact hasMeaning_of_quiet (fun _ => rfl) (quiet_dnToEa _ _ codesOnly_eorOp)
  | subToMem => exact hasMeaning_of_quiet (fun _ => rfl) (quiet_dnToEa _ _ codesOnly_subOp)
  | addToMem => exact hasMeaning_of_quiet (fun _ => rfl) (quiet_dnToEa _ _ codesOnly_addOp)
  | sbcdReg | abcdReg => exact hasMeaning_of_quiet (fun _ => rfl) (quiet_decimalReg _ _ _)
  | sbcdMem | abcdMem => exact hasMeaning_of_quiet (fun _ => rfl) (quiet_decimalMem _ _ _)
  | subxReg => exact hasMeaning_of_quiet (fun _ => rfl) (quiet_regToReg _ _ codesOnly_subxOp)
  | addxReg => exact hasMeaning_of_quiet (fun _ => rfl) (quiet_regToReg _ _ codesOnly_addxOp)
  | subxMem => exact hasMeaning_of_quiet (fun _ => rfl) (quiet_memToMem _ _ codesOnly_subxOp)
  | addxMem => exact hasMeaning_of_quiet (fun _ => rfl) (quiet_memToMem _ _ codesOnly_addxOp)
  | cmp => exact hasMeaning_of_quiet (fun _ => rfl) (quiet_compareDn _ _ _)
  | cmpaW | cmpaL => exact hasMeaning_of_quiet (fun _ => rfl) (quiet_compareAn _ _ _)
  | cmpm => exact hasMeaning_of_quiet (fun _ => rfl) (quiet_compareMem _ _ _)
  | mulu | muls => exact hasMeaning_of_quiet (fun _ => rfl) (quiet_multiplyDn _ _ _)
  | exgDD | exgAA | exgDA => exact hasMeaning_of_quiet (fun _ => rfl) (quiet_exchange _ _)
  | asrMem | aslMem | lsrMem | lslMem | roxrMem | roxlMem | rorMem | rolMem =>
    exact hasMeaning_of_quiet (fun _ => rfl) (quiet_shiftMem _ _)
  | asrImm | asrReg | aslImm | aslReg | lsrImm | lsrReg | lslImm | lslReg | roxrImm | roxrReg | roxlImm | roxlReg
  | rorImm | rorReg | rolImm | rolReg => exact hasMeaning_of_quiet (fun _ => rfl) (quiet_shiftDn _ _ _)

/-! ### User state -/

/-- In user state every instruction ends within user state, in an exception, or in an external reset. -/
theorem exec_ends_of_user {i : Instr} {s t : State} (hs : s.sr.s = false) (h : exec i s = .next t) : Ends s t := by
  obtain ⟨m, e, hm⟩ := hasMeaning i
  rw [e] at h
  cases hp : isPrivileged i with
  | true => exact ends_of_violation hp hs h
  | false => exact ends_of_contained hp (hm hp) h

/-- Settles O14: the run of an instruction keeps the system byte and SSP until it takes an exception or is reset. -/
theorem userStateProtected : Obligations.UserStateProtected := by
  intro i s t hs h
  obtain hw | ht | hr := exec_ends_of_user hs h
  · exact .inl ⟨hw.sr.supervisor.trans hs, hw.sr.trace, hw.sr.mask, hw.ssp hs⟩
  · obtain ⟨hsup, htrace, hmask⟩ := ht.excepted.sr
    exact .inr (.inl ⟨hsup, htrace, hmask, ht.frame hs⟩)
  · exact .inr (.inr ⟨hr.scheduled, hr.supervisor, hr.trace, hr.mask⟩)

/-! ### Supervisor state -/

theorem Ends.usp {s t : State} (hs : s.sr.s = true) : Ends s t → t.usp = s.usp
  | .inl h => h.usp hs
  | .inr (.inl h) => h.excepted.usp hs
  | .inr (.inr h) => h.usp hs

/-- The status register is left open last, if at all: the registers before it are settled in the state that was
aborted. -/
def StatusLast (items : Alt) : Prop := OnlyRegisters items.dropLast

theorem statusLast_concat {items : Alt} (h : OnlyRegisters items) (u : Unsettled) : StatusLast (items ++ [u]) := by
  rw [StatusLast, List.dropLast_concat]
  exact h

theorem statusLast_of_onlyRegisters {items : Alt} (h : OnlyRegisters items) : StatusLast items := by
  rcases List.eq_nil_or_concat items with rfl | ⟨xs, u, rfl⟩
  · exact h
  · rw [List.concat_eq_append] at h ⊢
    exact statusLast_concat ((onlyRegisters_append _ _).mp h).1 u

theorem settleItem_usp {s : State} (hs : s.sr.s = true) (u : Unsettled) : (settleItem s u).usp = s.usp := by
  rcases u with ⟨x, v⟩ | ⟨x, n⟩ | ⟨_ | w⟩
  · exact (within_settleItem (isRegister_either x v)).usp hs
  · exact (within_settleItem (isRegister_low x n)).usp hs
  · rfl
  · simp only [settleItem]
    split <;> rfl

/-- In supervisor state settling reaches SSP, not USP (10_state.md R27). -/
theorem settle_usp {items : Alt} (h : StatusLast items) {s : State} (hs : s.sr.s = true) :
    (settle items s).usp = s.usp := by
  rcases List.eq_nil_or_concat items with rfl | ⟨xs, u, rfl⟩
  · rfl
  · rw [StatusLast, List.concat_eq_append, List.dropLast_concat] at h
    have hw := within_settle h s
    rw [List.concat_eq_append, settle, List.foldl_append]
    exact (settleItem_usp (hw.sr.supervisor.trans hs) u).trans (hw.usp hs)

/-- From supervisor state, USP is as it was. -/
def UspKept (s t : State) : Prop := s.sr.s = true → t.usp = s.usp

theorem uspKept_bind {α : Type} {A : Alt → Prop} {x : M α} {f : α → M Unit} (hx : QuietWith A x)
    (hf : ∀ a, Runs UspKept (StoppedWithin A) (f a)) : Runs UspKept (StoppedWithin A) (x >>= f) :=
  runs_bind hx hf (fun h k hs => (k (h.sr.supervisor.trans hs)).trans (h.usp hs)) id Within.stopped

theorem uspKept_modify {A : Alt → Prop} {f : State → State} (h : ∀ s, UspKept s (f s)) :
    Runs UspKept (StoppedWithin A) (modify f) := runs_modify h

/-- A privileged instruction that keeps USP where it completes, and leaves the status register open last. -/
theorem usp_of_privileged {i : Instr} {m : M Unit} {A : Alt → Prop} {s t : State} (h : exec i s = .next t)
    (hs : s.sr.s = true) (hm : Runs UspKept (StoppedWithin A) m) (e : exec i s = runInstruction i m s)
    (hA : ∀ alt, A alt → StatusLast (alt ++ leftOpen i s)) : t.usp = s.usp := by
  rw [e] at h
  obtain k | ⟨f, u, k, rfl⟩ | ⟨u, k, rfl⟩ := runInstruction_cases (x := m) (by simp [hs]) h
  · exact hm.ok k hs
  · have hu := hm.error k
    have husp : (settleAbort i s f u).usp = u.usp := by
      rw [(settleAbort_codes i s f u).2.2, registersSettled]
      split
      · exact settle_usp (hA _ (hu.items f rfl)) (hu.within.sr.supervisor.trans hs)
      · rfl
    exact (groupZero_usp _ _ _).trans (husp.trans (hu.within.usp hs))
  · obtain ⟨-, -, -, husp⟩ := resetException_sr u
    exact husp.trans ((hm.error k).within.usp hs)

theorem uspKept_immToSr (v : Word) (f : Word → Word → Word) :
    Runs UspKept (StoppedWithin OnlyRegisters) (immToSr v f) :=
  uspKept_bind (quiet_fetchWords _) fun _ => uspKept_modify fun _ _ => rfl

theorem uspKept_moveToStatus (ea : Ea) : Runs UspKept (StoppedWithin OnlyRegisters) (moveToStatus ea) :=
  uspKept_bind (quiet_readEa .w _) fun _ => uspKept_modify fun _ _ => rfl

theorem uspKept_stopProcessor (v : Word) : Runs UspKept (StoppedWithin OnlyRegisters) (stopProcessor v) :=
  uspKept_bind quiet_get fun _ => uspKept_bind (quiet_fetchWords _) fun _ => uspKept_modify fun _ _ => rfl

theorem uspKept_returnFromException : Runs UspKept (StoppedWithin StatusLast) returnFromException :=
  uspKept_bind quiet_get fun _ =>
    uspKept_bind (quiet_memRead (statusLast_concat (onlyRegisters_either _ _) _) .w _ _) fun _ =>
    uspKept_bind (quiet_memRead (statusLast_concat (onlyRegisters_either _ _) _) .l _ _) fun _ =>
    uspKept_modify fun _ _ => rfl

/-- The privileged instructions, MOVE to USP apart, keep USP. -/
theorem exec_usp_of_privileged {i : Instr} {s t : State} (hp : isPrivileged i = true) (hi : ∀ an, i ≠ .moveToUsp an)
    (hs : s.sr.s = true) (h : exec i s = .next t) : t.usp = s.usp := by
  have appended : ∀ u alt, OnlyRegisters alt → StatusLast (alt ++ [u]) := fun u _ ha => statusLast_concat ha u
  cases i with
  | moveToUsp an => exact absurd rfl (hi an)
  | oriToSr v | andiToSr v | eoriToSr v =>
    exact usp_of_privileged h hs (uspKept_immToSr v _) rfl (appended _)
  | stop v => exact usp_of_privileged h hs (uspKept_stopProcessor v) rfl (appended _)
  | moveToSr ea =>
    refine usp_of_privileged h hs (uspKept_moveToStatus ea) rfl (fun alt ha => ?_)
    show StatusLast (alt ++ (steppedOpen s ea .w ++ [.status none]))
    rw [← List.append_assoc]
    exact appended _ _ ((onlyRegisters_append _ _).mpr ⟨ha, onlyRegisters_steppedOpen _ _ _⟩)
  | moveFromUsp an =>
    exact usp_of_privileged h hs (uspKept_modify fun u => (within_setAreg u an u.usp).usp) rfl
      (fun _ ha => statusLast_of_onlyRegisters ((onlyRegisters_append _ _).mpr ⟨ha, onlyRegisters_nil⟩))
  | reset =>
    exact usp_of_privileged h hs (uspKept_modify fun u _ => record_usp u _) rfl
      (fun _ ha => statusLast_of_onlyRegisters ((onlyRegisters_append _ _).mpr ⟨ha, onlyRegisters_nil⟩))
  | rte => exact usp_of_privileged h hs uspKept_returnFromException rfl (fun _ ha => by rwa [leftOpen, List.append_nil])
  | _ => cases hp

/-- Settles O15: in supervisor state A7 is SSP, and MOVE to USP alone writes the other stack pointer. -/
theorem supervisorKeepsUsp : Obligations.SupervisorKeepsUsp := by
  intro i s t hs hi h
  cases hp : isPrivileged i with
  | true => exact exec_usp_of_privileged hp hi hs h
  | false =>
    obtain ⟨m, e, hm⟩ := hasMeaning i
    rw [e] at h
    exact (ends_of_contained hp (hm hp) h).usp hs

end Sys2Proof.Machine
end

section
/-! The state after reset, the status register as a word, partial writes of a data register, and the conditions after a
comparison (10_state.md R21, R36, R39, R48). -/

namespace Sys2Proof.Machine

/-! ### The state after reset -/

/-- Settles O11: the state after reset is written out, and its memory lists nothing. -/
theorem resetValues : Obligations.ResetValues := by
  unfold Obligations.ResetValues
  decide

/-! ### The status register as a word -/

theorem toWord_ofWord (w : Word) : (Sr.ofWord w).toWord = w &&& 0xA71F := by
  refine BitVec.eq_of_getLsbD_eq fun k hk => ?_
  rw [toWord_getLsbD _ hk, BitVec.getLsbD_and]
  interval_cases k <;> simp [Sr.ofWord]

theorem ofWord_toWord (sr : Sr) : Sr.ofWord sr.toWord = sr := by
  have mask : sr.toWord.extractLsb' 8 3 = sr.i := by
    refine BitVec.eq_of_getLsbD_eq fun k hk => ?_
    rw [BitVec.getLsbD_extractLsb', toWord_getLsbD sr (by omega)]
    interval_cases k <;> simp
  simp only [Sr.ofWord, mask, toWord_getLsbD sr (show 15 < 16 by decide), toWord_getLsbD sr (show 13 < 16 by decide),
    toWord_getLsbD sr (show 4 < 16 by decide), toWord_getLsbD sr (show 3 < 16 by decide),
    toWord_getLsbD sr (show 2 < 16 by decide), toWord_getLsbD sr (show 1 < 16 by decide),
    toWord_getLsbD sr (show 0 < 16 by decide)]

theorem toWord_setCodes (sr : Sr) (b : BitVec 5) :
    (sr.setCodes b).toWord = (sr.toWord &&& 0xFFE0) ||| b.setWidth 16 := by
  refine BitVec.eq_of_getLsbD_eq fun k hk => ?_
  rw [toWord_getLsbD _ hk, BitVec.getLsbD_or, BitVec.getLsbD_and, toWord_getLsbD _ hk, BitVec.getLsbD_setWidth]
  interval_cases k <;> simp [Sr.setCodes]

/-- Settles O16, bit by bit. -/
theorem statusRegisterMask : Obligations.StatusRegisterMask :=
  ⟨toWord_ofWord, ofWord_toWord, toWord_setCodes⟩

/-! ### Partial writes of a data register -/

/-- The bits of a register after a write of its low-order part (10_state.md R21). -/
theorem setLow_getLsbD {w : Nat} (old : Long) (v : BitVec w) (hw : w ≤ 32) (j : Nat) :
    (setLow old v).getLsbD j = if j < w then v.getLsbD j else old.getLsbD j := by
  unfold setLow
  by_cases hj : j < w
  · simp [hj, show j < 32 by omega]
  · have hv : v.getLsbD j = false := BitVec.getLsbD_of_ge v j (by omega)
    by_cases h32 : j < 32
    · simp only [BitVec.getLsbD_or, BitVec.getLsbD_shiftLeft, BitVec.getLsbD_ushiftRight, BitVec.getLsbD_setWidth, hv,
        h32, hj, Nat.add_sub_cancel' (Nat.le_of_not_lt hj)]
      simp
    · rw [BitVec.getLsbD_of_ge _ j (by omega), if_neg hj, BitVec.getLsbD_of_ge _ j (by omega)]

theorem setWidth_setLow {w : Nat} (old : Long) (v : BitVec w) (hw : w ≤ 32) : (setLow old v).setWidth w = v := by
  refine BitVec.eq_of_getLsbD_eq fun j hj => ?_
  rw [BitVec.getLsbD_setWidth, setLow_getLsbD old v hw]
  simp [hj]

theorem Size.bits_le (sz : Size) : sz.bits ≤ 32 := by
  cases sz <;> decide

/-- Settles O17: the bits of the register written are those of `setLow`. -/
theorem partialRegisterWrite : Obligations.PartialRegisterWrite := by
  intro s n sz v
  have hn : (s.setDregLow n v).dreg n = setLow (s.dreg n) v := dreg_setDreg_same s n _
  rw [hn]
  refine ⟨setWidth_setLow _ v (Size.bits_le sz), fun j hj => ?_, fun m hm => dreg_setDreg_of_ne s hm _⟩
  rw [setLow_getLsbD _ v (Size.bits_le sz), if_neg (by omega)]

/-! ### Conditions -/

theorem beq_zero_eq {w : Nat} (v : BitVec w) : (v == 0#w) = decide (v.toNat = 0) := by
  rw [Bool.eq_iff_iff, beq_iff_eq, decide_eq_true_iff, BitVec.toNat_eq]
  simp

/-- The borrow of a difference (41_integer_arithmetic.md R182). -/
theorem subBorrow_sub {w : Nat} (s d : BitVec w) : subBorrow s d (d - s) = decide (d.toNat < s.toNat) := by
  cases w with
  | zero => simp [subBorrow, BitVec.of_length_zero]
  | succ n =>
    have hs := s.isLt
    have hd := d.isLt
    have hr : (d - s).toNat = if d.toNat < s.toNat then 2 ^ (n + 1) - s.toNat + d.toNat else d.toNat - s.toNat := by
      rw [BitVec.toNat_sub]
      split
      · exact Nat.mod_eq_of_lt (by omega)
      · rw [show 2 ^ (n + 1) - s.toNat + d.toNat = d.toNat - s.toNat + 2 ^ (n + 1) by omega, Nat.add_mod_right]
        exact Nat.mod_eq_of_lt (by omega)
    rw [Nat.pow_succ] at hs hd hr
    simp only [subBorrow, BitVec.msb_eq_decide, Nat.add_sub_cancel]
    rw [Bool.eq_iff_iff]
    simp only [Bool.or_eq_true, Bool.and_eq_true, Bool.not_eq_true', decide_eq_true_eq, decide_eq_false_iff_not]
    split at hr <;> omega

theorem subOverflow_sub {w : Nat} (s d : BitVec w) : subOverflow s d (d - s) = outOfRange w (d.toInt - s.toInt) := by
  have h : subOverflow s d (d - s) = d.ssubOverflow s := by
    rw [BitVec.ssubOverflow_eq]
    unfold subOverflow
    cases s.msb <;> cases d.msb <;> cases (d - s).msb <;> rfl
  rw [h, BitVec.ssubOverflow, outOfRange, Bool.or_comm]

/-- N differs from V exactly where the destination is the smaller number with sign. -/
theorem sub_less {w : Nat} (s d : BitVec w) :
    ((d - s).msb != subOverflow s d (d - s)) = decide (d.toInt < s.toInt) := by
  have h : decide (d.toInt < s.toInt) = (d.msb != s.msb ^^ subBorrow s d (d - s)) := by
    rw [subBorrow_sub]
    exact BitVec.slt_eq_ult
  rw [h]
  unfold subOverflow subBorrow
  cases s.msb <;> cases d.msb <;> cases (d - s).msb <;> rfl

/-- The condition codes after a comparison (41_integer_arithmetic.md R189). -/
theorem compareOp_codes {w : Nat} (s d : BitVec w) (sr : Sr) :
    (compareOp s d sr).z = decide (d = s) ∧ (compareOp s d sr).n = decide ((d - s).toInt < 0) ∧
      (compareOp s d sr).c = decide (d.toNat < s.toNat) ∧
      (compareOp s d sr).v = outOfRange w (d.toInt - s.toInt) ∧
      ((compareOp s d sr).n != (compareOp s d sr).v) = decide (d.toInt < s.toInt) ∧ (compareOp s d sr).x = sr.x := by
  refine ⟨?_, BitVec.msb_eq_toInt, subBorrow_sub s d, subOverflow_sub s d, sub_less s d, rfl⟩
  show (d - s == 0#w) = decide (d = s)
  rw [Bool.eq_iff_iff, beq_iff_eq, decide_eq_true_iff]
  exact sub_eq_zero

/-- The table of the conditions (10_state.md R39). -/
theorem condHolds_table (sr : Sr) :
    (condHolds .t sr = true ∧ condHolds .f sr = false) ∧
      (condHolds .hi sr = true ↔ sr.c = false ∧ sr.z = false) ∧ (condHolds .ls sr = true ↔ sr.c = true ∨ sr.z = true) ∧
      (condHolds .cc sr = true ↔ sr.c = false) ∧ (condHolds .cs sr = true ↔ sr.c = true) ∧
      (condHolds .ne sr = true ↔ sr.z = false) ∧ (condHolds .eq sr = true ↔ sr.z = true) ∧
      (condHolds .vc sr = true ↔ sr.v = false) ∧ (condHolds .vs sr = true ↔ sr.v = true) ∧
      (condHolds .pl sr = true ↔ sr.n = false) ∧ (condHolds .mi sr = true ↔ sr.n = true) ∧
      (condHolds .ge sr = true ↔ sr.n = sr.v) ∧ (condHolds .lt sr = true ↔ sr.n ≠ sr.v) ∧
      (condHolds .gt sr = true ↔ sr.z = false ∧ sr.n = sr.v) ∧
      (condHolds .le sr = true ↔ sr.z = true ∨ sr.n ≠ sr.v) := by
  simp [condHolds]

/-- Settles O20: the table by its formulas, a comparison by the borrow and the signed overflow of the difference. -/
theorem conditionsAfterCompareAndLogic : Obligations.ConditionsAfterCompareAndLogic := by
  refine ⟨condHolds_table, fun w sr s d _ => ?_, fun w sr v => ?_⟩
  · obtain ⟨hz, hn, hc, hv, hnv, hx⟩ := compareOp_codes s d sr
    obtain ⟨-, hi, ls, cc, cs, ne, eq, vc, vs, pl, mi, ge, lt, gt, le⟩ := condHolds_table (compareOp s d sr)
    have less : (compareOp s d sr).n ≠ (compareOp s d sr).v ↔ d.toInt < s.toInt := by
      rw [← bne_iff_ne, hnv, decide_eq_true_iff]
    have same : (compareOp s d sr).n = (compareOp s d sr).v ↔ s.toInt ≤ d.toInt := by
      rw [← not_lt, ← less, not_not]
    have hint : d = s ↔ d.toInt = s.toInt := BitVec.toInt_inj.symm
    have hnat : d = s ↔ d.toNat = s.toNat := BitVec.toNat_inj.symm
    rw [same] at ge gt
    rw [less] at lt le
    simp only [hz, hn, hc, decide_eq_true_iff, decide_eq_false_iff_not] at hi ls cc cs ne eq pl mi gt le
    exact ⟨by rw [gt, hint]; omega, ge, lt, by rw [le, hint]; omega, by rw [hi, hnat]; omega, by rw [cc]; omega, cs,
      by rw [ls, hnat]; omega, eq, ne, mi, by rw [pl]; omega, by rw [condHolds, hv], by rw [condHolds, hv], hx⟩
  · rw [Sr.logicFlags, BitVec.msb_eq_toInt, beq_zero_eq]

end Sys2Proof.Machine
end

section
/-! The canonical form of memory through the meaning of every instruction: memory is changed by bus cycles alone, and
every bus cycle keeps its form (log 3). -/

namespace Sys2Proof.Machine

/-! ### Free values and operands -/

theorem canonical_drawBit : Keeps Canonical drawBit := fun _ h => h

theorem canonical_drawWord : Keeps Canonical drawWord := fun _ h => h

@[simp] theorem setXreg_mem (s : State) (x : Fin 16) (v : Long) : (s.setXreg x v).mem = s.mem :=
  (settledFrom_setXreg s x v).mem

theorem canonical_evalEa (ea : Ea) (sz : Size) : Keeps Canonical (evalEa ea sz) :=
  keeps_bind keeps_get fun _ => keeps_bind (canonical_fetchWords _) fun _ =>
    keeps_bind (keeps_modify_mem fun _ => stepAddress_mem _ _ _) fun _ => keeps_pure _

theorem canonical_readLoc (sz : Size) (loc : Loc) : Keeps Canonical (readLoc sz loc) := by
  cases loc with
  | dreg n => exact keeps_bind keeps_get fun _ => keeps_pure _
  | areg n => exact keeps_bind keeps_get fun _ => keeps_pure _
  | mem a program alt lf => exact keeps_bind keeps_get fun _ => canonical_memRead _ _ _ _
  | imm v => exact keeps_pure _

theorem canonical_writeLoc (sz : Size) (loc : Loc) (v : BitVec sz.bits) : Keeps Canonical (writeLoc sz loc v) := by
  cases loc with
  | dreg n => exact keeps_modify_mem fun _ => rfl
  | areg n => exact keeps_modify_mem fun _ => setAreg_mem _ _ _
  | mem a program alt lf => exact keeps_bind keeps_get fun _ => canonical_memWrite _ _ _ _ _ _
  | imm v => exact keeps_pure _

theorem canonical_readEa (sz : Size) (ea : Ea) : Keeps Canonical (readEa sz ea) :=
  keeps_bind (canonical_evalEa _ _) fun _ => canonical_readLoc _ _

theorem canonical_controlAddress (ea : Ea) : Keeps Canonical (controlAddress ea) :=
  keeps_bind keeps_get fun _ => keeps_bind (canonical_evalEa _ _) fun _ => keeps_pure _

/-! ### Operand patterns -/

/-- An update of the status register alone. -/
theorem canonical_modifySr (f : State → Sr) : Keeps Canonical (modify fun s => s.setSr (f s)) :=
  keeps_modify_mem fun _ => rfl

theorem canonical_setCompare {w : Nat} (v d : BitVec w) : Keeps Canonical (setCompare v d) := canonical_modifySr _

theorem canonical_setLogic {w : Nat} (v : BitVec w) : Keeps Canonical (setLogic v) := canonical_modifySr _

theorem canonical_modifyLoc (sz : Size) (loc : Loc) (op : Unary sz.bits) : Keeps Canonical (modifyLoc sz loc op) :=
  keeps_bind (canonical_readLoc _ _) fun _ => keeps_bind keeps_get fun _ =>
    keeps_bind (canonical_writeLoc _ _ _) fun _ => canonical_modifySr _

theorem canonical_modifyEa (sz : Size) (ea : Ea) (op : Unary sz.bits) : Keeps Canonical (modifyEa sz ea op) :=
  keeps_bind (canonical_evalEa _ _) fun _ => canonical_modifyLoc _ _ _

theorem canonical_modifyEaCodesFirst (sz : Size) (ea : Ea) (op : Unary sz.bits) :
    Keeps Canonical (modifyEaCodesFirst sz ea op) :=
  keeps_bind (canonical_evalEa _ _) fun _ => keeps_bind (canonical_readLoc _ _) fun _ => keeps_bind keeps_get fun _ =>
    keeps_bind (canonical_modifySr _) fun _ => canonical_writeLoc _ _ _

theorem canonical_eaToDn (sz : Size) (ea : Ea) (dn : Reg) (op : Binary sz.bits) :
    Keeps Canonical (eaToDn sz ea dn op) :=
  keeps_bind (canonical_readEa _ _) fun _ => keeps_modify_mem fun _ => rfl

theorem canonical_dnToEa (sz : Size) (dn : Reg) (ea : Ea) (op : Binary sz.bits) :
    Keeps Canonical (dnToEa sz dn ea op) :=
  keeps_bind keeps_get fun _ => canonical_modifyEa _ _ _

theorem canonical_immToEa (v : Imm) (ea : Ea) (op : Binary v.size.bits) : Keeps Canonical (immToEa v ea op) :=
  keeps_bind (canonical_fetchWords _) fun _ => canonical_modifyEa _ _ _

theorem canonical_eaToAn (sz : WideSize) (ea : Ea) (an : Reg) (op : Long → Long → Long) :
    Keeps Canonical (eaToAn sz ea an op) :=
  keeps_bind (canonical_readEa _ _) fun _ => keeps_modify_mem fun _ => setAreg_mem _ _ _

theorem canonical_regToReg (sz : Size) (dy dx : Reg) (op : Binary sz.bits) : Keeps Canonical (regToReg sz dy dx op) :=
  keeps_modify_mem fun _ => rfl

theorem canonical_memToMem (sz : Size) (ay ax : Reg) (op : Binary sz.bits) : Keeps Canonical (memToMem sz ay ax op) :=
  keeps_bind (canonical_readEa _ _) fun _ => canonical_modifyEa _ _ _

/-! ### Taking an exception -/

theorem canonical_acquireVector (src : VectorSource) : Keeps Canonical (acquireVector src) := by
  cases src with
  | internal v => exact keeps_pure _
  | acknowledge level => exact keeps_bind (keeps_beginCycle canonical_cycleBegun) fun _ _ h => h

theorem canonical_takeException (g : XGroup) (src : VectorSource) (pc : Long) :
    Keeps Canonical (takeException g src pc) :=
  keeps_bind keeps_get fun _ => keeps_bind (keeps_modify_mem fun _ => rfl) fun _ =>
    keeps_bind (canonical_acquireVector _) fun _ => keeps_bind (canonical_pushLong _) fun _ =>
    keeps_bind (canonical_pushWord _) fun _ => keeps_bind (canonical_memRead _ _ _ _) fun _ =>
    keeps_modify_mem fun _ => rfl

theorem canonical_raiseTrap (v : Byte) : Keeps Canonical (raiseTrap v) :=
  keeps_bind keeps_get fun _ => canonical_takeException _ _ _

theorem canonical_trapWord (v : Byte) : Keeps Canonical (trapWord v) :=
  keeps_bind keeps_get fun _ => canonical_takeException _ _ _

/-! ### Arithmetic -/

theorem canonical_discardRead (sz : Size) (loc : Loc) : Keeps Canonical (discardRead sz loc) :=
  keeps_ite (keeps_bind (canonical_readLoc _ _) fun _ => keeps_pure _) (keeps_pure _)

theorem canonical_clearEa (sz : Size) (ea : Ea) : Keeps Canonical (clearEa sz ea) :=
  keeps_bind (canonical_evalEa _ _) fun _ => keeps_bind (canonical_discardRead _ _) fun _ =>
    keeps_bind (canonical_writeLoc _ _ _) fun _ => canonical_modifySr _

theorem canonical_quickEa (q : Fin 8) (sz : Size) (ea : Ea) (op : Binary sz.bits) (addressOp : Long → Long → Long) :
    Keeps Canonical (quickEa q sz ea op addressOp) := by
  cases ea with
  | an n => exact keeps_modify_mem fun _ => setAreg_mem _ _ _
  | _ => exact canonical_modifyEa _ _ _

theorem canonical_compareDn (sz : Size) (ea : Ea) (dn : Reg) : Keeps Canonical (compareDn sz ea dn) :=
  keeps_bind (canonical_readEa _ _) fun _ => keeps_bind keeps_get fun _ => canonical_setCompare _ _

theorem canonical_compareAn (sz : WideSize) (ea : Ea) (an : Reg) : Keeps Canonical (compareAn sz ea an) :=
  keeps_bind (canonical_readEa _ _) fun _ => keeps_bind keeps_get fun _ => canonical_setCompare _ _

theorem canonical_compareImm (v : Imm) (ea : Ea) : Keeps Canonical (compareImm v ea) :=
  keeps_bind (canonical_fetchWords _) fun _ => keeps_bind (canonical_readEa _ _) fun _ => canonical_setCompare _ _

theorem canonical_readThenStep (sz : Size) (n : Reg) : Keeps Canonical (readThenStep sz n) :=
  keeps_bind keeps_get fun _ => keeps_bind (canonical_memRead _ _ _ _) fun _ =>
    keeps_bind (keeps_modify_mem fun _ => stepAddress_mem _ _ _) fun _ => keeps_pure _

theorem canonical_compareMem (sz : Size) (ay ax : Reg) : Keeps Canonical (compareMem sz ay ax) :=
  keeps_bind (canonical_readThenStep _ _) fun _ => keeps_bind (canonical_readThenStep _ _) fun _ =>
    canonical_setCompare _ _

theorem canonical_zeroDivide : Keeps Canonical zeroDivide :=
  keeps_bind canonical_drawBit fun _ => keeps_bind canonical_drawBit fun _ => keeps_bind canonical_drawBit fun _ =>
    keeps_bind (canonical_modifySr _) fun _ => canonical_raiseTrap _

theorem canonical_divideOverflow : Keeps Canonical divideOverflow :=
  keeps_bind canonical_drawBit fun _ => keeps_bind canonical_drawBit fun _ => canonical_modifySr _

theorem canonical_divideDn (ea : Ea) (dn : Reg) (divide : Long → Word → Option (Word × Word)) :
    Keeps Canonical (divideDn ea dn divide) :=
  keeps_bind (canonical_readEa .w _) fun _ => keeps_ite canonical_zeroDivide <| keeps_bind keeps_get fun _ => by
    split
    · exact canonical_divideOverflow
    · exact keeps_modify_mem fun _ => rfl

theorem canonical_multiplyDn (ea : Ea) (dn : Reg) (multiply : Word → Word → Long) :
    Keeps Canonical (multiplyDn ea dn multiply) :=
  keeps_bind (canonical_readEa .w _) fun _ => keeps_modify_mem fun _ => rfl

theorem canonical_extendDn (dn : Reg) (w : Nat) (f : Long → BitVec w) : Keeps Canonical (extendDn dn w f) :=
  keeps_modify_mem fun _ => rfl

theorem canonical_testAndSet (ea : Ea) : Keeps Canonical (testAndSet ea) :=
  keeps_bind (canonical_evalEa _ _) fun loc => by
    have register : Keeps Canonical (do
        let d : Byte ← readLoc .b loc
        setLogic d
        writeLoc .b loc (d ||| 0x80#8)) :=
      keeps_bind (canonical_readLoc .b _) fun _ => keeps_bind (canonical_setLogic _) fun _ => canonical_writeLoc .b _ _
    cases loc with
    | mem a program alt lf =>
      exact keeps_bind keeps_get fun _ => keeps_bind (canonical_readModifyWrite _ _ _ _) fun _ => canonical_setLogic _
    | _ => exact register

theorem canonical_testEa (sz : Size) (ea : Ea) : Keeps Canonical (testEa sz ea) :=
  keeps_bind (canonical_readEa _ _) fun _ => canonical_setLogic _

/-! ### Decimal arithmetic and bits -/

theorem canonical_setDecimal (r : Byte) (c : Bool) : Keeps Canonical (setDecimal r c) :=
  keeps_bind canonical_drawBit fun _ => keeps_bind canonical_drawBit fun _ => canonical_modifySr _

theorem canonical_decimalLoc (loc : Loc) (op : Byte → Bool → Byte × Bool) : Keeps Canonical (decimalLoc loc op) :=
  keeps_bind (canonical_readLoc .b _) fun _ => keeps_bind keeps_get fun _ =>
    keeps_bind (canonical_writeLoc .b _ _) fun _ => canonical_setDecimal _ _

theorem canonical_decimalReg (dy dx : Reg) (op : Byte → Byte → Bool → Byte × Bool) :
    Keeps Canonical (decimalReg dy dx op) :=
  keeps_bind keeps_get fun _ => canonical_decimalLoc _ _

theorem canonical_decimalMem (ay ax : Reg) (op : Byte → Byte → Bool → Byte × Bool) :
    Keeps Canonical (decimalMem ay ax op) :=
  keeps_bind (canonical_readEa .b _) fun _ => keeps_bind (canonical_evalEa _ _) fun _ => canonical_decimalLoc _ _

theorem canonical_decimalNegate (ea : Ea) : Keeps Canonical (decimalNegate ea) :=
  keeps_bind (canonical_evalEa _ _) fun _ => canonical_decimalLoc _ _

theorem canonical_setZeroOfBit (bit : Bool) : Keeps Canonical (setZeroOfBit bit) := canonical_modifySr _

theorem canonical_bitTest (raw : Nat) (ea : Ea) : Keeps Canonical (bitTest raw ea) := by
  cases ea with
  | dn n => exact keeps_bind keeps_get fun _ => canonical_setZeroOfBit _
  | _ => exact keeps_bind (canonical_readEa .b _) fun _ => canonical_setZeroOfBit _

theorem canonical_bitChange (raw : Nat) (ea : Ea) (f : Bool → Bool) : Keeps Canonical (bitChange raw ea f) := by
  have memory : ∀ ea, Keeps Canonical (modifyEaCodesFirst .b ea fun (v : Byte) sr =>
      (setBit v (raw % 8) (f (v.getLsbD (raw % 8))), sr.zeroOfBit (v.getLsbD (raw % 8)))) :=
    fun ea => canonical_modifyEaCodesFirst .b ea _
  cases ea with
  | dn n =>
    exact keeps_bind keeps_get fun _ => keeps_bind (canonical_setZeroOfBit _) fun _ => keeps_modify_mem fun _ => rfl
  | _ => exact memory _

theorem canonical_bitOfRegister (dn : Reg) {k : Nat → M Unit} (h : ∀ n, Keeps Canonical (k n)) :
    Keeps Canonical (bitOfRegister dn k) := keeps_bind keeps_get fun _ => h _

theorem canonical_bitOfWord (bit : Byte) {k : Nat → M Unit} (h : ∀ n, Keeps Canonical (k n)) :
    Keeps Canonical (bitOfWord bit k) := keeps_bind (canonical_fetchWords _) fun _ => h _

/-! ### Program control -/

theorem canonical_modifyPc (f : State → Long) : Keeps Canonical (modify fun s => s.setPc (f s)) :=
  keeps_modify_mem fun _ => rfl

theorem canonical_branchTarget (d : BranchDisp) : Keeps Canonical (branchTarget d) :=
  keeps_bind keeps_get fun _ => keeps_bind (canonical_fetchWords _) fun _ => keeps_pure _

theorem canonical_branchIf (c : Cond) (d : BranchDisp) : Keeps Canonical (branchIf c d) :=
  keeps_bind (canonical_branchTarget d) fun _ => keeps_modify_mem fun s => by split <;> rfl

theorem canonical_branchAlways (d : BranchDisp) : Keeps Canonical (branchAlways d) :=
  keeps_bind (canonical_branchTarget d) fun _ => canonical_modifyPc _

theorem canonical_branchSubroutine (d : BranchDisp) : Keeps Canonical (branchSubroutine d) :=
  keeps_bind (canonical_branchTarget d) fun _ => keeps_bind keeps_get fun _ =>
    keeps_bind (canonical_pushLong _) fun _ => canonical_modifyPc _

theorem canonical_decrementBranch (c : Cond) (dn : Reg) (d : Word) : Keeps Canonical (decrementBranch c dn d) :=
  keeps_bind keeps_get fun _ => keeps_bind (canonical_fetchWords _) fun _ => keeps_modify_mem fun s => by
    dsimp only
    split
    · rfl
    · split <;> rfl

theorem canonical_setByCondition (c : Cond) (ea : Ea) : Keeps Canonical (setByCondition c ea) :=
  keeps_bind (canonical_evalEa _ _) fun _ => keeps_bind (canonical_discardRead _ _) fun _ =>
    keeps_bind keeps_get fun _ => canonical_writeLoc _ _ _

theorem canonical_jumpTo (ea : Ea) : Keeps Canonical (jumpTo ea) :=
  keeps_bind (canonical_controlAddress _) fun _ => canonical_modifyPc _

theorem canonical_jumpSubroutine (ea : Ea) : Keeps Canonical (jumpSubroutine ea) :=
  keeps_bind (canonical_controlAddress _) fun _ => keeps_bind keeps_get fun _ =>
    keeps_bind (canonical_pushLong _) fun _ => canonical_modifyPc _

theorem canonical_returnFromSubroutine : Keeps Canonical returnFromSubroutine :=
  keeps_bind canonical_popLong fun _ => canonical_modifyPc _

theorem canonical_returnRestore : Keeps Canonical returnRestore :=
  keeps_bind canonical_popWord fun _ => keeps_bind (canonical_modifySr _) fun _ =>
    keeps_bind canonical_popLong fun _ => canonical_modifyPc _

/-! ### Data movement -/

theorem canonical_exchange (x y : Fin 16) : Keeps Canonical (exchange x y) :=
  keeps_modify_mem fun _ => (setXreg_mem _ _ _).trans (setXreg_mem _ _ _)

theorem canonical_moveEa (sz : Size) (src dst : Ea) : Keeps Canonical (moveEa sz src dst) :=
  keeps_bind (canonical_readEa _ _) fun _ => keeps_bind (canonical_evalEa _ _) fun _ =>
    keeps_bind (canonical_writeLoc _ _ _) fun _ => canonical_setLogic _

theorem canonical_storeUp (sz : Size) (mask : Word) : ∀ regs a, Keeps Canonical (storeUp sz mask regs a)
  | [], _ => keeps_pure _
  | _ :: rest, _ =>
    keeps_ite (keeps_bind keeps_get fun _ => keeps_bind (canonical_memWrite _ _ _ _ _ _) fun _ =>
      canonical_storeUp sz mask rest _) (canonical_storeUp sz mask rest _)

theorem canonical_storeDown (sz : Size) (mask : Word) (an : Reg) :
    ∀ regs a, Keeps Canonical (storeDown sz mask an regs a)
  | [], _ => keeps_pure _
  | _ :: rest, _ =>
    keeps_ite (keeps_bind keeps_get fun _ => keeps_bind (canonical_memWrite _ _ _ _ _ _) fun _ =>
      canonical_storeDown sz mask an rest _) (canonical_storeDown sz mask an rest _)

theorem canonical_loadUp (sz : Size) (mask : Word) (program : Bool) (an : Option Reg) :
    ∀ regs a, Keeps Canonical (loadUp sz mask program an regs a)
  | [], _ => keeps_pure _
  | _ :: rest, _ =>
    keeps_ite (keeps_bind keeps_get fun _ => keeps_bind (keeps_leavingOpen (canonical_memRead _ _ _ _) _) fun _ =>
      keeps_bind (keeps_modify_mem fun _ => setXreg_mem _ _ _) fun _ => canonical_loadUp sz mask program an rest _)
      (canonical_loadUp sz mask program an rest _)

theorem canonical_moveRegistersToMemory (sz : Size) (mask : Word) (ea : Ea) :
    Keeps Canonical (moveRegistersToMemory sz mask ea) :=
  keeps_bind (keeps_leavingOpen (canonical_fetchWords _) _) fun _ => by
    cases ea with
    | pre n =>
      exact keeps_bind keeps_get fun _ => keeps_bind (canonical_storeDown _ _ _ _ _) fun _ =>
        keeps_modify_mem fun _ => setAreg_mem _ _ _
    | _ =>
      exact keeps_bind keeps_get fun _ => keeps_bind (canonical_evalEa _ _) fun _ =>
        keeps_bind (canonical_storeUp _ _ _ _) fun _ => keeps_pure _

theorem canonical_moveMemoryToRegisters (sz : Size) (mask : Word) (ea : Ea) :
    Keeps Canonical (moveMemoryToRegisters sz mask ea) :=
  keeps_bind (keeps_leavingOpen (canonical_fetchWords _) _) fun _ => by
    cases ea with
    | post n =>
      exact keeps_bind keeps_get fun _ => keeps_bind (canonical_loadUp _ _ _ _ _ _) fun _ =>
        keeps_bind keeps_get fun _ => keeps_bind (canonical_memRead .w _ _ _) fun _ =>
        keeps_modify_mem fun _ => setAreg_mem _ _ _
    | _ =>
      exact keeps_bind keeps_get fun _ => keeps_bind (keeps_leavingOpen (canonical_evalEa _ _) _) fun _ =>
        keeps_bind (canonical_loadUp _ _ _ _ _ _) fun _ => keeps_bind keeps_get fun _ =>
        keeps_bind (canonical_memRead .w _ _ _) fun _ => keeps_pure _

theorem canonical_movepAddress (d : Word) (ay : Reg) : Keeps Canonical (movepAddress d ay) :=
  keeps_bind (canonical_fetchWords _) fun _ => keeps_bind keeps_get fun _ => keeps_pure _

theorem canonical_movepRead (a : Long) : Keeps Canonical (movepRead a) :=
  keeps_bind keeps_get fun _ => canonical_memRead .b _ _ _

theorem canonical_movepWrite (a : Long) (v : Byte) : Keeps Canonical (movepWrite a v) :=
  keeps_bind keeps_get fun _ => canonical_memWrite .b _ _ _ _ _

theorem canonical_movepLoadWord (d : Word) (ay dx : Reg) : Keeps Canonical (movepLoadWord d ay dx) :=
  keeps_bind (canonical_movepAddress _ _) fun _ => keeps_bind (canonical_movepRead _) fun _ =>
    keeps_bind (keeps_modify_mem fun _ => rfl) fun _ => keeps_bind (canonical_movepRead _) fun _ =>
    keeps_modify_mem fun _ => rfl

theorem canonical_movepLoadLong (d : Word) (ay dx : Reg) : Keeps Canonical (movepLoadLong d ay dx) :=
  keeps_bind (canonical_movepAddress _ _) fun _ => keeps_bind (canonical_movepRead _) fun _ =>
    keeps_bind (canonical_movepRead _) fun _ => keeps_bind (canonical_movepRead _) fun _ =>
    keeps_bind (canonical_movepRead _) fun _ => keeps_modify_mem fun _ => rfl

theorem canonical_movepStoreWord (dx : Reg) (d : Word) (ay : Reg) : Keeps Canonical (movepStoreWord dx d ay) :=
  keeps_bind (canonical_movepAddress _ _) fun _ => keeps_bind keeps_get fun _ =>
    keeps_bind (canonical_movepWrite _ _) fun _ => canonical_movepWrite _ _

theorem canonical_movepStoreLong (dx : Reg) (d : Word) (ay : Reg) : Keeps Canonical (movepStoreLong dx d ay) :=
  keeps_bind (canonical_movepAddress _ _) fun _ => keeps_bind keeps_get fun _ =>
    keeps_bind (canonical_movepWrite _ _) fun _ => keeps_bind (canonical_movepWrite _ _) fun _ =>
    keeps_bind (canonical_movepWrite _ _) fun _ => canonical_movepWrite _ _

theorem canonical_linkFrame (an : Reg) (d : Word) : Keeps Canonical (linkFrame an d) :=
  keeps_bind (keeps_leavingOpen (canonical_fetchWords _) _) fun _ => keeps_bind keeps_get fun _ =>
    keeps_bind (keeps_modify_mem fun _ => setAreg_mem _ _ _) fun _ => keeps_bind keeps_get fun _ =>
    keeps_bind (canonical_memWrite .l _ _ _ _ _) fun _ =>
    keeps_bind (keeps_modify_mem fun _ => setAreg_mem _ _ _) fun _ => keeps_modify_mem fun _ => setAreg_mem _ _ _

theorem canonical_unlinkFrame (an : Reg) : Keeps Canonical (unlinkFrame an) :=
  keeps_bind (keeps_modify_mem fun _ => setAreg_mem _ _ _) fun _ => keeps_bind keeps_get fun _ =>
    keeps_bind (canonical_memRead .l _ _ _) fun _ => keeps_bind (keeps_modify_mem fun _ => setAreg_mem _ _ _) fun _ =>
    keeps_modify_mem fun _ => setAreg_mem _ _ _

theorem canonical_loadEffectiveAddress (ea : Ea) (an : Reg) : Keeps Canonical (loadEffectiveAddress ea an) :=
  keeps_bind (canonical_controlAddress _) fun _ => keeps_modify_mem fun _ => setAreg_mem _ _ _

theorem canonical_pushEffectiveAddress (ea : Ea) : Keeps Canonical (pushEffectiveAddress ea) :=
  keeps_bind (canonical_controlAddress _) fun _ => canonical_pushLong _

theorem canonical_setDregLogic (dn : Reg) (f : State → Long) : Keeps Canonical (setDregLogic dn f) :=
  keeps_modify_mem fun _ => rfl

/-! ### Shifts and system control -/

theorem canonical_shiftDn (sz : Size) (dy : Reg) (n : State → Nat) (op : Shift sz.bits) :
    Keeps Canonical (shiftDn sz dy n op) := keeps_modify_mem fun _ => rfl

theorem canonical_shiftMem (ea : Ea) (op : Shift 16) : Keeps Canonical (shiftMem ea op) :=
  canonical_modifyEaCodesFirst .w _ _

theorem canonical_immToCcr (v : Byte) (f : BitVec 5 → BitVec 5 → BitVec 5) : Keeps Canonical (immToCcr v f) :=
  keeps_bind (canonical_fetchWords _) fun _ => canonical_modifySr _

theorem canonical_immToSr (v : Word) (f : Word → Word → Word) : Keeps Canonical (immToSr v f) :=
  keeps_bind (canonical_fetchWords _) fun _ => canonical_modifySr _

theorem canonical_moveToCodes (ea : Ea) : Keeps Canonical (moveToCodes ea) :=
  keeps_bind (canonical_readEa .w _) fun _ => canonical_modifySr _

theorem canonical_moveToStatus (ea : Ea) : Keeps Canonical (moveToStatus ea) :=
  keeps_bind (canonical_readEa .w _) fun _ => canonical_modifySr _

theorem canonical_moveFromStatus (ea : Ea) : Keeps Canonical (moveFromStatus ea) :=
  keeps_bind (canonical_evalEa _ _) fun _ => keeps_bind (canonical_discardRead _ _) fun _ =>
    keeps_bind keeps_get fun _ => canonical_writeLoc _ _ _

theorem canonical_stopProcessor (v : Word) : Keeps Canonical (stopProcessor v) :=
  keeps_bind keeps_get fun _ => keeps_bind (canonical_fetchWords _) fun _ => keeps_modify_mem fun _ => rfl

theorem canonical_checkBounds (ea : Ea) (dn : Reg) : Keeps Canonical (checkBounds ea dn) :=
  keeps_bind (canonical_readEa .w _) fun _ => keeps_bind keeps_get fun _ => keeps_bind canonical_drawBit fun _ =>
    keeps_bind canonical_drawBit fun _ => keeps_bind canonical_drawBit fun _ =>
    keeps_bind (canonical_modifySr _) fun _ =>
    keeps_ite (keeps_bind (canonical_modifySr _) fun _ => canonical_raiseTrap _) <|
    keeps_ite (keeps_bind (canonical_modifySr _) fun _ => canonical_raiseTrap _) <|
    keeps_bind canonical_drawBit fun _ => canonical_modifySr _

theorem canonical_trapOnOverflow : Keeps Canonical trapOnOverflow :=
  keeps_bind keeps_get fun _ => keeps_ite (canonical_raiseTrap _) (keeps_pure _)

theorem canonical_returnFromException : Keeps Canonical returnFromException :=
  keeps_bind keeps_get fun _ => keeps_bind (canonical_memRead .w _ _ _) fun _ =>
    keeps_bind (canonical_memRead .l _ _ _) fun _ => keeps_modify_mem fun _ => rfl

end Sys2Proof.Machine
end

section
/-! The canonical form of memory through a step: the run of an instruction, what an abort leaves, group 0 exceptions,
external reset and the instruction boundary (60_exceptions.md R362). -/

namespace Sys2Proof.Machine

theorem Keeps.ok {α : Type} {P : State → Prop} {x : M α} (h : Keeps P x) {s t : State} {a : α} (hs : P s)
    (e : x s = .ok a t) : P t := by
  have := h s hs
  rwa [e] at this

theorem Keeps.error {α : Type} {P : State → Prop} {x : M α} (h : Keeps P x) {s t : State} {a : Abort} (hs : P s)
    (e : x s = .error a t) : P t := by
  have := h s hs
  rwa [e] at this

/-! ### External reset and exceptions -/

theorem canonical_halt {s : State} (h : Canonical s) : Canonical s.halt := h

theorem canonical_resetException {s : State} (h : Canonical s) : Canonical (resetException s) := by
  have vector : Keeps Canonical loadResetVector :=
    keeps_bind (canonical_readHighFirst _ _ _) fun _ => keeps_bind (keeps_modify_mem fun _ => rfl) fun _ =>
      keeps_bind (canonical_readHighFirst _ _ _) fun _ => keeps_modify_mem fun _ => rfl
  have begun : Canonical s.resetBegun := h
  unfold resetException
  cases k : loadResetVector s.resetBegun with
  | ok a t => exact vector.ok begun k
  | error e t => exact canonical_halt (vector.error begun k)

theorem canonical_notInstructionBit (op : Option Long) (x : XGroup) (first : Bool) :
    Keeps Canonical (notInstructionBit op x first) := by
  cases x with
  | none => exact keeps_ite canonical_drawBit (keeps_pure _)
  | _ => exact keeps_pure _

theorem canonical_stackedPc (op : Option Long) (x : XGroup) : Keeps Canonical (stackedPc op x) := fun s h => by
  obtain ⟨v, t, e, rfl | rfl⟩ := stackedPc_draws op x s <;> rw [e] <;> exact h

theorem canonical_stackedIr (op : Option Long) (x : XGroup) (ir : Word) : Keeps Canonical (stackedIr op x ir) :=
  fun s h => by
    obtain ⟨v, t, e, rfl | rfl⟩ := stackedIr_draws op x ir s <;> rw [e] <;> exact h

theorem canonical_groupZeroSequence (op : Option Long) (f : AccessFault) : Keeps Canonical (groupZeroSequence op f) :=
  keeps_bind keeps_get fun _ => keeps_bind (keeps_modify_mem fun _ => rfl) fun _ =>
    keeps_bind (canonical_notInstructionBit _ _ _) fun _ => keeps_bind (canonical_stackedPc _ _) fun _ =>
    keeps_bind (canonical_stackedIr _ _ _) fun _ => keeps_bind canonical_drawWord fun _ =>
    keeps_bind (canonical_pushLong _) fun _ => keeps_bind (canonical_pushWord _) fun _ =>
    keeps_bind (canonical_pushWord _) fun _ => keeps_bind (canonical_pushLong _) fun _ =>
    keeps_bind (canonical_pushWord _) fun _ => keeps_bind (canonical_memRead _ _ _ _) fun _ =>
    keeps_modify_mem fun _ => rfl

theorem canonical_groupZero (op : Option Long) (f : AccessFault) {s : State} (h : Canonical s) :
    Canonical (groupZero op f s) := by
  have sequence := canonical_groupZeroSequence op f
  obtain ⟨-, e⟩ | ⟨t, k, e⟩ | ⟨g, t, k, e⟩ | ⟨t, k, e⟩ := groupZero_cases op f s <;> rw [e]
  · exact h
  · exact sequence.ok h k
  · exact canonical_halt (sequence.error h k)
  · exact canonical_resetException (sequence.error h k)

theorem canonical_boundaryAbort (e : Abort) {s : State} (h : Canonical s) : Canonical (boundaryAbort e s) := by
  cases e with
  | access f => exact canonical_groupZero _ _ h
  | reset => exact canonical_resetException h

theorem canonical_boundaryException (g : XGroup) (src : VectorSource) (pc : Long) {s : State} (h : Canonical s) :
    Canonical (boundaryException g src pc s) := by
  unfold boundaryException
  cases k : takeException g src pc s with
  | ok a t => exact (canonical_takeException g src pc).ok h k
  | error e t => exact canonical_boundaryAbort e ((canonical_takeException g src pc).error h k)

/-! ### The run of an instruction -/

theorem canonical_drawCodes : Keeps Canonical drawCodes :=
  keeps_bind canonical_drawBit fun _ => keeps_bind canonical_drawBit fun _ => keeps_bind canonical_drawBit fun _ =>
    keeps_bind canonical_drawBit fun _ => keeps_bind canonical_drawBit fun _ => keeps_modify_mem fun _ => rfl

theorem canonical_settleAbort (i : Instr) (s : State) (f : AccessFault) {t : State} (h : Canonical t) :
    Canonical (settleAbort i s f t) := by
  have registers : Canonical (registersSettled i s f t) := by
    unfold registersSettled
    split
    · rw [Canonical, (settledFrom_settle _ t).mem]
      exact h
    · exact h
  unfold settleAbort
  rw [← registersSettled]
  dsimp only
  split
  · cases k : drawCodes (registersSettled i s f t) with
    | ok a w => exact canonical_drawCodes.ok registers k
    | error e w => exact canonical_drawCodes.error registers k
  · exact registers

/-- An instruction whose meaning keeps the canonical form keeps it however its run ends. -/
theorem canonical_runInstruction {i : Instr} {m : M Unit} (hm : Keeps Canonical m) {s t : State} (hs : Canonical s)
    (h : runInstruction i m s = .next t) : Canonical t := by
  have run : Keeps Canonical (if isPrivileged i && !s.sr.s then privilegeViolation (s.pc - 2) else m) :=
    keeps_ite (canonical_takeException _ _ _) hm
  obtain k | ⟨f, u, k, rfl⟩ | ⟨u, k, rfl⟩ := runInstruction_cases rfl h
  · exact run.ok hs k
  · exact canonical_groupZero _ _ (canonical_settleAbort _ _ _ (run.error hs k))
  · exact canonical_resetException (run.error hs k)

/-- The instruction keeps the canonical form of memory. -/
def KeepsCanonical (i : Instr) : Prop := ∀ s t, Canonical s → exec i s = .next t → Canonical t

theorem keepsCanonical_of {i : Instr} {m : M Unit} (e : ∀ s, exec i s = runInstruction i m s) (h : Keeps Canonical m) :
    KeepsCanonical i := fun s _ hs ht => canonical_runInstruction h hs ((e s).symm.trans ht)

/-- Every instruction keeps the canonical form of memory. -/
theorem keepsCanonical (i : Instr) : KeepsCanonical i := by
  cases i with
  | oriToSr | andiToSr | eoriToSr => exact keepsCanonical_of (fun _ => rfl) (canonical_immToSr _ _)
  | oriToCcr | andiToCcr | eoriToCcr => exact keepsCanonical_of (fun _ => rfl) (canonical_immToCcr _ _)
  | ori | andi | eori | subi | addi => exact keepsCanonical_of (fun _ => rfl) (canonical_immToEa _ _ _)
  | cmpi => exact keepsCanonical_of (fun _ => rfl) (canonical_compareImm _ _)
  | btstStatic => exact keepsCanonical_of (fun _ => rfl) (canonical_bitOfWord _ fun _ => canonical_bitTest _ _)
  | btstDynamic => exact keepsCanonical_of (fun _ => rfl) (canonical_bitOfRegister _ fun _ => canonical_bitTest _ _)
  | bchgStatic | bclrStatic | bsetStatic =>
    exact keepsCanonical_of (fun _ => rfl) (canonical_bitOfWord _ fun _ => canonical_bitChange _ _ _)
  | bchgDynamic | bclrDynamic | bsetDynamic =>
    exact keepsCanonical_of (fun _ => rfl) (canonical_bitOfRegister _ fun _ => canonical_bitChange _ _ _)
  | movepToRegW => exact keepsCanonical_of (fun _ => rfl) (canonical_movepLoadWord _ _ _)
  | movepToRegL => exact keepsCanonical_of (fun _ => rfl) (canonical_movepLoadLong _ _ _)
  | movepToMemW => exact keepsCanonical_of (fun _ => rfl) (canonical_movepStoreWord _ _ _)
  | movepToMemL => exact keepsCanonical_of (fun _ => rfl) (canonical_movepStoreLong _ _ _)
  | moveB | moveW | moveL => exact keepsCanonical_of (fun _ => rfl) (canonical_moveEa _ _ _)
  | moveaW | moveaL | subaW | subaL | addaW | addaL =>
    exact keepsCanonical_of (fun _ => rfl) (canonical_eaToAn _ _ _ _)
  | negx | neg | notEa => exact keepsCanonical_of (fun _ => rfl) (canonical_modifyEa _ _ _)
  | moveFromSr => exact keepsCanonical_of (fun _ => rfl) (canonical_moveFromStatus _)
  | moveToCcr => exact keepsCanonical_of (fun _ => rfl) (canonical_moveToCodes _)
  | moveToSr => exact keepsCanonical_of (fun _ => rfl) (canonical_moveToStatus _)
  | chk => exact keepsCanonical_of (fun _ => rfl) (canonical_checkBounds _ _)
  | lea => exact keepsCanonical_of (fun _ => rfl) (canonical_loadEffectiveAddress _ _)
  | pea => exact keepsCanonical_of (fun _ => rfl) (canonical_pushEffectiveAddress _)
  | clr => exact keepsCanonical_of (fun _ => rfl) (canonical_clearEa _ _)
  | nbcd => exact keepsCanonical_of (fun _ => rfl) (canonical_decimalNegate _)
  | swap | moveq => exact keepsCanonical_of (fun _ => rfl) (canonical_setDregLogic _ _)
  | extW dn => exact keepsCanonical_of (fun _ => rfl) (canonical_extendDn dn 16 fun d => (d.setWidth 8).signExtend 16)
  | extL dn => exact keepsCanonical_of (fun _ => rfl) (canonical_extendDn dn 32 fun d => (d.setWidth 16).signExtend 32)
  | movemToMem => exact keepsCanonical_of (fun _ => rfl) (canonical_moveRegistersToMemory _ _ _)
  | movemToReg => exact keepsCanonical_of (fun _ => rfl) (canonical_moveMemoryToRegisters _ _ _)
  | tst => exact keepsCanonical_of (fun _ => rfl) (canonical_testEa _ _)
  | tas => exact keepsCanonical_of (fun _ => rfl) (canonical_testAndSet _)
  | illegal | illegal4AFA | illegal4AFB | lineA | lineF =>
    exact keepsCanonical_of (fun _ => rfl) (canonical_trapWord _)
  | trap => exact keepsCanonical_of (fun _ => rfl) (canonical_raiseTrap _)
  | trapv => exact keepsCanonical_of (fun _ => rfl) canonical_trapOnOverflow
  | link => exact keepsCanonical_of (fun _ => rfl) (canonical_linkFrame _ _)
  | unlk => exact keepsCanonical_of (fun _ => rfl) (canonical_unlinkFrame _)
  | moveToUsp | reset => exact keepsCanonical_of (fun _ => rfl) (keeps_modify_mem fun _ => rfl)
  | moveFromUsp => exact keepsCanonical_of (fun _ => rfl) (keeps_modify_mem fun _ => setAreg_mem _ _ _)
  | nop => exact keepsCanonical_of (fun _ => rfl) (keeps_pure ())
  | stop => exact keepsCanonical_of (fun _ => rfl) (canonical_stopProcessor _)
  | rte => exact keepsCanonical_of (fun _ => rfl) canonical_returnFromException
  | rts => exact keepsCanonical_of (fun _ => rfl) canonical_returnFromSubroutine
  | rtr => exact keepsCanonical_of (fun _ => rfl) canonical_returnRestore
  | jsr => exact keepsCanonical_of (fun _ => rfl) (canonical_jumpSubroutine _)
  | jmp => exact keepsCanonical_of (fun _ => rfl) (canonical_jumpTo _)
  | addq | subq => exact keepsCanonical_of (fun _ => rfl) (canonical_quickEa _ _ _ _ _)
  | scc => exact keepsCanonical_of (fun _ => rfl) (canonical_setByCondition _ _)
  | dbcc => exact keepsCanonical_of (fun _ => rfl) (canonical_decrementBranch _ _ _)
  | bra => exact keepsCanonical_of (fun _ => rfl) (canonical_branchAlways _)
  | bsr => exact keepsCanonical_of (fun _ => rfl) (canonical_branchSubroutine _)
  | bcc => exact keepsCanonical_of (fun _ => rfl) (canonical_branchIf _ _)
  | orToDn | andToDn | subToDn | addToDn => exact keepsCanonical_of (fun _ => rfl) (canonical_eaToDn _ _ _ _)
  | orToMem | andToMem | eor | subToMem | addToMem =>
    exact keepsCanonical_of (fun _ => rfl) (canonical_dnToEa _ _ _ _)
  | divu | divs => exact keepsCanonical_of (fun _ => rfl) (canonical_divideDn _ _ _)
  | mulu | muls => exact keepsCanonical_of (fun _ => rfl) (canonical_multiplyDn _ _ _)
  | sbcdReg | abcdReg => exact keepsCanonical_of (fun _ => rfl) (canonical_decimalReg _ _ _)
  | sbcdMem | abcdMem => exact keepsCanonical_of (fun _ => rfl) (canonical_decimalMem _ _ _)
  | subxReg | addxReg => exact keepsCanonical_of (fun _ => rfl) (canonical_regToReg _ _ _ _)
  | subxMem | addxMem => exact keepsCanonical_of (fun _ => rfl) (canonical_memToMem _ _ _ _)
  | cmp => exact keepsCanonical_of (fun _ => rfl) (canonical_compareDn _ _ _)
  | cmpaW | cmpaL => exact keepsCanonical_of (fun _ => rfl) (canonical_compareAn _ _ _)
  | cmpm => exact keepsCanonical_of (fun _ => rfl) (canonical_compareMem _ _ _)
  | exgDD | exgAA | exgDA => exact keepsCanonical_of (fun _ => rfl) (canonical_exchange _ _)
  | asrMem | aslMem | lsrMem | lslMem | roxrMem | roxlMem | rorMem | rolMem =>
    exact keepsCanonical_of (fun _ => rfl) (canonical_shiftMem _ _)
  | asrImm | asrReg | aslImm | aslReg | lsrImm | lsrReg | lslImm | lslReg | roxrImm | roxrReg | roxlImm | roxlReg
  | rorImm | rorReg | rolImm | rolReg => exact keepsCanonical_of (fun _ => rfl) (canonical_shiftDn _ _ _ _)

/-! ### The instruction boundary -/

/-- An outcome that is a next state with the canonical form, where it is a next state. -/
def NextCanonical (o : Host.Outcome State Fault Refusal) : Prop := ∀ t, o = .next t → Canonical t

theorem nextCanonical_next {s : State} (h : Canonical s) : NextCanonical (.next s) := fun t e => by
  cases e
  exact h

theorem nextCanonical_fault (r : Fault) : NextCanonical (.fault r) := fun _ e => by cases e

theorem nextCanonical_refused (r : Refusal) : NextCanonical (.refused r) := fun _ e => by cases e

theorem canonical_traceAfter (traced : Bool) {s : State} (h : Canonical s) : Canonical (traceAfter traced s) := by
  unfold traceAfter
  split
  · exact canonical_boundaryException _ _ _ h
  · exact h

theorem canonical_illegalOperation {s : State} (h : Canonical s) : Canonical (illegalOperation s) :=
  canonical_boundaryException .g1 (.internal 4) (s.pc - 2) h

theorem nextCanonical_runDecoded (i : Instr) {s : State} (h : Canonical s) : NextCanonical (runDecoded i s) := by
  unfold runDecoded
  cases k : exec i s with
  | next u =>
    have after : Canonical u := keepsCanonical i s u h k
    exact nextCanonical_next (canonical_traceAfter (s.sr.t && isExecuted i s) after)
  | fault r => exact nextCanonical_fault r
  | refused r => exact nextCanonical_refused r

theorem nextCanonical_runWords (w : Word) (words : List Word) {s : State} (h : Canonical s) :
    NextCanonical (runWords w words s) := by
  unfold runWords
  cases decode (w :: words) with
  | ok p => exact nextCanonical_runDecoded p.1 h
  | error e =>
    cases e with
    | illegal => exact nextCanonical_next (canonical_illegalOperation h)
    | truncated => exact nextCanonical_fault _

theorem nextCanonical_runFetched (w : Word) {s : State} (h : Canonical s) :
    ∀ n words, NextCanonical (runFetched w s n words)
  | 0, words => nextCanonical_runWords w words h
  | n + 1, words => by
    rw [runFetched]
    cases corrected words (runWords w words s) with
    | none => exact nextCanonical_runWords w words h
    | some further => exact nextCanonical_runFetched w h n further

theorem nextCanonical_instructionStep {s : State} (h : Canonical s) : NextCanonical (instructionStep s) := by
  have fetch : Keeps Canonical fetchOperation :=
    keeps_bind canonical_fetchWord fun _ => keeps_bind (keeps_modify_mem fun _ => rfl) fun _ => keeps_pure _
  unfold instructionStep
  cases k : fetchOperation s with
  | ok w t => exact nextCanonical_runFetched w (fetch.ok h k) _ _
  | error e t => exact nextCanonical_next (canonical_boundaryAbort e (fetch.error h k))

theorem canonical_interruptStep {s : State} (h : Canonical s) : Canonical (interruptStep s) :=
  canonical_boundaryException (s := s.sampled) _ _ _ h

theorem canonical_stoppedStep {s : State} (h : Canonical s) : Canonical (stoppedStep s) := by
  unfold stoppedStep
  split
  · exact canonical_boundaryException (s := { s with stopTrace := false }) _ _ _ h
  · split
    · exact canonical_interruptStep h
    · exact h

theorem nextCanonical_normalStep {s : State} (h : Canonical s) : NextCanonical (normalStep s) := by
  unfold normalStep
  split
  · exact nextCanonical_next (canonical_interruptStep h)
  · exact nextCanonical_instructionStep (s := s.sampled) h

theorem nextCanonical_processorStep {s : State} (h : Canonical s) : NextCanonical (processorStep s) := by
  have cleared : Canonical { s with bus := [] } := h
  unfold processorStep
  dsimp only
  split
  · exact nextCanonical_next (canonical_resetException cleared)
  · split
    · exact nextCanonical_next cleared
    · exact nextCanonical_next (canonical_stoppedStep cleared)
    · exact nextCanonical_normalStep cleared

/-- Settles O12: memory is changed by bus cycles alone, through every way a step can go. -/
theorem stepKeepsMemoryCanonical : Obligations.StepKeepsMemoryCanonical :=
  fun _ t hs ht => nextCanonical_processorStep hs t ht

end Sys2Proof.Machine
end

section
/-! A bus cycle on any platform: the reset before it, the writes of other masters, bus error, devices and storage cells
(20_memory.md R66, R67, R76, R80, R88, 70_reset_and_hazards.md R420). -/

namespace Sys2Proof.Machine

/-! ### The writes of other bus masters -/

/-- After a list of writes a byte reads as the last write to its cell, else as before (20_memory.md R88). -/
theorem get_foldl_set (cells : List Host.Cell) (m : Memory) (x : Nat) :
    Memory.get (cells.foldl (fun m c => Memory.set m c.1 c.2) m) x =
      (cells.reverse.find? fun c => c.1 = x).elim (Memory.get m x) Prod.snd := by
  induction cells using List.reverseRecOn with
  | nil => rfl
  | append_singleton cells c ih =>
    rw [List.foldl_append, List.reverse_append]
    show Memory.get (Memory.set _ c.1 c.2) x = ((c :: cells.reverse).find? fun c => c.1 = x).elim _ _
    by_cases hx : c.1 = x
    · rw [List.find?_cons_of_pos (by simpa using hx), ← hx, get_set_same]
      rfl
    · rw [List.find?_cons_of_neg (by simpa using hx), get_set_of_ne _ _ (Ne.symm hx), ih]

/-! ### The ways a bus cycle ends -/

section
variable {α : Type} {s : State} {fc : BitVec 3} {a : Long} {r w : Bool} (alt : Alt) (device memory : State → State × α)

theorem cycle_reset (h : s.platform.resetAfter = some 0) : cycle fc a r w alt device memory s = .error .reset s := by
  simp [cycle, beginCycle, h]

theorem cycle_busFault (h : s.platform.resetAfter ≠ some 0) (hf : s.cycleBegun.busFault fc a r w = true) :
    cycle fc a r w alt device memory s =
      .error (.access ⟨.bus, a, r, fc, alt⟩) (s.cycleBegun.record (.aborted fc (busAddress a) r)) := by
  simp [cycle, beginCycle, h, answerCycle, hf]

theorem cycle_device (h : s.platform.resetAfter ≠ some 0) (hf : s.cycleBegun.busFault fc a r w = false)
    (hd : s.cycleBegun.atDevice fc a r w = true) :
    cycle fc a r w alt device memory s = .ok (device s.cycleBegun).2 (device s.cycleBegun).1 := by
  simp [cycle, beginCycle, h, answerCycle, hf, hd]

theorem cycle_memory (h : s.platform.resetAfter ≠ some 0) (hf : s.cycleBegun.busFault fc a r w = false)
    (hd : s.cycleBegun.atDevice fc a r w = false) :
    cycle fc a r w alt device memory s = .ok (memory s.cycleBegun).2 (memory s.cycleBegun).1 := by
  simp [cycle, beginCycle, h, answerCycle, hf, hd]

end

/-! ### Word accesses at even addresses -/

theorem memRead_word_even {a : Long} (ha : isEven a = true) (fc : BitVec 3) (alt : Alt) (s : State) :
    memRead .w fc a alt s = readWordCycle fc a alt s := by
  simp [memRead, requireEven_even ha]

theorem memWrite_word_even {a : Long} (ha : isEven a = true) (fc : BitVec 3) (v : Word) (alt : Alt) (lowFirst : Bool)
    (s : State) : memWrite .w fc a v alt lowFirst s = writeWordCycle fc a v alt s := by
  simp [memWrite, requireEven_even ha]

theorem byte_append (v : Word) : v.extractLsb' 8 8 ++ v.extractLsb' 0 8 = v := by
  refine BitVec.eq_of_getLsbD_eq fun k hk => ?_
  rw [BitVec.getLsbD_append, BitVec.getLsbD_extractLsb', BitVec.getLsbD_extractLsb']
  by_cases h : k < 8
  · simp [h]
  · simp [h, show k - 8 < 8 by omega, show 8 + (k - 8) = k by omega]

/-- Two cells that take the bytes of a word, and no other cell (20_memory.md R60, R66). -/
theorem get_set_pair (m : Memory) (hi lo : Nat) (v : Word) :
    let m' := Memory.set (Memory.set m hi (v.extractLsb' 8 8)) lo (v.extractLsb' 0 8)
    (hi ≠ lo → Memory.get m' hi ++ Memory.get m' lo = v) ∧
      ∀ x, x ≠ hi → x ≠ lo → Memory.get m' x = Memory.get m x :=
  ⟨fun h => by rw [get_set_of_ne _ _ h, get_set_same, get_set_same, byte_append],
    fun x hhi hlo => by rw [get_set_of_ne _ _ hlo, get_set_of_ne _ _ hhi]⟩

/-- Settles O57: the ways a word cycle ends, on either side. -/
theorem platformCycles : Obligations.PlatformCycles := by
  intro s fc a v alt lowFirst ha
  rw [memRead_word_even ha, memWrite_word_even ha]
  refine ⟨fun h => ⟨cycle_reset _ _ _ h, cycle_reset _ _ _ h⟩, fun x => ?masters,
    fun h => ⟨cycle_busFault _ _ _ h, cycle_busFault _ _ _ h, fun hf => ?read, fun hf => ?write⟩⟩
  case masters =>
    refine (get_foldl_set (s.platform.writes.headD []) s.mem x).trans ?_
    cases (s.platform.writes.headD []).reverse.find? fun c => c.1 = x <;> rfl
  case read =>
    cases hd : s.cycleBegun.atDevice fc a true true with
    | true => exact ⟨_, cycle_device _ _ _ h hf hd⟩
    | false => exact cycle_memory _ _ _ h hf hd
  case write =>
    cases hd : s.cycleBegun.atDevice fc a false true with
    | true => exact cycle_device _ _ _ h hf hd
    | false => exact ⟨_, cycle_memory _ _ _ h hf hd, get_set_pair _ _ _ v⟩

end Sys2Proof.Machine
end

section
/-! The frame of a group 0 exception that an instruction raises on a plain platform: each word of it, and what it leaves
alone (60_exceptions.md R391, R392, R405). -/

namespace Sys2Proof.Machine

/-! ### Bytes of memory -/

theorem bytesFrom_subset {a b : Long} {m n i : Nat} (hb : b = a + BitVec.ofNat 32 i) (h : i + m ≤ n) {x : Nat}
    (hx : x ∈ bytesFrom b m) : x ∈ bytesFrom a n := by
  obtain ⟨k, hk, rfl⟩ := mem_bytesFrom.mp hx
  refine mem_bytesFrom.mpr ⟨i + k, by omega, ?_⟩
  rw [hb, BitVec.add_assoc, ← BitVec.ofNat_add]

theorem sub_ofNat_add (a : Long) (m n : Nat) :
    a - BitVec.ofNat 32 m = a - BitVec.ofNat 32 (m + n) + BitVec.ofNat 32 n := by
  rw [BitVec.ofNat_add, ← BitVec.sub_sub, BitVec.sub_add_cancel]

/-! ### Pushes -/

/-- `n` bytes have been stacked on SSP, and nothing else has changed of memory, the status register, the registers and
the exception in progress. -/
structure Framed (s t : State) (n : Nat) : Prop extends Stacked s t n where
  outside : s.sameMemoryOutside t (bytesFrom (s.ssp - BitVec.ofNat 32 n) n)
  sr : t.sr = s.sr
  d : t.d = s.d
  a : t.a = s.a
  usp : t.usp = s.usp
  xgroup : t.xgroup = s.xgroup

theorem Framed.trans {s t u : State} {m n : Nat} (h : Framed s t m) (k : Framed t u n) : Framed s u (m + n) where
  toStacked := h.toStacked.trans k.toStacked
  outside x hx := by
    have low : x ∉ bytesFrom (t.ssp - BitVec.ofNat 32 n) n := fun hn => hx <| by
      rw [h.ssp, BitVec.sub_sub, ← BitVec.ofNat_add] at hn
      exact bytesFrom_subset (i := 0) (BitVec.add_zero _).symm (by omega) hn
    have high : x ∉ bytesFrom (s.ssp - BitVec.ofNat 32 m) m := fun hn =>
      hx (bytesFrom_subset (sub_ofNat_add s.ssp m n) (by omega) hn)
    rw [k.outside x low, h.outside x high]
  sr := k.sr.trans h.sr
  d := k.d.trans h.d
  a := k.a.trans h.a
  usp := k.usp.trans h.usp
  xgroup := k.xgroup.trans h.xgroup

theorem framed_pushed {s : State} (h : StackReady s) {sz : Size} (hsz : sz ≠ .b) (v : BitVec sz.bits) :
    Framed s (s.pushed sz v) sz.bytes where
  toStacked := (stacked_pushed h hsz v).1
  outside x hx := by
    rw [← areg_seven_supervisor s h.supervisor] at hx
    rw [State.pushed, get_afterWrite_of_notMem hx, setAreg_mem]
  sr := by simp [State.pushed]
  d := by simp [State.pushed]
  a := by simp [State.pushed, setAreg_seven_supervisor s h.supervisor]
  usp := by simp [State.pushed, setAreg_seven_supervisor s h.supervisor]
  xgroup := by simp [State.pushed]

theorem pushLong_frames {s : State} (h : StackReady s) (v : Long) :
    ∃ t, pushLong v s = .ok () t ∧ Framed s t 4 ∧ t.longAt t.ssp = v := by
  obtain ⟨k, hv⟩ := stacked_pushed (sz := .l) h nofun v
  exact ⟨s.pushed .l v, pushLong_ready h.plain (by rw [areg_seven_supervisor s h.supervisor]; exact h.even) v,
    framed_pushed (sz := .l) h nofun v, by rw [k.ssp]; exact hv⟩

theorem pushWord_frames {s : State} (h : StackReady s) (v : Word) :
    ∃ t, pushWord v s = .ok () t ∧ Framed s t 2 ∧ t.wordAt t.ssp = v := by
  obtain ⟨k, hv⟩ := stacked_pushed (sz := .w) h nofun v
  exact ⟨s.pushed .w v, pushWord_ready h.plain (by rw [areg_seven_supervisor s h.supervisor]; exact h.even) v,
    framed_pushed (sz := .w) h nofun v, by rw [k.ssp]; exact hv⟩

/-- What was stacked last is not reached by what is stacked after it. -/
theorem Stacked.wordAt_top {s t : State} {n : Nat} (h : Stacked s t n) (hn : n + 2 < addressSpace) :
    t.wordAt s.ssp = s.wordAt s.ssp := by
  have := h.above 0 (by omega)
  rwa [BitVec.add_zero] at this

theorem Stacked.longAt_top {s t : State} {n : Nat} (h : Stacked s t n) (hn : 2 + n + 2 < addressSpace) :
    t.longAt s.ssp = s.longAt s.ssp := by
  rw [State.longAt, State.longAt, h.wordAt_top (by omega)]
  congr 1
  exact h.above 2 hn

/-! ### The frame -/

/-- The seven-word frame of a group 0 exception lies below the SSP of `s`, and the handler has been entered
(60_exceptions.md R391). -/
structure InGroupZero (s t : State) (f : AccessFault) (pc : Long) (sr ir ssw : Word) : Prop where
  ssp : t.ssp = s.ssp - 14
  stackedPc : t.longAt (s.ssp - 4) = pc
  stackedSr : t.wordAt (s.ssp - 6) = sr
  stackedIr : t.wordAt (s.ssp - 8) = ir
  address : t.longAt (s.ssp - 12) = f.addr
  statusWord : t.wordAt (s.ssp - 14) = ssw
  outside : s.sameMemoryOutside t (bytesFrom (s.ssp - 14) 14)
  handler : t.pc = t.longAt (f.vector.setWidth 32 * 4)
  run : t.run = .normal
  d : t.d = s.d
  a : t.a = s.a
  usp : t.usp = s.usp

theorem stackGroupZero_frames {s : State} (h : StackReady s) (f : AccessFault) (pc : Long) (sr ir ssw : Word) :
    ∃ t, stackGroupZero f pc sr ir ssw s = .ok () t ∧ InGroupZero s t f pc sr ir ssw ∧ t.sr = s.sr ∧
      t.xgroup = s.xgroup := by
  obtain ⟨s₁, e₁, k₁, v₁⟩ := pushLong_frames h pc
  obtain ⟨s₂, e₂, k₂, v₂⟩ := pushWord_frames k₁.ready sr
  obtain ⟨s₃, e₃, k₃, v₃⟩ := pushWord_frames k₂.ready ir
  obtain ⟨s₄, e₄, k₄, v₄⟩ := pushLong_frames k₃.ready f.addr
  obtain ⟨s₅, e₅, k₅, v₅⟩ := pushWord_frames k₄.ready ssw
  have hread := memRead_quiet k₅.ready.plain (isAligned_of_isEven (isEven_vectorAddress f.vector) .l) 5 []
  have k₁₂ : Framed s s₂ 6 := k₁.trans k₂
  have k₁₃ : Framed s s₃ 8 := k₁₂.trans k₃
  have k₁₄ : Framed s s₄ 12 := k₁₃.trans k₄
  have k : Framed s s₅ 14 := k₁₄.trans k₅
  have long : ∀ {w : State} {n p : Nat} {v : Long}, Framed s w n → Framed w s₅ p → 2 + p + 2 < addressSpace →
      w.longAt w.ssp = v → s₅.longAt (s.ssp - BitVec.ofNat 32 n) = v := fun hw hp hn hv => by
    rw [← hw.ssp, hp.longAt_top hn, hv]
  have word : ∀ {w : State} {n p : Nat} {v : Word}, Framed s w n → Framed w s₅ p → p + 2 < addressSpace →
      w.wordAt w.ssp = v → s₅.wordAt (s.ssp - BitVec.ofNat 32 n) = v := fun hw hp hn hv => by
    rw [← hw.ssp, hp.wordAt_top hn, hv]
  have mem : ∀ a w, ({ s₅.afterRead .l 5 (vectorAddress f.vector) with pc := a, run := w } : State).mem = s₅.mem :=
    fun _ _ => afterRead_mem _ _ _ _
  simp only [stackGroupZero, bind_apply, e₁, e₂, e₃, e₄, e₅, hread, modify_apply]
  refine ⟨_, rfl, ⟨?ssp, ?pc, ?sr, ?ir, ?address, ?status, ?outside, ?handler, rfl, ?d, ?a, ?usp⟩, ?srKept, ?group⟩
  case ssp => exact (afterRead_ssp _ _ _ _).trans k.ssp
  case pc => exact (longAt_congr (mem _ _) _).trans (long k₁ ((k₂.trans k₃).trans (k₄.trans k₅)) (by decide) v₁)
  case sr => exact (wordAt_congr (mem _ _) _).trans (word k₁₂ (k₃.trans (k₄.trans k₅)) (by decide) v₂)
  case ir => exact (wordAt_congr (mem _ _) _).trans (word k₁₃ (k₄.trans k₅) (by decide) v₃)
  case address => exact (longAt_congr (mem _ _) _).trans (long k₁₄ k₅ (by decide) v₄)
  case status =>
    refine (wordAt_congr (mem _ _) _).trans ?_
    rw [show s.ssp - 14 = s₅.ssp from k.ssp.symm, v₅]
  case outside =>
    intro x hx
    rw [mem]
    exact k.outside x hx
  case handler =>
    rw [← vectorAddress_eq]
    exact (longAt_congr (mem _ _) _).symm
  case d => exact (afterRead_d _ _ _ _).trans k.d
  case a => exact (afterRead_a _ _ _ _).trans k.a
  case usp => exact (afterRead_usp _ _ _ _).trans k.usp
  case srKept => exact (afterRead_sr _ _ _ _).trans k.sr
  case group => exact (afterRead_xgroup _ _ _ _).trans k.xgroup

/-! ### An instruction's group 0 exception -/

/-- The state in which the frame of an instruction's group 0 exception is stacked: the exception entered, two values
drawn. -/
def State.groupZeroEntered (s : State) : State :=
  { s with xgroup := .g0, handlerFetch := false, sr := s.sr.supervisor, draws := s.draws + 2 }

/-- The accesses of an instruction's group 0 exception, with the words it stacks (60_exceptions.md R391, R392). -/
theorem groupZeroSequence_instruction {s : State} (hx : s.xgroup = .none) (op : Long) (f : AccessFault) :
    ∃ (k : Nat) (free : Word), 1 ≤ k ∧ k ≤ 5 ∧
      groupZeroSequence (some op) f s =
        stackGroupZero f (op + BitVec.ofNat 32 (2 * k)) s.sr.toWord s.ir (specialStatusWord free f.isRead false f.fc)
          s.groupZeroEntered := by
  refine ⟨(Config.freeFifth s.draws).val + 1, Config.freeWord (s.draws + 1), by omega, by omega, ?_⟩
  rw [groupZeroSequence, bind_apply, get_apply]
  dsimp only
  rw [hx]
  rfl

/-- With an even SSP the frame is stacked and the handler entered. -/
theorem groupZero_instruction_even {s : State} (hp : s.platform = .plain) (hx : s.xgroup = .none)
    (he : isEven s.ssp = true) (op : Long) (f : AccessFault) :
    ∃ (k : Nat) (free : Word), 1 ≤ k ∧ k ≤ 5 ∧
      InGroupZero s (groupZero (some op) f s) f (op + BitVec.ofNat 32 (2 * k)) s.sr.toWord s.ir
        (specialStatusWord free f.isRead false f.fc) ∧
      (groupZero (some op) f s).sr = s.sr.supervisor ∧ (groupZero (some op) f s).xgroup = .g0 := by
  obtain ⟨k, free, h1, h5, e⟩ := groupZeroSequence_instruction hx op f
  obtain ⟨t, ht, frame, hsr, hg⟩ := stackGroupZero_frames (s := s.groupZeroEntered) ⟨hp, rfl, he⟩ f
    (op + BitVec.ofNat 32 (2 * k)) s.sr.toWord s.ir (specialStatusWord free f.isRead false f.fc)
  have taken : groupZero (some op) f s = t := by simp [groupZero, hx, e, ht]
  rw [taken]
  exact ⟨k, free, h1, h5, ⟨frame.ssp, frame.stackedPc, frame.stackedSr, frame.stackedIr, frame.address,
    frame.statusWord, frame.outside, frame.handler, frame.run, frame.d, frame.a, frame.usp⟩, hsr, hg⟩

/-- With an odd SSP the processor halts in supervisor state, the registers but SSP as they were. -/
theorem groupZero_instruction_odd {s : State} (hx : s.xgroup = .none) (ho : isEven s.ssp = false) (op : Long)
    (f : AccessFault) :
    (groupZero (some op) f s).run = .halted ∧ (groupZero (some op) f s).sr = s.sr.supervisor ∧
      (groupZero (some op) f s).d = s.d ∧ (groupZero (some op) f s).a = s.a := by
  obtain ⟨k, free, -, -, e⟩ := groupZeroSequence_instruction hx op f
  have push := pushLong_odd (s := s.groupZeroEntered) (by exact ho) (op + BitVec.ofNat 32 (2 * k))
  have halted : groupZero (some op) f s = (s.groupZeroEntered.setAreg 7 (s.ssp - 4)).halt := by
    simp only [groupZero, hx, e, stackGroupZero, bind_apply, push]
    rfl
  rw [halted, setAreg_seven_supervisor _ rfl]
  exact ⟨rfl, rfl, rfl, rfl⟩

/-- Whatever SSP is, an instruction's group 0 exception enters supervisor state and keeps the registers but SSP. -/
theorem groupZero_instruction_keeps {s : State} (hp : s.platform = .plain) (hx : s.xgroup = .none) (op : Long)
    (f : AccessFault) :
    (groupZero (some op) f s).sr = s.sr.supervisor ∧ (groupZero (some op) f s).d = s.d ∧
      (groupZero (some op) f s).a = s.a := by
  cases he : isEven s.ssp with
  | true =>
    obtain ⟨k, free, -, -, frame, hsr, -⟩ := groupZero_instruction_even hp hx he op f
    exact ⟨hsr, frame.d, frame.a⟩
  | false =>
    obtain ⟨-, hsr, hd, ha⟩ := groupZero_instruction_odd hx he op f
    exact ⟨hsr, hd, ha⟩

end Sys2Proof.Machine
end

section
/-! What an aborted instruction leaves in the registers (60_exceptions.md R394, 92_eei_decisions.md D9, log 15): each
register is as it was, stepped, or one that the instruction would have written. -/

namespace Sys2Proof.Machine

/-! ### The sixteen registers -/

theorem xreg_addressX (s : State) (n : Reg) : s.xreg (addressX n) = s.areg n := by
  simp [State.xreg, addressX]

theorem setXreg_addressX (s : State) (n : Reg) (v : Long) : s.setXreg (addressX n) v = s.setAreg n v := by
  simp [State.setXreg, addressX]

theorem xreg_setXreg_same (s : State) (x : Fin 16) (v : Long) : (s.setXreg x v).xreg x = v := by
  unfold State.setXreg State.xreg
  split <;> simp

theorem xreg_setXreg_of_ne (s : State) {x y : Fin 16} (h : y ≠ x) (v : Long) : (s.setXreg x v).xreg y = s.xreg y := by
  have hv : y.val ≠ x.val := fun e => h (Fin.ext e)
  unfold State.setXreg State.xreg
  by_cases hx : x.val < 8
  · by_cases hy : y.val < 8
    · simp only [hx, hy, ↓reduceDIte]
      exact dreg_setDreg_of_ne s (fun e => hv (by simpa using e)) v
    · simp [hx, hy]
  · by_cases hy : y.val < 8
    · simp [hx, hy]
    · simp only [hx, hy, ↓reduceDIte]
      exact areg_setAreg_of_ne s (fun e => hv (by simp only [Fin.mk.injEq] at e; omega)) v

/-- Every register but A7 is one of `D0` to `D7` and `A0` to `A6`, whatever S is (10_state.md R27). -/
theorem xreg_congr {s t : State} (hd : t.d = s.d) (ha : t.a = s.a) {x : Fin 16} (hx : x ≠ 15) :
    t.xreg x = s.xreg x := by
  have hv : x.val ≠ 15 := fun e => hx (Fin.ext e)
  unfold State.xreg
  split
  · exact dreg_congr hd _
  · simp only [State.areg, show x.val - 8 < 7 by omega, ↓reduceDIte, ha]

theorem setAreg_ssp_cases (s : State) (n : Reg) (v : Long) :
    (s.setAreg n v).ssp = s.ssp ∨ s.sr.s = true ∧ n = 7 := by
  cases hs : s.sr.s with
  | false => exact .inl ((setAreg_sameAddressBut s n v).2.2 hs)
  | true =>
    by_cases hn : n.val < 7
    · exact .inl (by simp [State.setAreg, hn])
    · exact .inr ⟨rfl, Fin.ext (by simp; omega)⟩

theorem setAreg_usp_cases (s : State) (n : Reg) (v : Long) :
    (s.setAreg n v).usp = s.usp ∨ s.sr.s = false ∧ n = 7 := by
  cases hs : s.sr.s with
  | true => exact .inl ((setAreg_sameAddressBut s n v).2.1 hs)
  | false =>
    by_cases hn : n.val < 7
    · exact .inl (by simp [State.setAreg, hn])
    · exact .inr ⟨rfl, Fin.ext (by simp; omega)⟩

theorem eq_fifteen_of_sub {x : Fin 16} (hx : ¬x.val < 8) (h : (⟨x.val - 8, by omega⟩ : Reg) = 7) : x = 15 := by
  have := congrArg Fin.val h
  exact Fin.ext (by simp at this ⊢; omega)

theorem setXreg_ssp_cases (s : State) (x : Fin 16) (v : Long) :
    (s.setXreg x v).ssp = s.ssp ∨ s.sr.s = true ∧ x = 15 := by
  unfold State.setXreg
  split
  · exact .inl rfl
  · next hx => exact (setAreg_ssp_cases _ _ _).imp_right fun ⟨hs, h7⟩ => ⟨hs, eq_fifteen_of_sub hx h7⟩

theorem setXreg_usp_cases (s : State) (x : Fin 16) (v : Long) :
    (s.setXreg x v).usp = s.usp ∨ s.sr.s = false ∧ x = 15 := by
  unfold State.setXreg
  split
  · exact .inl rfl
  · next hx => exact (setAreg_usp_cases _ _ _).imp_right fun ⟨hs, h7⟩ => ⟨hs, eq_fifteen_of_sub hx h7⟩

theorem stepAddress_xreg_of_notMem (s : State) {ea : Ea} (sz : Size) {x : Fin 16} (h : x ∉ writtenRegisters ea) :
    (s.stepAddress ea sz).xreg x = s.xreg x := by
  cases ea with
  | post n | pre n =>
    rw [State.stepAddress, ← setXreg_addressX]
    exact xreg_setXreg_of_ne s (fun e => h (List.mem_singleton.mpr e)) _
  | _ => rfl

/-! ### Items that an abort may settle -/

/-- An item of an instruction begun in `s`, which writes the registers `written` and steps the registers `stepped`, to
the values they have in `r`. -/
inductive Unsettled.Allowed (s r : State) (written stepped : List (Fin 16)) : Unsettled → Prop
  | either {x : Fin 16} (v : Long) (h : x ∈ written) : Allowed s r written stepped (.either x v)
  | low {x : Fin 16} (n : Nat) (h : x ∈ written) : Allowed s r written stepped (.low x n)
  | step {x : Fin 16} {v : Long} (h : x ∈ stepped) (hv : v = s.xreg x ∨ v = r.xreg x) :
    Allowed s r written stepped (.either x v)
  | status (w : Option Word) : Allowed s r written stepped (.status w)

/-- In `t` every register of an instruction begun in `s` is as it was, or written, or stepped as in `r`; the stack
pointer that S does not select is as it was. -/
structure RegistersLeft (s r : State) (written stepped : List (Fin 16)) (t : State) : Prop where
  regs : ∀ x : Fin 16, x ≠ 15 → x ∉ written → t.xreg x = s.xreg x ∨ t.xreg x = r.xreg x
  ssp : t.ssp = s.ssp ∨ s.sr.s = true ∧ 15 ∈ written ++ stepped
  usp : t.usp = s.usp ∨ s.sr.s = false ∧ 15 ∈ written ++ stepped

section
variable {s r t : State} {written stepped : List (Fin 16)}

theorem registersLeft_refl : RegistersLeft s r written stepped s := ⟨fun _ _ _ => .inl rfl, .inl rfl, .inl rfl⟩

theorem RegistersLeft.congr (h : RegistersLeft s r written stepped t) {u : State} (hd : u.d = t.d) (ha : u.a = t.a)
    (hp : u.ssp = t.ssp) (hu : u.usp = t.usp) : RegistersLeft s r written stepped u where
  regs x hx hw := by
    rw [xreg_congr hd ha hx]
    exact h.regs x hx hw
  ssp := by
    rw [hp]
    exact h.ssp
  usp := by
    rw [hu]
    exact h.usp

theorem RegistersLeft.setXreg (h : RegistersLeft s r written stepped t) (hs : t.sr.s = s.sr.s) {x : Fin 16} {v : Long}
    (hx : x ∈ written ∨ x ∈ stepped ∧ (v = s.xreg x ∨ v = r.xreg x)) :
    RegistersLeft s r written stepped (t.setXreg x v) where
  regs y hy hw := by
    by_cases e : y = x
    · subst e
      rw [xreg_setXreg_same]
      exact (hx.resolve_left hw).2
    · rw [xreg_setXreg_of_ne t e]
      exact h.regs y hy hw
  ssp := by
    obtain e | ⟨hS, rfl⟩ := setXreg_ssp_cases t x v
    · rw [e]
      exact h.ssp
    · exact .inr ⟨hs.symm.trans hS, List.mem_append.mpr (hx.imp_right And.left)⟩
  usp := by
    obtain e | ⟨hS, rfl⟩ := setXreg_usp_cases t x v
    · rw [e]
      exact h.usp
    · exact .inr ⟨hs.symm.trans hS, List.mem_append.mpr (hx.imp_right And.left)⟩

theorem RegistersLeft.settleItem (h : RegistersLeft s r written stepped t) (hs : t.sr.s = s.sr.s) {u : Unsettled}
    (hu : u.Allowed s r written stepped) : RegistersLeft s r written stepped (settleItem t u) := by
  have drawn : RegistersLeft s r written stepped t.drawn := h.congr rfl rfl rfl rfl
  have register : ∀ {x : Fin 16} {v : Long}, (x ∈ written ∨ x ∈ stepped ∧ (v = s.xreg x ∨ v = r.xreg x)) →
      RegistersLeft s r written stepped (Machine.settleItem t (.either x v)) := fun hx => by
    simp only [Machine.settleItem]
    split
    · exact drawn.setXreg hs hx
    · exact drawn
  cases hu with
  | either v hx => exact register (.inl hx)
  | low n hx => exact drawn.setXreg hs (.inl hx)
  | step hx hv => exact register (.inr ⟨hx, hv⟩)
  | status w =>
    cases w with
    | none => exact drawn.congr rfl rfl rfl rfl
    | some w =>
      simp only [Machine.settleItem]
      split
      · exact drawn.congr rfl rfl rfl rfl
      · exact drawn

theorem RegistersLeft.settle_registers {items : Alt} (h : RegistersLeft s r written stepped t) (hs : t.sr.s = s.sr.s)
    (hr : OnlyRegisters items) (ha : ∀ u ∈ items, u.Allowed s r written stepped) :
    RegistersLeft s r written stepped (settle items t) := by
  induction items generalizing t with
  | nil => exact h
  | cons u items ih =>
    obtain ⟨hu, hitems⟩ := (onlyRegisters_cons u items).mp hr
    obtain ⟨au, aitems⟩ := List.forall_mem_cons.mp ha
    exact ih (h.settleItem hs au) ((within_settleItem hu).sr.supervisor.trans hs) hitems aitems

/-- The registers are settled while S is as it was, the status register after them. -/
theorem RegistersLeft.settle {items : Alt} (h : RegistersLeft s r written stepped t) (hs : t.sr.s = s.sr.s)
    (hl : StatusLast items) (ha : ∀ u ∈ items, u.Allowed s r written stepped) :
    RegistersLeft s r written stepped (settle items t) := by
  rcases List.eq_nil_or_concat items with rfl | ⟨xs, u, rfl⟩
  · exact h
  · rw [List.concat_eq_append] at hl ha ⊢
    rw [StatusLast, List.dropLast_concat] at hl
    obtain ⟨axs, au⟩ := List.forall_mem_append.mp ha
    rw [Machine.settle, List.foldl_append]
    exact (h.settle_registers hs hl axs).settleItem ((within_settle hl t).sr.supervisor.trans hs) (au u (by simp))

/-- A step of an address register is one. -/
theorem registersLeft_stepAddress (s : State) (ea : Ea) (sz : Size) (written : List (Fin 16)) :
    RegistersLeft s (s.stepAddress ea sz) written (writtenRegisters ea) (s.stepAddress ea sz) := by
  cases ea with
  | post n | pre n =>
    simp only [State.stepAddress, ← setXreg_addressX]
    exact registersLeft_refl.setXreg rfl (.inr ⟨List.mem_singleton.mpr rfl, .inr (xreg_setXreg_same _ _ _).symm⟩)
  | _ => exact registersLeft_refl

end

/-! ### What the items of instructions open -/

section
variable (s : State) (ea : Ea) (sz : Size)

theorem allowed_steppedOpen (written : List (Fin 16)) :
    ∀ u ∈ steppedOpen s ea sz, u.Allowed s (s.stepAddress ea sz) written (writtenRegisters ea) := by
  cases ea with
  | post n | pre n =>
    exact List.forall_mem_singleton.mpr (.step (List.mem_singleton.mpr rfl) (.inr (xreg_addressX _ _).symm))
  | _ => exact fun _ hu => absurd hu List.not_mem_nil

/-- The register that an operand steps, at the value it began with. -/
theorem location_memory_allowed (written : List (Fin 16)) (h : isMemoryEa ea = true) :
    ∃ alt lf, s.location ea sz = .mem (s.effectiveAddress ea sz) (isProgramEa ea) alt lf ∧
      ∀ u ∈ alt, u.Allowed s (s.stepAddress ea sz) written (writtenRegisters ea) := by
  cases ea with
  | dn n | an n | imm v => cases h
  | post n | pre n =>
    exact ⟨_, _, rfl, List.forall_mem_singleton.mpr
      (.step (List.mem_singleton.mpr rfl) (.inl (xreg_addressX _ _).symm))⟩
  | _ => exact ⟨_, _, rfl, fun _ hu => absurd hu List.not_mem_nil⟩

/-- Everything that a destination opens is among the registers it writes. -/
theorem allowed_destinationOpen (r t : State) (stepped : List (Fin 16)) :
    ∀ u ∈ destinationOpen t ea sz, u.Allowed s r (writtenRegisters ea) stepped := by
  cases ea with
  | dn n | an n => exact List.forall_mem_singleton.mpr (.low _ (List.mem_singleton.mpr rfl))
  | post n | pre n => exact List.forall_mem_singleton.mpr (.either _ (List.mem_singleton.mpr rfl))
  | _ => exact fun _ hu => absurd hu List.not_mem_nil

theorem allowed_low (r : State) (x : Fin 16) (n : Nat) (stepped : List (Fin 16)) :
    ∀ u ∈ [Unsettled.low x n], u.Allowed s r [x] stepped :=
  List.forall_mem_singleton.mpr (.low _ (List.mem_singleton.mpr rfl))

end

/-! ### An abort settled -/

/-- The status register and the counter of free values alone differ. -/
def CodesDrawn (s t : State) : Prop := ∃ sr draws, t = { s with sr := sr, draws := draws }

theorem codesDrawn_drawCodes (s : State) : Keeps (CodesDrawn s) drawCodes := by
  have draw : Keeps (CodesDrawn s) drawBit := fun t ⟨sr, draws, e⟩ => ⟨sr, draws + 1, by rw [e]; rfl⟩
  exact keeps_bind draw fun _ => keeps_bind draw fun _ => keeps_bind draw fun _ => keeps_bind draw fun _ =>
    keeps_bind draw fun _ => keeps_modify fun t ht => by
      obtain ⟨sr, draws, rfl⟩ := ht
      exact ⟨_, draws, rfl⟩

/-- The condition codes are drawn after the registers have been settled. -/
theorem codesDrawn_settleAbort (i : Instr) (s : State) (f : AccessFault) (t : State) :
    CodesDrawn (registersSettled i s f t) (settleAbort i s f t) := by
  have same : CodesDrawn (registersSettled i s f t) (registersSettled i s f t) := ⟨_, _, rfl⟩
  unfold settleAbort
  rw [← registersSettled]
  dsimp only
  split
  · cases k : drawCodes (registersSettled i s f t) with
    | ok a w => exact (codesDrawn_drawCodes _).ok same k
    | error e w => exact (codesDrawn_drawCodes _).error same k
  · exact same

/-- What is no register of an instruction begun in `s`, outside exception processing on a plain platform. -/
structure RestKept (s t : State) : Prop where
  plain : t.platform = .plain
  xgroup : t.xgroup = .none
  mem : t.mem = s.mem
  ir : t.ir = s.ir

theorem settleAbort_left {s r t : State} {written stepped : List (Fin 16)} {i : Instr} {f : AccessFault}
    (h : RegistersLeft s r written stepped t) (rest : RestKept s t) (hs : t.sr.s = s.sr.s)
    (hl : StatusLast (f.alt ++ leftOpen i s))
    (ha : ∀ u ∈ f.alt ++ leftOpen i s, u.Allowed s r written stepped) :
    RegistersLeft s r written stepped (settleAbort i s f t) ∧ RestKept s (settleAbort i s f t) := by
  have settled : registersSettled i s f t = settle (f.alt ++ leftOpen i s) t := by
    rw [registersSettled, rest.xgroup]
    rfl
  have k := settledFrom_settle (f.alt ++ leftOpen i s) t
  obtain ⟨sr, draws, e⟩ := codesDrawn_settleAbort i s f t
  rw [e, settled]
  exact ⟨(h.settle hs hl ha).congr rfl rfl rfl rfl, k.platform.trans rest.plain, k.xgroup.trans rest.xgroup,
    k.mem.trans rest.mem, k.ir.trans rest.ir⟩

end Sys2Proof.Machine
end

section
/-! The address error of a source operand at an odd address, from the abort of the instruction to the group 0 handler
(20_memory.md R63, 60_exceptions.md R390, R391, R394, R405). -/

namespace Sys2Proof.Machine

/-! ### The special status word -/

theorem specialStatusWord_read (free : Word) (isRead notInstruction : Bool) (fc : BitVec 3) :
    (specialStatusWord free isRead notInstruction fc).getLsbD 4 = isRead := by
  simp only [specialStatusWord, BitVec.getLsbD_append]
  simp

theorem specialStatusWord_fc (free : Word) (isRead notInstruction : Bool) (fc : BitVec 3) :
    (specialStatusWord free isRead notInstruction fc).extractLsb' 0 3 = fc := by
  refine BitVec.eq_of_getLsbD_eq fun k hk => ?_
  rw [BitVec.getLsbD_extractLsb', specialStatusWord, BitVec.getLsbD_append]
  simp [hk]

/-! ### From an abort to the handler -/

theorem runInstruction_aborted {i : Instr} {m : M Unit} {s t : State} {f : AccessFault} (hw : i.wellFormed = true)
    (hp : isPrivileged i = true → s.sr.s = true) (hm : m s = .error (.access f) t) :
    runInstruction i m s = .next (groupZero (some (s.pc - 2)) f (settleAbort i s f t)) := by
  have executed : (isPrivileged i && !s.sr.s) = false := by
    cases h : isPrivileged i
    · rfl
    · rw [hp h]
      rfl
  simp [runInstruction, hw, executed, hm]

/-- The statement about one instruction: it, the state and the operand whose address is odd, the operand's size, and the
registers that the instruction writes besides those the operand steps. -/
def MisalignedFaults (s : State) (p : Instr × State × Ea × Size × List (Fin 16)) : Prop :=
  let i := p.1
  let u := p.2.1
  let src := p.2.2.1
  let size := p.2.2.2.1
  let written := p.2.2.2.2
  i.wellFormed = true → (isPrivileged i = true → s.sr.s = true) → u.operandAligned src size = false →
  nextWith (exec i s) fun t => ∃ sp : Long,
    (sp = s.ssp ∨ s.sr.s = true ∧ 15 ∈ written ++ writtenRegisters src) ∧
    (isEven sp = false → t.run = .halted) ∧
    (isEven sp = true →
      t.run = .normal ∧ t.ssp = sp - 14 ∧ t.longAt (sp - 12) = u.effectiveAddress src size ∧
        t.wordAt (sp - 8) = s.ir ∧ (t.wordAt (sp - 14)).getLsbD 4 = true ∧
        (t.wordAt (sp - 14)).extractLsb' 0 3 = s.fc (isProgramEa src) ∧
        s.sameMemoryOutside t (bytesFrom (sp - 14) 14) ∧ t.pc = t.longAt 12) ∧
    t.sr.s = true ∧ t.sr.t = false ∧ (isPrivileged i = false → t.sr.i = s.sr.i) ∧
    (∀ x : Fin 16, x ≠ 15 → x ∉ written → x ∉ writtenRegisters src → t.xreg x = s.xreg x) ∧
    (∀ x : Fin 16, x ≠ 15 → x ∉ written → x ∈ writtenRegisters src →
      t.xreg x = s.xreg x ∨ t.xreg x = (s.stepAddress src size).xreg x) ∧
    (t.usp = s.usp ∨ s.sr.s = false ∧ 15 ∈ written ++ writtenRegisters src)

/-- The address error of a read at an address (20_memory.md R63). -/
abbrev oddRead (a : Long) (fc : BitVec 3) (alt : Alt) : AccessFault := ⟨.address, a, true, fc, alt⟩

/-- The meaning `m` of an instruction begun in `s` is aborted by a read at the odd address `a`: no more than registers
has changed, and what is left open is among those that the operand `src` steps and those `written`. -/
structure AbortsReading (s : State) (i : Instr) (m : M Unit) (a : Long) (src : Ea) (size : Size)
    (written : List (Fin 16)) (alt : Alt) (t : State) : Prop where
  aborts : m s = .error (.access (oddRead a (s.fc (isProgramEa src)) alt)) t
  left : RegistersLeft s (s.stepAddress src size) written (writtenRegisters src) t
  rest : RestKept s t
  sr : t.sr = s.sr
  registers : OnlyRegisters alt
  statusLast : StatusLast (leftOpen i s)
  allowed : ∀ u ∈ alt ++ leftOpen i s, u.Allowed s (s.stepAddress src size) written (writtenRegisters src)

theorem statusLast_append {x y : Alt} (hx : OnlyRegisters x) (hy : StatusLast y) : StatusLast (x ++ y) := by
  rcases List.eq_nil_or_concat y with rfl | ⟨ys, u, rfl⟩
  · rw [List.append_nil]
    exact statusLast_of_onlyRegisters hx
  · rw [List.concat_eq_append] at hy ⊢
    rw [StatusLast, List.dropLast_concat] at hy
    rw [← List.append_assoc]
    exact statusLast_concat ((onlyRegisters_append _ _).mpr ⟨hx, hy⟩) u

/-- An aborted read at an odd address leaves the frame below the SSP that the abort left, and the registers as the abort
left them. -/
theorem misalignedFaults_of_aborts {s u : State} {i : Instr} {m : M Unit} {src : Ea} {size : Size}
    {written : List (Fin 16)} (e : exec i s = runInstruction i m s)
    (h : i.wellFormed = true → u.operandAligned src size = false →
      ∃ alt t, AbortsReading s i m (u.effectiveAddress src size) src size written alt t) :
    MisalignedFaults s (i, u, src, size, written) := by
  intro hw hp hodd
  dsimp only at hw hp hodd ⊢
  obtain ⟨alt, t₀, k⟩ := h hw hodd
  have run := e.trans (runInstruction_aborted hw hp k.aborts)
  generalize hf : oddRead (u.effectiveAddress src size) (s.fc (isProgramEa src)) alt = f at run
  have alt_eq : f.alt = alt := by rw [← hf]
  have statusLast : StatusLast (f.alt ++ leftOpen i s) := alt_eq ▸ statusLast_append k.registers k.statusLast
  obtain ⟨left, rest⟩ := settleAbort_left k.left k.rest (by rw [k.sr]) statusLast (alt_eq ▸ k.allowed)
  have mask : isPrivileged i = false → (settleAbort i s f t₀).sr.i = s.sr.i := fun hn => by
    have items := (onlyRegisters_append _ _).mpr ⟨alt_eq ▸ k.registers, onlyRegisters_leftOpen hn s⟩
    rw [(within_settleAbort items t₀).sr.mask, k.sr]
  refine ⟨_, run, ?_⟩
  generalize settleAbort i s f t₀ = v at left rest mask ⊢
  refine ⟨v.ssp, left.ssp, fun ho => (groupZero_instruction_odd rest.xgroup ho _ _).1, fun he => ?frame, ?after⟩
  case frame =>
    obtain ⟨n, free, -, -, frame, -, -⟩ := groupZero_instruction_even rest.plain rest.xgroup he (s.pc - 2) f
    subst hf
    refine ⟨frame.run, frame.ssp, frame.address, frame.stackedIr.trans rest.ir, ?_, ?_, fun x hx => ?_, frame.handler⟩
    · rw [frame.statusWord, specialStatusWord_read]
    · rw [frame.statusWord, specialStatusWord_fc]
    · rw [frame.outside x hx, rest.mem]
  case after =>
    obtain ⟨hsr, hd, ha⟩ := groupZero_instruction_keeps rest.plain rest.xgroup (s.pc - 2) f
    have regs : ∀ x : Fin 16, x ≠ 15 → x ∉ written → (groupZero (some (s.pc - 2)) f v).xreg x = s.xreg x ∨
        (groupZero (some (s.pc - 2)) f v).xreg x = (s.stepAddress src size).xreg x := fun x hx hw' => by
      rw [xreg_congr hd ha hx]
      exact left.regs x hx hw'
    refine ⟨by rw [hsr]; rfl, by rw [hsr]; rfl, fun hn => by rw [hsr]; exact mask hn, fun x hx hw' hs => ?_,
      fun x hx hw' _ => regs x hx hw', by rw [groupZero_usp]; exact left.usp⟩
    exact (regs x hx hw').elim id fun e => e.trans (stepAddress_xreg_of_notMem s size hs)

/-! ### Operands read by their effective address -/

theorem restKept_evaluated {s : State} (hp : s.platform = .plain) (hx : s.xgroup = .none) (ea : Ea) (sz : Size) :
    RestKept s (s.evaluated ea sz) := ⟨by simp [hp], by simp [hx], by simp, by simp⟩

theorem registersLeft_evaluated (s : State) (ea : Ea) (sz : Size) (written : List (Fin 16)) :
    RegistersLeft s (s.stepAddress ea sz) written (writtenRegisters ea) (s.evaluated ea sz) := by
  obtain ⟨ha, hu, hp⟩ := evaluated_sameAddress s ea sz
  exact (registersLeft_stepAddress s ea sz written).congr (by simp) ha hp hu

/-- `Read(EvalEA(mode, reg, sz), sz)` at an odd address: the register has been stepped, and may hold what it began
with. -/
theorem readEa_misaligned {s : State} (h : s.ready) {ea : Ea} {sz : Size} (ha : s.operandAligned ea sz = false)
    (written : List (Fin 16)) :
    ∃ alt, readEa sz ea s =
        .error (.access (oddRead (s.effectiveAddress ea sz) (s.fc (isProgramEa ea)) alt)) (s.evaluated ea sz) ∧
      ∀ u ∈ alt, u.Allowed s (s.stepAddress ea sz) written (writtenRegisters ea) := by
  simp only [State.operandAligned, Bool.or_eq_false_iff, Bool.not_eq_false'] at ha
  obtain ⟨hm, hal⟩ := ha
  obtain ⟨alt, lf, hl, hopen⟩ := location_memory_allowed s ea sz written hm
  refine ⟨alt, ?_, hopen⟩
  simp only [readEa, bind_apply, evalEa_ready h, hl, readLoc, get_apply]
  rw [memRead_odd hal]
  simp [State.fc]

/-- An instruction that reads its source operand first. -/
theorem misalignedFaults_of_readEa {s : State} (h : s.ready) (hx : s.xgroup = .none) {i : Instr} {ea : Ea} {sz : Size}
    {k : BitVec sz.bits → M Unit} {written : List (Fin 16)}
    (e : exec i s = runInstruction i (readEa sz ea >>= k) s) (hl : StatusLast (leftOpen i s))
    (ha : ∀ u ∈ leftOpen i s, u.Allowed s (s.stepAddress ea sz) written (writtenRegisters ea)) :
    MisalignedFaults s (i, s, ea, sz, written) :=
  misalignedFaults_of_aborts e fun _ hodd => by
    obtain ⟨alt, hread, hopen⟩ := readEa_misaligned h hodd written
    exact ⟨alt, s.evaluated ea sz, by rw [bind_apply, hread], registersLeft_evaluated s ea sz written,
      restKept_evaluated h.1 hx ea sz, by simp, ((quiet_readEa sz ea).error hread).items _ rfl, hl,
      List.forall_mem_append.mpr ⟨hopen, ha⟩⟩

/-! ### Instructions by what they open -/

/-- An unprivileged instruction leaves registers alone open. -/
theorem statusLast_leftOpen {i : Instr} (h : isPrivileged i = false) (s : State) : StatusLast (leftOpen i s) :=
  statusLast_of_onlyRegisters (onlyRegisters_leftOpen h s)

section
variable {s : State} (h : s.ready) (hx : s.xgroup = .none) {i : Instr} {ea : Ea} {sz : Size}
  {k : BitVec sz.bits → M Unit} (e : exec i s = runInstruction i (readEa sz ea >>= k) s)
  (hp : isPrivileged i = false)
include h hx e hp

/-- An instruction that writes no register but the one that its source operand steps. -/
theorem misalignedFaults_source (hopen : leftOpen i s = steppedOpen s ea sz) : MisalignedFaults s (i, s, ea, sz, []) :=
  misalignedFaults_of_readEa h hx e (statusLast_leftOpen hp s) (by rw [hopen]; exact allowed_steppedOpen s ea sz [])

/-- An instruction that computes a register from its source operand. -/
theorem misalignedFaults_register (x : Fin 16) (n : Nat) (hopen : leftOpen i s = steppedOpen s ea sz ++ [.low x n]) :
    MisalignedFaults s (i, s, ea, sz, [x]) :=
  misalignedFaults_of_readEa h hx e (statusLast_leftOpen hp s) <| by
    rw [hopen]
    exact List.forall_mem_append.mpr ⟨allowed_steppedOpen s ea sz [x], allowed_low s _ x n _⟩

/-- An instruction that writes a destination operand after it has read its source operand. -/
theorem misalignedFaults_destination (dst : Ea)
    (hopen : leftOpen i s = steppedOpen s ea sz ++ destinationOpen (s.stepAddress ea sz) dst sz) :
    MisalignedFaults s (i, s, ea, sz, writtenRegisters dst) :=
  misalignedFaults_of_readEa h hx e (statusLast_leftOpen hp s) <| by
    rw [hopen]
    exact List.forall_mem_append.mpr
      ⟨allowed_steppedOpen s ea sz (writtenRegisters dst), allowed_destinationOpen s dst sz _ _ _⟩

end

/-- The items of two operands that step registers, as `destinationOpen` gives them for the second. -/
theorem allowed_steppedPairOpen (s : State) {x y : Ea} (hy : steppedOpen (s.stepAddress x sz) y sz =
    destinationOpen (s.stepAddress x sz) y sz) :
    ∀ u ∈ steppedPairOpen s x y sz,
      u.Allowed s (s.stepAddress x sz) (writtenRegisters y) (writtenRegisters x) := by
  rw [steppedPairOpen, hy]
  exact List.forall_mem_append.mpr
    ⟨allowed_steppedOpen s x sz (writtenRegisters y), allowed_destinationOpen s y sz _ _ _⟩

/-- ADDX and SUBX of memory read `-(Ay)` first (41_integer_arithmetic.md R187). -/
theorem misalignedFaults_predecrement {s : State} (h : s.ready) (hx : s.xgroup = .none) {i : Instr} {sz : Size}
    {m n : Reg} {k : BitVec sz.bits → M Unit} (e : exec i s = runInstruction i (readEa sz (.pre m) >>= k) s)
    (hp : isPrivileged i = false) (hopen : leftOpen i s = steppedPairOpen s (.pre m) (.pre n) sz) :
    MisalignedFaults s (i, s, .pre m, sz, [addressX n]) :=
  misalignedFaults_of_readEa h hx e (statusLast_leftOpen hp s) <| by
    rw [hopen]
    exact allowed_steppedPairOpen (y := .pre n) s rfl

/-- MOVE to SR leaves the status register open after the register of its operand (47_system_control.md R318). -/
theorem misalignedFaults_moveToSr {s : State} (h : s.ready) (hx : s.xgroup = .none) (ea : Ea) :
    MisalignedFaults s (.moveToSr ea, s, ea, .w, []) := by
  have hopen : leftOpen (.moveToSr ea) s = steppedOpen s ea .w ++ [.status none] := rfl
  refine misalignedFaults_of_readEa h hx rfl ?_ ?_
  · rw [hopen]
    exact statusLast_concat (onlyRegisters_steppedOpen s ea .w) _
  · rw [hopen]
    exact List.forall_mem_append.mpr
      ⟨allowed_steppedOpen s ea .w [], List.forall_mem_singleton.mpr (.status none)⟩

/-- CMPM reads `(Ay)` before it steps Ay (41_integer_arithmetic.md R192). -/
theorem misalignedFaults_cmpm {s : State} (h : s.ready) (hx : s.xgroup = .none) (sz : Size) (m n : Reg) :
    MisalignedFaults s (.cmpm sz m n, s, .post m, sz, [addressX n]) :=
  misalignedFaults_of_aborts rfl fun _ hodd => by
    have hread := memRead_odd (s := s) (a := s.areg m) (sz := sz) hodd (s.fc false) []
    refine ⟨[], s, ?_, registersLeft_refl, ⟨h.1, hx, rfl, rfl⟩, rfl, onlyRegisters_nil, statusLast_leftOpen rfl s, ?_⟩
    · simp only [compareMem, readThenStep, bind_apply, get_apply, hread]
      rfl
    · exact allowed_steppedPairOpen (x := .post m) (y := .post n) s rfl

/-! ### MOVEM -/

/-- What an aborted transfer of MOVEM leaves open: its running address, and registers that the mask names. -/
def LoadsOpen (mask : Word) (an : Option Reg) (a : Long) (alt : Alt) : Prop :=
  ∀ u ∈ alt, u ∈ runningAddress an a ∨ ∃ i : Fin 16, mask.getLsbD i.val = true ∧ u = .low i 32

theorem mem_pendingLoads {mask : Word} {regs : List (Fin 16)} {u : Unsettled} (h : u ∈ pendingLoads mask regs) :
    ∃ i : Fin 16, mask.getLsbD i.val = true ∧ u = .low i 32 := by
  obtain ⟨i, hi, rfl⟩ := List.mem_map.mp h
  exact ⟨i, (List.mem_filter.mp hi).2, rfl⟩

/-- At an odd address the first transfer faults; without one the address is answered. -/
theorem loadUp_odd {sz : Size} {a : Long} (ha : isAligned sz a = false) (mask : Word) (program : Bool) (an : Option Reg)
    (s : State) (regs : List (Fin 16)) :
    loadUp sz mask program an regs a s = .ok a s ∨
      ∃ alt, loadUp sz mask program an regs a s = .error (.access (oddRead a (s.fc program) alt)) s ∧
        LoadsOpen mask an a alt := by
  induction regs with
  | nil => exact .inl rfl
  | cons i regs ih =>
    rw [loadUp]
    split
    · refine .inr ⟨runningAddress an a ++ pendingLoads mask (i :: regs), ?_, ?_⟩
      · simp only [bind_apply, get_apply, leavingOpen, memRead_odd ha]
      · exact List.forall_mem_append.mpr ⟨fun _ hu => .inl hu, fun _ hu => .inr (mem_pendingLoads hu)⟩
    · exact ih

/-- The transfers of MOVEM at an odd address and the word read after them: one of them faults (40_data_movement.md
R159). -/
theorem loadUp_then_read_odd {sz : Size} {a : Long} (ha : isAligned sz a = false) (mask : Word) (program : Bool)
    (an : Option Reg) (regs : List (Fin 16)) (k : Long → Word → M Unit) (s : State) :
    ∃ alt, (do
        let b ← loadUp sz mask program an regs a
        let w ← memRead .w ((← get).fc program) b (runningAddress an b)
        k b w) s = .error (.access (oddRead a (s.fc program) alt)) s ∧ LoadsOpen mask an a alt := by
  obtain e | ⟨alt, e, hopen⟩ := loadUp_odd ha mask program an s regs
  · have odd : isAligned .w a = false := by
      simp only [isAligned, Bool.or_eq_false_iff] at ha ⊢
      exact ⟨rfl, ha.2⟩
    refine ⟨runningAddress an a, ?_, fun _ hu => .inl hu⟩
    simp only [bind_apply, e, get_apply, memRead_odd odd]
  · exact ⟨alt, by rw [bind_apply, e], hopen⟩

theorem onlyRegisters_of_loadsOpen {mask : Word} {an : Option Reg} {a : Long} {alt : Alt}
    (h : LoadsOpen mask an a alt) : OnlyRegisters alt := by
  refine List.all_eq_true.mpr fun u hu => ?_
  obtain hr | ⟨i, -, rfl⟩ := h u hu
  · exact List.all_eq_true.mp (onlyRegisters_runningAddress an a) u hr
  · rfl

/-- The register of `(An)+`, in which an aborted MOVEM may leave its running address (60_exceptions.md R394). -/
def movemRunning : Ea → Option Reg
  | .post n => some n
  | _ => none

/-- MOVEM to registers at an odd address, after its words have been fetched (40_data_movement.md R159). -/
theorem moveMemoryToRegisters_odd {s : State} (h : s.ready) {sz : Size} {ea : Ea} (hea : ea.isMovemToReg = true)
    (mask : Word) (ha : isAligned sz ((s.advanced 1).effectiveAddress ea sz) = false) :
    ∃ alt n, moveMemoryToRegisters sz mask ea s =
        .error (.access (oddRead ((s.advanced 1).effectiveAddress ea sz) (s.fc (isProgramEa ea)) alt)) (s.fetched n) ∧
      LoadsOpen mask (movemRunning ea) ((s.advanced 1).effectiveAddress ea sz) alt := by
  have address : (s.fetched 1).effectiveAddress ea sz = (s.advanced 1).effectiveAddress ea sz := by
    cases ea <;> simp [State.effectiveAddress, State.advanced, State.indexValue, State.areg, State.dreg]
  rw [← address] at ha ⊢
  unfold moveMemoryToRegisters
  rw [bind_apply, leavingOpen_ok (fetchWords_ready h 1)]
  have evaluated := leavingOpen_ok (evalEa_ready (ready_fetched h 1) ea sz) (pendingLoads mask (List.finRange 16))
  obtain ⟨alt, e, hopen⟩ := loadUp_then_read_odd ha mask (isProgramEa ea) none (List.finRange 16) (fun _ _ => pure ())
    ((s.fetched 1).evaluated ea sz)
  obtain ⟨n, hn⟩ : ∃ n, n = ea.words.length + 1 := ⟨_, rfl⟩
  cases ea with
  | dn n | an n | pre n | imm v => cases hea
  | post n =>
    obtain ⟨alt, e, hopen⟩ := loadUp_then_read_odd ha mask false (some n) (List.finRange 16)
      (fun a _ => modify fun s => s.setAreg n a) (s.fetched 1)
    exact ⟨alt, 1, e, hopen⟩
  | _ =>
    refine ⟨alt, n, ?_, hopen⟩
    subst hn
    simp only [bind_apply, get_apply, evaluated]
    simp only [bind_apply, get_apply] at e
    exact e

/-- MOVEM to registers opens registers that it loads, and the one that it steps. -/
theorem allowed_movem {s r : State} {sz : WideSize} {mask : Word} {ea : Ea} {a : Long} {alt : Alt}
    (hopen : LoadsOpen mask (movemRunning ea) a alt) (stepped : List (Fin 16)) :
    ∀ u ∈ alt ++ leftOpen (.movemToReg sz mask ea) s,
      u.Allowed s r (maskRegisters mask false ++ writtenRegisters ea) stepped := by
  have running : ∀ n : Reg, ∀ v, (ea = .post n ∨ ea = .pre n) → (Unsettled.either (addressX n) v).Allowed s r
      (maskRegisters mask false ++ writtenRegisters ea) stepped := fun n v he => by
    refine .either v (List.mem_append_right _ ?_)
    obtain rfl | rfl := he <;> exact List.mem_singleton.mpr rfl
  refine List.forall_mem_append.mpr ⟨fun u hu => ?_, fun u hu => ?_⟩
  · obtain hr | ⟨i, hi, rfl⟩ := hopen u hu
    · cases ea with
      | post n =>
        rw [List.mem_singleton.mp hr]
        exact running n _ (.inl rfl)
      | _ => exact absurd hr List.not_mem_nil
    · exact .low _ (List.mem_append_left _ (List.mem_filter.mpr ⟨List.mem_finRange i, hi⟩))
  · cases ea with
    | post n =>
      rw [List.mem_singleton.mp hu]
      exact running n _ (.inl rfl)
    | pre n =>
      rw [List.mem_singleton.mp hu]
      exact running n _ (.inr rfl)
    | _ => exact absurd hu List.not_mem_nil

theorem misalignedFaults_movemToReg {s : State} (h : s.ready) (hx : s.xgroup = .none) (sz : WideSize) (mask : Word)
    (ea : Ea) : MisalignedFaults s (.movemToReg sz mask ea, s.advanced 1, ea, sz.toSize,
      maskRegisters mask false ++ writtenRegisters ea) :=
  misalignedFaults_of_aborts rfl fun hw hodd => by
    simp only [State.operandAligned, Bool.or_eq_false_iff] at hodd
    obtain ⟨alt, n, e, hopen⟩ := moveMemoryToRegisters_odd h (sz := sz.toSize) hw mask hodd.2
    exact ⟨alt, s.fetched n, e, registersLeft_refl.congr (by simp) (by simp) (by simp) (by simp),
      ⟨by simp [h.1], by simp [hx], by simp, by simp⟩, by simp, onlyRegisters_of_loadsOpen hopen,
      statusLast_leftOpen rfl s, allowed_movem hopen _⟩

/-! ### Every instruction that reads a source operand -/

/-- Settles O59, instruction by instruction, by what each leaves open. -/
theorem misalignedSourceFaults : Obligations.MisalignedSourceFaults := by
  intro sz wide ea dst m n mask s h hx data address loaded
  show ∀ p ∈ _, MisalignedFaults s p
  simp only [List.forall_mem_cons]
  have toDn : ∀ {i : Instr} {sz : Size} {k : BitVec sz.bits → M Unit} (w : Nat),
      exec i s = runInstruction i (readEa sz ea >>= k) s → isPrivileged i = false →
      leftOpen i s = steppedOpen s ea sz ++ [.low (dataX n) w] → MisalignedFaults s (i, s, ea, sz, data) :=
    fun w e hp ho => misalignedFaults_register h hx e hp _ w ho
  have toAn : ∀ {i : Instr} {sz : Size} {k : BitVec sz.bits → M Unit},
      exec i s = runInstruction i (readEa sz ea >>= k) s → isPrivileged i = false →
      leftOpen i s = steppedOpen s ea sz ++ [.low (addressX n) 32] → MisalignedFaults s (i, s, ea, sz, address) :=
    fun e hp ho => misalignedFaults_register h hx e hp _ 32 ho
  have source := @misalignedFaults_source s h hx
  exact ⟨toDn sz.bits rfl rfl rfl, toDn sz.bits rfl rfl rfl, toDn sz.bits rfl rfl rfl, toDn sz.bits rfl rfl rfl,
    source rfl rfl rfl, source rfl rfl rfl,
    misalignedFaults_destination h hx rfl rfl dst rfl, misalignedFaults_destination h hx rfl rfl dst rfl,
    toAn rfl rfl rfl, toAn rfl rfl rfl, toAn rfl rfl rfl, toAn rfl rfl rfl, toAn rfl rfl rfl, toAn rfl rfl rfl,
    source rfl rfl rfl, source rfl rfl rfl,
    toDn 32 rfl rfl rfl, toDn 32 rfl rfl rfl, toDn 32 rfl rfl rfl, toDn 32 rfl rfl rfl,
    source rfl rfl rfl, source rfl rfl rfl, misalignedFaults_moveToSr h hx ea,
    misalignedFaults_cmpm h hx sz m n, misalignedFaults_predecrement h hx rfl rfl rfl,
    misalignedFaults_predecrement h hx rfl rfl rfl, misalignedFaults_movemToReg h hx wide mask ea,
    fun _ hp => absurd hp List.not_mem_nil⟩

end Sys2Proof.Machine
end

section
/-! The fields of operation words: what each field reads back as (30_encoding.md R102, R104, R112, R127). -/

namespace Sys2Proof

/-! ### Operation words and their fields -/

theorem Op.ofWord_toWord (o : Op) : Op.ofWord o.toWord = o := by
  obtain ⟨line, r, m, mode, reg⟩ := o
  simp only [Op.ofWord, Op.toWord, Op.mk.injEq]
  refine ⟨?_, ?_, ?_, ?_, ?_⟩ <;> ext k hk <;> grind

theorem Op.toWord_ofWord (w : Word) : (Op.ofWord w).toWord = w := by
  simp only [Op.ofWord, Op.toWord]
  ext k hk
  grind

theorem Op.mk_eq {o : Op} {line : BitVec 4} {r m mode reg : BitVec 3} (hline : o.line = line) (hr : o.r = r)
    (hm : o.m = m) (hmode : o.mode = mode) (hreg : o.reg = reg) : ⟨line, r, m, mode, reg⟩ = o := by
  subst hline hr hm hmode hreg
  rfl

/-- A field of three bits has one of eight values. -/
theorem bits3_cases {motive : BitVec 3 → Prop} (b0 : motive 0) (b1 : motive 1) (b2 : motive 2) (b3 : motive 3)
    (b4 : motive 4) (b5 : motive 5) (b6 : motive 6) (b7 : motive 7) (b : BitVec 3) : motive b := by
  obtain ⟨n⟩ := b
  fin_cases n <;> assumption

/-- A field of four bits has one of sixteen values. -/
theorem bits4_cases {motive : BitVec 4 → Prop} (b0 : motive 0) (b1 : motive 1) (b2 : motive 2) (b3 : motive 3)
    (b4 : motive 4) (b5 : motive 5) (b6 : motive 6) (b7 : motive 7) (b8 : motive 8) (b9 : motive 9) (b10 : motive 10)
    (b11 : motive 11) (b12 : motive 12) (b13 : motive 13) (b14 : motive 14) (b15 : motive 15) (b : BitVec 4) :
    motive b := by
  obtain ⟨n⟩ := b
  fin_cases n <;> assumption

/-! ### Conditions, sizes and displacements -/

theorem Cond.ofBits_toBits (c : Cond) : Cond.ofBits c.toBits = c := by cases c <;> rfl

theorem Cond.toBits_ofBits (b : BitVec 4) : (Cond.ofBits b).toBits = b := by
  cases b using bits4_cases <;> rfl

theorem Size.toBits_of_ofBits {b : BitVec 2} {sz : Size} (h : Size.ofBits b = some sz) : sz.toBits = b := by
  revert b sz
  decide +revert

/-- A size field of no size is `11` (30_encoding.md R102). -/
theorem Size.eq_three_of_ofBits {b : BitVec 2} (h : Size.ofBits b = none) : b = 3 := by
  revert b
  decide

theorem Op.condBits_condition (c : Cond) (mode reg : BitVec 3) : (Op.condition c mode reg).condBits = c.toBits := by
  simp only [Op.condBits, Op.condition]
  ext k hk
  grind

theorem Op.condBits_branch (c : Cond) (d : BranchDisp) : (Op.branch c d).condBits = c.toBits := by
  simp only [Op.condBits, Op.branch]
  ext k hk
  grind

theorem Op.lowByte_branch_byte (c : Cond) (d : Byte) : (Op.branch c (.byte d)).lowByte = d := by
  simp only [Op.lowByte, Op.branch]
  ext k hk
  grind

theorem Op.lowByte_branch_word (c : Cond) (d : Word) : (Op.branch c (.word d)).lowByte = 0 := by
  simp only [Op.lowByte, Op.branch]
  ext k hk
  grind

/-- The fields of an operation word from its condition and its low byte (format BRANCH, 30_encoding.md R103). -/
theorem Op.fields_of_branch (o : Op) :
    (⟨o.line, o.condBits.extractLsb' 1 3, o.condBits.extractLsb' 0 1 ++ o.lowByte.extractLsb' 6 2,
      o.lowByte.extractLsb' 3 3, o.lowByte.extractLsb' 0 3⟩ : Op) = o := by
  refine Op.mk_eq rfl ?_ ?_ ?_ ?_ <;> simp only [Op.condBits, Op.lowByte] <;> ext k hk <;> grind

theorem Size.sizeBits_opmode (sz : Size) (dir : BitVec 1) : (sz.opmode dir).extractLsb' 0 2 = sz.toBits := by
  rw [Size.opmode]
  ext k hk
  grind

/-- Bit 8 is the direction (30_encoding.md R102, R135). -/
theorem Size.getLsbD_opmode (sz : Size) (dir : BitVec 1) : (sz.opmode dir).getLsbD 2 = dir.getLsbD 0 := by
  simp only [Size.opmode]
  grind

theorem Op.sizeBits_of_opmode {o : Op} {sz : Size} {dir : BitVec 1} (h : o.m = sz.opmode dir) :
    o.sizeBits = sz.toBits := by
  rw [Op.sizeBits, h, Size.sizeBits_opmode]

/-- The direction bit and the size field make up bits 8..6 (30_encoding.md R102). -/
theorem Size.opmode_eq {o : Op} {sz : Size} {dir : BitVec 1} (hm : o.m[2] = dir[0])
    (h : sz.toBits = o.sizeBits) : sz.opmode dir = o.m := by
  rw [Size.opmode, h, Op.sizeBits]
  ext k hk
  grind

theorem Op.sizeBits_condition (c : Cond) (mode reg : BitVec 3) : (Op.condition c mode reg).sizeBits = 3 := by
  simp only [Op.sizeBits, Op.condition]
  ext k hk
  grind

/-- The fields of Scc and DBcc from their condition (format of 30_encoding.md R126). -/
theorem Op.condition_condBits {o : Op} (hl : o.line = 5) (hs : o.sizeBits = 3) :
    Op.condition (Cond.ofBits o.condBits) o.mode o.reg = o := by
  have hm : o.condBits.extractLsb' 0 1 ++ o.sizeBits = o.m := by
    simp only [Op.condBits, Op.sizeBits]
    ext k hk
    grind
  rw [hs] at hm
  refine Op.mk_eq hl ?_ ?_ rfl rfl <;> rw [Cond.toBits_ofBits]
  · simp only [Op.condBits]
    ext k hk
    grind
  · exact hm.symm

theorem Op.low12_ofLow12 (line : BitVec 4) (w : BitVec 12) : (Op.ofLow12 line w).low12 = w := by
  simp only [Op.low12, Op.ofLow12]
  ext k hk
  grind

theorem Op.ofLow12_low12 (o : Op) : Op.ofLow12 o.line o.low12 = o := by
  refine Op.mk_eq rfl ?_ ?_ ?_ ?_ <;> simp only [Op.low12] <;> ext k hk <;> grind

theorem Word.lowByte_append (x v : Byte) : Word.lowByte (x ++ v) = v := by
  simp only [Word.lowByte]
  ext k hk
  grind

theorem Index.ofWord_toWord (x : Index) : Index.ofWord x.toWord = x := by
  have reg : x.toWord.extractLsb' 12 3 = x.reg.toBits := by
    simp only [Index.toWord]
    ext k hk
    grind
  have isAddr : x.toWord.getLsbD 15 = x.isAddr := by
    simp only [Index.toWord]
    grind
  have long : x.toWord.getLsbD 11 = x.long := by
    simp only [Index.toWord]
    grind
  have disp : Word.lowByte x.toWord = x.disp := Word.lowByte_append _ x.disp
  rw [Index.ofWord, reg, isAddr, long, disp]
  rfl

end Sys2Proof
end

section
/-! Decoding what was encoded: the reader of each operation word reads back the words its instruction is encoded in
(30_encoding.md R101, R123 to R136). -/

namespace Sys2Proof

/-! ### Readers of words -/

/-- The reader `p` reads `a` from the words `ws`, whatever follows them. -/
def Reads {α : Type} (p : Parser α) (ws : List Word) (a : α) : Prop := ∀ rest, p (ws ++ rest) = .ok (a, rest)

theorem reads_pure {α : Type} (a : α) : Reads (pure a) [] a := fun _ => rfl

theorem reads_bind {α β : Type} {p : Parser α} {k : α → Parser β} {ws vs : List Word} {a : α} {b : β}
    (hp : Reads p ws a) (hk : Reads (k a) vs b) : Reads (p >>= k) (ws ++ vs) b := fun rest => by
  show (p (ws ++ vs ++ rest) >>= fun x => k x.1 x.2) = _
  rw [List.append_assoc, hp]
  exact hk rest

theorem reads_map {α β : Type} {p : Parser α} {f : α → β} {ws : List Word} {a : α} {b : β} (hp : Reads p ws a)
    (hf : f a = b) : Reads (do return f (← p)) ws b := by
  subst hf
  simpa using reads_bind (k := fun x => pure (f x)) hp (reads_pure (f a))

theorem reads_word (w : Word) : Reads Parser.word [w] w := fun _ => rfl

theorem reads_long (v : Long) : Reads Parser.long [v.high, v.low] v := fun _ =>
  congrArg (fun v => Except.ok (v, _)) (Machine.word_append v)

/-- Immediate data is read back at its size (30_encoding.md R117). -/
theorem reads_imm (v : Imm) : Reads (Parser.imm v.size) v.words v := by
  cases v with
  | b v => exact reads_map (reads_word _) (congrArg Imm.b (Word.lowByte_append 0 v))
  | w v => exact reads_map (reads_word v) rfl
  | l v => exact reads_map (reads_long v) rfl

/-- An effective address is read back at an operand size it fits (30_encoding.md R104). -/
theorem reads_ea {ea : Ea} {sz : Size} (h : ea.fits sz = true) : Reads (Parser.ea ea.mode ea.reg sz) ea.words ea := by
  cases ea with
  | dn n | an n | ind n | post n | pre n => exact reads_pure _
  | disp n d => exact reads_map (reads_word d) rfl
  | idx n x => exact reads_map (reads_word _) (congrArg (Ea.idx n) (Index.ofWord_toWord x))
  | absW a => exact reads_map (reads_word a) rfl
  | absL a => exact reads_map (reads_long a) rfl
  | pcDisp d => exact reads_map (reads_word d) rfl
  | pcIdx x => exact reads_map (reads_word _) (congrArg Ea.pcIdx (Index.ofWord_toWord x))
  | imm v =>
    obtain rfl : v.size = sz := by simpa [Ea.fits] using h
    exact reads_map (reads_imm v) rfl

/-! ### Addressing categories -/

section
variable {ea : Ea}

theorem Ea.fits_of_isControl (h : ea.isControl = true) (sz : Size) : ea.fits sz = true := by
  cases ea <;> first | rfl | cases h

theorem Ea.fits_of_isDataAlterable (h : ea.isDataAlterable = true) (sz : Size) : ea.fits sz = true := by
  cases ea <;> first | rfl | cases h

theorem Ea.fits_of_isMemoryAlterable (h : ea.isMemoryAlterable = true) (sz : Size) : ea.fits sz = true := by
  cases ea <;> first | rfl | cases h

theorem Ea.fits_of_isDataNotImm (h : ea.isDataNotImm = true) (sz : Size) : ea.fits sz = true := by
  cases ea <;> first | rfl | cases h

theorem Ea.fits_of_isMovemToMem (h : ea.isMovemToMem = true) (sz : Size) : ea.fits sz = true := by
  cases ea <;> first | rfl | cases h

theorem Ea.fits_of_isMovemToReg (h : ea.isMovemToReg = true) (sz : Size) : ea.fits sz = true := by
  cases ea <;> first | rfl | cases h

/-- Mode 000 is `Dn` (30_encoding.md R104), which is no control operand (R120). -/
theorem Ea.mode_ne_zero_of_isControl (h : ea.isControl = true) : ea.mode ≠ 0 := by
  cases ea <;> simp_all [Ea.isControl, Ea.mode]

theorem Ea.mode_ne_zero_of_isMovemToMem (h : ea.isMovemToMem = true) : ea.mode ≠ 0 := by
  cases ea <;> simp_all [Ea.isMovemToMem, Ea.mode]

theorem Ea.mode_ne_zero_of_isMemoryAlterable (h : ea.isMemoryAlterable = true) : ea.mode ≠ 0 := by
  cases ea <;> simp_all [Ea.isMemoryAlterable, Ea.mode]

/-- Mode 001 is `An` (30_encoding.md R104), which is no data operand (R120). -/
theorem Ea.mode_ne_one_of_isData (h : ea.isData = true) : ea.mode ≠ 1 := by
  cases ea <;> simp_all [Ea.isData, Ea.mode]

theorem Ea.isData_of_isDataAlterable (h : ea.isDataAlterable = true) : ea.isData = true := by
  simp_all [Ea.isDataAlterable]

theorem Ea.isData_of_isMemoryAlterable (h : ea.isMemoryAlterable = true) : ea.isData = true := by
  cases ea <;> first | rfl | cases h

/-- Of the operands of mode 111 the absolute addresses alone are data alterable (30_encoding.md R104, R120). -/
theorem Ea.not_mode7_of_isDataAlterable (h : ea.isDataAlterable = true) :
    ¬(ea.mode = 7 ∧ (ea.reg = 2 ∨ ea.reg = 3 ∨ ea.reg = 4)) := by
  cases ea <;> simp_all [Ea.isDataAlterable, Ea.isAlterable, Ea.mode, Ea.reg]

/-- A data alterable operand is not the `111 100` of the forms to CCR and SR (30_encoding.md R123). -/
theorem Ea.not_ccrSr_of_isDataAlterable (h : ea.isDataAlterable = true) : ¬(ea.mode = 7 ∧ ea.reg = 4) :=
  fun ⟨h7, h4⟩ => Ea.not_mode7_of_isDataAlterable h ⟨h7, .inr (.inr h4)⟩

end

/-! ### Words of an instruction after its operation word -/

/-- The words that follow the operation word of an instruction (30_encoding.md R101). -/
def Instr.furtherWords (i : Instr) : List Word := i.ownWords ++ i.eas.flatMap Ea.words

theorem encode_eq (i : Instr) : encode i = i.op.toWord :: i.furtherWords := rfl

/-- The reader of the instruction's operation word reads the instruction back. -/
def Instr.Decodes (i : Instr) : Prop := Reads i.op.instr i.furtherWords i

theorem decode_encode_append {i : Instr} (h : i.Decodes) (hw : i.wellFormed = true) (rest : List Word) :
    decode (encode i ++ rest) = .ok (i, rest) := by
  simp only [encode_eq, List.cons_append, decode, Op.ofWord_toWord, h rest, hw, if_true]

/-- An instruction of one word. -/
theorem decodes_of_pure {i : Instr} (hop : i.op.instr = pure i) (hw : i.furtherWords = []) : i.Decodes := by
  rw [Instr.Decodes, hop, hw]
  exact reads_pure i

/-- An instruction with words of its own and no operand. -/
theorem decodes_of_own {α : Type} {p : Parser α} {ws : List Word} {a : α} {f : α → Instr} {i : Instr}
    (hp : Reads p ws a) (hi : f a = i) (hop : i.op.instr = (do return f (← p))) (hown : i.ownWords = ws)
    (heas : i.eas = []) : i.Decodes := by
  rw [Instr.Decodes, hop, Instr.furtherWords, hown, heas, List.flatMap_nil, List.append_nil]
  exact reads_map hp hi

/-- An instruction with one operand and no other words. -/
theorem decodes_of_ea {ea : Ea} {sz : Size} (f : Ea → Instr) (h : ea.fits sz = true)
    (hop : (f ea).op.instr = (do return f (← Parser.ea ea.mode ea.reg sz))) (hown : (f ea).ownWords = [])
    (heas : (f ea).eas = [ea]) : (f ea).Decodes := by
  rw [Instr.Decodes, hop, Instr.furtherWords, hown, heas, List.flatMap_singleton, List.nil_append]
  exact reads_map (reads_ea h) rfl

/-- An instruction with words of its own before those of one operand. -/
theorem decodes_of_own_ea {α : Type} {p : Parser α} {ws : List Word} {a : α} {ea : Ea} {sz : Size} {f : α → Ea → Instr}
    {i : Instr} (hp : Reads p ws a) (h : ea.fits sz = true) (hi : f a ea = i)
    (hop : i.op.instr = (do let a ← p; return f a (← Parser.ea ea.mode ea.reg sz))) (hown : i.ownWords = ws)
    (heas : i.eas = [ea]) : i.Decodes := by
  rw [Instr.Decodes, hop, Instr.furtherWords, hown, heas, List.flatMap_singleton]
  exact reads_bind hp (reads_map (reads_ea h) hi)

/-- MOVE: the words of the source before those of the destination (30_encoding.md R101, R124). -/
theorem decodes_of_move {src dst : Ea} {sz : Size} (f : Ea → Ea → Instr) (g : Ea → Parser Instr)
    (hs : src.fits sz = true) (hd : dst.isDataAlterable = true) (line : BitVec 4)
    (hop : (f src dst).op.instr = (src.op line dst.reg dst.mode).move sz f g)
    (hown : (f src dst).ownWords = []) (heas : (f src dst).eas = [src, dst]) : (f src dst).Decodes := by
  rw [Instr.Decodes, hop, Instr.furtherWords, hown, heas, List.flatMap_cons, List.flatMap_singleton, List.nil_append]
  refine reads_bind (reads_ea hs) ?_
  have dst_mode : ¬(src.op line dst.reg dst.mode).m = 1 := Ea.mode_ne_one_of_isData (Ea.isData_of_isDataAlterable hd)
  rw [if_neg dst_mode]
  exact reads_map (reads_ea (Ea.fits_of_isDataAlterable hd sz)) rfl

/-! ### Operation words whose reader depends on more than fixed fields -/

theorem Parser.size_toBits (sz : Size) : Parser.size sz.toBits = pure sz := by cases sz <;> rfl

section
variable {o : Op} {sz : Size} {dir : BitVec 1} (h : o.m = sz.opmode dir)
include h

theorem Op.immEa_eq (f : Imm → Ea → Instr) :
    o.immEa f = (do let v ← Parser.imm sz; return f v (← o.ea sz)) := by
  rw [Op.immEa, Op.sizeBits_of_opmode h, Parser.size_toBits, pure_bind]

theorem Op.eaToDn_eq (f : Size → Ea → Reg → Instr) :
    o.eaToDn f = (do return f sz (← o.ea sz) (Reg.ofBits o.r)) := by
  rw [Op.eaToDn, Op.sizeBits_of_opmode h, Parser.size_toBits, pure_bind]

theorem Op.dnToEa_eq (f : Size → Reg → Ea → Instr) :
    o.dnToEa f = (do return f sz (Reg.ofBits o.r) (← o.ea sz)) := by
  rw [Op.dnToEa, Op.sizeBits_of_opmode h, Parser.size_toBits, pure_bind]

theorem Op.sizeEa_eq (f : Size → Ea → Instr) (other : Parser Instr) :
    o.sizeEa f other = (do return f sz (← o.ea sz)) := by
  rw [Op.sizeEa, Op.sizeBits_of_opmode h]
  cases sz <;> rfl

end

section
variable {o : Op} {sz : Size} {dir : BitVec 1} (h : o.m = sz.opmode dir) (reg mem : Size → Reg → Reg → Instr)
  (f : Size → Reg → Ea → Instr)
include h

/-- Mode 000 of ADDX and SUBX is the register form (30_encoding.md R130, R134). -/
theorem Op.extended_reg (h0 : o.mode = 0) :
    o.extended reg mem f = pure (reg sz (Reg.ofBits o.reg) (Reg.ofBits o.r)) := by
  rw [Op.extended, h0, Op.sizeBits_of_opmode h, Parser.size_toBits]
  rfl

/-- Mode 001 of ADDX and SUBX is the memory form (30_encoding.md R130, R134). -/
theorem Op.extended_mem (h1 : o.mode = 1) :
    o.extended reg mem f = pure (mem sz (Reg.ofBits o.reg) (Reg.ofBits o.r)) := by
  rw [Op.extended, h1, Op.sizeBits_of_opmode h, Parser.size_toBits]
  rfl

/-- The other modes are the forms with a destination in memory (30_encoding.md R130, R134). -/
theorem Op.extended_dnToEa (h0 : o.mode ≠ 0) (h1 : o.mode ≠ 1) :
    o.extended reg mem f = (do return f sz (Reg.ofBits o.r) (← o.ea sz)) := by
  rw [← Op.dnToEa_eq h, Op.extended]
  split <;> first | rfl | contradiction

end

/-- The forms to CCR and SR are those whose operand would be `111 100` (30_encoding.md R123). -/
theorem Op.immCcrSrEa_eq {o : Op} {sz : Size} {dir : BitVec 1} (h : ¬(o.mode = 7 ∧ o.reg = 4))
    (hm : o.m = sz.opmode dir) (ccr : Byte → Instr) (sr : Word → Instr) (f : Imm → Ea → Instr) :
    o.immCcrSrEa ccr sr f = (do let v ← Parser.imm sz; return f v (← o.ea sz)) := by
  rw [Op.immCcrSrEa, if_neg h, Op.immEa_eq hm]

section
variable {o : Op} {sz : Size} (hm : o.m = sz.opmode 0)
include hm

theorem Op.line0_subi (hr : o.r = 2) : o.line0 = (do let v ← Parser.imm sz; return .subi v (← o.ea sz)) := by
  rw [← Op.immEa_eq hm, Op.line0, hm, hr]
  cases sz <;> rfl

theorem Op.line0_addi (hr : o.r = 3) : o.line0 = (do let v ← Parser.imm sz; return .addi v (← o.ea sz)) := by
  rw [← Op.immEa_eq hm, Op.line0, hm, hr]
  cases sz <;> rfl

theorem Op.line0_cmpi (hr : o.r = 6) : o.line0 = (do let v ← Parser.imm sz; return .cmpi v (← o.ea sz)) := by
  rw [← Op.immEa_eq hm, Op.line0, hm, hr]
  cases sz <;> rfl

variable (h : ¬(o.mode = 7 ∧ o.reg = 4))
include h

theorem Op.line0_ori (hr : o.r = 0) : o.line0 = (do let v ← Parser.imm sz; return .ori v (← o.ea sz)) := by
  rw [← Op.immCcrSrEa_eq h hm .oriToCcr .oriToSr, Op.line0, hm, hr]
  cases sz <;> rfl

theorem Op.line0_andi (hr : o.r = 1) : o.line0 = (do let v ← Parser.imm sz; return .andi v (← o.ea sz)) := by
  rw [← Op.immCcrSrEa_eq h hm .andiToCcr .andiToSr, Op.line0, hm, hr]
  cases sz <;> rfl

theorem Op.line0_eori (hr : o.r = 5) : o.line0 = (do let v ← Parser.imm sz; return .eori v (← o.ea sz)) := by
  rw [← Op.immCcrSrEa_eq h hm .eoriToCcr .eoriToSr, Op.line0, hm, hr]
  cases sz <;> rfl

end

/-- Mode 001 of a dynamic bit instruction is MOVEP (30_encoding.md R123). -/
theorem Op.bitDynamic_eq {o : Op} (h : o.mode ≠ 1) (f : Reg → Ea → Instr) (movep : Word → Instr) :
    o.bitDynamic f movep = (do return f (Reg.ofBits o.r) (← o.ea .b)) := if_neg h

/-- MOVEM reads its mask, then its operand (30_encoding.md R125). -/
theorem Op.movem_eq {o : Op} {sz : WideSize} (h : o.m = sz.movemOpmode) (f : WideSize → Word → Ea → Instr) :
    o.movem f = (do let mask ← Parser.word; return f sz mask (← o.ea sz.toSize)) := by
  cases sz <;> simp [Op.movem, h, WideSize.movemOpmode]

theorem Op.line5_addq {o : Op} {sz : Size} (h : o.m = sz.opmode 0) :
    o.line5 = (do return .addq (Reg.ofBits o.r) sz (← o.ea sz)) := by
  cases sz <;> simp [Op.line5, Op.sizeBits, h, Size.opmode, Size.toBits, Size.ofBits]

theorem Op.line5_subq {o : Op} {sz : Size} (h : o.m = sz.opmode 1) :
    o.line5 = (do return .subq (Reg.ofBits o.r) sz (← o.ea sz)) := by
  cases sz <;> simp [Op.line5, Op.sizeBits, h, Size.opmode, Size.toBits, Size.ofBits]

theorem Op.line6_bra {o : Op} (h : o.condBits = Cond.toBits .t) : o.line6 = (do return .bra (← o.branchDisp)) := by
  rw [Op.line6, h]
  rfl

theorem Op.line6_bsr {o : Op} (h : o.condBits = Cond.toBits .f) : o.line6 = (do return .bsr (← o.branchDisp)) := by
  rw [Op.line6, h]
  rfl

theorem Op.line6_bcc {o : Op} {c : Cond} (h : o.condBits = c.toBits) (hc : c.isBranch = true) :
    o.line6 = (do return .bcc c (← o.branchDisp)) := by
  rw [Op.line6, h]
  cases c <;> first | rfl | cases hc

/-- A branch reads its displacement back (30_encoding.md R127, 46_program_control.md R290). -/
theorem reads_branchDisp (c : Cond) {d : BranchDisp} (h : d.wellFormed = true) :
    Reads (Op.branch c d).branchDisp d.words d := by
  cases d with
  | byte b =>
    have nonzero : b ≠ 0 := by simpa [BranchDisp.wellFormed] using h
    rw [Op.branchDisp, Op.lowByte_branch_byte, if_neg nonzero]
    exact reads_pure _
  | word w =>
    rw [Op.branchDisp, Op.lowByte_branch_word, if_pos rfl]
    exact reads_map (reads_word w) rfl

theorem Op.line8_toMem {o : Op} {sz : Size} (hm : o.m = sz.opmode 1) (h0 : o.mode ≠ 0) (h1 : o.mode ≠ 1) :
    o.line8 = (do return .orToMem sz (Reg.ofBits o.r) (← o.ea sz)) := by
  rw [← Op.dnToEa_eq hm, Op.line8, hm]
  obtain ⟨line, r, m, mode, reg⟩ := o
  cases sz <;> cases mode using bits3_cases <;> first | rfl | contradiction

theorem Op.lineC_toMem {o : Op} {sz : Size} (hm : o.m = sz.opmode 1) (h0 : o.mode ≠ 0) (h1 : o.mode ≠ 1) :
    o.lineC = (do return .andToMem sz (Reg.ofBits o.r) (← o.ea sz)) := by
  rw [← Op.dnToEa_eq hm, Op.lineC, hm]
  obtain ⟨line, r, m, mode, reg⟩ := o
  cases sz <;> cases mode using bits3_cases <;> first | rfl | contradiction

theorem Op.lineB_eor {o : Op} {sz : Size} (hm : o.m = sz.opmode 1) (h1 : o.mode ≠ 1) :
    o.lineB = (do return .eor sz (Reg.ofBits o.r) (← o.ea sz)) := by
  rw [← Op.dnToEa_eq hm, Op.lineB, hm]
  cases sz <;> exact if_neg h1

theorem Op.line9_extended {o : Op} {sz : Size} (hm : o.m = sz.opmode 1) :
    o.line9 = o.extended .subxReg .subxMem .subToMem := by
  rw [Op.line9, hm]
  cases sz <;> rfl

theorem Op.lineD_extended {o : Op} {sz : Size} (hm : o.m = sz.opmode 1) :
    o.lineD = o.extended .addxReg .addxMem .addToMem := by
  rw [Op.lineD, hm]
  cases sz <;> rfl

theorem Op.lineB_cmpm {o : Op} {sz : Size} (hm : o.m = sz.opmode 1) (h1 : o.mode = 1) :
    o.lineB = pure (.cmpm sz (Reg.ofBits o.reg) (Reg.ofBits o.r)) := by
  have reader : (do return .cmpm (← Parser.size o.sizeBits) (Reg.ofBits o.reg) (Reg.ofBits o.r)) =
      (pure (.cmpm sz (Reg.ofBits o.reg) (Reg.ofBits o.r)) : Parser Instr) := by
    rw [Op.sizeBits_of_opmode hm, Parser.size_toBits]
    rfl
  rw [← reader, Op.lineB, hm]
  cases sz <;> exact if_pos h1

theorem Op.line4_tst {o : Op} {sz : Size} (hr : o.r = 5) (hm : o.m = sz.opmode 0) :
    o.line4 = (do return .tst sz (← o.ea sz)) := by
  rw [← Op.sizeEa_eq hm .tst (do return .tas (← o.ea .b))]
  cases sz <;> simp [Op.line4, hr, hm, Size.opmode, Size.toBits]

theorem Op.line4_tas {o : Op} (hr : o.r = 5) (hm : o.m = 3) (h : ¬(o.mode = 7 ∧ (o.reg = 2 ∨ o.reg = 3 ∨ o.reg = 4))) :
    o.line4 = (do return .tas (← o.ea .b)) := by
  have other : o.sizeEa .tst (do return .tas (← o.ea .b)) = (do return .tas (← o.ea .b)) := by
    rw [Op.sizeEa, Op.sizeBits, hm]
    rfl
  rw [Op.line4, hm, hr]
  exact (if_neg fun ⟨_, h7, h2⟩ => h ⟨h7, .inl h2⟩).trans <| (if_neg fun ⟨_, h7, h3⟩ => h ⟨h7, .inr (.inl h3)⟩).trans <|
    (if_neg fun ⟨_, h7, h4⟩ => h ⟨h7, .inr (.inr h4)⟩).trans other

theorem Op.line5_scc {o : Op} {c : Cond} (hc : o.condBits = c.toBits) (hs : o.sizeBits = 3) (h1 : o.mode ≠ 1) :
    o.line5 = (do return .scc c (← o.ea .b)) := by
  rw [Op.line5, hs, hc, Cond.ofBits_toBits]
  exact if_neg h1

theorem Op.line5_dbcc {o : Op} {c : Cond} (hc : o.condBits = c.toBits) (hs : o.sizeBits = 3) (h1 : o.mode = 1) :
    o.line5 = (do return .dbcc c (Reg.ofBits o.reg) (← Parser.word)) := by
  rw [Op.line5, hs, hc, Cond.ofBits_toBits]
  exact if_pos h1

theorem decodes_moveq (v : Byte) (dn : Reg) : (Instr.moveq v dn).Decodes := by
  have bit : (Instr.moveq v dn).op.m.getLsbD 2 = false := by
    simp only [Instr.op]
    grind
  have low : (Instr.moveq v dn).op.lowByte = v := by
    simp only [Op.lowByte, Instr.op]
    ext k hk
    grind
  refine decodes_of_pure ?_ rfl
  show Op.line7 _ = _
  rw [Op.line7, bit, low]
  rfl

/-- A size field that names a size selects the register forms (30_encoding.md R135). -/
theorem Op.lineE_reg {o : Op} {sz : Size} {dir : BitVec 1} (h : o.m = sz.opmode dir) :
    o.lineE = pure (o.shiftReg sz) := by
  rw [Op.lineE, Op.sizeBits_of_opmode h]
  cases sz <;> rfl

theorem decodes_shiftReg {i : Instr} {n y : Reg} {sz : Size} {dir : BitVec 1} {mode : BitVec 3}
    (hop : i.op = .twoRegs 14 n (sz.opmode dir) mode y) (hi : (Op.twoRegs 14 n (sz.opmode dir) mode y).shiftReg sz = i)
    (hw : i.furtherWords = []) : i.Decodes := by
  refine decodes_of_pure ?_ hw
  rw [hop]
  exact (Op.lineE_reg rfl).trans (congrArg pure hi)

/-- A shift of memory has size field `11` (30_encoding.md R135). -/
theorem decodes_shiftMem {ea : Ea} (f : Ea → Instr) {r : BitVec 3} {m : BitVec 3} (h : ea.isMemoryAlterable = true)
    (hop : (f ea).op = ea.op 14 r m) (hm : m = 3 ∨ m = 7)
    (hf : (ea.op 14 r m).shiftMem = (do return f (← Parser.ea ea.mode ea.reg .w))) (hown : (f ea).ownWords = [])
    (heas : (f ea).eas = [ea]) : (f ea).Decodes := by
  have other : (ea.op 14 r m).sizeBits = 3 := by
    show m.extractLsb' 0 2 = 3
    obtain rfl | rfl := hm <;> rfl
  refine decodes_of_ea f (Ea.fits_of_isMemoryAlterable h .w) ?_ hown heas
  rw [hop, ← hf]
  show Op.lineE _ = _
  rw [Op.lineE, other]
  rfl

/-! ### Every instruction -/

/-- One case for each instruction: its reader, by the equation of its line, and that it fits its operands' set. -/
theorem Instr.decodes {i : Instr} (h : i.wellFormed = true) : i.Decodes := by
  cases i with
  | oriToCcr v => exact decodes_of_own (reads_word _) (congrArg Instr.oriToCcr (Word.lowByte_append 0 v)) rfl rfl rfl
  | andiToCcr v => exact decodes_of_own (reads_word _) (congrArg Instr.andiToCcr (Word.lowByte_append 0 v)) rfl rfl rfl
  | eoriToCcr v => exact decodes_of_own (reads_word _) (congrArg Instr.eoriToCcr (Word.lowByte_append 0 v)) rfl rfl rfl
  | oriToSr | andiToSr | eoriToSr | movepToRegW | movepToRegL | movepToMemW | movepToMemL | link | stop =>
    exact decodes_of_own (reads_word _) rfl rfl rfl rfl
  | ori v ea =>
    exact decodes_of_own_ea (reads_imm v) (Ea.fits_of_isDataAlterable h _) rfl
      (Op.line0_ori rfl (Ea.not_ccrSr_of_isDataAlterable h) rfl) rfl rfl
  | andi v ea =>
    exact decodes_of_own_ea (reads_imm v) (Ea.fits_of_isDataAlterable h _) rfl
      (Op.line0_andi rfl (Ea.not_ccrSr_of_isDataAlterable h) rfl) rfl rfl
  | eori v ea =>
    exact decodes_of_own_ea (reads_imm v) (Ea.fits_of_isDataAlterable h _) rfl
      (Op.line0_eori rfl (Ea.not_ccrSr_of_isDataAlterable h) rfl) rfl rfl
  | subi v ea =>
    exact decodes_of_own_ea (reads_imm v) (Ea.fits_of_isDataAlterable h _) rfl (Op.line0_subi rfl rfl) rfl rfl
  | addi v ea =>
    exact decodes_of_own_ea (reads_imm v) (Ea.fits_of_isDataAlterable h _) rfl (Op.line0_addi rfl rfl) rfl rfl
  | cmpi v ea =>
    exact decodes_of_own_ea (reads_imm v) (Ea.fits_of_isDataAlterable h _) rfl (Op.line0_cmpi rfl rfl) rfl rfl
  | btstStatic n ea =>
    exact decodes_of_own_ea (reads_word _) (Ea.fits_of_isDataNotImm h _)
      (congrArg (Instr.btstStatic · ea) (Word.lowByte_append 0 n)) rfl rfl rfl
  | bchgStatic n ea =>
    exact decodes_of_own_ea (reads_word _) (Ea.fits_of_isDataAlterable h _)
      (congrArg (Instr.bchgStatic · ea) (Word.lowByte_append 0 n)) rfl rfl rfl
  | bclrStatic n ea =>
    exact decodes_of_own_ea (reads_word _) (Ea.fits_of_isDataAlterable h _)
      (congrArg (Instr.bclrStatic · ea) (Word.lowByte_append 0 n)) rfl rfl rfl
  | bsetStatic n ea =>
    exact decodes_of_own_ea (reads_word _) (Ea.fits_of_isDataAlterable h _)
      (congrArg (Instr.bsetStatic · ea) (Word.lowByte_append 0 n)) rfl rfl rfl
  | btstDynamic dn ea =>
    obtain ⟨data, fits⟩ := Bool.and_eq_true_iff.mp h
    exact decodes_of_ea _ fits (Op.bitDynamic_eq (Ea.mode_ne_one_of_isData data) _ _) rfl rfl
  | bchgDynamic dn ea | bclrDynamic dn ea | bsetDynamic dn ea =>
    exact decodes_of_ea _ (Ea.fits_of_isDataAlterable h _)
      (Op.bitDynamic_eq (Ea.mode_ne_one_of_isData (Ea.isData_of_isDataAlterable h)) _ _) rfl rfl
  | moveB src dst =>
    obtain ⟨hs, hd⟩ := Bool.and_eq_true_iff.mp h
    exact decodes_of_move .moveB _ hs hd 1 rfl rfl rfl
  | moveW src dst =>
    obtain ⟨hs, hd⟩ := Bool.and_eq_true_iff.mp h
    exact decodes_of_move .moveW _ hs hd 3 rfl rfl rfl
  | moveL src dst =>
    obtain ⟨hs, hd⟩ := Bool.and_eq_true_iff.mp h
    exact decodes_of_move .moveL _ hs hd 2 rfl rfl rfl
  | moveaW src an => exact decodes_of_ea (.moveaW · an) h rfl rfl rfl
  | moveaL src an => exact decodes_of_ea (.moveaL · an) h rfl rfl rfl
  | negx sz ea | clr sz ea | neg sz ea | notEa sz ea =>
    cases sz <;> exact decodes_of_ea _ (Ea.fits_of_isDataAlterable h _) rfl rfl rfl
  | tst sz ea => exact decodes_of_ea (.tst sz) (Ea.fits_of_isDataAlterable h _) (Op.line4_tst rfl rfl) rfl rfl
  | tas ea =>
    exact decodes_of_ea .tas (Ea.fits_of_isDataAlterable h .b)
      (Op.line4_tas (o := (Instr.tas ea).op) rfl rfl (Ea.not_mode7_of_isDataAlterable h)) rfl rfl
  | moveFromSr ea => exact decodes_of_ea .moveFromSr (Ea.fits_of_isDataAlterable h _) rfl rfl rfl
  | nbcd ea => exact decodes_of_ea .nbcd (Ea.fits_of_isDataAlterable h _) rfl rfl rfl
  | moveToCcr ea => exact decodes_of_ea .moveToCcr (Bool.and_eq_true_iff.mp h).2 rfl rfl rfl
  | moveToSr ea => exact decodes_of_ea .moveToSr (Bool.and_eq_true_iff.mp h).2 rfl rfl rfl
  | chk ea dn => exact decodes_of_ea (.chk · dn) (Bool.and_eq_true_iff.mp h).2 rfl rfl rfl
  | lea ea an => exact decodes_of_ea (.lea · an) (Ea.fits_of_isControl h _) rfl rfl rfl
  | jsr ea => exact decodes_of_ea .jsr (Ea.fits_of_isControl h _) rfl rfl rfl
  | jmp ea => exact decodes_of_ea .jmp (Ea.fits_of_isControl h _) rfl rfl rfl
  | pea ea =>
    exact decodes_of_ea .pea (Ea.fits_of_isControl h .l) (if_neg (Ea.mode_ne_zero_of_isControl h)) rfl rfl
  | movemToMem sz mask ea =>
    cases sz <;> exact decodes_of_own_ea (reads_word mask) (Ea.fits_of_isMovemToMem h _) rfl
      ((if_neg (Ea.mode_ne_zero_of_isMovemToMem h)).trans (Op.movem_eq rfl _)) rfl rfl
  | movemToReg sz mask ea =>
    cases sz <;> exact decodes_of_own_ea (reads_word mask) (Ea.fits_of_isMovemToReg h _) rfl (Op.movem_eq rfl _) rfl rfl
  | swap | extW | extL | illegal | illegal4AFA | illegal4AFB | unlk | moveToUsp | moveFromUsp | reset | nop | rte | rts
  | trapv | rtr | sbcdReg | sbcdMem | abcdReg | abcdMem | exgDD | exgAA | exgDA => exact decodes_of_pure rfl rfl
  | trap v => fin_cases v <;> exact decodes_of_pure rfl rfl
  | addq q sz ea => exact decodes_of_ea (.addq q sz) (Bool.and_eq_true_iff.mp h).2 (Op.line5_addq rfl) rfl rfl
  | subq q sz ea => exact decodes_of_ea (.subq q sz) (Bool.and_eq_true_iff.mp h).2 (Op.line5_subq rfl) rfl rfl
  | scc c ea =>
    exact decodes_of_ea (.scc c) (Ea.fits_of_isDataAlterable h _)
      (Op.line5_scc (Op.condBits_condition c _ _) (Op.sizeBits_condition c _ _)
        (Ea.mode_ne_one_of_isData (Ea.isData_of_isDataAlterable h))) rfl rfl
  | dbcc c dn d =>
    exact decodes_of_own (reads_word d) rfl
      (Op.line5_dbcc (Op.condBits_condition c _ _) (Op.sizeBits_condition c _ _) rfl) rfl rfl
  | bra d => exact decodes_of_own (reads_branchDisp .t h) rfl (Op.line6_bra (Op.condBits_branch .t d)) rfl rfl
  | bsr d => exact decodes_of_own (reads_branchDisp .f h) rfl (Op.line6_bsr (Op.condBits_branch .f d)) rfl rfl
  | bcc c d =>
    obtain ⟨hc, hd⟩ := Bool.and_eq_true_iff.mp h
    exact decodes_of_own (reads_branchDisp c hd) rfl (Op.line6_bcc (Op.condBits_branch c d) hc) rfl rfl
  | moveq v dn => exact decodes_moveq v dn
  | orToDn sz ea dn =>
    obtain ⟨-, fits⟩ := Bool.and_eq_true_iff.mp h
    cases sz <;> exact decodes_of_ea (.orToDn _ · dn) fits (Op.eaToDn_eq (dir := 0) rfl _) rfl rfl
  | andToDn sz ea dn =>
    obtain ⟨-, fits⟩ := Bool.and_eq_true_iff.mp h
    cases sz <;> exact decodes_of_ea (.andToDn _ · dn) fits (Op.eaToDn_eq (dir := 0) rfl _) rfl rfl
  | subToDn sz ea dn => cases sz <;> exact decodes_of_ea (.subToDn _ · dn) h (Op.eaToDn_eq (dir := 0) rfl _) rfl rfl
  | addToDn sz ea dn => cases sz <;> exact decodes_of_ea (.addToDn _ · dn) h (Op.eaToDn_eq (dir := 0) rfl _) rfl rfl
  | cmp sz ea dn => cases sz <;> exact decodes_of_ea (.cmp _ · dn) h (Op.eaToDn_eq (dir := 0) rfl _) rfl rfl
  | orToMem sz dn ea =>
    exact decodes_of_ea (.orToMem sz dn) (Ea.fits_of_isMemoryAlterable h _)
      (Op.line8_toMem rfl (Ea.mode_ne_zero_of_isMemoryAlterable h)
        (Ea.mode_ne_one_of_isData (Ea.isData_of_isMemoryAlterable h))) rfl rfl
  | andToMem sz dn ea =>
    exact decodes_of_ea (.andToMem sz dn) (Ea.fits_of_isMemoryAlterable h _)
      (Op.lineC_toMem rfl (Ea.mode_ne_zero_of_isMemoryAlterable h)
        (Ea.mode_ne_one_of_isData (Ea.isData_of_isMemoryAlterable h))) rfl rfl
  | subToMem sz dn ea | addToMem sz dn ea =>
    cases sz <;> exact decodes_of_ea _ (Ea.fits_of_isMemoryAlterable h _)
      (Op.extended_dnToEa (dir := 1) rfl _ _ _ (Ea.mode_ne_zero_of_isMemoryAlterable h)
        (Ea.mode_ne_one_of_isData (Ea.isData_of_isMemoryAlterable h))) rfl rfl
  | eor sz dn ea =>
    exact decodes_of_ea (.eor sz dn) (Ea.fits_of_isDataAlterable h _)
      (Op.lineB_eor rfl (Ea.mode_ne_one_of_isData (Ea.isData_of_isDataAlterable h))) rfl rfl
  | divu ea dn => exact decodes_of_ea (.divu · dn) (Bool.and_eq_true_iff.mp h).2 rfl rfl rfl
  | divs ea dn => exact decodes_of_ea (.divs · dn) (Bool.and_eq_true_iff.mp h).2 rfl rfl rfl
  | mulu ea dn => exact decodes_of_ea (.mulu · dn) (Bool.and_eq_true_iff.mp h).2 rfl rfl rfl
  | muls ea dn => exact decodes_of_ea (.muls · dn) (Bool.and_eq_true_iff.mp h).2 rfl rfl rfl
  | subaW ea an => exact decodes_of_ea (.subaW · an) h rfl rfl rfl
  | subaL ea an => exact decodes_of_ea (.subaL · an) h rfl rfl rfl
  | addaW ea an => exact decodes_of_ea (.addaW · an) h rfl rfl rfl
  | addaL ea an => exact decodes_of_ea (.addaL · an) h rfl rfl rfl
  | cmpaW ea an => exact decodes_of_ea (.cmpaW · an) h rfl rfl rfl
  | cmpaL ea an => exact decodes_of_ea (.cmpaL · an) h rfl rfl rfl
  | subxReg sz dy dx =>
    exact decodes_of_pure ((Op.line9_extended rfl).trans
      (Op.extended_reg (o := (Instr.subxReg sz dy dx).op) (dir := 1) rfl _ _ _ rfl)) rfl
  | subxMem sz ay ax =>
    exact decodes_of_pure ((Op.line9_extended rfl).trans
      (Op.extended_mem (o := (Instr.subxMem sz ay ax).op) (dir := 1) rfl _ _ _ rfl)) rfl
  | addxReg sz dy dx =>
    exact decodes_of_pure ((Op.lineD_extended rfl).trans
      (Op.extended_reg (o := (Instr.addxReg sz dy dx).op) (dir := 1) rfl _ _ _ rfl)) rfl
  | addxMem sz ay ax =>
    exact decodes_of_pure ((Op.lineD_extended rfl).trans
      (Op.extended_mem (o := (Instr.addxMem sz ay ax).op) (dir := 1) rfl _ _ _ rfl)) rfl
  | cmpm sz => exact decodes_of_pure (Op.lineB_cmpm rfl rfl) rfl
  | lineA w => exact decodes_of_pure (congrArg (pure ∘ Instr.lineA) (Op.low12_ofLow12 10 w)) rfl
  | lineF w => exact decodes_of_pure (congrArg (pure ∘ Instr.lineF) (Op.low12_ofLow12 15 w)) rfl
  | asrMem ea | lsrMem ea | roxrMem ea | rorMem ea =>
    exact decodes_shiftMem _ h rfl (.inl rfl) (by simp [Op.shiftMem, Op.ea, Ea.op]) rfl rfl
  | aslMem ea | lslMem ea | roxlMem ea | rolMem ea =>
    exact decodes_shiftMem _ h rfl (.inr rfl) (by simp [Op.shiftMem, Op.ea, Ea.op]) rfl rfl
  | asrImm _ sz | aslImm _ sz | lsrImm _ sz | lslImm _ sz | roxrImm _ sz | roxlImm _ sz | rorImm _ sz | rolImm _ sz
  | asrReg _ sz | aslReg _ sz | lsrReg _ sz | lslReg _ sz | roxrReg _ sz | roxlReg _ sz | rorReg _ sz | rolReg _ sz =>
    exact decodes_shiftReg rfl (by simp only [Op.shiftReg, Op.twoRegs, Size.getLsbD_opmode]; rfl) rfl

/-- Settles O1, by what each instruction's reader reads back. -/
theorem decodeOfEncode : Obligations.DecodeOfEncode :=
  fun _ rest hw => decode_encode_append (Instr.decodes hw) hw rest

end Sys2Proof
end

section
/-! Example words of the spec (30_encoding.md R123 to R140). -/

namespace Sys2Proof

/-- Words that are the encoding of a well-formed instruction decode to it. -/
theorem decode_eq_of_encode {ws : List Word} {i : Instr} (h : encode i = ws) (hw : i.wellFormed = true) :
    decode ws = .ok (i, []) := by
  rw [← h, ← List.append_nil (encode i)]
  exact decodeOfEncode i [] hw

/-- Settles O3: the words are encodings, but for MOVE.B, whose immediate word has bits that are ignored
(30_encoding.md R143), and for the illegal one, an address register as a byte operand (R106). -/
theorem exampleWordsDecode : Obligations.ExampleWordsDecode := by
  refine ⟨?_, ?_, ?_, ?_, ?_, ?_, ?_, ?_, ?_, ?_, ?_, ?_, rfl, ?_, rfl⟩ <;> exact decode_eq_of_encode (by decide) rfl

end Sys2Proof
end

section
/-! The addressing modes as exact sums modulo 2^32, and LEA and PEA (30_encoding.md R105 to R117, 40_data_movement.md
R153, R165). -/

namespace Sys2Proof.Machine

/-! ### Sums of numbers sign-extended from their widths -/

theorem add_ofInt (a : Long) (x : Int) : a + BitVec.ofInt 32 x = BitVec.ofInt 32 (a.toInt + x) := by
  rw [BitVec.ofInt_add, BitVec.ofInt_toInt]

theorem sub_ofInt (a : Long) (x : Int) : a - BitVec.ofInt 32 x = BitVec.ofInt 32 (a.toInt - x) := by
  rw [Int.sub_eq_add_neg, BitVec.ofInt_add, BitVec.ofInt_toInt, BitVec.ofInt_neg, BitVec.sub_eq_add_neg]

theorem add_signExtend {w : Nat} (a : Long) (d : BitVec w) :
    a + d.signExtend 32 = BitVec.ofInt 32 (a.toInt + d.toInt) := add_ofInt a d.toInt

/-- `ix` as a number: the index register, its low-order word or all of it (30_encoding.md R112). -/
def State.indexNumber (s : State) (x : Index) : Int :=
  if x.long then (if x.isAddr then s.areg x.reg else s.dreg x.reg).toInt
  else (BitVec.setWidth 16 (if x.isAddr then s.areg x.reg else s.dreg x.reg)).toInt

theorem indexValue_eq (s : State) (x : Index) : s.indexValue x = BitVec.ofInt 32 (s.indexNumber x) := by
  simp only [State.indexValue, State.indexNumber]
  split
  · rw [BitVec.ofInt_toInt]
  · rfl

theorem add_index (s : State) (a : Long) (x : Index) :
    a + x.disp.signExtend 32 + s.indexValue x = BitVec.ofInt 32 (a.toInt + x.disp.toInt + s.indexNumber x) := by
  rw [add_signExtend, indexValue_eq, ← BitVec.ofInt_add]

/-- The step of `(An)+` and `-(An)` as a number (30_encoding.md R108, R109). -/
theorem addressStep_eq (n : Reg) (sz : Size) :
    addressStep n sz = BitVec.ofInt 32 (if n = 7 ∧ sz = .b then 2 else sz.bytes) := by
  unfold addressStep
  split
  · rfl
  · exact (BitVec.ofInt_natCast 32 sz.bytes).symm

/-! ### Completed instructions -/

theorem runInstruction_completed {i : Instr} {m : M Unit} {s t : State} (hw : i.wellFormed = true)
    (hp : isPrivileged i = false) (hm : m s = .ok () t) : runInstruction i m s = .next t := by
  simp [runInstruction, hw, hp, hm]

theorem nextWith_completed {i : Instr} {m : M Unit} {s : State} {P : State → Prop} (hw : i.wellFormed = true)
    (hp : isPrivileged i = false) (hm : ∃ t, m s = .ok () t ∧ P t) : nextWith (runInstruction i m s) P := by
  obtain ⟨t, ht, hP⟩ := hm
  exact ⟨t, runInstruction_completed hw hp ht, hP⟩

/-! ### One register set, one long word pushed -/

theorem onlyAddress_setAreg (s : State) (an : Reg) (v : Long) : s.onlyAddress (s.setAreg an v) an v s.pc :=
  ⟨by simp, setAreg_sameAddressBut s an v, by simp, by simp, by simp, fun _ => by simp, by simp [State.sameSystem],
    by simp⟩

theorem sameAddressBut_of_fetched {s t : State} {k : Nat} {n : Reg} (h : (s.fetched k).sameAddressBut t n) :
    s.sameAddressBut t n := by
  simpa [State.sameAddressBut] using h

/-- What an instruction leaves does not depend on the cycles of its further words, but for `PC`. -/
theorem onlyAddress_of_fetched {s t : State} {k : Nat} {an : Reg} {v pc : Long}
    (h : (s.fetched k).onlyAddress t an v pc) : s.onlyAddress t an v pc := by
  obtain ⟨value, others, rest⟩ := h
  exact ⟨value, sameAddressBut_of_fetched others, by simpa [State.sameMemory, State.sameSystem] using rest⟩

theorem onlyPushed_of_fetched {s t : State} {k : Nat} {v pc : Long} (h : (s.fetched k).onlyPushed t v pc) :
    s.onlyPushed t v pc := by
  obtain ⟨sp, others, rest⟩ := h
  exact ⟨by simpa using sp, sameAddressBut_of_fetched others,
    by simpa [State.sameMemoryOutside, State.sameSystem] using rest⟩

/-- `Push(4, v)` on an even active stack pointer: everything it leaves (00_scope.md R11). -/
theorem pushLong_onlyPushed {s : State} (h : s.platform = .plain) (he : isEven (s.areg 7) = true) (v : Long) :
    ∃ t, pushLong v s = .ok () t ∧ s.onlyPushed t v s.pc := by
  refine ⟨_, pushLong_ready h he v, by simp, ?_, readAt_afterWrite_same _ .l _ _ _ _, fun x hx => ?_, by simp, by simp,
    by simp, by simp [State.sameSystem], by simp⟩
  · simpa [State.sameAddressBut] using setAreg_sameAddressBut s 7 (s.areg 7 - 4)
  · rw [get_afterWrite_of_notMem hx, setAreg_mem]

/-! ### Control addresses -/

theorem stepAddress_of_isControl {ea : Ea} (h : ea.isControl = true) (s : State) (sz : Size) :
    s.stepAddress ea sz = s := by
  cases ea <;> first | rfl | cases h

/-- The address of a control operand: no access is made to it (40_data_movement.md R153). -/
theorem controlAddress_ready {s : State} (h : s.ready) {ea : Ea} (hea : ea.isControl = true) :
    controlAddress ea s = .ok (s.effectiveAddress ea .l) (s.fetched ea.words.length) := by
  simp only [controlAddress, bind_apply, get_apply, evalEa_ready h, pure_apply, State.evaluated,
    stepAddress_of_isControl hea]

theorem loadEffectiveAddress_ready {s : State} (h : s.ready) {ea : Ea} (hea : ea.isControl = true) (an : Reg) :
    ∃ t, loadEffectiveAddress ea an s = .ok () t ∧
      s.onlyAddress t an (s.effectiveAddress ea .l) (s.pc + BitVec.ofNat 32 (2 * ea.words.length)) := by
  refine ⟨_, ?_, onlyAddress_of_fetched (fetched_pc s ea.words.length ▸ onlyAddress_setAreg _ an _)⟩
  simp only [loadEffectiveAddress, bind_apply, controlAddress_ready h hea, modify_apply]

theorem pushEffectiveAddress_ready {s : State} (h : s.ready) {ea : Ea} (hea : ea.isControl = true)
    (he : isEven (s.areg 7) = true) :
    ∃ t, pushEffectiveAddress ea s = .ok () t ∧
      s.onlyPushed t (s.effectiveAddress ea .l) (s.pc + BitVec.ofNat 32 (2 * ea.words.length)) := by
  obtain ⟨t, pushed, left⟩ := pushLong_onlyPushed (s := s.fetched ea.words.length) (by simpa using h.1)
    (by simpa using he) (s.effectiveAddress ea .l)
  refine ⟨t, ?_, onlyPushed_of_fetched (fetched_pc s ea.words.length ▸ left)⟩
  simp only [pushEffectiveAddress, bind_apply, controlAddress_ready h hea, pushed]

/-! ### The addressing modes -/

/-- Settles O42: each address is a sum of sign-extended numbers, and LEA and PEA take it without an access. -/
theorem effectiveAddresses : Obligations.EffectiveAddresses := by
  refine ⟨fun s sz n d x a => ?_, fun s v => BitVec.setWidth_eq _, fun s ea sz => ⟨fun h => ?_, fun h => ?_⟩,
    fun ea s h hea => ⟨fun an => ?_, fun he => ?_⟩⟩
  · intro address index size up down
    have step : addressStep n sz = BitVec.ofInt 32 size := addressStep_eq n sz
    have stepUp : s.areg n + addressStep n sz = BitVec.ofInt 32 ((s.areg n).toInt + size) := by rw [step, add_ofInt]
    have stepDown : s.areg n - addressStep n sz = BitVec.ofInt 32 ((s.areg n).toInt - size) := by rw [step, sub_ofInt]
    exact ⟨rfl, rfl, stepDown, add_signExtend _ d, add_index s _ x, rfl, rfl, add_signExtend _ d, add_index s _ x,
      (areg_setAreg_same s n _).trans stepUp, setAreg_sameAddressBut s n _,
      (areg_setAreg_same s n _).trans stepDown, setAreg_sameAddressBut s n _,
      BitVec.toNat_setWidth .., BitVec.toNat_setWidth ..⟩
  · cases ea with
    | post n => exact absurd rfl (h n).1
    | pre n => exact absurd rfl (h n).2
    | _ => rfl
  · exact operand_memory s h sz
  · exact nextWith_completed hea rfl (loadEffectiveAddress_ready h hea an)
  · exact nextWith_completed hea rfl (pushEffectiveAddress_ready h hea he)

end Sys2Proof.Machine
end

section
/-! What the decoder answers: the operation word it read, and as many words as the instruction's encoding has
(30_encoding.md R100, R101). -/

namespace Sys2Proof

/-! ### What a reader takes -/

/-- Whatever the reader answers, it took a number of words from the front, and of answer and number `Q` holds. -/
def Takes {α : Type} (p : Parser α) (Q : α → Nat → Prop) : Prop :=
  ∀ ws a rest, p ws = .ok (a, rest) → ∃ n ≤ ws.length, rest = ws.drop n ∧ Q a n

section
variable {α β : Type}

theorem takes_illegal {Q : α → Nat → Prop} : Takes Parser.illegal Q := fun _ _ _ h => by cases h

theorem takes_pure {Q : α → Nat → Prop} {a : α} (h : Q a 0) : Takes (pure a) Q := fun ws _ _ e => by
  cases e
  exact ⟨0, Nat.zero_le _, rfl, h⟩

theorem takes_bind {p : Parser α} {k : α → Parser β} {Q : α → Nat → Prop} {R : β → Nat → Prop} (hp : Takes p Q)
    (hk : ∀ a n, Q a n → Takes (k a) fun b m => R b (n + m)) : Takes (p >>= k) R := fun ws b rest h => by
  have split : (p ws >>= fun x => k x.1 x.2) = .ok (b, rest) := h
  cases e : p ws with
  | error e' =>
    rw [e] at split
    cases split
  | ok x =>
    rw [e] at split
    obtain ⟨n, hn, hx, q⟩ := hp ws x.1 x.2 e
    obtain ⟨m, hm, hrest, r⟩ := hk x.1 n q x.2 b rest split
    rw [hx, List.length_drop] at hm
    exact ⟨n + m, by omega, by rw [hrest, hx, List.drop_drop], r⟩

theorem takes_map {p : Parser α} {f : α → β} {Q : α → Nat → Prop} {R : β → Nat → Prop} (hp : Takes p Q)
    (hf : ∀ a n, Q a n → R (f a) n) : Takes (do return f (← p)) R :=
  takes_bind hp fun a n q => takes_pure (hf a n q)

theorem takes_ite {c : Prop} [Decidable c] {p q : Parser α} {Q : α → Nat → Prop} (hp : c → Takes p Q)
    (hq : ¬c → Takes q Q) : Takes (if c then p else q) Q := by
  split
  · exact hp ‹_›
  · exact hq ‹_›

end

theorem takes_word : Takes Parser.word fun _ n => n = 1 := fun ws w rest h => by
  cases ws with
  | nil => cases h
  | cons w ws =>
    cases h
    exact ⟨1, by simp, rfl, rfl⟩

theorem takes_long : Takes Parser.long fun _ n => n = 2 :=
  takes_bind takes_word fun _ _ h => takes_map takes_word fun _ _ h' => by omega

/-- A size field that names a size names the size whose field it is (30_encoding.md R102). -/
theorem takes_size (b : BitVec 2) : Takes (Parser.size b) fun sz n => n = 0 ∧ sz.toBits = b := by
  unfold Parser.size
  split
  · exact takes_pure ⟨rfl, Size.toBits_of_ofBits ‹_›⟩
  · exact takes_illegal

theorem takes_imm (sz : Size) : Takes (Parser.imm sz) fun v n => n = v.words.length ∧ v.size = sz := by
  cases sz with
  | b => exact takes_map takes_word fun _ _ h => ⟨h, rfl⟩
  | w => exact takes_map takes_word fun _ _ h => ⟨h, rfl⟩
  | l => exact takes_map takes_long fun _ _ h => ⟨h, rfl⟩

/-- An effective address has the fields it was read from (30_encoding.md R104). -/
theorem takes_ea (mode reg : BitVec 3) (sz : Size) :
    Takes (Parser.ea mode reg sz) fun ea n => n = ea.words.length ∧ ea.mode = mode ∧ ea.reg = reg := by
  cases mode using bits3_cases with
  | b0 | b1 | b2 | b3 | b4 => exact takes_pure ⟨rfl, rfl, rfl⟩
  | b5 | b6 => exact takes_map takes_word fun _ _ h => ⟨h, rfl, rfl⟩
  | b7 =>
    cases reg using bits3_cases with
    | b0 | b2 | b3 => exact takes_map takes_word fun _ _ h => ⟨h, rfl, rfl⟩
    | b1 => exact takes_map takes_long fun _ _ h => ⟨h, rfl, rfl⟩
    | b4 => exact takes_map (takes_imm sz) fun _ _ h => ⟨h.1, rfl, rfl⟩
    | b5 | b6 | b7 => exact takes_illegal

/-! ### Readers of instructions -/

/-- The instruction has the operation word fields `o`, words of its own of the given number, and the given operands. -/
structure Instr.Has (i : Instr) (o : Op) (own : Nat) (eas : List Ea) : Prop where
  op : i.op = o
  own : i.ownWords.length = own
  eas : i.eas = eas

/-- The instruction has the operation word fields `o`, and as many further words as were taken. -/
def Op.Answers (o : Op) (i : Instr) (n : Nat) : Prop := i.op = o ∧ i.furtherWords.length = n

theorem Instr.Has.answers {i : Instr} {o : Op} {own : Nat} {eas : List Ea} (h : i.Has o own eas) :
    o.Answers i (own + (eas.map fun ea => ea.words.length).sum) := by
  refine ⟨h.op, ?_⟩
  rw [Instr.furtherWords, List.length_append, h.own, h.eas, List.length_flatMap]

/-- Every instruction that the reader answers has the operation word fields `o`, and the words that were taken. -/
def Op.Sound (o : Op) (p : Parser Instr) : Prop := Takes p o.Answers

section
variable {o : Op}

theorem sound_pure {i : Instr} (h : i.Has o 0 []) : o.Sound (pure i) := takes_pure h.answers

theorem sound_own {α : Type} {p : Parser α} {Q : α → Nat → Prop} {f : α → Instr} (hp : Takes p Q)
    (h : ∀ a n, Q a n → (f a).Has o n []) : o.Sound (do return f (← p)) :=
  takes_map hp fun a n q => (h a n q).answers

theorem sound_word {f : Word → Instr} (h : ∀ w, (f w).Has o 1 []) : o.Sound (do return f (← Parser.word)) :=
  sound_own takes_word fun w _ e => e ▸ h w

theorem sound_ea {sz : Size} {f : Ea → Instr} (h : ∀ ea, (f ea).Has (ea.op o.line o.r o.m) 0 [ea]) :
    o.Sound (do return f (← o.ea sz)) :=
  takes_map (takes_ea o.mode o.reg sz) fun ea n ⟨hn, hmode, hreg⟩ => by
    have fields : ea.op o.line o.r o.m = o := Op.mk_eq rfl rfl rfl hmode.symm hreg.symm
    have answers := (fields ▸ h ea : (f ea).Has o 0 [ea]).answers
    simpa [hn] using answers

theorem sound_own_ea {α : Type} {p : Parser α} {Q : α → Nat → Prop} {sz : Size} {f : α → Ea → Instr} (hp : Takes p Q)
    (h : ∀ a n ea, Q a n → (f a ea).Has (ea.op o.line o.r o.m) n [ea]) :
    o.Sound (do let a ← p; return f a (← o.ea sz)) :=
  takes_bind hp fun a n q => takes_map (takes_ea o.mode o.reg sz) fun ea m ⟨hm, hmode, hreg⟩ => by
    have fields : ea.op o.line o.r o.m = o := Op.mk_eq rfl rfl rfl hmode.symm hreg.symm
    simpa [hm] using (fields ▸ h a n ea q).answers

theorem sound_word_ea {sz : Size} {f : Word → Ea → Instr} (h : ∀ w ea, (f w ea).Has (ea.op o.line o.r o.m) 1 [ea]) :
    o.Sound (do let w ← Parser.word; return f w (← o.ea sz)) :=
  sound_own_ea takes_word fun w _ ea e => e ▸ h w ea

end

theorem sound_illegal {o : Op} : o.Sound Parser.illegal := takes_illegal

theorem sound_ite {o : Op} {c : Prop} [Decidable c] {p q : Parser Instr} (hp : c → o.Sound p) (hq : ¬c → o.Sound q) :
    o.Sound (if c then p else q) := takes_ite hp hq

/-! ### Readers with a size field -/

section
variable {o : Op} {dir : BitVec 1} (hm : o.m[2] = dir[0])
include hm

theorem sound_immEa {f : Imm → Ea → Instr}
    (h : ∀ v ea, (f v ea).Has (ea.op o.line o.r (v.size.opmode dir)) v.words.length [ea]) : o.Sound (o.immEa f) :=
  takes_bind (takes_size _) fun sz n ⟨hn, hsz⟩ => by
    subst hn
    simp only [Nat.zero_add]
    refine sound_own_ea (takes_imm sz) fun v n ea ⟨hn, hv⟩ => ?_
    rw [hn, ← Size.opmode_eq hm (hv ▸ hsz)]
    exact h v ea

theorem sound_eaToDn {f : Size → Ea → Reg → Instr}
    (h : ∀ sz ea, (f sz ea (Reg.ofBits o.r)).Has (ea.op o.line o.r (sz.opmode dir)) 0 [ea]) : o.Sound (o.eaToDn f) :=
  takes_bind (takes_size _) fun sz n ⟨hn, hsz⟩ => by
    subst hn
    simp only [Nat.zero_add]
    exact sound_ea fun ea => Size.opmode_eq hm hsz ▸ h sz ea

theorem sound_dnToEa {f : Size → Reg → Ea → Instr}
    (h : ∀ sz ea, (f sz (Reg.ofBits o.r) ea).Has (ea.op o.line o.r (sz.opmode dir)) 0 [ea]) : o.Sound (o.dnToEa f) :=
  takes_bind (takes_size _) fun sz n ⟨hn, hsz⟩ => by
    subst hn
    simp only [Nat.zero_add]
    exact sound_ea fun ea => Size.opmode_eq hm hsz ▸ h sz ea

/-- Two registers and a size: the forms of ADDX, SUBX and CMPM. -/
theorem sound_size {f : Size → Instr}
    (h : ∀ sz, (f sz).Has ⟨o.line, o.r, sz.opmode dir, o.mode, o.reg⟩ 0 []) :
    o.Sound (do return f (← Parser.size o.sizeBits)) :=
  sound_own (takes_size _) fun sz n ⟨hn, hsz⟩ => by
    have fields : (⟨o.line, o.r, sz.opmode dir, o.mode, o.reg⟩ : Op) = o :=
      Op.mk_eq rfl rfl (Size.opmode_eq hm hsz).symm rfl rfl
    exact hn ▸ fields ▸ h sz

end

/-! ### The lines -/

theorem sound_immCcrSrEa {o : Op} {ccr : Byte → Instr} {sr : Word → Instr} {f : Imm → Ea → Instr}
    (hccr : ∀ v, (ccr v).Has ⟨o.line, o.r, 0, 7, 4⟩ 1 []) (hsr : ∀ v, (sr v).Has ⟨o.line, o.r, 1, 7, 4⟩ 1 [])
    (hf : o.Sound (o.immEa f)) : o.Sound (o.immCcrSrEa ccr sr f) := by
  refine sound_ite (fun ⟨hmode, hreg⟩ => ?_) fun _ => hf
  obtain ⟨line, r, m, mode, reg⟩ := o
  subst hmode hreg
  cases m using bits3_cases with
  | b0 => exact sound_word fun w => hccr w.lowByte
  | b1 => exact sound_word hsr
  | b2 | b3 | b4 | b5 | b6 | b7 => exact sound_illegal

theorem sound_bitStatic {o : Op} {f : Byte → Ea → Instr} (h : ∀ v ea, (f v ea).Has (ea.op o.line o.r o.m) 1 [ea]) :
    o.Sound (o.bitStatic f) := sound_word_ea fun w ea => h w.lowByte ea

theorem sound_bitDynamic {o : Op} {f : Reg → Ea → Instr} {movep : Word → Instr}
    (h : ∀ ea, (f (Reg.ofBits o.r) ea).Has (ea.op o.line o.r o.m) 0 [ea])
    (hp : ∀ d, (movep d).Has ⟨o.line, o.r, o.m, 1, o.reg⟩ 1 []) : o.Sound (o.bitDynamic f movep) :=
  sound_ite (fun h1 => sound_word fun d => Op.mk_eq rfl rfl rfl h1 rfl ▸ hp d) fun _ => sound_ea h

theorem sound_line0 (r m mode reg : BitVec 3) : Op.Sound ⟨0, r, m, mode, reg⟩ (Op.line0 ⟨0, r, m, mode, reg⟩) := by
  cases m using bits3_cases with
  | b4 | b5 | b6 | b7 => exact sound_bitDynamic (fun _ => ⟨rfl, rfl, rfl⟩) fun _ => ⟨rfl, rfl, rfl⟩
  | b0 | b1 | b2 | b3 =>
    cases r using bits3_cases with
    | b0 =>
      exact sound_immCcrSrEa (ccr := .oriToCcr) (sr := .oriToSr) (fun _ => ⟨rfl, rfl, rfl⟩) (fun _ => ⟨rfl, rfl, rfl⟩)
        (sound_immEa (dir := 0) (by simp) fun _ _ => ⟨rfl, rfl, rfl⟩)
    | b1 =>
      exact sound_immCcrSrEa (ccr := .andiToCcr) (sr := .andiToSr) (fun _ => ⟨rfl, rfl, rfl⟩) (fun _ => ⟨rfl, rfl, rfl⟩)
        (sound_immEa (dir := 0) (by simp) fun _ _ => ⟨rfl, rfl, rfl⟩)
    | b5 =>
      exact sound_immCcrSrEa (ccr := .eoriToCcr) (sr := .eoriToSr) (fun _ => ⟨rfl, rfl, rfl⟩) (fun _ => ⟨rfl, rfl, rfl⟩)
        (sound_immEa (dir := 0) (by simp) fun _ _ => ⟨rfl, rfl, rfl⟩)
    | b2 | b3 | b6 => exact sound_immEa (dir := 0) (by simp) fun _ _ => ⟨rfl, rfl, rfl⟩
    | b4 => exact sound_bitStatic fun _ _ => ⟨rfl, rfl, rfl⟩
    | b7 => exact sound_illegal

theorem sound_move {o : Op} {sz : Size} {f : Ea → Ea → Instr} {movea : Ea → Parser Instr}
    (h : ∀ src dst, (f src dst).Has (src.op o.line dst.reg dst.mode) 0 [src, dst])
    (hmovea : o.m = 1 → o.Sound (do let src ← o.ea sz; movea src)) : o.Sound (o.move sz f movea) := by
  by_cases h1 : o.m = 1
  · have reader : o.move sz f movea = (do let src ← o.ea sz; movea src) := by simp only [Op.move, if_pos h1]
    exact reader ▸ hmovea h1
  · have reader : o.move sz f movea = (do let src ← o.ea sz; return f src (← Parser.ea o.m o.r sz)) := by
      simp only [Op.move, if_neg h1]
    rw [reader]
    refine takes_bind (takes_ea _ _ sz) fun src n ⟨hn, hmode, hreg⟩ => takes_map (takes_ea _ _ sz)
      fun dst k ⟨hk, hm, hr⟩ => ?_
    have fields : src.op o.line dst.reg dst.mode = o := Op.mk_eq rfl hr.symm hm.symm hmode.symm hreg.symm
    have answers := (fields ▸ h src dst : (f src dst).Has o 0 [src, dst]).answers
    simpa [hn, hk] using answers

theorem sound_line1 (r m mode reg : BitVec 3) : Op.Sound ⟨1, r, m, mode, reg⟩ (Op.instr ⟨1, r, m, mode, reg⟩) :=
  sound_move (fun _ _ => ⟨rfl, rfl, rfl⟩) fun _ => takes_bind (takes_ea _ _ _) fun _ _ _ => takes_illegal

theorem sound_line2 (r m mode reg : BitVec 3) : Op.Sound ⟨2, r, m, mode, reg⟩ (Op.instr ⟨2, r, m, mode, reg⟩) := by
  refine sound_move (fun _ _ => ⟨rfl, rfl, rfl⟩) fun h1 => sound_ea fun ea => ?_
  obtain rfl : m = 1 := h1
  exact ⟨rfl, rfl, rfl⟩

theorem sound_line3 (r m mode reg : BitVec 3) : Op.Sound ⟨3, r, m, mode, reg⟩ (Op.instr ⟨3, r, m, mode, reg⟩) := by
  refine sound_move (fun _ _ => ⟨rfl, rfl, rfl⟩) fun h1 => sound_ea fun ea => ?_
  obtain rfl : m = 1 := h1
  exact ⟨rfl, rfl, rfl⟩

theorem sound_movem {o : Op} {sz : WideSize} (hm : o.m = sz.movemOpmode) {f : WideSize → Word → Ea → Instr}
    (h : ∀ mask ea, (f sz mask ea).Has (ea.op o.line o.r o.m) 1 [ea]) : o.Sound (o.movem f) := by
  rw [Op.movem_eq hm]
  exact sound_word_ea h

theorem sound_line4r4 (m mode reg : BitVec 3) : Op.Sound ⟨4, 4, m, mode, reg⟩ (Op.line4r4 ⟨4, 4, m, mode, reg⟩) := by
  cases m using bits3_cases with
  | b0 => exact sound_ea fun _ => ⟨rfl, rfl, rfl⟩
  | b1 =>
    refine sound_ite (fun h0 => ?_) fun _ => sound_ea fun _ => ⟨rfl, rfl, rfl⟩
    obtain rfl : mode = 0 := h0
    exact sound_pure ⟨rfl, rfl, rfl⟩
  | b2 =>
    refine sound_ite (fun h0 => ?_) fun _ => sound_movem (sz := .w) rfl fun _ _ => ⟨rfl, rfl, rfl⟩
    obtain rfl : mode = 0 := h0
    exact sound_pure ⟨rfl, rfl, rfl⟩
  | b3 =>
    refine sound_ite (fun h0 => ?_) fun _ => sound_movem (sz := .l) rfl fun _ _ => ⟨rfl, rfl, rfl⟩
    obtain rfl : mode = 0 := h0
    exact sound_pure ⟨rfl, rfl, rfl⟩
  | b4 | b5 | b6 | b7 => exact sound_illegal

theorem sound_line4r7 (mode reg : BitVec 3) : Op.Sound ⟨4, 7, 1, mode, reg⟩ (Op.line4r7 ⟨4, 7, 1, mode, reg⟩) := by
  cases mode using bits3_cases with
  | b0 | b1 => cases reg using bits3_cases <;> exact sound_pure ⟨rfl, rfl, rfl⟩
  | b2 => exact sound_word fun _ => ⟨rfl, rfl, rfl⟩
  | b3 | b4 | b5 => exact sound_pure ⟨rfl, rfl, rfl⟩
  | b6 =>
    cases reg using bits3_cases with
    | b0 | b1 | b3 | b5 | b6 | b7 => exact sound_pure ⟨rfl, rfl, rfl⟩
    | b2 => exact sound_word fun _ => ⟨rfl, rfl, rfl⟩
    | b4 => exact sound_illegal
  | b7 => exact sound_illegal

/-- `111 010` to `111 100` in place of an operand of TAS are the illegal instructions (30_encoding.md R125, R140). -/
theorem sound_illegalWords {m mode reg : BitVec 3} {q : Parser Instr} (hq : Op.Sound ⟨4, 5, m, mode, reg⟩ q) :
    Op.Sound ⟨4, 5, m, mode, reg⟩
      (if m = 3 ∧ mode = 7 ∧ reg = 2 then return .illegal4AFA
      else if m = 3 ∧ mode = 7 ∧ reg = 3 then return .illegal4AFB
      else if m = 3 ∧ mode = 7 ∧ reg = 4 then return .illegal
      else q) := by
  refine sound_ite ?_ fun _ => sound_ite ?_ fun _ => sound_ite ?_ fun _ => hq <;> rintro ⟨rfl, rfl, rfl⟩ <;>
    exact sound_pure ⟨rfl, rfl, rfl⟩

theorem sound_line4 (r m mode reg : BitVec 3) : Op.Sound ⟨4, r, m, mode, reg⟩ (Op.line4 ⟨4, r, m, mode, reg⟩) := by
  cases m using bits3_cases with
  | b0 =>
    cases r using bits3_cases with
    | b0 | b1 | b2 | b3 => exact sound_ea fun _ => ⟨rfl, rfl, rfl⟩
    | b4 => exact sound_line4r4 0 mode reg
    | b5 => exact sound_illegalWords (sound_ea (f := .tst .b) fun _ => ⟨rfl, rfl, rfl⟩)
    | b6 | b7 => exact sound_illegal
  | b1 =>
    cases r using bits3_cases with
    | b0 | b1 | b2 | b3 => exact sound_ea fun _ => ⟨rfl, rfl, rfl⟩
    | b4 => exact sound_line4r4 1 mode reg
    | b5 => exact sound_illegalWords (sound_ea (f := .tst .w) fun _ => ⟨rfl, rfl, rfl⟩)
    | b6 => exact sound_illegal
    | b7 => exact sound_line4r7 mode reg
  | b2 =>
    cases r using bits3_cases with
    | b0 | b1 | b2 | b3 | b7 => exact sound_ea fun _ => ⟨rfl, rfl, rfl⟩
    | b4 => exact sound_line4r4 2 mode reg
    | b5 => exact sound_illegalWords (sound_ea (f := .tst .l) fun _ => ⟨rfl, rfl, rfl⟩)
    | b6 => exact sound_movem (sz := .w) rfl fun _ _ => ⟨rfl, rfl, rfl⟩
  | b3 =>
    cases r using bits3_cases with
    | b0 | b2 | b3 | b7 => exact sound_ea fun _ => ⟨rfl, rfl, rfl⟩
    | b1 => exact sound_illegal
    | b4 => exact sound_line4r4 3 mode reg
    | b5 => exact sound_illegalWords (sound_ea (f := .tas) fun _ => ⟨rfl, rfl, rfl⟩)
    | b6 => exact sound_movem (sz := .l) rfl fun _ _ => ⟨rfl, rfl, rfl⟩
  | b4 | b5 => exact sound_illegal
  | b6 | b7 => exact sound_ea fun _ => ⟨rfl, rfl, rfl⟩

theorem sound_line5 (r m mode reg : BitVec 3) : Op.Sound ⟨5, r, m, mode, reg⟩ (Op.line5 ⟨5, r, m, mode, reg⟩) := by
  unfold Op.line5
  split
  · next sz hsz =>
    refine sound_ea fun ea => ?_
    dsimp only
    have opmode := fun dir h =>
      Size.opmode_eq (o := ⟨5, r, m, mode, reg⟩) (dir := dir) h (Size.toBits_of_ofBits hsz)
    split
    · next bit => exact ⟨congrArg (ea.op 5 r) (opmode 1 (by simpa using bit)), rfl, rfl⟩
    · next bit => exact ⟨congrArg (ea.op 5 r) (opmode 0 (by simpa using bit)), rfl, rfl⟩
  · next hsz =>
    have fields := fun mode' h => Op.condition_condBits (o := ⟨5, r, m, mode', reg⟩) rfl h
    have hs : Op.sizeBits ⟨5, r, m, mode, reg⟩ = 3 := Size.eq_three_of_ofBits hsz
    refine sound_ite (fun h1 => ?_) fun _ => sound_ea fun ea => ?_
    · obtain rfl : mode = 1 := h1
      exact sound_word fun _ => ⟨fields 1 hs, rfl, rfl⟩
    · exact ⟨Op.condition_condBits (o := ea.op 5 r m) rfl hs, rfl, rfl⟩

/-- A branch has the condition and the displacement field of the word it was read from (30_encoding.md R127). -/
theorem takes_branchDisp (o : Op) :
    Takes o.branchDisp fun d n => n = d.words.length ∧
      ∀ c : Cond, o.line = 6 → c.toBits = o.condBits → Op.branch c d = o := by
  have fields := Op.fields_of_branch o
  refine takes_ite (fun h0 => takes_map takes_word fun _ _ h => ⟨h, fun c hl hc => ?_⟩)
    fun _ => takes_pure ⟨rfl, fun c hl hc => ?_⟩
  · rw [h0, hl, ← hc] at fields
    exact fields
  · rw [hl, ← hc] at fields
    exact fields

theorem sound_line6 (r m mode reg : BitVec 3) : Op.Sound ⟨6, r, m, mode, reg⟩ (Op.line6 ⟨6, r, m, mode, reg⟩) :=
  sound_own (takes_branchDisp _) fun d n ⟨hn, branch⟩ => by
    have fields := branch _ rfl (Cond.toBits_ofBits _)
    generalize Cond.ofBits (Op.condBits _) = c at fields ⊢
    cases c <;> exact ⟨fields, hn.symm, rfl⟩

theorem sound_line7 (r m mode reg : BitVec 3) : Op.Sound ⟨7, r, m, mode, reg⟩ (Op.line7 ⟨7, r, m, mode, reg⟩) :=
  sound_ite (fun _ => sound_illegal) fun bit => sound_pure ⟨by
    refine Op.mk_eq rfl rfl ?_ ?_ ?_ <;> simp only [Op.lowByte] at bit ⊢ <;> ext k hk <;> grind, rfl, rfl⟩

/-- Modes 000 and 001 are the register and memory forms of ADDX and SUBX (30_encoding.md R130, R134). -/
theorem sound_extended {o : Op} (hm : o.m[2] = (1 : BitVec 1)[0]) {reg mem : Size → Reg → Reg → Instr}
    {f : Size → Reg → Ea → Instr}
    (hreg : ∀ sz, (reg sz (Reg.ofBits o.reg) (Reg.ofBits o.r)).Has ⟨o.line, o.r, sz.opmode 1, 0, o.reg⟩ 0 [])
    (hmem : ∀ sz, (mem sz (Reg.ofBits o.reg) (Reg.ofBits o.r)).Has ⟨o.line, o.r, sz.opmode 1, 1, o.reg⟩ 0 [])
    (hf : ∀ sz ea, (f sz (Reg.ofBits o.r) ea).Has (ea.op o.line o.r (sz.opmode 1)) 0 [ea]) :
    o.Sound (o.extended reg mem f) := by
  unfold Op.extended
  split
  · next h0 => exact sound_size hm fun sz => h0 ▸ hreg sz
  · next h1 => exact sound_size hm fun sz => h1 ▸ hmem sz
  · exact sound_dnToEa hm hf

theorem sound_line8 (r m mode reg : BitVec 3) : Op.Sound ⟨8, r, m, mode, reg⟩ (Op.line8 ⟨8, r, m, mode, reg⟩) := by
  cases m using bits3_cases with
  | b0 | b1 | b2 => exact sound_eaToDn (dir := 0) (by simp) fun _ _ => ⟨rfl, rfl, rfl⟩
  | b3 | b7 => exact sound_ea fun _ => ⟨rfl, rfl, rfl⟩
  | b4 =>
    cases mode using bits3_cases with
    | b0 | b1 => exact sound_pure ⟨rfl, rfl, rfl⟩
    | b2 | b3 | b4 | b5 | b6 | b7 => exact sound_dnToEa (dir := 1) (by simp) fun _ _ => ⟨rfl, rfl, rfl⟩
  | b5 | b6 => exact sound_dnToEa (dir := 1) (by simp) fun _ _ => ⟨rfl, rfl, rfl⟩

theorem sound_line9 (r m mode reg : BitVec 3) : Op.Sound ⟨9, r, m, mode, reg⟩ (Op.line9 ⟨9, r, m, mode, reg⟩) := by
  cases m using bits3_cases with
  | b0 | b1 | b2 => exact sound_eaToDn (dir := 0) (by simp) fun _ _ => ⟨rfl, rfl, rfl⟩
  | b3 | b7 => exact sound_ea fun _ => ⟨rfl, rfl, rfl⟩
  | b4 | b5 | b6 =>
    exact sound_extended (by simp) (fun _ => ⟨rfl, rfl, rfl⟩) (fun _ => ⟨rfl, rfl, rfl⟩) fun _ _ => ⟨rfl, rfl, rfl⟩

theorem sound_lineB (r m mode reg : BitVec 3) : Op.Sound ⟨11, r, m, mode, reg⟩ (Op.lineB ⟨11, r, m, mode, reg⟩) := by
  cases m using bits3_cases with
  | b0 | b1 | b2 => exact sound_eaToDn (dir := 0) (by simp) fun _ _ => ⟨rfl, rfl, rfl⟩
  | b3 | b7 => exact sound_ea fun _ => ⟨rfl, rfl, rfl⟩
  | b4 | b5 | b6 =>
    refine sound_ite (fun h1 => ?_) fun _ => sound_dnToEa (dir := 1) (by simp) fun _ _ => ⟨rfl, rfl, rfl⟩
    obtain rfl : mode = 1 := h1
    exact sound_size (dir := 1) (by simp) fun _ => ⟨rfl, rfl, rfl⟩

theorem sound_lineC (r m mode reg : BitVec 3) : Op.Sound ⟨12, r, m, mode, reg⟩ (Op.lineC ⟨12, r, m, mode, reg⟩) := by
  cases m using bits3_cases with
  | b0 | b1 | b2 => exact sound_eaToDn (dir := 0) (by simp) fun _ _ => ⟨rfl, rfl, rfl⟩
  | b3 | b7 => exact sound_ea fun _ => ⟨rfl, rfl, rfl⟩
  | b4 | b5 =>
    cases mode using bits3_cases with
    | b0 | b1 => exact sound_pure ⟨rfl, rfl, rfl⟩
    | b2 | b3 | b4 | b5 | b6 | b7 => exact sound_dnToEa (dir := 1) (by simp) fun _ _ => ⟨rfl, rfl, rfl⟩
  | b6 =>
    cases mode using bits3_cases with
    | b0 => exact sound_illegal
    | b1 => exact sound_pure ⟨rfl, rfl, rfl⟩
    | b2 | b3 | b4 | b5 | b6 | b7 => exact sound_dnToEa (dir := 1) (by simp) fun _ _ => ⟨rfl, rfl, rfl⟩

theorem sound_lineD (r m mode reg : BitVec 3) : Op.Sound ⟨13, r, m, mode, reg⟩ (Op.lineD ⟨13, r, m, mode, reg⟩) := by
  cases m using bits3_cases with
  | b0 | b1 | b2 => exact sound_eaToDn (dir := 0) (by simp) fun _ _ => ⟨rfl, rfl, rfl⟩
  | b3 | b7 => exact sound_ea fun _ => ⟨rfl, rfl, rfl⟩
  | b4 | b5 | b6 =>
    exact sound_extended (by simp) (fun _ => ⟨rfl, rfl, rfl⟩) (fun _ => ⟨rfl, rfl, rfl⟩) fun _ _ => ⟨rfl, rfl, rfl⟩

/-- The register forms: bits 5..3 and bit 8 select the instruction (30_encoding.md R135). -/
theorem sound_shiftReg {o : Op} {sz : Size} {dir : BitVec 1} (hl : o.line = 14) (hm : o.m = sz.opmode dir) :
    o.Sound (pure (o.shiftReg sz)) := by
  obtain ⟨line, r, m, mode, reg⟩ := o
  subst hl hm
  obtain rfl | rfl := BitVec.eq_zero_or_eq_one dir <;> cases mode using bits3_cases <;>
    simp only [Op.shiftReg, Size.getLsbD_opmode] <;> exact sound_pure ⟨rfl, rfl, rfl⟩

/-- The memory forms: bits 11..9 and bit 8 select the instruction (30_encoding.md R135). -/
theorem sound_shiftMem {r m mode reg : BitVec 3} (hs : Op.sizeBits ⟨14, r, m, mode, reg⟩ = 3) :
    Op.Sound ⟨14, r, m, mode, reg⟩ (Op.shiftMem ⟨14, r, m, mode, reg⟩) := by
  have hm : m = 3 ∧ m.getLsbD 2 = false ∨ m = 7 ∧ m.getLsbD 2 = true := by
    revert hs
    cases m using bits3_cases <;> simp [Op.sizeBits]
  refine takes_bind (takes_ea mode reg .w) fun ea n ⟨hn, hmode, hreg⟩ => ?_
  have answer : ∀ {i : Instr}, i.Has (ea.op 14 r m) 0 [ea] →
      Takes (pure i) fun i k => Op.Answers ⟨14, r, m, mode, reg⟩ i (n + k) := fun h => by
    subst hmode hreg
    exact takes_pure (by simpa [hn, Ea.op] using h.answers)
  dsimp only
  obtain ⟨rfl, bit⟩ | ⟨rfl, bit⟩ := hm <;> rw [bit] <;> cases r using bits3_cases <;>
    first | exact answer ⟨rfl, rfl, rfl⟩ | exact takes_illegal

theorem sound_lineE (r m mode reg : BitVec 3) : Op.Sound ⟨14, r, m, mode, reg⟩ (Op.lineE ⟨14, r, m, mode, reg⟩) := by
  unfold Op.lineE
  split
  · next sz hsz =>
    exact sound_shiftReg rfl (Size.opmode_eq (dir := m.extractLsb' 2 1) (by simp) (Size.toBits_of_ofBits hsz)).symm
  · next hsz => exact sound_shiftMem (Size.eq_three_of_ofBits hsz)

/-! ### Every operation word -/

theorem sound_instr (o : Op) : o.Sound o.instr := by
  obtain ⟨line, r, m, mode, reg⟩ := o
  cases line using bits4_cases with
  | b0 => exact sound_line0 r m mode reg
  | b1 => exact sound_line1 r m mode reg
  | b2 => exact sound_line2 r m mode reg
  | b3 => exact sound_line3 r m mode reg
  | b4 => exact sound_line4 r m mode reg
  | b5 => exact sound_line5 r m mode reg
  | b6 => exact sound_line6 r m mode reg
  | b7 => exact sound_line7 r m mode reg
  | b8 => exact sound_line8 r m mode reg
  | b9 => exact sound_line9 r m mode reg
  | b10 => exact sound_pure ⟨Op.ofLow12_low12 ⟨10, r, m, mode, reg⟩, rfl, rfl⟩
  | b11 => exact sound_lineB r m mode reg
  | b12 => exact sound_lineC r m mode reg
  | b13 => exact sound_lineD r m mode reg
  | b14 => exact sound_lineE r m mode reg
  | b15 => exact sound_pure ⟨Op.ofLow12_low12 ⟨15, r, m, mode, reg⟩, rfl, rfl⟩

/-- Two operands, or one beside two words of its own, are the most an instruction has (30_encoding.md R101). -/
theorem Instr.ownWords_eas_le (i : Instr) : i.ownWords.length + 2 * i.eas.length ≤ 4 := by
  cases i with
  | ori v | andi v | eori v | subi v | addi v | cmpi v =>
    have := Laws.EncodeLength.imm_words_le v
    simp only [Instr.ownWords, Instr.eas, List.length_singleton]
    omega
  | bra d | bsr d | bcc _ d =>
    have := Laws.EncodeLength.branch_words_le d
    simp only [Instr.ownWords, Instr.eas, List.length_nil]
    omega
  | _ => simp [Instr.ownWords, Instr.eas, byteWords]

theorem Instr.length_encode_le (i : Instr) : (encode i).length ≤ 5 := by
  have operands : (i.eas.map fun ea => ea.words.length).sum ≤ i.eas.length * 2 := by
    simpa using List.sum_le_card_nsmul (i.eas.map fun ea => ea.words.length) 2
      (by simpa using fun ea _ => Laws.EncodeLength.ea_words_le ea)
  have own := i.ownWords_eas_le
  exact (Laws.EncodeLength.statement_of (by omega)).2

theorem instr_of_decode {w : Word} {ws rest : List Word} {i : Instr} (h : decode (w :: ws) = .ok (i, rest)) :
    (Op.ofWord w).instr ws = .ok (i, rest) ∧ i.wellFormed = true := by
  simp only [decode] at h
  split at h
  · cases h
  · split at h
    · cases h
      exact ⟨‹_›, ‹_›⟩
    · cases h

/-- Settles O2: the reader of an operation word answers instructions of that word. -/
theorem decodedOperationWord : Obligations.DecodedOperationWord := by
  intro ws i rest h
  cases ws with
  | nil => cases h
  | cons w ws =>
    obtain ⟨read, hw⟩ := instr_of_decode h
    obtain ⟨n, hn, hrest, hop, hwords⟩ := sound_instr (Op.ofWord w) ws i rest read
    refine ⟨hw, ?_, ?_, i.length_encode_le, ?_⟩
    · rw [hop, Op.toWord_ofWord, List.head?_cons]
    · rw [hrest, encode_eq, List.length_cons, List.drop_succ_cons, hwords]
    · rw [encode_eq, List.length_cons, hwords, List.length_cons]
      omega

end Sys2Proof
end

section
/-! EXG, LINK, UNLK and MOVE: what each leaves of the registers and of memory (40_data_movement.md R152, R154, R155,
R167). -/

namespace Sys2Proof.Machine

/-! ### Registers among the sixteen -/

theorem xreg_dataX (s : State) (n : Reg) : s.xreg (dataX n) = s.dreg n := by
  simp [State.xreg, dataX]

theorem setXreg_dataX (s : State) (n : Reg) (v : Long) : s.setXreg (dataX n) v = s.setDreg n v := by
  simp [State.setXreg, dataX]

theorem dataX_injective {m n : Reg} (h : dataX m = dataX n) : m = n :=
  Fin.ext (congrArg (fun x : Fin 16 => x.val) h)

theorem addressX_injective {m n : Reg} (h : addressX m = addressX n) : m = n :=
  Fin.ext (Nat.add_right_cancel (congrArg (fun x : Fin 16 => x.val) h))

theorem dataX_ne_addressX (m n : Reg) : dataX m ≠ addressX n := fun h => by
  have : m.val = n.val + 8 := congrArg Fin.val h
  omega

/-- A write of an address register changes no field but those that hold the address registers. -/
theorem setAreg_registers (s : State) (n : Reg) (v : Long) :
    ∃ a usp ssp, s.setAreg n v = { s with a := a, usp := usp, ssp := ssp } := by
  unfold State.setAreg
  split
  · exact ⟨_, s.usp, s.ssp, rfl⟩
  · split
    · exact ⟨s.a, s.usp, _, rfl⟩
    · exact ⟨s.a, _, s.ssp, rfl⟩

/-- The stack pointer that S does not select is as it was (10_state.md R27). -/
theorem Within.unselectedStack {s t : State} (h : Within s t) : if s.sr.s then t.usp = s.usp else t.ssp = s.ssp := by
  split
  · next hs => exact h.usp hs
  · next hs => exact h.ssp (Bool.eq_false_of_not_eq_true hs)

/-! ### EXG -/

/-- The state after two registers have been exchanged (40_data_movement.md R152). -/
def State.exchanged (s : State) (x y : Fin 16) : State := (s.setXreg x (s.xreg y)).setXreg y (s.xreg x)

theorem exchange_eq (s : State) (x y : Fin 16) : exchange x y s = .ok () (s.exchanged x y) := rfl

section
variable (s : State) (x y : Fin 16)

theorem exchanged_xreg_right : (s.exchanged x y).xreg y = s.xreg x := xreg_setXreg_same _ _ _

theorem exchanged_xreg_left : (s.exchanged x y).xreg x = s.xreg y := by
  by_cases h : x = y
  · subst h
    exact exchanged_xreg_right s x x
  · rw [State.exchanged, xreg_setXreg_of_ne _ h, xreg_setXreg_same]

theorem exchanged_xreg_of_ne {z : Fin 16} (hx : z ≠ x) (hy : z ≠ y) : (s.exchanged x y).xreg z = s.xreg z := by
  rw [State.exchanged, xreg_setXreg_of_ne _ hy, xreg_setXreg_of_ne _ hx]

theorem within_exchanged : Within s (s.exchanged x y) := (within_setXreg _ _ _).trans (within_setXreg _ _ _)

end

theorem exchanged_addressX (s : State) (x y : Reg) :
    s.exchanged (addressX x) (addressX y) = (s.setAreg x (s.areg y)).setAreg y (s.areg x) := by
  simp only [State.exchanged, setXreg_addressX, xreg_addressX]

theorem exchanged_dataX_addressX (s : State) (x y : Reg) :
    s.exchanged (dataX x) (addressX y) = (s.setDreg x (s.areg y)).setAreg y (s.dreg x) := by
  simp only [State.exchanged, setXreg_addressX, setXreg_dataX, xreg_addressX, xreg_dataX]

/-- Settles O41: each form exchanges two of the sixteen registers. -/
theorem exchangeRegisters : Obligations.ExchangeRegisters := by
  intro x y s
  refine ⟨nextWith_completed (i := .exgDD x y) rfl rfl ⟨_, exchange_eq s (dataX x) (dataX y), ?_⟩,
    nextWith_completed (i := .exgAA x y) rfl rfl ⟨_, exchange_eq s (addressX x) (addressX y), ?_⟩,
    nextWith_completed (i := .exgDA x y) rfl rfl ⟨_, exchange_eq s (dataX x) (addressX y), ?_⟩⟩
  · simp only [← xreg_dataX]
    refine ⟨exchanged_xreg_left s _ _, exchanged_xreg_right s _ _, fun m hx hy => ?_, ?_⟩
    · exact exchanged_xreg_of_ne s _ _ (hx ∘ dataX_injective) (hy ∘ dataX_injective)
    · simp only [State.exchanged, setXreg_dataX]
      rfl
  · simp only [← xreg_addressX]
    refine ⟨exchanged_xreg_left s _ _, exchanged_xreg_right s _ _, fun m hx hy => ?_,
      (within_exchanged s _ _).unselectedStack, ?_⟩
    · exact exchanged_xreg_of_ne s _ _ (hx ∘ addressX_injective) (hy ∘ addressX_injective)
    · obtain ⟨_, _, _, first⟩ := setAreg_registers s x (s.areg y)
      obtain ⟨_, _, _, second⟩ := setAreg_registers (s.setAreg x (s.areg y)) y (s.areg x)
      rw [exchanged_addressX, second, first]
  · have kept := within_exchanged s (dataX x) (addressX y)
    simp only [State.sameDataBut, State.sameAddressBut, ← xreg_addressX, ← xreg_dataX]
    refine ⟨exchanged_xreg_left s _ _, exchanged_xreg_right s _ _, fun m hm => ?_, ⟨fun m hm => ?_, kept.usp, kept.ssp⟩,
      ?_⟩
    · exact exchanged_xreg_of_ne s _ _ (hm ∘ dataX_injective) (dataX_ne_addressX m y)
    · exact exchanged_xreg_of_ne s _ _ (dataX_ne_addressX x m).symm (hm ∘ addressX_injective)
    · obtain ⟨_, _, _, second⟩ := setAreg_registers (s.setDreg x (s.areg y)) y (s.dreg x)
      rw [exchanged_dataX_addressX, second]
      rfl

/-! ### What data movement leaves alone -/

/-- The status register, the internal state, the platform's inputs and the free values are as they were. -/
structure SystemKept (s t : State) : Prop where
  sr : t.sr = s.sr
  system : s.sameSystem t
  draws : t.draws = s.draws

theorem systemKept_refl (s : State) : SystemKept s s := ⟨rfl, ⟨rfl, rfl, rfl, rfl, rfl, rfl, rfl, rfl, rfl, rfl⟩, rfl⟩

theorem SystemKept.trans {s t u : State} (h : SystemKept s t) (k : SystemKept t u) : SystemKept s u where
  sr := k.sr.trans h.sr
  system := by simpa only [State.sameSystem, h.system] using k.system
  draws := k.draws.trans h.draws

theorem SystemKept.plain {s t : State} (h : SystemKept s t) (hp : s.platform = .plain) : t.platform = .plain := by
  obtain ⟨-, -, -, -, -, -, -, -, platform, -⟩ := h.system
  exact platform.trans hp

theorem systemKept_fetched (s : State) (n : Nat) : SystemKept s (s.fetched n) := by
  constructor <;> simp [State.sameSystem]

theorem systemKept_afterRead (s : State) (sz : Size) (fc : BitVec 3) (a : Long) :
    SystemKept s (s.afterRead sz fc a) := by
  constructor <;> simp [State.sameSystem]

theorem systemKept_afterWrite (s : State) (sz : Size) (fc : BitVec 3) (a : Long) (v : BitVec sz.bits) (lf : Bool) :
    SystemKept s (s.afterWrite sz fc a v lf) := by
  constructor <;> simp [State.sameSystem]

theorem systemKept_setDreg (s : State) (n : Reg) (v : Long) : SystemKept s (s.setDreg n v) := by
  constructor <;> simp [State.sameSystem]

theorem systemKept_setAreg (s : State) (n : Reg) (v : Long) : SystemKept s (s.setAreg n v) := by
  constructor <;> simp [State.sameSystem]

theorem within_afterRead (s : State) (sz : Size) (fc : BitVec 3) (a : Long) : Within s (s.afterRead sz fc a) :=
  within_of_eq (afterRead_sr ..) (afterRead_usp ..) (afterRead_ssp ..) (afterRead_xgroup ..) (afterRead_platform ..)

theorem within_afterWrite (s : State) (sz : Size) (fc : BitVec 3) (a : Long) (v : BitVec sz.bits) (lf : Bool) :
    Within s (s.afterWrite sz fc a v lf) :=
  within_of_eq (afterWrite_sr ..) (afterWrite_usp ..) (afterWrite_ssp ..) (afterWrite_xgroup ..)
    (afterWrite_platform ..)

/-! ### LINK and UNLK -/

/-- The state after the lines of LINK that follow the fetch of its displacement (40_data_movement.md R154). -/
def State.linked (s : State) (an : Reg) (d : Word) : State :=
  let sp := s.areg 7 - 4
  let pushed := (s.setAreg 7 sp).afterWrite .l (s.fc false) sp ((s.setAreg 7 sp).areg an) false
  (pushed.setAreg an sp).setAreg 7 (sp + d.signExtend 32)

theorem linkFrame_ready {s : State} (h : s.ready) (he : isEven (s.areg 7) = true) (an : Reg) (d : Word) :
    linkFrame an d s = .ok () ((s.fetched 1).linked an d) := by
  have aligned : isAligned .l ((s.fetched 1).areg 7 - 4) = true := by
    rw [fetched_areg]
    exact isAligned_of_isEven (isEven_sub_even he (by decide)) _
  have sp : ∀ (t : State) (v : Long), t.areg 7 = v → (t.setAreg an v).areg 7 = v := fun t v ht => by
    by_cases hn : 7 = an
    · subst hn
      exact areg_setAreg_same _ _ _
    · rw [areg_setAreg_of_ne _ hn, ht]
  simp only [linkFrame, bind_apply, leavingOpen_ok (fetchWords_ready h 1), get_apply, modify_apply]
  rw [memWrite_quiet (by simpa using h.1) aligned]
  simp only [afterWrite_areg, areg_setAreg_same, State.linked, State.fc, setAreg_sr, sp]

section
variable (s : State) (an : Reg) (d : Word)

theorem linked_areg_seven : (s.linked an d).areg 7 = s.areg 7 - 4 + d.signExtend 32 := areg_setAreg_same _ _ _

theorem linked_areg_self (h : an ≠ 7) : (s.linked an d).areg an = s.areg 7 - 4 := by
  rw [State.linked, areg_setAreg_of_ne _ h, areg_setAreg_same]

theorem linked_areg_of_ne {m : Reg} (hn : m ≠ an) (h7 : m ≠ 7) : (s.linked an d).areg m = s.areg m := by
  rw [State.linked, areg_setAreg_of_ne _ h7, areg_setAreg_of_ne _ hn, afterWrite_areg, areg_setAreg_of_ne _ h7]

theorem linked_d : (s.linked an d).d = s.d := by simp [State.linked]

theorem linked_pc : (s.linked an d).pc = s.pc := by simp [State.linked]

theorem linked_longAt : (s.linked an d).longAt (s.areg 7 - 4) = if an = 7 then s.areg 7 - 4 else s.areg an := by
  have written : (s.linked an d).longAt (s.areg 7 - 4) = (s.setAreg 7 (s.areg 7 - 4)).areg an := by
    rw [State.linked, longAt_congr (setAreg_mem _ _ _), longAt_congr (setAreg_mem _ _ _)]
    exact readAt_afterWrite_same _ .l _ _ _ _
  rw [written]
  split
  · next h => rw [h, areg_setAreg_same]
  · next h => exact areg_setAreg_of_ne s h _

theorem linked_sameMemoryOutside : s.sameMemoryOutside (s.linked an d) (bytesFrom (s.areg 7 - 4) 4) := fun x hx => by
  rw [State.linked, setAreg_mem, setAreg_mem, get_afterWrite_of_notMem hx, setAreg_mem]

theorem within_linked : Within s (s.linked an d) :=
  (((within_setAreg s _ _).trans (within_afterWrite _ .l _ _ _ _)).trans (within_setAreg _ _ _)).trans
    (within_setAreg _ _ _)

theorem systemKept_linked : SystemKept s (s.linked an d) :=
  (((systemKept_setAreg s _ _).trans (systemKept_afterWrite _ .l _ _ _ _)).trans (systemKept_setAreg _ _ _)).trans
    (systemKept_setAreg _ _ _)

end

/-- The state after UNLK (40_data_movement.md R167). -/
def State.unlinked (s : State) (an : Reg) : State :=
  let fp := s.areg an
  let popped := ((s.setAreg 7 fp).afterRead .l (s.fc false) fp).setAreg 7 (fp + 4)
  popped.setAreg an (s.longAt fp)

theorem unlinkFrame_ready {s : State} (h : s.platform = .plain) {an : Reg} (he : isEven (s.areg an) = true) :
    unlinkFrame an s = .ok () (s.unlinked an) := by
  simp only [unlinkFrame, bind_apply, get_apply, modify_apply, areg_setAreg_same]
  rw [memRead_quiet (by simpa using h) (isAligned_of_isEven he _), readAt_congr (setAreg_mem _ _ _)]
  simp only [afterRead_areg, areg_setAreg_same, State.fc, setAreg_sr]
  rfl

section
variable (s : State) (an : Reg)

theorem unlinked_areg_self : (s.unlinked an).areg an = s.longAt (s.areg an) := areg_setAreg_same _ _ _

theorem unlinked_areg_seven (h : an ≠ 7) : (s.unlinked an).areg 7 = s.areg an + 4 := by
  rw [State.unlinked, areg_setAreg_of_ne _ h.symm, areg_setAreg_same]

theorem unlinked_areg_of_ne {m : Reg} (hn : m ≠ an) (h7 : m ≠ 7) : (s.unlinked an).areg m = s.areg m := by
  rw [State.unlinked, areg_setAreg_of_ne _ hn, areg_setAreg_of_ne _ h7, afterRead_areg, areg_setAreg_of_ne _ h7]

theorem unlinked_mem : (s.unlinked an).mem = s.mem := by simp [State.unlinked]

theorem within_unlinked : Within s (s.unlinked an) :=
  (((within_setAreg s _ _).trans (within_afterRead _ .l _ _)).trans (within_setAreg _ _ _)).trans (within_setAreg _ _ _)

theorem systemKept_unlinked : SystemKept s (s.unlinked an) :=
  (((systemKept_setAreg s _ _).trans (systemKept_afterRead _ .l _ _)).trans (systemKept_setAreg _ _ _)).trans
    (systemKept_setAreg _ _ _)

end

/-- Settles O43: the registers as the lines leave them, with A7 written last by LINK and first by UNLK. -/
theorem linkAndUnlink : Obligations.LinkAndUnlink := by
  refine fun an d s h => ⟨fun he => ?_, fun he => ?_⟩
  · refine nextWith_completed (i := .link an d) rfl rfl ⟨_, linkFrame_ready h he an d, ?_⟩
    obtain ⟨sr, system, draws⟩ := (systemKept_fetched s 1).trans (systemKept_linked (s.fetched 1) an d)
    rw [← fetched_areg s 1, ← fetched_areg s 1 an]
    refine ⟨linked_longAt _ an d, fun x hx => ?_, linked_areg_seven _ an d, linked_areg_self _ an d, fun m hn h7 => ?_,
      ?_, ?_, sr, ?_, system, draws⟩
    · rw [linked_sameMemoryOutside _ an d x hx, fetched_mem]
    · rw [linked_areg_of_ne _ an d hn h7, fetched_areg]
    · simpa using (within_linked (s.fetched 1) an d).unselectedStack
    · rw [linked_d, fetched_d]
    · rw [linked_pc, fetched_pc]
      rfl
  · refine nextWith_completed (i := .unlk an) rfl rfl ⟨_, unlinkFrame_ready h.1 he, ?_⟩
    obtain ⟨sr, system, draws⟩ := systemKept_unlinked s an
    exact ⟨unlinked_areg_self s an, unlinked_areg_seven s an, fun m hn h7 => unlinked_areg_of_ne s an hn h7,
      (within_unlinked s an).unselectedStack, fun x => by rw [unlinked_mem], by simp [State.unlinked], sr,
      by simp [State.unlinked], system, draws⟩

/-! ### MOVE -/

/-- The address of an alterable operand depends on the registers and S alone. -/
theorem effectiveAddress_congr {s t : State} (hd : t.d = s.d) (ha : s.sameAddress t) (hs : t.sr.s = s.sr.s) {ea : Ea}
    (h : ea.isAlterable = true) (sz : Size) : t.effectiveAddress ea sz = s.effectiveAddress ea sz := by
  have hr : ∀ n, t.areg n = s.areg n := areg_congr ha.1 ha.2.1 ha.2.2 hs
  cases ea with
  | pcDisp _ | pcIdx _ | imm _ => cases h
  | _ => simp only [State.effectiveAddress, State.indexValue, hr, dreg_congr hd]

/-- What a destination evaluated in a state is depends on its registers, its memory and S alone. -/
theorem operandWritten_of_congr {s u t : State} (hd : u.d = s.d) (ha : s.sameAddress u) (hm : u.mem = s.mem)
    (hs : u.sr.s = s.sr.s) {ea : Ea} (h : ea.isAlterable = true) {sz : Size} {v : BitVec sz.bits}
    (hw : u.operandWritten t ea sz v) : s.operandWritten t ea sz v := by
  obtain ⟨address, written⟩ := hw
  have stepped := stepAddress_congr ha hs ea sz
  refine ⟨⟨address.1.trans stepped.1, address.2.1.trans stepped.2.1, address.2.2.trans stepped.2.2⟩, ?_⟩
  have he := effectiveAddress_congr hd ha hs h sz
  cases ea <;>
    simpa only [State.sameDataBut, State.sameMemory, State.sameMemoryBut, hd, dreg_congr hd, hm, he] using written

/-- MOVE of aligned operands: the destination is evaluated after the source has been read (40_data_movement.md R155). -/
theorem moveEa_ready {s : State} (h : s.ready) {src dst : Ea} {sz : Size} (hdst : dst.isDataAlterable = true)
    (hs : s.operandAligned src sz = true) (hd : (s.stepAddress src sz).operandAligned dst sz = true) :
    ∃ t, moveEa sz src dst s = .ok () t ∧
      (s.stepAddress src sz).onlyOperand t dst sz (s.operand src sz) (s.sr.logicFlags (s.operand src sz))
        (s.pc + BitVec.ofNat 32 (2 * (src.words.length + dst.words.length))) := by
  obtain ⟨w, hw⟩ : ∃ w, w = s.operandRead src sz := ⟨_, rfl⟩
  have ready : w.ready := hw ▸ ready_operandRead h src sz
  have alterable : dst.isAlterable = true := by simp_all [Ea.isDataAlterable]
  have data : w.d = (s.stepAddress src sz).d := by simp [hw]
  have address : (s.stepAddress src sz).sameAddress w := hw ▸ operandRead_sameAddress s src sz
  have memory : w.mem = (s.stepAddress src sz).mem := by simp [hw]
  have supervisor : w.sr.s = (s.stepAddress src sz).sr.s := by simp [hw]
  have aligned : w.operandAligned dst sz = true := by
    rw [State.operandAligned, effectiveAddress_congr data address supervisor alterable]
    exact hd
  have written := operandWritten_stored (evaluated_sameAddress w dst sz) (by simp) (by simp) hdst (s.operand src sz)
  refine ⟨((w.evaluated dst sz).stored w dst sz (s.operand src sz)).setSr (s.sr.logicFlags (s.operand src sz)), ?_,
    operandWritten_congr rfl rfl rfl rfl rfl (operandWritten_of_congr data address memory supervisor alterable written),
    rfl, ?_, ?_, ?_⟩
  · simp only [moveEa, bind_apply, readEa_ready h hs, ← hw, evalEa_ready ready, setLogic, modify_apply,
      writeLoc_ready (ready_evaluated ready dst sz).1 aligned]
    simp [hw]
  · simp only [setSr_pc, stored_pc, stepAddress_pc, fetched_pc, hw, operandRead_pc]
    rw [BitVec.add_assoc, ← BitVec.ofNat_add, Nat.mul_add]
  · simp [State.sameSystem, hw]
  · simp [hw]

/-- Settles O40: one argument for each size. -/
theorem moveInstruction : Obligations.MoveInstruction := by
  intro src dst s h hdst p hp
  simp only [List.mem_cons, List.not_mem_nil, or_false] at hp
  obtain rfl | rfl | rfl := hp <;> intro u v hfit hs hd <;>
    exact nextWith_completed (Bool.and_eq_true_iff.mpr ⟨hfit, hdst⟩) rfl (moveEa_ready h hdst hs hd)

end Sys2Proof.Machine
end

section
/-! Transfers of many operands: what a run of writes at rising or falling addresses leaves in memory, and MOVEP
(40_data_movement.md R158, R161). -/

namespace Sys2Proof.Machine

/-! ### A run of writes -/

/-- From `s` the values have been written at every `stride` bytes from `a` on, in some order, and nothing else has
changed. -/
structure Transferred (s t : State) (sz : Size) (stride : Nat) (values : List (BitVec sz.bits)) (a : Long) : Prop where
  reads : ∀ (k : Nat) (h : k < values.length), t.readAt sz (a + BitVec.ofNat 32 (k * stride)) = values[k]
  outside : ∀ x, (∀ k < values.length, x ∉ operandBytes sz (a + BitVec.ofNat 32 (k * stride))) →
    Memory.get t.mem x = Memory.get s.mem x
  d : t.d = s.d
  address : s.sameAddress t
  pc : t.pc = s.pc
  kept : SystemKept s t

/-- Operands at places that do not overlap, counted from one address, share no byte. -/
theorem operandBytes_disjoint (a : Long) {sz : Size} {i j : Nat} (h : i + sz.bytes ≤ j ∨ j + sz.bytes ≤ i)
    (hi : i + sz.bytes ≤ addressSpace) (hj : j + sz.bytes ≤ addressSpace) {x : Nat}
    (hx : x ∈ operandBytes sz (a + BitVec.ofNat 32 i)) : x ∉ operandBytes sz (a + BitVec.ofNat 32 j) := by
  intro hy
  obtain ⟨k, hk, rfl⟩ := mem_operandBytes.mp hx
  obtain ⟨l, hl, e⟩ := mem_operandBytes.mp hy
  rw [BitVec.add_assoc, BitVec.add_assoc, ← BitVec.ofNat_add, ← BitVec.ofNat_add] at e
  exact physical_add_ne a (by omega) (by omega) (by omega) e

theorem transferred_nil (s : State) (sz : Size) (stride : Nat) (a : Long) : Transferred s s sz stride [] a where
  reads k h := absurd h (Nat.not_lt_zero k)
  outside _ _ := rfl
  d := rfl
  address := ⟨rfl, rfl, rfl⟩
  pc := rfl
  kept := systemKept_refl s

section
variable {s t : State} {sz : Size} {stride : Nat} {values : List (BitVec sz.bits)} {a : Long}

/-- An operand that none of the writes touches. -/
theorem Transferred.readAt_of_disjoint (h : Transferred s t sz stride values a) {b : Long}
    (hb : ∀ k < values.length, ∀ x ∈ operandBytes sz b, x ∉ operandBytes sz (a + BitVec.ofNat 32 (k * stride))) :
    t.readAt sz b = s.readAt sz b :=
  readAt_of_bytes fun x hx => h.outside x fun k hk => hb k hk x hx

/-- What one more write before the others leaves alone. -/
theorem Transferred.of_afterWrite {fc : BitVec 3} {b : Long} {v : BitVec sz.bits} {lf : Bool}
    (h : Transferred (s.afterWrite sz fc b v lf) t sz stride values a) {all : List (BitVec sz.bits)} {base : Long}
    (reads : ∀ (k : Nat) (h : k < all.length), t.readAt sz (base + BitVec.ofNat 32 (k * stride)) = all[k])
    (outside : ∀ x, (∀ k < all.length, x ∉ operandBytes sz (base + BitVec.ofNat 32 (k * stride))) →
      (∀ k < values.length, x ∉ operandBytes sz (a + BitVec.ofNat 32 (k * stride))) ∧ x ∉ operandBytes sz b) :
    Transferred s t sz stride all base where
  reads := reads
  outside x hx := by
    obtain ⟨others, this⟩ := outside x hx
    rw [h.outside x others, get_afterWrite_of_notMem this]
  d := h.d.trans (afterWrite_d ..)
  address := by simpa [State.sameAddress] using h.address
  pc := h.pc.trans (afterWrite_pc ..)
  kept := (systemKept_afterWrite ..).trans h.kept

/-- The lowest operand written first, the others above it. -/
theorem Transferred.cons {fc : BitVec 3} {v : BitVec sz.bits} {lf : Bool}
    (h : Transferred (s.afterWrite sz fc a v lf) t sz stride values (a + BitVec.ofNat 32 stride))
    (hs : sz.bytes ≤ stride) (hn : (values.length + 1) * stride ≤ addressSpace) :
    Transferred s t sz stride (v :: values) a := by
  have above : ∀ k, a + BitVec.ofNat 32 stride + BitVec.ofNat 32 (k * stride) =
      a + BitVec.ofNat 32 ((k + 1) * stride) := fun k => by
    rw [BitVec.add_assoc, ← BitVec.ofNat_add, Nat.add_mul, Nat.one_mul, Nat.add_comm]
  have lowest : t.readAt sz a = v := by
    rw [h.readAt_of_disjoint, readAt_afterWrite_same]
    intro k hk x hx
    rw [above]
    have : (k + 1) * stride + stride ≤ (values.length + 1) * stride := by nlinarith
    refine operandBytes_disjoint a (i := 0) (.inl ?_) ?_ ?_ (by simpa using hx) <;> nlinarith
  refine h.of_afterWrite (fun k hk => ?_) fun x hx => ⟨fun k hk => ?_, ?_⟩
  · cases k with
    | zero => simpa using lowest
    | succ k =>
      rw [← above]
      exact h.reads k (Nat.lt_of_succ_lt_succ hk)
  · rw [above]
    exact hx (k + 1) (Nat.succ_lt_succ hk)
  · simpa using hx 0 (Nat.zero_lt_succ _)

/-- The highest operand written first, the others below it. -/
theorem Transferred.concat {fc : BitVec 3} {v : BitVec sz.bits} {lf : Bool}
    (h : Transferred (s.afterWrite sz fc (a + BitVec.ofNat 32 (values.length * stride)) v lf) t sz stride values a)
    (hs : sz.bytes ≤ stride) (hn : (values.length + 1) * stride ≤ addressSpace) :
    Transferred s t sz stride (values ++ [v]) a := by
  have highest : t.readAt sz (a + BitVec.ofNat 32 (values.length * stride)) = v := by
    rw [h.readAt_of_disjoint, readAt_afterWrite_same]
    intro k hk x hx
    have : k * stride + stride ≤ values.length * stride := by nlinarith
    refine operandBytes_disjoint a (.inr ?_) ?_ ?_ hx <;> nlinarith
  refine h.of_afterWrite (fun k hk => ?_) fun x hx => ⟨fun k hk => hx k ?_, hx values.length ?_⟩
  · by_cases hv : k < values.length
    · rw [List.getElem_append_left hv]
      exact h.reads k hv
    · have : k = values.length := by
        rw [List.length_append, List.length_singleton] at hk
        omega
      subst this
      simpa using highest
  all_goals
    rw [List.length_append, List.length_singleton]
    omega

/-- The operands one behind another take the bytes from the first on. -/
theorem Transferred.sameMemoryOutside (h : Transferred s t sz sz.bytes values a) :
    s.sameMemoryOutside t (bytesFrom a (values.length * sz.bytes)) := fun x hx =>
  h.outside x fun _ hk hm => hx (bytesFrom_subset rfl (by nlinarith) hm)

end

/-! ### MOVEP -/

section
variable {s : State}

theorem movepAddress_ready (h : s.ready) {d : Word} {ay : Reg} {a : Long} (ha : s.areg ay + d.signExtend 32 = a) :
    movepAddress d ay s = .ok a (s.fetched 1) := by
  simp only [movepAddress, bind_apply, fetchWords_ready h, get_apply, pure_apply, fetched_areg, ha]

/-- A byte is read at any alignment (20_memory.md R63). -/
theorem movepRead_quiet (h : s.platform = .plain) (a : Long) :
    movepRead a s = .ok (s.byteAt a) (s.afterRead .b (s.fc false) a) := by
  simp only [movepRead, bind_apply, get_apply]
  exact memRead_quiet h rfl _ _

theorem movepWrite_quiet (h : s.platform = .plain) (a : Long) (v : Byte) :
    movepWrite a v s = .ok () (s.afterWrite .b (s.fc false) a v false) := by
  simp only [movepWrite, bind_apply, get_apply]
  exact memWrite_quiet h rfl _ _ _ _

end

/-- The lines of MOVEP.W that write the high-order byte and then the low-order byte (40_data_movement.md R161). -/
theorem setLow_setLow (v : Long) (hi lo : Byte) : setLow (setLow v (hi ++ v.setWidth 8)) lo = setLow v (hi ++ lo) := by
  refine BitVec.eq_of_getLsbD_eq fun j _ => ?_
  simp only [setLow_getLsbD _ _ (show 8 + 8 ≤ 32 by decide), setLow_getLsbD _ _ (show 8 ≤ 32 by decide),
    BitVec.getLsbD_append]
  by_cases h : j < 8
  · rw [if_pos h, if_pos (show j < 8 + 8 by omega), if_pos h]
  · simp only [if_neg h]

/-- A register being loaded: one data register, the bus record and the words fetched are all that has changed of `s`. -/
structure DataLoading (s u : State) (n : Reg) (pc : Long) : Prop where
  others : s.sameDataBut u n
  address : s.sameAddress u
  mem : u.mem = s.mem
  pc : u.pc = pc
  kept : SystemKept s u

theorem dataLoading_fetched (s : State) (n : Reg) (k : Nat) :
    DataLoading s (s.fetched k) n (s.pc + BitVec.ofNat 32 (2 * k)) where
  others m _ := fetched_dreg s k m
  address := ⟨fetched_a s k, fetched_usp s k, fetched_ssp s k⟩
  mem := fetched_mem s k
  pc := fetched_pc s k
  kept := systemKept_fetched s k

section
variable {s u : State} {n : Reg} {pc : Long} (h : DataLoading s u n pc)
include h

theorem DataLoading.afterRead (sz : Size) (fc : BitVec 3) (a : Long) : DataLoading s (u.afterRead sz fc a) n pc where
  others m hm := (afterRead_dreg u sz fc a m).trans (h.others m hm)
  address := by simpa [State.sameAddress] using h.address
  mem := (afterRead_mem ..).trans h.mem
  pc := (afterRead_pc ..).trans h.pc
  kept := h.kept.trans (systemKept_afterRead ..)

theorem DataLoading.setDreg (v : Long) : DataLoading s (u.setDreg n v) n pc where
  others m hm := (dreg_setDreg_of_ne u hm v).trans (h.others m hm)
  address := h.address
  mem := h.mem
  pc := h.pc
  kept := h.kept.trans (systemKept_setDreg ..)

theorem DataLoading.byteAt (a : Long) : u.byteAt a = s.byteAt a := byteAt_congr h.mem a

theorem DataLoading.onlyData {v : Long} (hv : u.dreg n = v) : s.onlyData u n v s.sr pc :=
  ⟨hv, h.others, h.kept.sr, h.pc, h.address, fun x => by rw [h.mem], h.kept.system, h.kept.draws⟩

/-- One more byte of a MOVEP read. -/
theorem DataLoading.movepRead (hp : s.platform = .plain) (a : Long) :
    ∃ w, movepRead a u = .ok (s.byteAt a) w ∧ DataLoading s w n pc ∧ w.dreg n = u.dreg n :=
  ⟨_, by rw [movepRead_quiet (h.kept.plain hp), h.byteAt], h.afterRead .b (u.fc false) a, afterRead_dreg ..⟩

end

section
variable {s : State} (h : s.ready) {ay : Reg} {d : Word} {a : Long} (ha : s.areg ay + d.signExtend 32 = a) (dx : Reg)
include h ha

/-- MOVEP.W to a register: everything it leaves (40_data_movement.md R161). -/
theorem movepLoadWord_ready :
    ∃ t, movepLoadWord d ay dx s = .ok () t ∧
      s.onlyData t dx (setLow (s.dreg dx) (s.byteAt a ++ s.byteAt (a + 2))) s.sr (s.pc + 2) := by
  obtain ⟨u, e₁, k₁, v₁⟩ := (dataLoading_fetched s dx 1).movepRead h.1 a
  have high := k₁.setDreg (setLow (u.dreg dx) (s.byteAt a ++ (u.dreg dx).setWidth 8))
  obtain ⟨w, e₂, k₂, v₂⟩ := high.movepRead h.1 (a + 2)
  refine ⟨w.setDregLow dx (s.byteAt (a + 2)), ?_, (k₂.setDreg _).onlyData ?_⟩
  · simp only [movepLoadWord, bind_apply, movepAddress_ready h ha, e₁, modify_apply, State.setDregLow, e₂]
  · rw [dreg_setDreg_same, v₂, dreg_setDreg_same, setLow_setLow, v₁, fetched_dreg]

/-- MOVEP.L to a register: everything it leaves (40_data_movement.md R161). -/
theorem movepLoadLong_ready :
    ∃ t, movepLoadLong d ay dx s = .ok () t ∧
      s.onlyData t dx (s.byteAt a ++ s.byteAt (a + 2) ++ s.byteAt (a + 4) ++ s.byteAt (a + 6)) s.sr (s.pc + 2) := by
  obtain ⟨u₁, e₁, k₁, -⟩ := (dataLoading_fetched s dx 1).movepRead h.1 a
  obtain ⟨u₂, e₂, k₂, -⟩ := k₁.movepRead h.1 (a + 2)
  obtain ⟨u₃, e₃, k₃, -⟩ := k₂.movepRead h.1 (a + 4)
  obtain ⟨u₄, e₄, k₄, -⟩ := k₃.movepRead h.1 (a + 6)
  refine ⟨_, ?_, (k₄.setDreg _).onlyData (dreg_setDreg_same ..)⟩
  simp only [movepLoadLong, bind_apply, movepAddress_ready h ha, e₁, e₂, e₃, e₄, modify_apply]

end

/-- The state after bytes have been written at every other address (40_data_movement.md R161). -/
def State.everyOther (s : State) : List Byte → Long → State
  | [], _ => s
  | v :: values, a => (s.afterWrite .b (s.fc false) a v false).everyOther values (a + 2)

theorem transferred_everyOther (s : State) {values : List Byte} (hn : values.length * 2 ≤ addressSpace) (a : Long) :
    Transferred s (s.everyOther values a) .b 2 values a := by
  induction values generalizing s a with
  | nil => exact transferred_nil s .b 2 a
  | cons v values ih =>
    rw [List.length_cons] at hn
    exact (ih _ (by omega) (a + 2)).cons (by decide) hn

section
variable {s : State} (h : s.ready) {ay : Reg} {d : Word} {a : Long} (ha : s.areg ay + d.signExtend 32 = a) (dx : Reg)
include h ha

theorem movepStoreWord_ready : movepStoreWord dx d ay s =
    .ok () ((s.fetched 1).everyOther [(s.dreg dx).extractLsb' 8 8, (s.dreg dx).extractLsb' 0 8] a) := by
  have plain : (s.fetched 1).platform = .plain := (ready_fetched h 1).1
  simp only [movepStoreWord, bind_apply, movepAddress_ready h ha, get_apply, fetched_dreg, movepWrite_quiet,
    afterWrite_platform, plain, State.everyOther]

theorem movepStoreLong_ready : movepStoreLong dx d ay s =
    .ok () ((s.fetched 1).everyOther [(s.dreg dx).extractLsb' 24 8, (s.dreg dx).extractLsb' 16 8,
      (s.dreg dx).extractLsb' 8 8, (s.dreg dx).extractLsb' 0 8] a) := by
  have plain : (s.fetched 1).platform = .plain := (ready_fetched h 1).1
  have second : a + 2 + 2 = a + 4 := BitVec.add_assoc a 2 2
  have third : a + 4 + 2 = a + 6 := BitVec.add_assoc a 4 2
  simp only [movepStoreLong, bind_apply, movepAddress_ready h ha, get_apply, fetched_dreg, movepWrite_quiet,
    afterWrite_platform, plain, State.everyOther, second, third]

end

/-- Bytes written at every other address leave the bytes between, and all that is no memory (40_data_movement.md
R161). -/
theorem everyOther_left (s : State) {values : List Byte} (hn : values.length * 2 ≤ addressSpace) (a : Long) :
    let t := (s.fetched 1).everyOther values a
    s.sameMemoryOutside t ((List.range values.length).map fun k => physical (a + BitVec.ofNat 32 (2 * k))) ∧
      t.d = s.d ∧ s.sameAddress t ∧ t.sr = s.sr ∧ t.pc = s.pc + 2 ∧ s.sameSystem t ∧ t.draws = s.draws := by
  intro t
  have moved : Transferred (s.fetched 1) t .b 2 values a := transferred_everyOther _ hn a
  obtain ⟨sr, system, draws⟩ := (systemKept_fetched s 1).trans moved.kept
  refine ⟨fun x hx => ?_, moved.d.trans (fetched_d s 1), by simpa [State.sameAddress] using moved.address, sr,
    moved.pc.trans (fetched_pc s 1), system, draws⟩
  rw [moved.outside x fun k hk hm => hx ?_, fetched_mem]
  obtain ⟨j, hj, rfl⟩ := mem_operandBytes.mp hm
  obtain rfl : j = 0 := Nat.lt_one_iff.mp hj
  exact List.mem_map.mpr ⟨k, List.mem_range.mpr hk, by rw [BitVec.add_zero, Nat.mul_comm]⟩

/-- A byte of a MOVEP write read back. -/
theorem everyOther_byteAt (s : State) {values : List Byte} (hn : values.length * 2 ≤ addressSpace) (a : Long) {k : Nat}
    (hk : k < values.length) : (s.everyOther values a).byteAt (a + BitVec.ofNat 32 (k * 2)) = values[k] :=
  (transferred_everyOther s hn a).reads k hk

theorem append_bytes_word (v : Long) : v.extractLsb' 8 8 ++ v.extractLsb' 0 8 = v.setWidth 16 := by
  rw [BitVec.extractLsb'_append_extractLsb'_eq_extractLsb' (show 8 = 0 + 8 from rfl),
    BitVec.setWidth_eq_extractLsb' (by decide)]

theorem append_bytes_long (v : Long) :
    v.extractLsb' 24 8 ++ v.extractLsb' 16 8 ++ v.extractLsb' 8 8 ++ v.extractLsb' 0 8 = v := by
  rw [BitVec.extractLsb'_append_extractLsb'_eq_extractLsb' (show 24 = 16 + 8 from rfl),
    BitVec.extractLsb'_append_extractLsb'_eq_extractLsb' (show 16 = 8 + 8 from rfl),
    BitVec.extractLsb'_append_extractLsb'_eq_extractLsb' (show 8 = 0 + 8 from rfl), BitVec.extractLsb'_eq_self]

/-- Settles O46: the bytes are read or written one at a time, at any alignment. -/
theorem movePeripheral : Obligations.MovePeripheral := by
  intro x y d s h a v at2
  refine ⟨nextWith_completed (i := .movepToRegW d y x) rfl rfl (movepLoadWord_ready h rfl x),
    nextWith_completed (i := .movepToRegL d y x) rfl rfl (movepLoadLong_ready h rfl x),
    nextWith_completed (i := .movepToMemW x d y) rfl rfl
      ⟨_, movepStoreWord_ready h rfl x, ?_, everyOther_left s (by simp [addressSpace]) a⟩,
    nextWith_completed (i := .movepToMemL x d y) rfl rfl
      ⟨_, movepStoreLong_ready h rfl x, ?_, everyOther_left s (by simp [addressSpace]) a⟩⟩
  · have byte := @everyOther_byteAt (s.fetched 1) [v.extractLsb' 8 8, v.extractLsb' 0 8] (by simp [addressSpace]) a
    have hi := byte (k := 0) (by simp)
    rw [Nat.zero_mul, BitVec.add_zero] at hi
    exact (congrArg₂ (· ++ ·) hi (byte (k := 1) (by simp))).trans (append_bytes_word v)
  · have byte := @everyOther_byteAt (s.fetched 1)
      [v.extractLsb' 24 8, v.extractLsb' 16 8, v.extractLsb' 8 8, v.extractLsb' 0 8] (by simp [addressSpace]) a
    have b3 := byte (k := 0) (by simp)
    rw [Nat.zero_mul, BitVec.add_zero] at b3
    have b2 := congrArg₂ (· ++ ·) b3 (byte (k := 1) (by simp))
    have b1 := congrArg₂ (· ++ ·) b2 (byte (k := 2) (by simp))
    exact (congrArg₂ (· ++ ·) b1 (byte (k := 3) (by simp))).trans (append_bytes_long v)

end Sys2Proof.Machine
end

section
/-! MOVEM: the transfers to memory at rising and at falling addresses, and those to registers (40_data_movement.md R157
to R159). -/

namespace Sys2Proof.Machine

/-! ### The registers of a mask -/

/-- The registers that the bits of a mask select of some, bit `i` the register `i`. -/
def selected (mask : Word) (regs : List (Fin 16)) : List (Fin 16) := regs.filter fun i => mask.getLsbD i.val

section
variable {mask : Word} {i : Fin 16} (regs : List (Fin 16))

@[simp] theorem selected_nil : selected mask [] = [] := rfl

theorem selected_cons_of_set (h : mask.getLsbD i.val = true) : selected mask (i :: regs) = i :: selected mask regs :=
  List.filter_cons_of_pos h

theorem selected_cons_of_clear (h : ¬mask.getLsbD i.val = true) : selected mask (i :: regs) = selected mask regs :=
  List.filter_cons_of_neg h

end

theorem length_selected_le (mask : Word) : (selected mask (List.finRange 16)).length ≤ 16 :=
  (List.length_filter_le _ _).trans_eq List.length_finRange

/-- With any other mode bit `i` selects the register `i` (40_data_movement.md R158). -/
theorem maskRegisters_rising (mask : Word) : maskRegisters mask false = selected mask (List.finRange 16) := rfl

/-- With `-(An)` bit `i` selects the register `15 - i`, and the first register transferred lies highest
(40_data_movement.md R158). -/
theorem maskRegisters_falling (mask : Word) :
    maskRegisters mask true = ((selected mask (List.finRange 16)).map Fin.rev).reverse := by
  have bit : (fun i : Fin 16 => mask.getLsbD (15 - i.val)) ∘ Fin.rev = fun i : Fin 16 => mask.getLsbD i.val := by
    funext i
    simp only [Function.comp_apply, Fin.val_rev]
    congr 1
    omega
  calc maskRegisters mask true
      = ((List.finRange 16).map Fin.rev).reverse.filter fun i : Fin 16 => mask.getLsbD (15 - i.val) := by
        rw [← List.finRange_reverse, List.reverse_reverse]
        rfl
    _ = ((selected mask (List.finRange 16)).map Fin.rev).reverse := by
        rw [List.filter_reverse, List.filter_map, bit]
        rfl

/-- An empty mask makes no transfer, whatever the address. -/
theorem selected_of_zero {mask : Word} (h : mask = 0) (regs : List (Fin 16)) : selected mask regs = [] := by
  simp [selected, h]

/-! ### Transfers to memory -/

theorem xreg_afterWrite (s : State) (sz : Size) (fc : BitVec 3) (a : Long) (v : BitVec sz.bits) (lf : Bool)
    (i : Fin 16) : (s.afterWrite sz fc a v lf).xreg i = s.xreg i := by
  simp [State.xreg]

/-- A word or a long word keeps the next address even. -/
theorem isEven_wideBytes (sz : WideSize) : isEven (BitVec.ofNat 32 sz.toSize.bytes) = true := by
  cases sz <;> decide

theorem wideBytes_le (sz : WideSize) : sz.toSize.bytes ≤ 4 := by
  cases sz <;> decide

theorem transfers_fit (sz : WideSize) {n : Nat} (h : n ≤ 16) : n * sz.toSize.bytes ≤ addressSpace :=
  (Nat.mul_le_mul h (wideBytes_le sz)).trans (by decide)

/-- The low-order parts of registers that MOVEM transfers. -/
def State.parts (s : State) (sz : Size) (regs : List (Fin 16)) : List (BitVec sz.bits) :=
  regs.map fun i => (s.xreg i).setWidth sz.bits

theorem parts_congr {s t : State} (h : ∀ i, t.xreg i = s.xreg i) (sz : Size) (regs : List (Fin 16)) :
    t.parts sz regs = s.parts sz regs := by
  simp only [State.parts, h]

/-- The transfers at rising addresses (40_data_movement.md R158). -/
theorem storeUp_transfers (sz : WideSize) (mask : Word) (regs : List (Fin 16)) {s : State} {a : Long}
    (hp : s.platform = .plain) (he : selected mask regs = [] ∨ isEven a = true)
    (hn : (selected mask regs).length ≤ 16) :
    ∃ t, storeUp sz.toSize mask regs a s =
        .ok (a + BitVec.ofNat 32 ((selected mask regs).length * sz.toSize.bytes)) t ∧
      Transferred s t sz.toSize sz.toSize.bytes (s.parts sz.toSize (selected mask regs)) a := by
  induction regs generalizing s a with
  | nil => exact ⟨s, by simp [storeUp], transferred_nil ..⟩
  | cons i regs ih =>
    by_cases hi : mask.getLsbD i.val = true
    · rw [selected_cons_of_set regs hi] at he hn ⊢
      have even : isEven a = true := he.resolve_left (List.cons_ne_nil _ _)
      have write := memWrite_quiet hp (isAligned_of_isEven even sz.toSize) (s.fc false)
        ((s.xreg i).setWidth sz.toSize.bits) [] false
      obtain ⟨t, ht, moved⟩ := ih (s := s.afterWrite sz.toSize (s.fc false) a ((s.xreg i).setWidth _) false)
        (a := a + BitVec.ofNat 32 sz.toSize.bytes) (by simpa using hp)
        (.inr (isEven_add_even even (isEven_wideBytes sz))) (Nat.le_of_succ_le hn)
      rw [parts_congr fun j => xreg_afterWrite ..] at moved
      refine ⟨t, ?_, moved.cons le_rfl (by simpa [State.parts] using transfers_fit sz hn)⟩
      rw [storeUp, if_pos hi]
      simp only [bind_apply, get_apply, write, ht]
      rw [BitVec.add_assoc, ← BitVec.ofNat_add, List.length_cons, Nat.succ_mul, Nat.add_comm sz.toSize.bytes]
    · rw [selected_cons_of_clear regs hi] at he hn ⊢
      rw [storeUp, if_neg hi]
      exact ih hp he hn

/-- The transfers at falling addresses: the first register lies highest (40_data_movement.md R158). -/
theorem storeDown_transfers (sz : WideSize) (mask : Word) (an : Reg) (regs : List (Fin 16)) {s : State} {a low : Long}
    (hp : s.platform = .plain) (he : selected mask regs = [] ∨ isEven a = true)
    (hn : (selected mask regs).length ≤ 16)
    (hl : a - BitVec.ofNat 32 ((selected mask regs).length * sz.toSize.bytes) = low) :
    ∃ t, storeDown sz.toSize mask an regs a s = .ok low t ∧
      Transferred s t sz.toSize sz.toSize.bytes (s.parts sz.toSize ((selected mask regs).map Fin.rev).reverse) low := by
  induction regs generalizing s a with
  | nil => exact ⟨s, by simp [storeDown, ← hl], transferred_nil ..⟩
  | cons i regs ih =>
    by_cases hi : mask.getLsbD i.val = true
    · rw [selected_cons_of_set regs hi] at he hn hl ⊢
      obtain ⟨b, hb⟩ : ∃ b, b = a - BitVec.ofNat 32 sz.toSize.bytes := ⟨_, rfl⟩
      have even : isEven b = true :=
        hb ▸ isEven_sub_even (he.resolve_left (List.cons_ne_nil _ _)) (isEven_wideBytes sz)
      have write := memWrite_quiet hp (isAligned_of_isEven even sz.toSize) (s.fc false)
        ((s.xreg i.rev).setWidth sz.toSize.bits) [.either (addressX an) b] true
      have below : b - BitVec.ofNat 32 ((selected mask regs).length * sz.toSize.bytes) = low := by
        rw [← hl, hb, BitVec.sub_sub, ← BitVec.ofNat_add, List.length_cons, Nat.succ_mul, Nat.add_comm sz.toSize.bytes]
      have above : b = low + BitVec.ofNat 32
          ((s.parts sz.toSize ((selected mask regs).map Fin.rev).reverse).length * sz.toSize.bytes) := by
        simp [← below, State.parts]
      obtain ⟨t, ht, moved⟩ := ih (s := s.afterWrite sz.toSize (s.fc false) b ((s.xreg i.rev).setWidth _) true)
        (by simpa using hp) (.inr even) (Nat.le_of_succ_le hn) below
      rw [parts_congr fun j => xreg_afterWrite ..] at moved
      refine ⟨t, ?_, ?_⟩
      · rw [storeDown, if_pos hi]
        simp only [bind_apply, get_apply, ← hb, write, ht]
      · rw [above] at moved
        have := moved.concat le_rfl (by simpa [State.parts] using transfers_fit sz hn)
        simpa [State.parts] using this
    · rw [selected_cons_of_clear regs hi] at he hn hl ⊢
      rw [storeDown, if_neg hi]
      exact ih hp he hn hl

/-! ### Words fetched -/

theorem fetched_fetched (s : State) (m n : Nat) : (s.fetched m).fetched n = s.fetched (m + n) := by
  induction m generalizing s with
  | zero => rw [Nat.zero_add]; rfl
  | succ m ih => rw [Nat.add_right_comm, State.fetched, State.fetched, ih]

theorem xreg_fetched (s : State) (n : Nat) (i : Fin 16) : (s.fetched n).xreg i = s.xreg i := by
  simp [State.xreg]

/-- A control operand takes its extension words after the mask word, and steps no register. -/
theorem evalEa_after_mask {s : State} (h : s.ready) {ea : Ea} (hea : ea.isControl = true) (sz : Size) :
    evalEa ea sz (s.fetched 1) = .ok ((s.fetched 1).location ea sz) (s.fetched (1 + ea.words.length)) := by
  rw [evalEa_ready (ready_fetched h 1), State.evaluated, stepAddress_of_isControl hea, fetched_fetched]

theorem effectiveAddress_advanced (s : State) (n : Nat) (ea : Ea) (sz : Size) :
    (s.fetched n).effectiveAddress ea sz = (s.advanced n).effectiveAddress ea sz := by
  have data : ∀ m, (s.advanced n).dreg m = s.dreg m := dreg_congr rfl
  have address : ∀ m, (s.advanced n).areg m = s.areg m := areg_congr rfl rfl rfl rfl
  have pc : (s.advanced n).pc = s.pc + BitVec.ofNat 32 (2 * n) := rfl
  cases ea <;>
    simp only [State.effectiveAddress, State.indexValue, data, address, pc, fetched_dreg, fetched_areg, fetched_pc]

/-! ### MOVEM to memory -/

theorem moveRegistersToMemory_of_isControl {ea : Ea} (h : ea.isControl = true) (sz : Size) (mask : Word) :
    moveRegistersToMemory sz mask ea = (do
      leavingOpen (unmaskedStep ea) (fetchWords 1)
      let s ← get
      let _ ← evalEa ea sz
      let _ ← storeUp sz mask (List.finRange 16) (s.effectiveAddress ea sz)
      pure ()) := by
  cases ea with
  | dn _ | an _ | post _ | pre _ | imm _ => cases h
  | _ => rfl

section
variable {s : State} (h : s.ready) (sz : WideSize) (mask : Word)
include h

theorem moveRegistersToMemory_control {ea : Ea} (hc : ea.isControl = true) (ha : ea.isAlterable = true)
    (he : mask = 0 ∨ isEven (s.effectiveAddress ea sz.toSize) = true) :
    ∃ t, moveRegistersToMemory sz.toSize mask ea s = .ok () t ∧
      Transferred (s.fetched (1 + ea.words.length)) t sz.toSize sz.toSize.bytes
        (s.parts sz.toSize (maskRegisters mask false)) (s.effectiveAddress ea sz.toSize) := by
  obtain ⟨t, ht, moved⟩ := storeUp_transfers sz mask (List.finRange 16) (s := s.fetched (1 + ea.words.length))
    (ready_fetched h _).1 (he.imp_left (selected_of_zero · _)) (length_selected_le mask)
  rw [parts_congr (xreg_fetched s _), ← maskRegisters_rising] at moved
  refine ⟨t, ?_, moved⟩
  rw [moveRegistersToMemory_of_isControl hc]
  simp only [bind_apply, leavingOpen_ok (fetchWords_ready h 1), get_apply, evalEa_after_mask h hc,
    effectiveAddress_fetched s 1 ha, ht, pure_apply]

theorem moveRegistersToMemory_predecrement {n : Reg} {low : Long} (he : mask = 0 ∨ isEven (s.areg n) = true)
    (hl : s.areg n - BitVec.ofNat 32 ((maskRegisters mask true).length * sz.toSize.bytes) = low) :
    ∃ t, moveRegistersToMemory sz.toSize mask (.pre n) s = .ok () (t.setAreg n low) ∧
      Transferred (s.fetched 1) t sz.toSize sz.toSize.bytes (s.parts sz.toSize (maskRegisters mask true)) low := by
  rw [maskRegisters_falling] at hl ⊢
  obtain ⟨t, ht, moved⟩ := storeDown_transfers sz mask n (List.finRange 16) (s := s.fetched 1) (a := s.areg n)
    (ready_fetched h 1).1 (he.imp_left (selected_of_zero · _)) (length_selected_le mask) (by simpa using hl)
  rw [parts_congr (xreg_fetched s _)] at moved
  refine ⟨t, ?_, moved⟩
  simp only [moveRegistersToMemory, bind_apply, leavingOpen_ok (fetchWords_ready h 1), get_apply, fetched_areg, ht,
    modify_apply]

end

/-- What the transfers leave, as the statement on MOVEM to memory says it. -/
theorem Transferred.registers_stored {s t : State} {k : Nat} {sz : Size} {regs : List (Fin 16)} {a : Long}
    (h : Transferred (s.fetched k) t sz sz.bytes (s.parts sz regs) a) {u : State} (hm : u.mem = t.mem) (hd : u.d = t.d)
    (hp : u.pc = t.pc) (kept : SystemKept t u) :
    (∀ (k : Nat) (h : k < regs.length),
        u.readAt sz (a + BitVec.ofNat 32 (k * sz.bytes)) = (s.xreg regs[k]).setWidth sz.bits) ∧
      s.sameMemoryOutside u (bytesFrom a (regs.length * sz.bytes)) ∧ u.d = s.d ∧ u.sr = s.sr ∧
      u.pc = s.pc + BitVec.ofNat 32 (2 * k) ∧ s.sameSystem u ∧ u.draws = s.draws := by
  obtain ⟨sr, system, draws⟩ := ((systemKept_fetched s k).trans h.kept).trans kept
  refine ⟨fun j hj => ?_, fun x hx => ?_, hd.trans (h.d.trans (fetched_d s k)), sr,
    hp.trans (h.pc.trans (fetched_pc s k)), system, draws⟩
  · rw [readAt_congr hm, h.reads j (by simpa [State.parts] using hj)]
    simp [State.parts]
  · rw [hm, h.sameMemoryOutside x (by simpa [State.parts] using hx), fetched_mem]

/-- The predecremented register ends at the lowest address, and no other address register changes. -/
theorem setAreg_after_transfers {s t : State} (ha : s.sameAddress t) (hs : t.sr = s.sr) (n : Reg) (v : Long) :
    s.sameAddressBut (t.setAreg n v) n := by
  obtain ⟨others, usp, ssp⟩ := setAreg_sameAddressBut t n v
  rw [hs] at usp ssp
  exact ⟨fun m hm => (others m hm).trans (areg_congr ha.1 ha.2.1 ha.2.2 (by rw [hs]) m),
    fun h => (usp h).trans ha.2.1, fun h => (ssp h).trans ha.2.2⟩

end Sys2Proof.Machine

namespace Sys2Proof.DataMovement

open Machine

/-- Settles O44: the transfers one behind another, upwards or, with `-(An)`, downwards. -/
theorem moveRegistersToMemory : Obligations.MoveRegistersToMemory := by
  intro sz mask ea s h hea bytes next stored
  refine ⟨?_, ?_⟩
  · rintro n rfl regs a he
    obtain ⟨t, ht, moved⟩ := moveRegistersToMemory_predecrement h sz mask he rfl
    have address : s.sameAddress t := by simpa [State.sameAddress] using moved.address
    exact nextWith_completed (i := .movemToMem sz mask (.pre n)) hea rfl
      ⟨_, ht, moved.registers_stored (setAreg_mem ..) (setAreg_d ..) (setAreg_pc ..) (systemKept_setAreg ..),
        areg_setAreg_same .., setAreg_after_transfers address (moved.kept.sr.trans (fetched_sr s 1)) n _⟩
  · intro hn a he
    obtain ⟨hc, ha⟩ : ea.isControl = true ∧ ea.isAlterable = true := by
      cases ea with
      | pre n => exact absurd rfl (hn n)
      | dn _ | an _ | post _ | pcDisp _ | pcIdx _ | imm _ => cases hea
      | _ => exact ⟨rfl, rfl⟩
    obtain ⟨t, ht, moved⟩ := moveRegistersToMemory_control h sz mask hc ha he
    exact nextWith_completed (i := .movemToMem sz mask ea) hea rfl ⟨t, ht,
      moved.registers_stored rfl rfl rfl (systemKept_refl t),
      by simpa [State.sameAddress] using moved.address⟩

end Sys2Proof.DataMovement
end

section
/-! MOVEM to registers: the transfers at rising addresses, and the word read behind the last (40_data_movement.md R157,
R159). -/

namespace Sys2Proof.Machine

/-! ### Transfers to registers -/

theorem systemKept_setXreg (s : State) (x : Fin 16) (v : Long) : SystemKept s (s.setXreg x v) := by
  unfold State.setXreg
  split
  · exact systemKept_setDreg ..
  · exact systemKept_setAreg ..

theorem within_fetched (s : State) (n : Nat) : Within s (s.fetched n) :=
  within_of_eq (fetched_sr ..) (fetched_usp ..) (fetched_ssp ..) (fetched_xgroup ..) (fetched_platform ..)

theorem xreg_afterRead (s : State) (sz : Size) (fc : BitVec 3) (a : Long) (x : Fin 16) :
    (s.afterRead sz fc a).xreg x = s.xreg x := by
  simp [State.xreg]

/-- From `s` each register has been loaded from the operands one behind another from `a` on, sign-extended, and nothing
else has changed but the bus record. -/
structure Loaded (s t : State) (sz : Size) (regs : List (Fin 16)) (a : Long) : Prop where
  loads : ∀ (k : Nat) (h : k < regs.length),
    t.xreg regs[k] = (s.readAt sz (a + BitVec.ofNat 32 (k * sz.bytes))).signExtend 32
  others : ∀ x ∉ regs, t.xreg x = s.xreg x
  mem : t.mem = s.mem
  pc : t.pc = s.pc
  within : Within s t
  kept : SystemKept s t

theorem loaded_nil (s : State) (sz : Size) (a : Long) : Loaded s s sz [] a where
  loads k h := absurd h (Nat.not_lt_zero k)
  others _ _ := rfl
  mem := rfl
  pc := rfl
  within := .refl s
  kept := systemKept_refl s

section
variable {s t : State} {sz : Size} {regs : List (Fin 16)} {a : Long}

/-- One register loaded before the others, which do not name it again. -/
theorem Loaded.cons {i : Fin 16} {fc : BitVec 3}
    (h : Loaded ((s.afterRead sz fc a).setXreg i ((s.readAt sz a).signExtend 32)) t sz regs
      (a + BitVec.ofNat 32 sz.bytes)) (hi : i ∉ regs) : Loaded s t sz (i :: regs) a where
  loads k hk := by
    cases k with
    | zero => simpa [xreg_setXreg_same] using h.others i hi
    | succ k =>
      have read := h.loads k (Nat.lt_of_succ_lt_succ hk)
      rw [readAt_congr (setXreg_mem ..), afterRead_readAt, BitVec.add_assoc, ← BitVec.ofNat_add, Nat.add_comm sz.bytes,
        ← Nat.succ_mul] at read
      exact read
  others x hx := by
    obtain ⟨hxi, hxr⟩ := not_or.mp (mt List.mem_cons.mpr hx)
    rw [h.others x hxr, xreg_setXreg_of_ne _ hxi, xreg_afterRead]
  mem := h.mem.trans ((setXreg_mem ..).trans (afterRead_mem ..))
  pc := h.pc.trans ((settledFrom_setXreg ..).pc.trans (afterRead_pc ..))
  within := ((within_afterRead ..).trans (within_setXreg ..)).trans h.within
  kept := ((systemKept_afterRead ..).trans (systemKept_setXreg ..)).trans h.kept

/-- A further read loads nothing. -/
theorem Loaded.afterRead (h : Loaded s t sz regs a) (sz' : Size) (fc : BitVec 3) (b : Long) :
    Loaded s (t.afterRead sz' fc b) sz regs a where
  loads k hk := (xreg_afterRead ..).trans (h.loads k hk)
  others x hx := (xreg_afterRead ..).trans (h.others x hx)
  mem := (afterRead_mem ..).trans h.mem
  pc := (afterRead_pc ..).trans h.pc
  within := h.within.trans (within_afterRead ..)
  kept := h.kept.trans (systemKept_afterRead ..)

/-- The words fetched before the transfers. -/
theorem Loaded.of_fetched {n : Nat} (h : Loaded (s.fetched n) t sz regs a) :
    (∀ (k : Nat) (h : k < regs.length),
        t.xreg regs[k] = (s.readAt sz (a + BitVec.ofNat 32 (k * sz.bytes))).signExtend 32) ∧
      (∀ x ∉ regs, t.xreg x = s.xreg x) ∧ t.mem = s.mem ∧ t.pc = s.pc + BitVec.ofNat 32 (2 * n) ∧ Within s t ∧
      SystemKept s t :=
  ⟨fun k hk => (h.loads k hk).trans (by rw [fetched_readAt]), fun x hx => (h.others x hx).trans (xreg_fetched ..),
    h.mem.trans (fetched_mem ..), h.pc.trans (fetched_pc ..), (within_fetched s n).trans h.within,
    (systemKept_fetched s n).trans h.kept⟩

end

/-- The transfers at rising addresses (40_data_movement.md R159). -/
theorem loadUp_loads (sz : WideSize) (mask : Word) (program : Bool) (an : Option Reg) {regs : List (Fin 16)}
    (hd : regs.Nodup) {s : State} {a : Long} (hp : s.platform = .plain) (he : isEven a = true) :
    ∃ t, loadUp sz.toSize mask program an regs a s =
        .ok (a + BitVec.ofNat 32 ((selected mask regs).length * sz.toSize.bytes)) t ∧
      Loaded s t sz.toSize (selected mask regs) a := by
  induction regs generalizing s a with
  | nil => exact ⟨s, by simp [loadUp], loaded_nil ..⟩
  | cons i regs ih =>
    obtain ⟨hi, hd⟩ := List.nodup_cons.mp hd
    by_cases hm : mask.getLsbD i.val = true
    · have read := leavingOpen_ok (memRead_quiet hp (isAligned_of_isEven he sz.toSize) (s.fc program)
        (runningAddress an a)) (pendingLoads mask (i :: regs))
      obtain ⟨t, ht, loaded⟩ := ih hd (s := (s.afterRead sz.toSize (s.fc program) a).setXreg i
        ((s.readAt sz.toSize a).signExtend 32)) (a := a + BitVec.ofNat 32 sz.toSize.bytes)
        ((settledFrom_setXreg ..).platform.trans (by simpa using hp)) (isEven_add_even he (isEven_wideBytes sz))
      rw [selected_cons_of_set regs hm]
      refine ⟨t, ?_, loaded.cons fun h => hi (List.mem_filter.mp h).1⟩
      rw [loadUp, if_pos hm]
      simp only [bind_apply, get_apply, read, modify_apply, ht]
      rw [BitVec.add_assoc, ← BitVec.ofNat_add, List.length_cons, Nat.succ_mul, Nat.add_comm sz.toSize.bytes]
    · rw [selected_cons_of_clear regs hm, loadUp, if_neg hm]
      exact ih hd hp he

theorem isEven_after_transfers (sz : WideSize) {a : Long} (he : isEven a = true) (n : Nat) :
    isEven (a + BitVec.ofNat 32 (n * sz.toSize.bytes)) = true := by
  refine isEven_add_even he ((isEven_toNat _).mpr ?_)
  rw [BitVec.toNat_ofNat]
  cases sz <;> simp only [WideSize.toSize, Size.bytes] <;> omega

/-- The transfers of a mask, and the read of the word behind them (40_data_movement.md R159). -/
theorem loadUp_then_read (sz : WideSize) (mask : Word) (program : Bool) (an : Option Reg) {s : State} {a b : Long}
    (hp : s.platform = .plain) (he : isEven a = true)
    (hb : a + BitVec.ofNat 32 ((maskRegisters mask false).length * sz.toSize.bytes) = b) (alt : Alt) :
    ∃ t v u, loadUp sz.toSize mask program an (List.finRange 16) a s = .ok b t ∧
      memRead .w (t.fc program) b alt t = .ok v u ∧ Loaded s u sz.toSize (maskRegisters mask false) a := by
  obtain ⟨t, ht, loaded⟩ := loadUp_loads sz mask program an (List.nodup_finRange 16) hp he
  rw [← maskRegisters_rising] at ht loaded
  have even : isEven b = true := hb ▸ isEven_after_transfers sz he _
  subst hb
  exact ⟨t, _, _, ht, memRead_quiet (loaded.within.plain hp) (isAligned_of_isEven even .w) _ alt,
    loaded.afterRead .w (t.fc program) _⟩

/-! ### MOVEM to registers -/

theorem moveMemoryToRegisters_of_isControl {ea : Ea} (h : ea.isControl = true) (sz : Size) (mask : Word) :
    moveMemoryToRegisters sz mask ea = (do
      leavingOpen (pendingLoads (BitVec.allOnes 16) (List.finRange 16)) (fetchWords 1)
      let s ← get
      let _ ← leavingOpen (pendingLoads mask (List.finRange 16)) (evalEa ea sz)
      let a ← loadUp sz mask (isProgramEa ea) none (List.finRange 16) (s.effectiveAddress ea sz)
      let _ ← memRead .w ((← get).fc (isProgramEa ea)) a []
      pure ()) := by
  cases ea with
  | dn _ | an _ | post _ | pre _ | imm _ => cases h
  | _ => rfl

section
variable {s : State} (h : s.ready) (sz : WideSize) (mask : Word)
include h

theorem moveMemoryToRegisters_control {ea : Ea} (hc : ea.isControl = true) {a : Long}
    (ha : (s.advanced 1).effectiveAddress ea sz.toSize = a) (he : isEven a = true) :
    ∃ t, moveMemoryToRegisters sz.toSize mask ea s = .ok () t ∧
      Loaded (s.fetched (1 + ea.words.length)) t sz.toSize (maskRegisters mask false) a := by
  obtain ⟨t, v, u, transfers, last, loaded⟩ := loadUp_then_read sz mask (isProgramEa ea) none
    (s := s.fetched (1 + ea.words.length)) (ready_fetched h _).1 he rfl []
  refine ⟨u, ?_, loaded⟩
  rw [moveMemoryToRegisters_of_isControl hc]
  simp only [bind_apply, leavingOpen_ok (fetchWords_ready h 1), get_apply,
    leavingOpen_ok (evalEa_after_mask h hc sz.toSize), effectiveAddress_advanced s 1, ha, transfers, last, pure_apply]

theorem moveMemoryToRegisters_postincrement {n : Reg} {b : Long} (he : isEven (s.areg n) = true)
    (hb : s.areg n + BitVec.ofNat 32 ((maskRegisters mask false).length * sz.toSize.bytes) = b) :
    ∃ t, moveMemoryToRegisters sz.toSize mask (.post n) s = .ok () (t.setAreg n b) ∧
      Loaded (s.fetched 1) t sz.toSize (maskRegisters mask false) (s.areg n) := by
  obtain ⟨t, v, u, transfers, last, loaded⟩ := loadUp_then_read sz mask false (some n) (s := s.fetched 1)
    (ready_fetched h 1).1 he hb (runningAddress (some n) b)
  refine ⟨u, ?_, loaded⟩
  simp only [moveMemoryToRegisters, bind_apply, leavingOpen_ok (fetchWords_ready h 1), get_apply, fetched_areg,
    transfers, last, modify_apply]

end

end Sys2Proof.Machine

namespace Sys2Proof.DataMovement

open Machine

/-- Settles O45: the registers loaded in turn, and the postincremented one written after them. -/
theorem moveMemoryToRegisters : Obligations.MoveMemoryToRegisters := by
  intro sz mask ea s h hea bytes regs a he
  by_cases hpost : ∃ n, ea = .post n
  · obtain ⟨n, rfl⟩ := hpost
    obtain ⟨t, ht, loaded⟩ := moveMemoryToRegisters_postincrement h sz mask he rfl
    obtain ⟨loads, others, mem, pc, within, kept⟩ := loaded.of_fetched
    obtain ⟨sr, system, draws⟩ := kept.trans (systemKept_setAreg t n _)
    refine nextWith_completed (i := .movemToReg sz mask (.post n)) hea rfl ⟨_, ht, fun k hk hn => ?_, ?_,
      fun x hx hn => ?_, (within.trans (within_setAreg ..)).unselectedStack, fun x => ?_, sr, ?_, system, draws⟩
    · rw [← setXreg_addressX, xreg_setXreg_of_ne _ (hn n rfl)]
      exact loads k hk
    · rintro m e
      cases e
      exact areg_setAreg_same ..
    · rw [← setXreg_addressX, xreg_setXreg_of_ne _ (hn n rfl)]
      exact others x hx
    · rw [setAreg_mem, mem]
    · rw [setAreg_pc, pc]
      rfl
  · have control : ea.isControl = true := by
      cases ea with
      | post n => exact absurd ⟨n, rfl⟩ hpost
      | dn _ | an _ | pre _ | imm _ => cases hea
      | _ => rfl
    obtain ⟨t, ht, loaded⟩ := moveMemoryToRegisters_control h sz mask control rfl he
    obtain ⟨loads, others, mem, pc, within, ⟨sr, system, draws⟩⟩ := loaded.of_fetched
    exact nextWith_completed (i := .movemToReg sz mask ea) hea rfl ⟨t, ht, fun k hk _ => loads k hk,
      fun n e => absurd ⟨n, e⟩ hpost, fun x hx _ => others x hx, within.unselectedStack, fun x => by rw [mem], sr, pc,
      system, draws⟩

end Sys2Proof.DataMovement
end

section
/-! The condition codes of addition and subtraction with an extend bit, at every width, and what the computations of
integer arithmetic answer in those terms (41_integer_arithmetic.md R180 to R182). -/

namespace Sys2Proof.Machine

/-! ### A sum with a carry in -/

section
variable {w : Nat} (s d : BitVec w) (x : Bool)

theorem toNat_add_bit : (d + s + BitVec.ofNat w x.toNat).toNat = (s.toNat + d.toNat + x.toNat) % 2 ^ w := by
  simp [BitVec.toNat_add, Nat.add_comm d.toNat]

/-- The sum, less the carry out of the most significant bit. -/
theorem toNat_add_bit_carry :
    (d + s + BitVec.ofNat w x.toNat).toNat + (if 2 ^ w ≤ s.toNat + d.toNat + x.toNat then 2 ^ w else 0) =
      s.toNat + d.toNat + x.toNat := by
  have hs := s.isLt
  have hd := d.isLt
  have hx := x.toNat_le
  rw [toNat_add_bit]
  split
  · next carry =>
    rw [Nat.mod_eq_sub_mod carry, Nat.mod_eq_of_lt (by omega)]
    omega
  · exact Nat.mod_eq_of_lt (by omega)

/-- C of a sum: the carry out of the most significant bit (41_integer_arithmetic.md R181). -/
theorem addCarry_add (hw : 0 < w) :
    addCarry s d (d + s + BitVec.ofNat w x.toNat) = decide (2 ^ w ≤ s.toNat + d.toNat + x.toNat) := by
  obtain ⟨n, rfl⟩ := Nat.exists_eq_succ_of_ne_zero hw.ne'
  have hs := s.isLt
  have hd := d.isLt
  have hx := x.toNat_le
  have hr := toNat_add_bit_carry s d x
  rw [Nat.pow_succ] at hs hd hr ⊢
  simp only [addCarry, BitVec.msb_eq_decide, Nat.succ_sub_one]
  rw [Bool.eq_iff_iff]
  simp only [Bool.or_eq_true, Bool.and_eq_true, Bool.not_eq_true', decide_eq_true_eq, decide_eq_false_iff_not]
  split at hr <;> omega

/-- A number with sign, by its most significant bit. -/
theorem toInt_cases {n : Nat} (v : BitVec (n + 1)) :
    (v.toNat < 2 ^ n ∧ v.toInt = v.toNat) ∨ (2 ^ n ≤ v.toNat ∧ v.toInt = v.toNat - 2 * (2 ^ n : Nat)) := by
  rw [BitVec.toInt_eq_toNat_cond, Nat.pow_succ]
  split <;> omega

/-- V of a sum: the signed sum is out of range (41_integer_arithmetic.md R181). -/
theorem addOverflow_add (hw : 0 < w) :
    addOverflow s d (d + s + BitVec.ofNat w x.toNat) = outOfRange w (s.toInt + d.toInt + x.toNat) := by
  obtain ⟨n, rfl⟩ := Nat.exists_eq_succ_of_ne_zero hw.ne'
  have hs := s.isLt
  have hd := d.isLt
  have hx := x.toNat_le
  have hr := toNat_add_bit_carry s d x
  have half : (2 : Int) ^ n = (2 ^ n : Nat) := by norm_cast
  rw [Nat.pow_succ] at hs hd hr
  simp only [addOverflow, outOfRange, BitVec.msb_eq_decide, Nat.succ_sub_one, half]
  rw [Bool.eq_iff_iff]
  simp only [Bool.or_eq_true, Bool.and_eq_true, Bool.not_eq_true', decide_eq_true_eq, decide_eq_false_iff_not]
  rcases toInt_cases s with ⟨ls, es⟩ | ⟨ls, es⟩ <;> rcases toInt_cases d with ⟨ld, ed⟩ | ⟨ld, ed⟩ <;>
    rw [es, ed] <;> split at hr <;> omega

end

/-! ### A difference with a borrow in -/

section
variable {w : Nat} (s d : BitVec w) (x : Bool)

theorem toNat_complement : (!x).toNat = 1 - x.toNat := by
  cases x <;> rfl

/-- A difference is the sum with the complement, where the borrow in is the missing carry in. -/
theorem sub_bit_eq_add_not :
    d - s - BitVec.ofNat w x.toNat = d + ~~~s + BitVec.ofNat w (!x).toNat := by
  rw [BitVec.not_eq_neg_add]
  cases x <;> simp only [Bool.toNat_true, Bool.toNat_false, Bool.not_true, Bool.not_false, BitVec.sub_zero,
    BitVec.add_zero] <;> ring

theorem toInt_not_eq (hw : 0 < w) : (~~~s).toInt = -s.toInt - 1 := by
  obtain ⟨n, rfl⟩ := Nat.exists_eq_succ_of_ne_zero hw.ne'
  have hs := s.isLt
  have complement : (~~~s).toNat = 2 ^ n * 2 - 1 - s.toNat := by rw [BitVec.toNat_not, Nat.pow_succ]
  rw [Nat.pow_succ] at hs
  rcases toInt_cases s with ⟨ls, es⟩ | ⟨ls, es⟩ <;> rcases toInt_cases (~~~s) with ⟨lc, ec⟩ | ⟨lc, ec⟩ <;>
    rw [es, ec] <;> omega

/-- C of a difference: the borrow (41_integer_arithmetic.md R182). -/
theorem subBorrow_sub_bit (hw : 0 < w) :
    subBorrow s d (d - s - BitVec.ofNat w x.toNat) = decide (d.toNat < s.toNat + x.toNat) := by
  have complement : ∀ r : BitVec w, subBorrow s d r = !addCarry (~~~s) d r := fun r => by
    unfold subBorrow addCarry
    rw [BitVec.msb_not]
    cases s.msb <;> cases d.msb <;> cases r.msb <;> simp [hw]
  have hs := s.isLt
  have hx := x.toNat_le
  rw [complement, sub_bit_eq_add_not, addCarry_add _ _ _ hw, BitVec.toNat_not, toNat_complement, ← decide_not,
    decide_eq_decide]
  omega

/-- V of a difference: the signed difference is out of range (41_integer_arithmetic.md R182). -/
theorem subOverflow_sub_bit (hw : 0 < w) :
    subOverflow s d (d - s - BitVec.ofNat w x.toNat) = outOfRange w (d.toInt - s.toInt - x.toNat) := by
  have complement : ∀ r : BitVec w, subOverflow s d r = addOverflow (~~~s) d r := fun r => by
    simp [subOverflow, addOverflow, BitVec.msb_not, hw]
  have hx := x.toNat_le
  rw [complement, sub_bit_eq_add_not, addOverflow_add _ _ _ hw, toInt_not_eq _ hw, toNat_complement]
  congr 1
  omega

end

/-! ### The condition codes -/

/-- Settles O18: the carry and the overflow of a sum with a carry in. -/
theorem addFlagsExact : Obligations.AddFlagsExact := by
  intro w sr s d x hw
  exact ⟨rfl, by rw [← decide_eq_true_iff (p := 2 ^ w ≤ _), ← addCarry_add s d x hw]; rfl, addOverflow_add s d x hw⟩

/-- Settles O19: the borrow and the overflow of a difference are those of the sum with the complement. -/
theorem subFlagsExact : Obligations.SubFlagsExact := by
  intro w sr s d x hw
  exact ⟨rfl, rfl, by rw [← decide_eq_true_iff (p := d.toNat < _), ← subBorrow_sub_bit s d x hw]; rfl,
    subOverflow_sub_bit s d x hw⟩

section
variable {w : Nat} (hw : 0 < w) (sr : Sr) (s d : BitVec w) (x : Bool)
include hw

theorem addFlags_eq_sumSr : sr.addFlags s d (d + s + BitVec.ofNat w x.toNat) = sumSr sr s d x := by
  simp only [Sr.addFlags, addCarry_add s d x hw, addOverflow_add s d x hw, sumSr]

theorem subFlags_eq_differenceSr : sr.subFlags s d (d - s - BitVec.ofNat w x.toNat) = differenceSr sr s d x := by
  simp only [Sr.subFlags, subBorrow_sub_bit s d x hw, subOverflow_sub_bit s d x hw, differenceSr]

/-! ### The computations -/

theorem addOp_eq : addOp s d sr = (d + s, sumSr sr s d false) := by
  rw [← addFlags_eq_sumSr hw]
  simp [addOp]

theorem subOp_eq : subOp s d sr = (d - s, differenceSr sr s d false) := by
  rw [← subFlags_eq_differenceSr hw]
  simp [subOp]

omit hw in
theorem extend_eq : sr.extend w = BitVec.ofNat w sr.x.toNat := by
  unfold Sr.extend
  cases sr.x <;> rfl

/-- ADDX: Z is kept by a result of zero (41_integer_arithmetic.md R187). -/
theorem addxOp_eq : addxOp s d sr =
    (d + s + BitVec.ofNat w sr.x.toNat,
      { sumSr sr s d sr.x with z := sr.z && d + s + BitVec.ofNat w sr.x.toNat == 0 }) := by
  rw [← addFlags_eq_sumSr hw]
  simp only [addxOp, extend_eq, Sr.stickyZero]
  rfl

/-- SUBX: Z is kept by a result of zero (41_integer_arithmetic.md R204). -/
theorem subxOp_eq : subxOp s d sr =
    (d - s - BitVec.ofNat w sr.x.toNat,
      { differenceSr sr s d sr.x with z := sr.z && d - s - BitVec.ofNat w sr.x.toNat == 0 }) := by
  rw [← subFlags_eq_differenceSr hw]
  simp only [subxOp, extend_eq, Sr.stickyZero]
  rfl

theorem negOp_eq : negOp d sr = (-d, differenceSr sr d 0 false) := by
  rw [negOp, subOp_eq hw, BitVec.zero_sub]
  rfl

theorem negxOp_eq : negxOp d sr =
    (-d - BitVec.ofNat w sr.x.toNat,
      { differenceSr sr d 0 sr.x with z := sr.z && -d - BitVec.ofNat w sr.x.toNat == 0 }) := by
  rw [negxOp, subxOp_eq hw, BitVec.zero_sub]
  rfl

/-- A comparison: the codes of the difference, X kept (41_integer_arithmetic.md R189). -/
theorem compareOp_eq : compareOp s d sr = { differenceSr sr s d false with x := sr.x } := by
  rw [← subFlags_eq_differenceSr hw]
  simp only [compareOp, Bool.toNat_false, BitVec.sub_zero]
  rfl

end

theorem Size.bits_pos (sz : Size) : 0 < sz.bits := by
  cases sz <;> decide

end Sys2Proof.Machine
end

section
/-! What the meanings of integer arithmetic leave, on the plain platform: states that agree but for `PC` and the record,
and the shapes of what is written (40_data_movement.md R150, 41_integer_arithmetic.md). -/

namespace Sys2Proof.Machine

/-! ### States that agree but for `PC` and the record -/

/-- The registers, memory, the status register, the internal state, the platform's inputs and the free values are the
same: what is left are `PC`, the words fetched and the bus cycles recorded. -/
structure Agrees (s t : State) : Prop extends SystemKept s t where
  d : t.d = s.d
  address : s.sameAddress t
  mem : t.mem = s.mem

theorem agrees_refl (s : State) : Agrees s s := ⟨systemKept_refl s, rfl, ⟨rfl, rfl, rfl⟩, rfl⟩

theorem Agrees.trans {s t u : State} (h : Agrees s t) (k : Agrees t u) : Agrees s u where
  toSystemKept := h.toSystemKept.trans k.toSystemKept
  d := k.d.trans h.d
  address := by simpa only [State.sameAddress, h.address] using k.address
  mem := k.mem.trans h.mem

theorem agrees_fetched (s : State) (n : Nat) : Agrees s (s.fetched n) where
  toSystemKept := systemKept_fetched s n
  d := fetched_d s n
  address := ⟨fetched_a s n, fetched_usp s n, fetched_ssp s n⟩
  mem := fetched_mem s n

theorem agrees_afterRead (s : State) (sz : Size) (fc : BitVec 3) (a : Long) : Agrees s (s.afterRead sz fc a) where
  toSystemKept := systemKept_afterRead s sz fc a
  d := afterRead_d ..
  address := ⟨afterRead_a .., afterRead_usp .., afterRead_ssp ..⟩
  mem := afterRead_mem ..

theorem agrees_operandRead (s : State) (ea : Ea) (sz : Size) : Agrees (s.stepAddress ea sz) (s.operandRead ea sz) where
  sr := by simp
  system := by simp [State.sameSystem]
  draws := by simp
  d := by simp
  address := operandRead_sameAddress s ea sz
  mem := by simp

section
variable {s t : State} (h : Agrees s t)
include h

theorem Agrees.dreg (n : Reg) : t.dreg n = s.dreg n := dreg_congr h.d n

theorem Agrees.areg (n : Reg) : t.areg n = s.areg n := by
  obtain ⟨ha, husp, hssp⟩ := h.address
  exact areg_congr ha husp hssp (by rw [h.sr]) n

theorem Agrees.ssp : t.ssp = s.ssp := by
  obtain ⟨-, -, hssp⟩ := h.address
  exact hssp

theorem Agrees.stepAddress (ea : Ea) (sz : Size) : Agrees (s.stepAddress ea sz) (t.stepAddress ea sz) where
  sr := by simpa using h.sr
  system := by simpa [State.sameSystem] using h.system
  draws := by simpa using h.draws
  d := by simpa using h.d
  address := stepAddress_congr h.address (by rw [h.sr]) ea sz
  mem := by simpa using h.mem

theorem Agrees.drawn : Agrees s.drawn t.drawn :=
  ⟨⟨h.sr, h.system, congrArg (· + 1) h.draws⟩, h.d, h.address, h.mem⟩

theorem Agrees.setSr (sr : Sr) : Agrees (s.setSr sr) (t.setSr sr) :=
  ⟨⟨rfl, h.system, h.draws⟩, h.d, h.address, h.mem⟩

theorem Agrees.effectiveAddress {ea : Ea} (hea : ea.isAlterable = true) (sz : Size) :
    t.effectiveAddress ea sz = s.effectiveAddress ea sz :=
  effectiveAddress_congr h.d h.address (by rw [h.sr]) hea sz

theorem Agrees.operandAligned {ea : Ea} (hea : ea.isAlterable = true) (sz : Size) :
    t.operandAligned ea sz = s.operandAligned ea sz := by
  rw [State.operandAligned, State.operandAligned, h.effectiveAddress hea]

theorem Agrees.operand {ea : Ea} (hea : ea.isAlterable = true) (sz : Size) : t.operand ea sz = s.operand ea sz := by
  have he := h.effectiveAddress hea sz
  cases ea <;> simp only [State.operand, h.dreg, h.areg, he, readAt_congr h.mem]

/-! ### What is left of states that agree -/

theorem Agrees.onlyCodes {u : State} {sr : Sr} {pc : Long} (k : t.onlyCodes u sr pc) : s.onlyCodes u sr pc := by
  obtain ⟨hsr, hpc, hd, ha, hm, hsys, hdraws⟩ := k
  refine ⟨hsr, hpc, hd.trans h.d, ?_, fun x => by rw [hm x, h.mem], ?_, hdraws.trans h.draws⟩
  · simpa only [State.sameAddress, h.address] using ha
  · simpa only [State.sameSystem, h.system] using hsys

theorem Agrees.onlyData {u : State} {dn : Reg} {v : Long} {sr : Sr} {pc : Long} (k : t.onlyData u dn v sr pc) :
    s.onlyData u dn v sr pc := by
  obtain ⟨hv, hd, hsr, hpc, ha, hm, hsys, hdraws⟩ := k
  refine ⟨hv, fun m hne => (hd m hne).trans (h.dreg m), hsr, hpc, ?_, fun x => by rw [hm x, h.mem], ?_,
    hdraws.trans h.draws⟩
  · simpa only [State.sameAddress, h.address] using ha
  · simpa only [State.sameSystem, h.system] using hsys

theorem Agrees.onlyOperand {u : State} {ea : Ea} (hea : ea.isAlterable = true) {sz : Size} {v : BitVec sz.bits}
    {sr : Sr} {pc : Long} (k : t.onlyOperand u ea sz v sr pc) : s.onlyOperand u ea sz v sr pc := by
  obtain ⟨hw, hsr, hpc, hsys, hdraws⟩ := k
  refine ⟨operandWritten_of_congr h.d h.address h.mem (by rw [h.sr]) hea hw, hsr, hpc, ?_, hdraws.trans h.draws⟩
  simpa only [State.sameSystem, h.system] using hsys

theorem Agrees.exceptionTaken {u : State} {g : XGroup} {sr : Sr} {v : Byte} {pc : Long}
    (k : t.exceptionTaken u g sr v pc) : s.exceptionTaken u g sr v pc := by
  simpa only [State.exceptionTaken, State.sameMemoryOutside, h.sr, h.d, h.address, h.mem, h.system] using k

end

/-! ### One register or the condition codes written -/

theorem onlyCodes_setSr (s : State) (sr : Sr) : s.onlyCodes (s.setSr sr) sr s.pc :=
  ⟨rfl, rfl, rfl, ⟨rfl, rfl, rfl⟩, fun _ => rfl, by simp [State.sameSystem], rfl⟩

theorem onlyData_setDreg (s : State) (dn : Reg) (v : Long) (sr : Sr) :
    s.onlyData ((s.setDreg dn v).setSr sr) dn v sr s.pc := by
  refine ⟨by simp, fun m hm => ?_, rfl, rfl, ⟨rfl, rfl, rfl⟩, fun _ => rfl, by simp [State.sameSystem], rfl⟩
  rw [dreg_setSr, dreg_setDreg_of_ne _ hm]

theorem onlyOperand_setSr {s t : State} {ea : Ea} {sz : Size} {v : BitVec sz.bits} {sr : Sr} {pc : Long}
    (h : s.onlyOperand t ea sz v sr pc) (sr' : Sr) : s.onlyOperand (t.setSr sr') ea sz v sr' pc := by
  obtain ⟨hw, -, hpc, hsys, hdraws⟩ := h
  exact ⟨operandWritten_congr rfl rfl rfl rfl rfl hw, rfl, hpc, hsys, hdraws⟩

/-- A source operand read and the condition codes written: everything it leaves. -/
theorem operandRead_onlyCodes (s : State) (ea : Ea) (sz : Size) (sr : Sr) :
    (s.stepAddress ea sz).onlyCodes ((s.operandRead ea sz).setSr sr) sr
      (s.pc + BitVec.ofNat 32 (2 * ea.words.length)) :=
  (agrees_operandRead s ea sz).onlyCodes (operandRead_pc s ea sz ▸ onlyCodes_setSr _ sr)

/-- A source operand read, a data register and the condition codes written: everything it leaves. -/
theorem operandRead_onlyData (s : State) (ea : Ea) (sz : Size) (dn : Reg) (v : Long) (sr : Sr) :
    (s.stepAddress ea sz).onlyData (((s.operandRead ea sz).setDreg dn v).setSr sr) dn v sr
      (s.pc + BitVec.ofNat 32 (2 * ea.words.length)) :=
  (agrees_operandRead s ea sz).onlyData (operandRead_pc s ea sz ▸ onlyData_setDreg _ dn v sr)

end Sys2Proof.Machine
end

section
/-! ADD, SUB, ADDX, SUBX, NEG and their immediate, quick and address forms, EXT, SWAP and MOVEQ
(41_integer_arithmetic.md R183 to R188, R195, R198 to R204, 40_data_movement.md R156, R164, R166). -/

namespace Sys2Proof.Machine

/-! ### ADD and SUB -/

/-- Settles O22: `<ea>,Dn` with the codes of the sum and of the difference. -/
theorem addSubToDataRegister : Obligations.AddSubToDataRegister := by
  intro sz ea dn s h hfit ha u v d next
  have sum := eaToDn_ready h ha dn addOp
  have difference := eaToDn_ready h ha dn subOp
  simp only [addOp_eq (Size.bits_pos sz), subOp_eq (Size.bits_pos sz)] at sum difference
  exact ⟨nextWith_completed (i := .addToDn sz ea dn) hfit rfl sum,
    nextWith_completed (i := .subToDn sz ea dn) hfit rfl difference⟩

theorem Ea.isDataAlterable_of_isMemoryAlterable {ea : Ea} (h : ea.isMemoryAlterable = true) :
    ea.isDataAlterable = true := by
  cases ea <;> first | rfl | cases h

theorem Ea.isAlterable_of_isDataAlterable {ea : Ea} (h : ea.isDataAlterable = true) : ea.isAlterable = true :=
  (Bool.and_eq_true_iff.mp h).1

/-- Settles O23: `Dn,<ea>` and `#imm,<ea>` with the codes of the sum and of the difference. -/
theorem addSubToDestination : Obligations.AddSubToDestination := by
  refine fun ea s h => ⟨fun sz dn hea ha => ?_, fun v hea ha => ?_⟩
  · have data := Ea.isDataAlterable_of_isMemoryAlterable hea
    have sum := dnToEa_ready h ha data dn addOp
    have difference := dnToEa_ready h ha data dn subOp
    simp only [addOp_eq (Size.bits_pos sz), subOp_eq (Size.bits_pos sz)] at sum difference
    exact ⟨nextWith_completed (i := .addToMem sz dn ea) hea rfl sum,
      nextWith_completed (i := .subToMem sz dn ea) hea rfl difference⟩
  · have sum := immToEa_ready h ha hea addOp
    have difference := immToEa_ready h ha hea subOp
    simp only [addOp_eq (Size.bits_pos v.size), subOp_eq (Size.bits_pos v.size)] at sum difference
    exact ⟨nextWith_completed (i := .addi v ea) hea rfl sum, nextWith_completed (i := .subi v ea) hea rfl difference⟩

/-! ### ADDQ and SUBQ -/

/-- The quick forms with a data operand (41_integer_arithmetic.md R186, R203). -/
theorem quickEa_onlyOperand {s : State} (h : s.ready) {ea : Ea} {sz : Size} (ha : s.operandAligned ea sz = true)
    (hea : ea.isDataAlterable = true) (f : Fin 8) (op : Binary sz.bits) (addressOp : Long → Long → Long) :
    let q := BitVec.ofNat sz.bits (quickValue f)
    ∃ t, quickEa f sz ea op addressOp s = .ok () t ∧
      s.onlyOperand t ea sz (op q (s.operand ea sz) s.sr).1 (op q (s.operand ea sz) s.sr).2
        (s.pc + BitVec.ofNat 32 (2 * ea.words.length)) := by
  have modified := modifyEa_onlyOperand h ha hea (op (BitVec.ofNat sz.bits (quickValue f)))
  cases ea with
  | an _ => cases hea
  | _ => exact modified

/-- The quick forms with an address register: all 32 bits, and no condition code (41_integer_arithmetic.md R186,
R203). -/
theorem quickEa_address (f : Fin 8) (sz : Size) (n : Reg) (op : Binary sz.bits) (addressOp : Long → Long → Long)
    (s : State) :
    ∃ t, quickEa f sz (.an n) op addressOp s = .ok () t ∧
      s.onlyAddress t n (addressOp (s.areg n) (BitVec.ofNat 32 (quickValue f))) s.pc :=
  ⟨_, rfl, onlyAddress_setAreg s n _⟩

/-- Settles O24: a data operand as ADD and SUB have it, an address register as a whole. -/
theorem addSubQuick : Obligations.AddSubQuick := by
  intro f sz s h q
  refine ⟨fun ea hea ha => ?_, fun n hsz => ?_⟩
  · have sum := quickEa_onlyOperand h ha hea f addOp fun a q => a + q
    have difference := quickEa_onlyOperand h ha hea f subOp fun a q => a - q
    simp only [addOp_eq (Size.bits_pos sz), subOp_eq (Size.bits_pos sz)] at sum difference
    have wellFormed : (ea.isAlterable && ea.fits sz) = true :=
      Bool.and_eq_true_iff.mpr ⟨Ea.isAlterable_of_isDataAlterable hea, Ea.fits_of_isDataAlterable hea sz⟩
    exact ⟨nextWith_completed (i := .addq f sz ea) wellFormed rfl sum,
      nextWith_completed (i := .subq f sz ea) wellFormed rfl difference⟩
  · have wellFormed : ((Ea.an n).isAlterable && (Ea.an n).fits sz) = true := by
      simpa [Ea.isAlterable, Ea.fits] using hsz
    exact ⟨nextWith_completed (i := .addq f sz (.an n)) wellFormed rfl (quickEa_address f sz n addOp _ s),
      nextWith_completed (i := .subq f sz (.an n)) wellFormed rfl (quickEa_address f sz n subOp _ s)⟩

/-! ### ADDA, SUBA and MOVEA -/

/-- A long operand is extended to itself (10_state.md R24). -/
theorem signExtend_operand_long (s : State) (ea : Ea) : (s.operand ea .l).signExtend 32 = s.operand ea .l :=
  BitVec.signExtend_eq _

/-- Settles O25: `<ea>,An` with the source stepped before the register is read; a long source is extended to itself. -/
theorem addressRegisterArithmetic : Obligations.AddressRegisterArithmetic := by
  intro ea an s h next
  refine ⟨fun hfit ha => ?_, fun hfit ha => ?_⟩
  · have written := eaToAn_ready h (sz := .w) ha an
    exact ⟨nextWith_completed (i := .addaW ea an) hfit rfl (written _),
      nextWith_completed (i := .subaW ea an) hfit rfl (written _),
      nextWith_completed (i := .moveaW ea an) hfit rfl (written _)⟩
  · have written := eaToAn_ready h (sz := .l) ha an
    simp only [WideSize.toSize, signExtend_operand_long] at written
    exact ⟨nextWith_completed (i := .addaL ea an) hfit rfl (written _),
      nextWith_completed (i := .subaL ea an) hfit rfl (written _),
      nextWith_completed (i := .moveaL ea an) hfit rfl (written _)⟩

/-! ### ADDX and SUBX -/

/-- `Dy,Dx`: everything it leaves (41_integer_arithmetic.md R187). -/
theorem regToReg_onlyData (sz : Size) (dy dx : Reg) (op : Binary sz.bits) (s : State) :
    let o := op ((s.dreg dy).setWidth sz.bits) ((s.dreg dx).setWidth sz.bits) s.sr
    ∃ t, regToReg sz dy dx op s = .ok () t ∧ s.onlyData t dx (setLow (s.dreg dx) o.1) o.2 s.pc :=
  ⟨_, rfl, onlyData_setDreg s dx _ _⟩

/-- `-(Ay),-(Ax)`: the source is read before the destination is evaluated (41_integer_arithmetic.md R187). -/
theorem memToMem_onlyOperand {s : State} (h : s.ready) {sz : Size} {ay ax : Reg}
    (hy : s.operandAligned (.pre ay) sz = true)
    (hx : (s.stepAddress (.pre ay) sz).operandAligned (.pre ax) sz = true) (op : Binary sz.bits) :
    let o := op (s.operand (.pre ay) sz) ((s.stepAddress (.pre ay) sz).operand (.pre ax) sz) s.sr
    ∃ t, memToMem sz ay ax op s = .ok () t ∧
      (s.stepAddress (.pre ay) sz).onlyOperand t (.pre ax) sz o.1 o.2 s.pc := by
  have agrees := agrees_operandRead s (.pre ay) sz
  obtain ⟨t, ht, left⟩ := modifyEa_onlyOperand (ready_operandRead h (.pre ay) sz)
    ((agrees.operandAligned rfl sz).trans hx) rfl (op (s.operand (.pre ay) sz))
  rw [agrees.operand rfl, operandRead_sr, operandRead_pc, Ea.words, Ea.words] at left
  refine ⟨t, ?_, agrees.onlyOperand rfl (by simpa using left)⟩
  simp only [memToMem, bind_apply, readEa_ready h hy]
  exact ht

/-- Settles O26: the extended sum and difference of registers, and of operands in memory, the source first. -/
theorem extendedArithmetic : Obligations.ExtendedArithmetic := by
  intro sz y x s h bit sumCodes differenceCodes
  refine ⟨?_, fun hy hx => ?_⟩
  · have sum := regToReg_onlyData sz y x addxOp s
    have difference := regToReg_onlyData sz y x subxOp s
    simp only [addxOp_eq (Size.bits_pos sz), subxOp_eq (Size.bits_pos sz)] at sum difference
    exact ⟨nextWith_completed (i := .addxReg sz y x) rfl rfl sum,
      nextWith_completed (i := .subxReg sz y x) rfl rfl difference⟩
  · have sum := memToMem_onlyOperand h hy hx addxOp
    have difference := memToMem_onlyOperand h hy hx subxOp
    simp only [addxOp_eq (Size.bits_pos sz), subxOp_eq (Size.bits_pos sz)] at sum difference
    exact ⟨nextWith_completed (i := .addxMem sz y x) rfl rfl sum,
      nextWith_completed (i := .subxMem sz y x) rfl rfl difference⟩

/-! ### EXT, SWAP and MOVEQ -/

theorem setLow_long (old v : Long) : setLow old v = v := by
  rw [← BitVec.setWidth_eq (setLow old v), setWidth_setLow old v le_rfl]

/-- The halves of a long word exchanged (40_data_movement.md R166). -/
theorem append_halves_eq_rotateLeft (v : Long) : v.extractLsb' 0 16 ++ v.extractLsb' 16 16 = v.rotateLeft 16 := by
  refine BitVec.eq_of_getLsbD_eq fun k hk => ?_
  rw [BitVec.getLsbD_append, BitVec.getLsbD_extractLsb', BitVec.getLsbD_extractLsb', BitVec.getLsbD_rotateLeft]
  split <;> simp [*]; omega

/-- Settles O32: each writes one data register, and the codes of what it writes. -/
theorem registerOperations : Obligations.RegisterOperations := by
  refine fun n s => ⟨?_, ?_, ?_, fun v => ?_⟩
  · exact nextWith_completed (i := .extW n) rfl rfl ⟨_, rfl, onlyData_setDreg s n _ _⟩
  · refine nextWith_completed (i := .extL n) rfl rfl ⟨_, rfl, ?_⟩
    simp only [State.setDregLow, setLow_long]
    exact onlyData_setDreg s n _ _
  · exact nextWith_completed (i := .swap n) rfl rfl
      ⟨_, rfl, append_halves_eq_rotateLeft (s.dreg n) ▸ onlyData_setDreg s n _ _⟩
  · exact nextWith_completed (i := .moveq v n) rfl rfl ⟨_, rfl, onlyData_setDreg s n _ _⟩

end Sys2Proof.Machine
end

section
/-! NEG, NEGX, NOT, CLR, TAS, Scc, MOVE from SR and the comparisons (41_integer_arithmetic.md R188 to R192, R198, R199,
R205, R206, 42_logical.md R237, 46_program_control.md R295, 47_system_control.md R319). -/

namespace Sys2Proof.Machine

/-! ### A destination that is only written -/

/-- The state after a destination has been evaluated, read, and written with a value that does not depend on it. -/
def State.overwritten (s : State) (ea : Ea) (sz : Size) (v : BitVec sz.bits) : State :=
  ((s.evaluated ea sz).locationRead s ea sz).stored s ea sz v

theorem agrees_evaluated (s : State) (ea : Ea) (sz : Size) : Agrees (s.stepAddress ea sz) (s.evaluated ea sz) :=
  (agrees_fetched s _).stepAddress ea sz

theorem agrees_locationRead (t s : State) (ea : Ea) (sz : Size) : Agrees t (t.locationRead s ea sz) := by
  unfold State.locationRead
  split
  · exact agrees_afterRead ..
  · exact agrees_refl t

/-- A destination evaluated in `s` and written: everything it leaves (40_data_movement.md R150). -/
theorem stored_onlyOperand {s t : State} {ea : Ea} {sz : Size} (h : Agrees (s.stepAddress ea sz) t)
    (hea : ea.isDataAlterable = true) (v : BitVec sz.bits) : s.onlyOperand (t.stored s ea sz v) ea sz v s.sr t.pc := by
  obtain ⟨⟨sr, system, draws⟩, d, address, mem⟩ := h
  simp only [stepAddress_sr, stepAddress_draws, stepAddress_d, stepAddress_mem] at sr draws d mem
  refine ⟨operandWritten_stored address d mem hea v, by simp [sr], by simp, ?_, by simp [draws]⟩
  simpa [State.sameSystem] using system

theorem overwritten_onlyOperand (s : State) {ea : Ea} (hea : ea.isDataAlterable = true) (sz : Size)
    (v : BitVec sz.bits) :
    s.onlyOperand (s.overwritten ea sz v) ea sz v s.sr (s.pc + BitVec.ofNat 32 (2 * ea.words.length)) := by
  have left := stored_onlyOperand ((agrees_evaluated s ea sz).trans (agrees_locationRead _ s ea sz)) hea v
  rwa [locationRead_pc, stepAddress_pc, fetched_pc] at left

@[simp] theorem overwritten_sr (s : State) (ea : Ea) (sz : Size) (v : BitVec sz.bits) :
    (s.overwritten ea sz v).sr = s.sr := by
  simp [State.overwritten]

/-- The read whose value is discarded (41_integer_arithmetic.md R188). -/
theorem discardRead_ready {s t : State} (h : t.platform = .plain) {ea : Ea} {sz : Size}
    (ha : s.operandAligned ea sz = true) (hd : t.d = s.d) (hm : t.mem = s.mem) (hea : ea.isData = true) :
    discardRead sz (s.location ea sz) t = .ok () (t.locationRead s ea sz) := by
  by_cases hme : isMemoryEa ea = true
  · obtain ⟨alt, lf, hl⟩ := location_memory s hme sz
    have read := readLoc_ready h ha hd hm hea
    rw [hl] at read ⊢
    simp only [discardRead, Loc.isMem, if_true, bind_apply, read, pure_apply]
  · cases ea <;> first | rfl | exact absurd rfl hme

section
variable {s : State} (h : s.ready) {ea : Ea} (hea : ea.isDataAlterable = true)
include h hea

/-- `EvalEA`, the read whose value is discarded, and the write. -/
theorem overwrite_ready {sz : Size} (ha : s.operandAligned ea sz = true) :
    evalEa ea sz s = .ok (s.location ea sz) (s.evaluated ea sz) ∧
      discardRead sz (s.location ea sz) (s.evaluated ea sz) =
        .ok () ((s.evaluated ea sz).locationRead s ea sz) ∧
      ∀ v, writeLoc sz (s.location ea sz) v ((s.evaluated ea sz).locationRead s ea sz) =
        .ok () (s.overwritten ea sz v) :=
  ⟨evalEa_ready h ea sz,
    discardRead_ready (by simpa using h.1) ha (by simp) (by simp) (Ea.isData_of_isDataAlterable hea),
    fun v => writeLoc_ready (by simpa using h.1) ha v⟩

theorem clearEa_ready {sz : Size} (ha : s.operandAligned ea sz = true) :
    clearEa sz ea s =
      .ok () ((s.overwritten ea sz 0).setSr { s.sr with n := false, z := true, v := false, c := false }) := by
  obtain ⟨evaluated, read, written⟩ := overwrite_ready h hea ha
  simp only [clearEa, bind_apply, evaluated, read, written, modify_apply, overwritten_sr]

theorem setByCondition_ready (c : Cond) :
    setByCondition c ea s = .ok () (s.overwritten ea .b (if condHolds c s.sr then 0xFF else 0)) := by
  obtain ⟨evaluated, read, written⟩ := overwrite_ready h hea (sz := .b) (by simp [State.operandAligned, isAligned])
  simp only [setByCondition, bind_apply, evaluated, read, get_apply, locationRead_sr, stepAddress_sr, fetched_sr]
  exact written _

theorem moveFromStatus_ready (ha : s.operandAligned ea .w = true) :
    moveFromStatus ea s = .ok () (s.overwritten ea .w s.sr.toWord) := by
  obtain ⟨evaluated, read, written⟩ := overwrite_ready h hea ha
  simp only [moveFromStatus, bind_apply, evaluated, read, get_apply, locationRead_sr, stepAddress_sr, fetched_sr]
  exact written _

end

/-- Settles O27: each reads and writes one destination; CLR discards what it reads. -/
theorem unaryOperations : Obligations.UnaryOperations := by
  intro sz ea s h hea ha d bit next
  have negated := modifyEa_onlyOperand h ha hea negOp
  have negatedExtended := modifyEa_onlyOperand h ha hea negxOp
  simp only [negOp_eq (Size.bits_pos sz), negxOp_eq (Size.bits_pos sz)] at negated negatedExtended
  exact ⟨nextWith_completed (i := .neg sz ea) hea rfl negated,
    nextWith_completed (i := .negx sz ea) hea rfl negatedExtended,
    nextWith_completed (i := .notEa sz ea) hea rfl (modifyEa_onlyOperand h ha hea notOp),
    nextWith_completed (i := .clr sz ea) hea rfl
      ⟨_, clearEa_ready h hea ha, onlyOperand_setSr (overwritten_onlyOperand s hea sz 0) _⟩⟩

/-! ### TAS -/

/-- The indivisible cycle where the platform answers (20_memory.md R75). -/
theorem readModifyWrite_quiet {s : State} (h : s.platform = .plain) (fc : BitVec 3) (a : Long) (alt : Alt)
    (f : Byte → Byte) :
    readModifyWrite fc a alt f s = .ok (s.byteAt a)
      ((s.setByte a (f (s.byteAt a))).record (.readModifyWrite fc (busAddress a) (s.byteAt a) (f (s.byteAt a)))) := by
  simp [readModifyWrite, beginCycle_quiet h, answerReadModifyWrite, busFault_quiet h, atDevice_quiet h, cellAt_plain h,
    setCell_plain h]

/-- A byte written in an indivisible cycle leaves what a byte write leaves, but for the record. -/
theorem onlyOperand_record {s t : State} {ea : Ea} {sz : Size} {v : BitVec sz.bits} {sr : Sr} {pc : Long}
    (e : BusEvent) (h : s.onlyOperand (t.record e) ea sz v sr pc) (e' : BusEvent) :
    s.onlyOperand (t.record e') ea sz v sr pc := by
  obtain ⟨hw, hsr, hpc, hsys, hdraws⟩ := h
  exact ⟨operandWritten_congr rfl rfl rfl rfl rfl hw, hsr, hpc, hsys, hdraws⟩

/-- TAS of a byte in memory: one indivisible cycle, and the flags (41_integer_arithmetic.md R205). -/
theorem testAndSet_memory {s : State} (h : s.ready) {ea : Ea} (hme : isMemoryEa ea = true) :
    let u := s.evaluated ea .b
    let a := s.effectiveAddress ea .b
    let d : Byte := s.operand ea .b
    testAndSet ea s =
      .ok () (((u.setByte a (d ||| 0x80)).record (.readModifyWrite (u.fc false) (busAddress a) d (d ||| 0x80))).setSr
        (s.sr.logicFlags d)) := by
  intro u a d
  obtain ⟨alt, lf, hl⟩ := location_memory s hme .b
  have before : u.byteAt a = d := (byteAt_congr (by simp [u]) a).trans (operand_memory s hme .b).symm
  simp only [testAndSet, bind_apply, evalEa_ready h, hl, get_apply, readModifyWrite_quiet (ready_evaluated h ea .b).1]
  simp [u, a, before, setLogic]

/-- TAS: the flags from the byte before, which is written back with bit 7 set (41_integer_arithmetic.md R205). -/
theorem testAndSet_onlyOperand {s : State} (h : s.ready) {ea : Ea} (hea : ea.isDataAlterable = true) :
    ∃ t, testAndSet ea s = .ok () t ∧
      s.onlyOperand t ea .b (s.operand ea .b ||| 0x80) (s.sr.logicFlags (s.operand ea .b))
        (s.pc + BitVec.ofNat 32 (2 * ea.words.length)) := by
  have left := stored_onlyOperand (agrees_evaluated s ea .b) hea (s.operand ea .b ||| 0x80)
  rw [stepAddress_pc, fetched_pc] at left
  by_cases hme : isMemoryEa ea = true
  · obtain ⟨alt, lf, hl⟩ := location_memory s hme .b
    simp only [State.stored, hl, State.afterWrite] at left
    exact ⟨_, testAndSet_memory h hme, onlyOperand_setSr (onlyOperand_record _ left _) _⟩
  · cases ea with
    | dn n => exact ⟨_, by simp only [testAndSet, bind_apply, evalEa_ready h]; rfl, onlyOperand_setSr left _⟩
    | an _ | imm _ => cases hea
    | _ => exact absurd rfl hme

/-- Settles O47: each writes one destination, TAS with the codes of the byte before. -/
theorem storeOperations : Obligations.StoreOperations := by
  intro ea s h hea next
  exact ⟨nextWith_completed (i := .tas ea) hea rfl (testAndSet_onlyOperand h hea),
    fun c => nextWith_completed (i := .scc c ea) hea rfl
      ⟨_, setByCondition_ready h hea c, overwritten_onlyOperand s hea .b _⟩,
    fun ha => nextWith_completed (i := .moveFromSr ea) hea rfl
      ⟨_, moveFromStatus_ready h hea ha, overwritten_onlyOperand s hea .w _⟩⟩

/-! ### Comparisons -/

/-- An operand `(An)+` of CMPM read and An stepped: the state agrees with the one stepped (41_integer_arithmetic.md
R192). -/
theorem readThenStep_agrees {s t : State} (h : t.platform = .plain) (k : Agrees s t) {sz : Size} {n : Reg}
    (ha : s.operandAligned (.post n) sz = true) :
    ∃ u, readThenStep sz n t = .ok (s.operand (.post n) sz) u ∧ u.platform = .plain ∧ u.pc = t.pc ∧
      Agrees (s.stepAddress (.post n) sz) u := by
  have aligned : isAligned sz (t.areg n) = true := by rw [k.areg]; exact ha
  have value : t.readAt sz (t.areg n) = s.operand (.post n) sz := by rw [k.areg, readAt_congr k.mem]; rfl
  rw [readThenStep_ready h aligned, value]
  exact ⟨_, rfl, by simpa using h, by simp, (k.trans (agrees_afterRead t sz _ _)).stepAddress _ _⟩

section
variable {s : State} (h : s.ready)
include h

theorem compareDn_onlyCodes {sz : Size} {ea : Ea} (ha : s.operandAligned ea sz = true) (dn : Reg) :
    ∃ t, compareDn sz ea dn s = .ok () t ∧
      (s.stepAddress ea sz).onlyCodes t (compareOp (s.operand ea sz) ((s.dreg dn).setWidth sz.bits) s.sr)
        (s.pc + BitVec.ofNat 32 (2 * ea.words.length)) := by
  refine ⟨_, ?_, operandRead_onlyCodes s ea sz _⟩
  simp only [compareDn, bind_apply, readEa_ready h ha, get_apply, setCompare, modify_apply, operandRead_dreg,
    operandRead_sr]

theorem compareAn_onlyCodes {sz : WideSize} {ea : Ea} (ha : s.operandAligned ea sz.toSize = true) (an : Reg) :
    ∃ t, compareAn sz ea an s = .ok () t ∧
      (s.stepAddress ea sz.toSize).onlyCodes t
        (compareOp ((s.operand ea sz.toSize).signExtend 32) ((s.stepAddress ea sz.toSize).areg an) s.sr)
        (s.pc + BitVec.ofNat 32 (2 * ea.words.length)) := by
  refine ⟨_, ?_, operandRead_onlyCodes s ea sz.toSize _⟩
  simp only [compareAn, bind_apply, readEa_ready h ha, get_apply, setCompare, modify_apply, operandRead_areg,
    operandRead_sr]

theorem testEa_onlyCodes {sz : Size} {ea : Ea} (ha : s.operandAligned ea sz = true) :
    ∃ t, testEa sz ea s = .ok () t ∧
      (s.stepAddress ea sz).onlyCodes t (s.sr.logicFlags (s.operand ea sz))
        (s.pc + BitVec.ofNat 32 (2 * ea.words.length)) := by
  refine ⟨_, ?_, operandRead_onlyCodes s ea sz _⟩
  simp only [testEa, bind_apply, readEa_ready h ha, setLogic, modify_apply, operandRead_sr]

/-- CMPI: the immediate words before the extension words (41_integer_arithmetic.md R191). -/
theorem compareImm_onlyCodes {v : Imm} {ea : Ea} (hea : ea.isAlterable = true)
    (ha : s.operandAligned ea v.size = true) :
    ∃ t, compareImm v ea s = .ok () t ∧
      (s.stepAddress ea v.size).onlyCodes t (compareOp v.value (s.operand ea v.size) s.sr)
        (s.pc + BitVec.ofNat 32 (2 * (v.words.length + ea.words.length))) := by
  have agrees := agrees_fetched s v.words.length
  have aligned := (agrees.operandAligned hea v.size).trans ha
  have read := operandRead_onlyCodes (s.fetched v.words.length) ea v.size
    (compareOp v.value (s.operand ea v.size) s.sr)
  rw [fetched_pc, BitVec.add_assoc, ← BitVec.ofNat_add, ← Nat.mul_add] at read
  refine ⟨_, ?_, (agrees.stepAddress ea v.size).onlyCodes read⟩
  simp only [compareImm, bind_apply, fetchWords_ready h, readEa_ready (ready_fetched h _) aligned,
    agrees.operand hea, setCompare, modify_apply, operandRead_sr, fetched_sr]

/-- CMPM: the second operand is read through the registers that the first leaves (41_integer_arithmetic.md R192). -/
theorem compareMem_onlyCodes {sz : Size} {ay ax : Reg} (hy : s.operandAligned (.post ay) sz = true)
    (hx : (s.stepAddress (.post ay) sz).operandAligned (.post ax) sz = true) :
    ∃ t, compareMem sz ay ax s = .ok () t ∧
      ((s.stepAddress (.post ay) sz).stepAddress (.post ax) sz).onlyCodes t
        (compareOp (s.operand (.post ay) sz) ((s.stepAddress (.post ay) sz).operand (.post ax) sz) s.sr) s.pc := by
  obtain ⟨t, first, plain, pc, agrees⟩ := readThenStep_agrees h.1 (agrees_refl s) hy
  obtain ⟨u, second, -, pc', agrees'⟩ := readThenStep_agrees plain agrees hx
  have sr : u.sr = s.sr := by rw [agrees'.sr, stepAddress_sr, stepAddress_sr]
  refine ⟨_, ?_, agrees'.onlyCodes (pc'.trans pc ▸ onlyCodes_setSr u _)⟩
  simp only [compareMem, bind_apply, first, second, setCompare, modify_apply, sr]

end

/-- Settles O28: each reads its operands and writes the codes of the difference, or of the operand. -/
theorem comparisons : Obligations.Comparisons := by
  intro s h
  have codes : ∀ (sz : Size) (v d : BitVec sz.bits),
      compareOp v d s.sr = { differenceSr s.sr v d false with x := s.sr.x } :=
    fun sz v d => compareOp_eq (Size.bits_pos sz) s.sr v d
  refine ⟨fun sz ea dn hfit ha => ?_, fun v ea hea ha => ?_, fun ea an hfit ha => ?_, fun ea an hfit ha => ?_,
    fun sz y x hy hx => ?_, fun sz ea hea ha => ?_⟩
  · rw [← codes]
    exact nextWith_completed (i := .cmp sz ea dn) hfit rfl (compareDn_onlyCodes h ha dn)
  · rw [← codes]
    exact nextWith_completed (i := .cmpi v ea) hea rfl
      (compareImm_onlyCodes h (Ea.isAlterable_of_isDataAlterable hea) ha)
  · rw [← codes .l]
    exact nextWith_completed (i := .cmpaW ea an) hfit rfl (compareAn_onlyCodes h (sz := .w) ha an)
  · have compared := compareAn_onlyCodes h (sz := .l) ha an
    simp only [WideSize.toSize, signExtend_operand_long] at compared
    rw [← codes .l]
    exact nextWith_completed (i := .cmpaL ea an) hfit rfl compared
  · rw [← codes]
    exact nextWith_completed (i := .cmpm sz y x) rfl rfl (compareMem_onlyCodes h hy hx)
  · exact nextWith_completed (i := .tst sz ea) hea rfl (testEa_onlyCodes h ha)

end Sys2Proof.Machine
end

section
/-! MULU, MULS, DIVU and DIVS: products, quotients and remainders as numbers, the overflow and the trap of a divisor of
zero (41_integer_arithmetic.md R193, R194, R196, R197, 60_exceptions.md R381). -/

namespace Sys2Proof.Machine

/-! ### Words as numbers with sign -/

theorem toInt_word_bounds (v : Word) : -32768 ≤ v.toInt ∧ v.toInt ≤ 32767 := by
  have := v.toInt_lt
  have := v.le_toInt
  omega

theorem toInt_ofInt_word {n : Int} (h : -32768 ≤ n ∧ n ≤ 32767) : (BitVec.ofInt 16 n).toInt = n := by
  rw [BitVec.toInt_ofInt]
  exact Int.bmod_eq_of_le (by omega) (by omega)

/-! ### Multiplication -/

theorem mulUnsigned_toNat (s d : Word) : (mulUnsigned s d).toNat = d.toNat * s.toNat := by
  rw [mulUnsigned, BitVec.toNat_ofNat]
  exact Nat.mod_eq_of_lt ((Nat.mul_lt_mul'' d.isLt s.isLt).trans_eq (by decide))

theorem mulSigned_toInt (s d : Word) : (mulSigned s d).toInt = d.toInt * s.toInt := by
  have bound : |d.toInt * s.toInt| ≤ 32768 * 32768 := by
    rw [abs_mul]
    exact mul_le_mul (abs_le.mpr (by have := toInt_word_bounds d; omega))
      (abs_le.mpr (by have := toInt_word_bounds s; omega)) (abs_nonneg _) (by decide)
  rw [abs_le] at bound
  rw [mulSigned, BitVec.toInt_ofInt]
  exact Int.bmod_eq_of_le (by omega) (by omega)

/-- A product by a word operand: the whole register, and the codes of the product (41_integer_arithmetic.md R196,
R197). -/
theorem multiplyDn_onlyData {s : State} (h : s.ready) {ea : Ea} (ha : s.operandAligned ea .w = true) (dn : Reg)
    (multiply : Word → Word → Long) :
    let p := multiply (s.operand ea .w) ((s.dreg dn).setWidth 16)
    ∃ t, multiplyDn ea dn multiply s = .ok () t ∧
      (s.stepAddress ea .w).onlyData t dn p (s.sr.logicFlags p) (s.pc + BitVec.ofNat 32 (2 * ea.words.length)) := by
  refine ⟨_, ?_, operandRead_onlyData s ea .w dn _ _⟩
  simp only [multiplyDn, bind_apply, readEa_ready h ha, modify_apply, operandRead_dreg, operandRead_sr]

/-- Settles O29: the product of two words is a long word, with and without sign. -/
theorem multiplication : Obligations.Multiplication := by
  intro ea dn s h hea hfit ha u v d next
  have wellFormed : (ea.isData && ea.fits .w) = true := Bool.and_eq_true_iff.mpr ⟨hea, hfit⟩
  obtain ⟨t, ht, unsigned⟩ := multiplyDn_onlyData h ha dn mulUnsigned
  obtain ⟨t', ht', signed⟩ := multiplyDn_onlyData h ha dn mulSigned
  exact ⟨nextWith_completed (i := .mulu ea dn) wellFormed rfl ⟨t, ht, _, mulUnsigned_toNat v d, unsigned⟩,
    nextWith_completed (i := .muls ea dn) wellFormed rfl ⟨t', ht', _, mulSigned_toInt v d, signed⟩⟩

/-! ### Quotient and remainder -/

/-- An unsigned quotient that fits in a word, and the remainder (41_integer_arithmetic.md R194). -/
theorem divUnsigned_fits {n : Long} {m : Word} (hm : m ≠ 0) (h : n.toNat / m.toNat < 2 ^ 16) :
    ∃ q rem : Word, divUnsigned n m = some (rem, q) ∧ q.toNat = n.toNat / m.toNat ∧ rem.toNat = n.toNat % m.toNat := by
  have positive : 0 < m.toNat := Nat.pos_of_ne_zero fun e => hm (BitVec.eq_of_toNat_eq e)
  have remainder : n.toNat % m.toNat < 2 ^ 16 := (Nat.mod_lt _ positive).trans m.isLt
  exact ⟨_, _, if_neg (by omega), by rw [BitVec.toNat_ofNat, Nat.mod_eq_of_lt h],
    by rw [BitVec.toNat_ofNat, Nat.mod_eq_of_lt remainder]⟩

theorem divUnsigned_overflow {n : Long} {m : Word} (h : ¬n.toNat / m.toNat < 2 ^ 16) : divUnsigned n m = none :=
  if_pos (by omega)

theorem outOfRange_word (n : Int) : outOfRange 16 n = false ↔ -32768 ≤ n ∧ n ≤ 32767 := by
  rw [outOfRange, Bool.or_eq_false_iff, decide_eq_false_iff_not, decide_eq_false_iff_not]
  omega

/-- A signed quotient that fits in a word, and the remainder with the sign of the dividend (41_integer_arithmetic.md
R193). -/
theorem divSigned_fits {n : Long} {m : Word} (hm : m ≠ 0) (h : outOfRange 16 (n.toInt.tdiv m.toInt) = false) :
    ∃ q rem : Word, divSigned n m = some (rem, q) ∧ q.toInt = n.toInt.tdiv m.toInt ∧
      rem.toInt = n.toInt.tmod m.toInt := by
  rw [outOfRange_word] at h
  have nonzero : m.toInt ≠ 0 := fun e => hm (BitVec.eq_of_toInt_eq e)
  have remainder : -32768 ≤ n.toInt.tmod m.toInt ∧ n.toInt.tmod m.toInt ≤ 32767 := by
    have small : (n.toInt.tmod m.toInt).natAbs < m.toInt.natAbs := by
      rw [Int.natAbs_tmod]
      exact Nat.mod_lt _ (Int.natAbs_pos.mpr nonzero)
    have := toInt_word_bounds m
    omega
  have difference : n.toInt - n.toInt.tdiv m.toInt * m.toInt = n.toInt.tmod m.toInt := by
    rw [Int.tmod_def, Int.mul_comm]
  refine ⟨_, _, if_neg (by omega), toInt_ofInt_word h, ?_⟩
  rw [difference, toInt_ofInt_word remainder]

theorem divSigned_overflow {n : Long} {m : Word} (h : ¬outOfRange 16 (n.toInt.tdiv m.toInt) = false) :
    divSigned n m = none := by
  rw [outOfRange_word] at h
  exact if_pos (by omega)

/-! ### Division -/

/-- A group 2 exception of the running instruction (60_exceptions.md R351). -/
theorem raiseTrap_ready {s : State} (h : s.platform = .plain) (he : isEven s.ssp = true) (v : Byte) :
    ∃ t, raiseTrap v s = .ok () t ∧ s.exceptionTaken t .g2 s.sr.supervisor v s.pc ∧ t.draws = s.draws :=
  takeException_ready h he .g2 (.internal v) s.pc

/-- The exception does not depend on how many free values have been drawn. -/
theorem State.exceptionTaken.of_drawn {s t : State} {g : XGroup} {sr sr' : Sr} {v : Byte} {pc : Long}
    (h : (s.drawn.setSr sr).exceptionTaken t g sr' v pc) : (s.setSr sr).exceptionTaken t g sr' v pc := h

/-- A divisor of zero: N, Z and V free, C cleared, and the trap (41_integer_arithmetic.md R193, 60_exceptions.md
R381). -/
theorem zeroDivide_ready {s : State} (h : s.platform = .plain) (he : isEven s.ssp = true) :
    ∃ t, zeroDivide s = .ok () t ∧ ∃ n z v : Bool,
      let sr : Sr := { s.sr with n := n, z := z, v := v, c := false }
      (s.setSr sr).exceptionTaken t .g2 sr.supervisor 5 s.pc ∧ t.draws = s.draws + 3 := by
  obtain ⟨n, z, v, free⟩ : ∃ n z v : Bool, zeroDivide s =
      raiseTrap 5 (s.drawn.drawn.drawn.setSr { s.sr with n := n, z := z, v := v, c := false }) := ⟨_, _, _, rfl⟩
  obtain ⟨t, ht, taken, draws⟩ :=
    raiseTrap_ready (s := s.drawn.drawn.drawn.setSr { s.sr with n := n, z := z, v := v, c := false }) h he 5
  exact ⟨t, free.trans ht, n, z, v, taken.of_drawn.of_drawn.of_drawn, draws⟩

/-- The overflow: N and Z free, V set, C cleared (41_integer_arithmetic.md R193). -/
theorem divideOverflow_onlyCodes (s : State) :
    ∃ t, divideOverflow s = .ok () t ∧ ∃ n z : Bool,
      s.drawn.drawn.onlyCodes t { s.sr with n := n, z := z, v := true, c := false } s.pc :=
  ⟨_, rfl, _, _, onlyCodes_setSr s.drawn.drawn _⟩

section
variable {s : State} (h : s.ready) {ea : Ea} (ha : s.operandAligned ea .w = true) (dn : Reg)
  (divide : Long → Word → Option (Word × Word))
include h ha

/-- DIVU and DIVS once the divisor has been read (41_integer_arithmetic.md R193, R194). -/
theorem divideDn_eq : divideDn ea dn divide s =
    if s.operand ea .w = 0 then zeroDivide (s.operandRead ea .w)
    else match divide (s.dreg dn) (s.operand ea .w) with
      | none => divideOverflow (s.operandRead ea .w)
      | some (rem, q) => .ok () (((s.operandRead ea .w).setDreg dn (rem ++ q)).setSr (s.sr.logicFlags q)) := by
  simp only [divideDn, bind_apply, readEa_ready h ha]
  split
  · rfl
  · simp only [bind_apply, get_apply, operandRead_dreg, ← operandRead_sr s ea .w]
    cases divide (s.dreg dn) (s.operand ea .w) <;> rfl

/-- A quotient that fits: remainder and quotient in the register, and the codes of the quotient
(41_integer_arithmetic.md R193, R194). -/
theorem divideDn_onlyData (hm : s.operand ea .w ≠ 0) {q rem : Word}
    (hq : divide (s.dreg dn) (s.operand ea .w) = some (rem, q)) :
    ∃ t, divideDn ea dn divide s = .ok () t ∧
      (s.stepAddress ea .w).onlyData t dn (rem ++ q) (s.sr.logicFlags q)
        (s.pc + BitVec.ofNat 32 (2 * ea.words.length)) :=
  ⟨_, by rw [divideDn_eq h ha, if_neg hm, hq], operandRead_onlyData s ea .w dn _ _⟩

/-- A quotient that does not fit: the register is as it was (41_integer_arithmetic.md R193, R194). -/
theorem divideDn_overflow (hm : s.operand ea .w ≠ 0) (hq : divide (s.dreg dn) (s.operand ea .w) = none) :
    ∃ t, divideDn ea dn divide s = .ok () t ∧ ∃ n z : Bool,
      ({ s.stepAddress ea .w with draws := s.draws + 2 } : State).onlyCodes t
        { s.sr with n := n, z := z, v := true, c := false } (s.pc + BitVec.ofNat 32 (2 * ea.words.length)) := by
  obtain ⟨t, ht, n, z, left⟩ := divideOverflow_onlyCodes (s.operandRead ea .w)
  rw [operandRead_sr, operandRead_pc] at left
  rw [divideDn_eq h ha, if_neg hm, hq, ← stepAddress_draws s ea .w]
  exact ⟨t, ht, n, z, (agrees_operandRead s ea .w).drawn.drawn.onlyCodes left⟩

/-- A divisor of zero: the exception is taken in the state that the operand leaves (41_integer_arithmetic.md R193). -/
theorem divideDn_zero (hm : s.operand ea .w = 0) (he : isEven (s.stepAddress ea .w).ssp = true) :
    ∃ t, divideDn ea dn divide s = .ok () t ∧ ∃ n z v : Bool,
      let sr : Sr := { s.sr with n := n, z := z, v := v, c := false }
      ((s.stepAddress ea .w).setSr sr).exceptionTaken t .g2 sr.supervisor 5
        (s.pc + BitVec.ofNat 32 (2 * ea.words.length)) ∧ t.draws = s.draws + 3 := by
  have agrees := agrees_operandRead s ea .w
  obtain ⟨t, ht, n, z, v, taken, draws⟩ := zeroDivide_ready (ready_operandRead h ea .w).1 (agrees.ssp ▸ he)
  rw [operandRead_sr, operandRead_pc] at taken
  exact ⟨t, by rw [divideDn_eq h ha, if_pos hm, ht], n, z, v, (agrees.setSr _).exceptionTaken taken,
    draws.trans (by rw [operandRead_draws])⟩

end

/-- Settles O30: the quotient fits exactly where the model answers one. -/
theorem division : Obligations.Division := by
  intro ea dn s h hea hfit ha hm u m d next overflow
  have wellFormed : (ea.isData && ea.fits .w) = true := Bool.and_eq_true_iff.mpr ⟨hea, hfit⟩
  refine ⟨nextWith_completed (i := .divu ea dn) wellFormed rfl ?_,
    nextWith_completed (i := .divs ea dn) wellFormed rfl ?_⟩
  · by_cases fits : d.toNat / m.toNat < 2 ^ 16
    · obtain ⟨q, rem, answer, quotient, remainder⟩ := divUnsigned_fits hm fits
      obtain ⟨t, ht, left⟩ := divideDn_onlyData h ha dn divUnsigned hm answer
      exact ⟨t, ht, by rw [if_pos fits]; exact ⟨q, rem, quotient, remainder, left⟩⟩
    · obtain ⟨t, ht, left⟩ := divideDn_overflow h ha dn divUnsigned hm (divUnsigned_overflow fits)
      exact ⟨t, ht, by rw [if_neg fits]; exact left⟩
  · by_cases fits : outOfRange 16 (d.toInt.tdiv m.toInt) = false
    · obtain ⟨q, rem, answer, quotient, remainder⟩ := divSigned_fits hm fits
      obtain ⟨t, ht, left⟩ := divideDn_onlyData h ha dn divSigned hm answer
      exact ⟨t, ht, by rw [if_pos fits]; exact ⟨q, rem, quotient, remainder, left⟩⟩
    · obtain ⟨t, ht, left⟩ := divideDn_overflow h ha dn divSigned hm (divSigned_overflow fits)
      exact ⟨t, ht, by rw [if_neg fits]; exact left⟩

/-- Settles O31: three free values, and the exception in a state that agrees with the one that the operand leaves. -/
theorem zeroDivideTraps : Obligations.ZeroDivideTraps := by
  intro ea dn s h hea hfit ha hm he i hi
  have wellFormed : (ea.isData && ea.fits .w) = true := Bool.and_eq_true_iff.mpr ⟨hea, hfit⟩
  simp only [List.mem_cons, List.not_mem_nil, or_false] at hi
  obtain rfl | rfl := hi
  · exact nextWith_completed (i := .divu ea dn) wellFormed rfl (divideDn_zero h ha dn divUnsigned hm he)
  · exact nextWith_completed (i := .divs ea dn) wellFormed rfl (divideDn_zero h ha dn divSigned hm he)

end Sys2Proof.Machine
end

section
/-! AND, OR, EOR and their immediate forms (42_logical.md R231 to R236). `andOp`, `orOp` and `eorOp` are by definition the
bitwise result and `logic_flags` of it, so each statement is the rule of its operand form at that operation. -/

namespace Sys2Proof.Machine

/-- Settles O33: `<ea>,Dn` with a data source and the codes of the bitwise result. -/
theorem logicToDataRegister : Obligations.LogicToDataRegister := by
  intro sz ea dn s h hea hfit ha u v d next
  have wellFormed : (ea.isData && ea.fits sz) = true := Bool.and_eq_true_iff.mpr ⟨hea, hfit⟩
  exact ⟨nextWith_completed (i := .andToDn sz ea dn) wellFormed rfl (eaToDn_ready h ha dn andOp),
    nextWith_completed (i := .orToDn sz ea dn) wellFormed rfl (eaToDn_ready h ha dn orOp)⟩

/-- Settles O34: `Dn,<ea>`, to memory alone for AND and OR, and `#imm,<ea>`, with the codes of the bitwise result. -/
theorem logicToDestination : Obligations.LogicToDestination := by
  refine fun ea s h => ⟨fun sz dn ha => ⟨fun hea => ?_, fun hea => ?_⟩, fun v hea ha => ?_⟩
  · have data := Ea.isDataAlterable_of_isMemoryAlterable hea
    exact ⟨nextWith_completed (i := .andToMem sz dn ea) hea rfl (dnToEa_ready h ha data dn andOp),
      nextWith_completed (i := .orToMem sz dn ea) hea rfl (dnToEa_ready h ha data dn orOp)⟩
  · exact nextWith_completed (i := .eor sz dn ea) hea rfl (dnToEa_ready h ha hea dn eorOp)
  · exact ⟨nextWith_completed (i := .andi v ea) hea rfl (immToEa_ready h ha hea andOp),
      nextWith_completed (i := .ori v ea) hea rfl (immToEa_ready h ha hea orOp),
      nextWith_completed (i := .eori v ea) hea rfl (immToEa_ready h ha hea eorOp)⟩

end Sys2Proof.Machine
end

section
/-! Shifts and rotations of bit vectors by one bit, and rotations as repeated ones (43_shift_rotate.md R252). -/

namespace Sys2Proof.Machine

/-! ### Bits of one step -/

/-- A bit shifted in below bit 0. -/
theorem getLsbD_shiftLeft_or_bottom {w : Nat} (v : BitVec w) (b : Bool) {i : Nat} (hi : i < w) :
    (v <<< 1 ||| if b then 1#w else 0#w).getLsbD i = if i = 0 then b else v.getLsbD (i - 1) := by
  have bottom : (if b then 1#w else 0#w).getLsbD i = (decide (i = 0) && b) := by
    cases b
    · simp
    · simp
      omega
  rw [BitVec.getLsbD_or, BitVec.getLsbD_shiftLeft, bottom]
  by_cases h : i = 0 <;> simp [h, hi, -BitVec.getLsbD_eq_getElem]

/-- A bit shifted in above the most significant bit. -/
theorem getLsbD_ushiftRight_or_top {w : Nat} (v : BitVec w) (b : Bool) {i : Nat} (hi : i < w) :
    (v >>> 1 ||| if b then 1#w <<< (w - 1) else 0#w).getLsbD i = if i + 1 = w then b else v.getLsbD (i + 1) := by
  have top : (if b then 1#w <<< (w - 1) else 0#w).getLsbD i = (decide (i + 1 = w) && b) := by
    cases b
    · simp
    · rw [if_pos rfl, BitVec.getLsbD_shiftLeft, BitVec.getLsbD_one, Bool.and_true, Bool.eq_iff_iff]
      simp only [Bool.and_eq_true, Bool.not_eq_true', decide_eq_true_eq, decide_eq_false_iff_not]
      omega
  rw [BitVec.getLsbD_or, BitVec.getLsbD_ushiftRight, top, Nat.add_comm]
  by_cases h : i + 1 = w <;> simp [h, -BitVec.getLsbD_eq_getElem]

/-! ### Rotations -/

theorem rotateLeft_zero {w : Nat} (v : BitVec w) : v.rotateLeft 0 = v :=
  BitVec.eq_of_getMsbD_eq fun i hi => by simp [BitVec.getMsbD_rotateLeft, hi, Nat.mod_eq_of_lt hi]

theorem rotateLeft_succ {w : Nat} (v : BitVec w) (n : Nat) : v.rotateLeft (n + 1) = (v.rotateLeft n).rotateLeft 1 := by
  refine BitVec.eq_of_getMsbD_eq fun i hi => ?_
  have inside : (1 + i) % w < w := Nat.mod_lt _ (by omega)
  simp [BitVec.getMsbD_rotateLeft, hi, inside, Nat.add_assoc]

theorem getLsbD_rotateRight_of_lt {w : Nat} (v : BitVec w) (n : Nat) {i : Nat} (hi : i < w) :
    (v.rotateRight n).getLsbD i = v.getLsbD ((n + i) % w) := by
  have inside : n % w < w := Nat.mod_lt _ (by omega)
  rw [BitVec.getLsbD_rotateRight, ← Nat.mod_add_mod]
  generalize n % w = k at inside ⊢
  by_cases h : i < w - k
  · rw [Nat.mod_eq_of_lt (by omega), decide_eq_true h, cond_true]
  · rw [Nat.mod_eq_sub_mod (by omega), Nat.mod_eq_of_lt (by omega), decide_eq_false h, cond_false, decide_eq_true hi,
      Bool.true_and, show i - (w - k) = k + i - w by omega]

theorem rotateRight_zero {w : Nat} (v : BitVec w) : v.rotateRight 0 = v :=
  BitVec.eq_of_getLsbD_eq fun i hi => by rw [getLsbD_rotateRight_of_lt v 0 hi, Nat.zero_add, Nat.mod_eq_of_lt hi]

theorem rotateRight_succ {w : Nat} (v : BitVec w) (n : Nat) :
    v.rotateRight (n + 1) = (v.rotateRight n).rotateRight 1 := by
  refine BitVec.eq_of_getLsbD_eq fun i hi => ?_
  have inside : (1 + i) % w < w := Nat.mod_lt _ (by omega)
  rw [getLsbD_rotateRight_of_lt _ _ hi, getLsbD_rotateRight_of_lt _ _ hi, getLsbD_rotateRight_of_lt _ _ inside,
    Nat.add_mod_mod, Nat.add_assoc]

theorem rotateLeft_one {w : Nat} (v : BitVec w) : v.rotateLeft 1 = v <<< 1 ||| if v.msb then 1#w else 0#w := by
  refine BitVec.eq_of_getMsbD_eq fun i hi => ?_
  rw [BitVec.getMsbD_rotateLeft, BitVec.getMsbD_eq_getLsbD _ i, getLsbD_shiftLeft_or_bottom v _ (by omega),
    decide_eq_true hi, Bool.true_and, Bool.true_and, Nat.add_comm]
  by_cases h : i + 1 = w
  · rw [h, Nat.mod_self, if_pos (by omega), BitVec.msb]
  · rw [Nat.mod_eq_of_lt (by omega), if_neg (by omega), BitVec.getMsbD_eq_getLsbD, decide_eq_true (by omega),
      Bool.true_and, Nat.sub_sub _ i, Nat.sub_sub]

theorem rotateRight_one {w : Nat} (v : BitVec w) :
    v.rotateRight 1 = v >>> 1 ||| if v.getLsbD 0 then 1#w <<< (w - 1) else 0#w := by
  refine BitVec.eq_of_getLsbD_eq fun i hi => ?_
  rw [getLsbD_rotateRight_of_lt v 1 hi, getLsbD_ushiftRight_or_top v _ hi, Nat.add_comm]
  by_cases h : i + 1 = w
  · rw [h, Nat.mod_self, if_pos rfl]
  · rw [Nat.mod_eq_of_lt (by omega), if_neg h]

theorem sshiftRight_one {w : Nat} (v : BitVec w) :
    v.sshiftRight 1 = v >>> 1 ||| if v.msb then 1#w <<< (w - 1) else 0#w := by
  refine BitVec.eq_of_getLsbD_eq fun i hi => ?_
  rw [BitVec.getLsbD_sshiftRight, getLsbD_ushiftRight_or_top v _ hi, Nat.add_comm]
  by_cases h : i + 1 = w
  · simp [h, hi]
  · have : i + 1 < w := by omega
    simp [h, hi, this]

theorem extractLsb'_concat_one {w : Nat} (v : BitVec w) (b : Bool) : (v.concat b).extractLsb' 1 w = v := by
  refine BitVec.eq_of_getLsbD_eq fun i hi => ?_
  rw [BitVec.getLsbD_extractLsb', BitVec.getLsbD_concat, decide_eq_true hi, Bool.true_and, if_neg (by omega),
    Nat.add_sub_cancel_left]

/-- One rotation to the left of a value with X above it (43_shift_rotate.md R259). -/
theorem cons_rotateLeft_one {w : Nat} (hw : 0 < w) (x : Bool) (v : BitVec w) :
    (BitVec.cons x v).rotateLeft 1 = BitVec.cons v.msb (v <<< 1 ||| if x then 1#w else 0#w) := by
  rw [rotateLeft_one, BitVec.msb_cons]
  refine BitVec.eq_of_getLsbD_eq fun i hi => ?_
  rw [getLsbD_shiftLeft_or_bottom _ _ hi, BitVec.getLsbD_cons, BitVec.getLsbD_cons, if_neg (by omega : ¬i - 1 = w)]
  by_cases h : i = w
  · rw [if_neg (by omega), if_pos h, h, BitVec.msb_eq_getLsbD_last]
  · rw [if_neg h, getLsbD_shiftLeft_or_bottom v x (by omega)]

/-- One rotation to the right of a value with X below it (43_shift_rotate.md R260). -/
theorem concat_rotateRight_one {w : Nat} (hw : 0 < w) (x : Bool) (v : BitVec w) :
    (v.concat x).rotateRight 1 = (v >>> 1 ||| if x then 1#w <<< (w - 1) else 0#w).concat (v.getLsbD 0) := by
  rw [rotateRight_one, BitVec.getLsbD_concat_zero]
  refine BitVec.eq_of_getLsbD_eq fun i hi => ?_
  rw [getLsbD_ushiftRight_or_top _ _ hi, BitVec.getLsbD_concat, BitVec.getLsbD_concat, if_neg (by omega : ¬i + 1 = 0),
    Nat.add_sub_cancel]
  by_cases h : i = 0
  · rw [if_neg (by omega), if_pos h, h]
  · rw [if_neg h, getLsbD_ushiftRight_or_top v x (by omega), Nat.sub_add_cancel (by omega)]
    simp only [Nat.add_right_cancel_iff]

end Sys2Proof.Machine
end

section
/-! The closed forms of the shifts and rotates are the one-bit steps of 43_shift_rotate.md R252. -/

namespace Sys2Proof.Machine

/-! ### What the closed forms compute -/

theorem lsl_r {w : Nat} (d : BitVec w) (n : Nat) (x : Bool) : (lsl d n x).r = d <<< n := by
  by_cases h : n < w
  · exact if_pos h
  · exact (if_neg h).trans (BitVec.shiftLeft_eq_zero (by omega)).symm

theorem lsr_r {w : Nat} (d : BitVec w) (n : Nat) (x : Bool) : (lsr d n x).r = d >>> n := by
  by_cases h : n < w
  · exact if_pos h
  · exact (if_neg h).trans (BitVec.ushiftRight_eq_zero (by omega)).symm

theorem asr_r {w : Nat} (d : BitVec w) (n : Nat) (x : Bool) : (asr d n x).r = d.sshiftRight n := by
  by_cases h : n < w
  · exact if_pos h
  · refine (if_neg h).trans (BitVec.eq_of_getLsbD_eq fun i hi => ?_)
    have beyond : ¬n + i < w := by omega
    rw [BitVec.getLsbD_sshiftRight]
    cases d.msb <;> simp [hi, beyond]

theorem leftCarry_succ {w : Nat} (d : BitVec w) (n : Nat) : leftCarry d (n + 1) = (d <<< n).msb := by
  simp [leftCarry, BitVec.msb_shiftLeft, BitVec.getMsbD_eq_getLsbD, Nat.sub_sub, Nat.add_comm]

theorem rightCarry_succ {w : Nat} (d : BitVec w) (n : Nat) (b : Bool) :
    rightCarry d (n + 1) b = if n < w then d.getLsbD n else b := by
  simp [rightCarry]

/-- The `n + 1` high-order bits, by themselves (43_shift_rotate.md R253). -/
theorem getMsbD_highOrder {w : Nat} (d : BitVec w) {n i : Nat} (hn : n < w) (hi : i ≤ n) :
    (d.extractLsb' (w - 1 - n) (n + 1)).getMsbD i = d.getMsbD i := by
  rw [BitVec.getMsbD_eq_getLsbD, BitVec.getLsbD_extractLsb', BitVec.getMsbD_eq_getLsbD, decide_eq_true (by omega),
    decide_eq_true (by omega), decide_eq_true (by omega), Bool.true_and, Nat.add_sub_cancel,
    show w - 1 - n + (n - i) = w - 1 - i by omega]

/-- A value whose bits are all equal. -/
theorem eq_zero_or_allOnes_iff {w : Nat} (v : BitVec w) (hw : 0 < w) :
    v = 0#w ∨ v = BitVec.allOnes w ↔ ∀ i < w, v.getMsbD i = v.msb := by
  refine ⟨?_, fun h => ?_⟩
  · rintro (rfl | rfl) i hi
    · simp
    · simp [hi, BitVec.msb_allOnes hw]
  · cases top : v.msb with
    | false => exact .inl (BitVec.eq_of_getMsbD_eq fun i hi => by simp [h i hi, top])
    | true => exact .inr (BitVec.eq_of_getMsbD_eq fun i hi => by simp [h i hi, top, hi])

/-- V of ASL stays clear while each bit that becomes the most significant one equals the first (43_shift_rotate.md
R253). -/
theorem aslOverflow_eq_false_iff {w : Nat} (d : BitVec w) (n : Nat) :
    aslOverflow d n = false ↔ ∀ i ≤ n, d.getMsbD i = d.msb := by
  unfold aslOverflow
  by_cases zero : n = 0
  · simp [zero, BitVec.msb]
  by_cases inside : n < w
  · have top : (d.extractLsb' (w - 1 - n) (n + 1)).msb = d.msb := getMsbD_highOrder d inside n.zero_le
    simp only [if_neg zero, if_pos inside, Bool.and_eq_false_iff, bne_eq_false_iff_eq]
    simp only [eq_zero_or_allOnes_iff _ n.succ_pos, top, Nat.lt_succ_iff]
    exact forall₂_congr fun i hi => by rw [getMsbD_highOrder d inside hi]
  · simp only [if_neg zero, if_neg inside, bne_eq_false_iff_eq]
    refine ⟨fun h i _ => by simp [h], fun h => BitVec.eq_of_getMsbD_eq fun i hi => ?_⟩
    rw [h i (by omega), ← h w (by omega), BitVec.getMsbD_of_ge d w le_rfl, BitVec.getMsbD_zero]

theorem aslOverflow_succ {w : Nat} (d : BitVec w) (n : Nat) :
    aslOverflow d (n + 1) = (aslOverflow d n || (d <<< n).msb != (d <<< n <<< 1).msb) := by
  rw [← Bool.not_inj_iff, Bool.eq_iff_iff, Bool.not_eq_true', Bool.not_eq_true', Bool.or_eq_false_iff,
    bne_eq_false_iff_eq, aslOverflow_eq_false_iff, aslOverflow_eq_false_iff, ← BitVec.shiftLeft_add,
    BitVec.msb_shiftLeft, BitVec.msb_shiftLeft]
  refine ⟨fun h => ⟨fun i hi => h i (by omega), (h n (by omega)).trans (h (n + 1) le_rfl).symm⟩, ?_⟩
  intro ⟨h, last⟩ i hi
  obtain before | rfl := Nat.lt_or_eq_of_le hi
  · exact h i (by omega)
  · exact last.symm.trans (h n le_rfl)

/-! ### The closed forms step by step -/

/-- What a shift or rotate leaves, as the state of the one-bit steps. -/
def Shifted.state {w : Nat} (o : Shifted w) : ShiftState w := { v := o.r, x := o.x, out := o.c, changed := o.v }

theorem Shifted.state_eq {w : Nat} {o : Shifted w} {u : ShiftState w} (value : o.r = u.v) (x : o.x = u.x)
    (out : o.c = u.out) (changed : o.v = u.changed) : o.state = u := by
  rw [Shifted.state, value, x, out, changed]

section
variable {w : Nat} (d : BitVec w) (n : Nat) (x : Bool)

theorem lsl_succ : (lsl d (n + 1) x).state = ShiftKind.step .lsl (lsl d n x).state := by
  have value : (lsl d (n + 1) x).r = (lsl d n x).r <<< 1 := by rw [lsl_r, lsl_r, BitVec.shiftLeft_add]
  have out : leftCarry d (n + 1) = (lsl d n x).r.msb := by rw [lsl_r, leftCarry_succ]
  exact Shifted.state_eq value out out rfl

/-- ASL is LSL but for V (43_shift_rotate.md R255). -/
theorem asl_succ : (asl d (n + 1) x).state = ShiftKind.step .asl (asl d n x).state := by
  obtain ⟨value, extend, out, -⟩ := ShiftState.mk.inj (lsl_succ d n x)
  have changed : aslOverflow d (n + 1) = (aslOverflow d n || (lsl d n x).r.msb != ((lsl d n x).r <<< 1).msb) := by
    rw [lsl_r, aslOverflow_succ]
  exact Shifted.state_eq value extend out changed

theorem lsr_succ : (lsr d (n + 1) x).state = ShiftKind.step .lsr (lsr d n x).state := by
  have value : (lsr d (n + 1) x).r = (lsr d n x).r >>> 1 := by rw [lsr_r, lsr_r, BitVec.shiftRight_add]
  have out : rightCarry d (n + 1) false = (lsr d n x).r.getLsbD 0 := by
    rw [lsr_r, rightCarry_succ, BitVec.getLsbD_ushiftRight, Nat.add_zero]
    split
    · rfl
    · exact (BitVec.getLsbD_of_ge d n (by omega)).symm
  exact Shifted.state_eq value out out rfl

theorem asr_succ (hw : 0 < w) : (asr d (n + 1) x).state = ShiftKind.step .asr (asr d n x).state := by
  have value : (asr d (n + 1) x).r =
      (asr d n x).r >>> 1 ||| if (asr d n x).r.msb then 1#w <<< (w - 1) else 0#w := by
    rw [asr_r, asr_r, BitVec.sshiftRight_add, sshiftRight_one]
  have out : rightCarry d (n + 1) d.msb = (asr d n x).r.getLsbD 0 := by
    rw [asr_r, rightCarry_succ, BitVec.getLsbD_sshiftRight, decide_eq_false (by omega), Bool.not_false, Bool.true_and,
      Nat.add_zero]
  exact Shifted.state_eq value out out rfl

theorem rol_succ (hw : 0 < w) : (rol d (n + 1) x).state = ShiftKind.step .rol (rol d n x).state := by
  have value : (rol d (n + 1) x).r = (rol d n x).r <<< 1 ||| if (rol d n x).r.msb then 1#w else 0#w :=
    (rotateLeft_succ d n).trans (rotateLeft_one _)
  have out : (rol d (n + 1) x).r.getLsbD 0 = (rol d n x).r.msb := by
    rw [value, getLsbD_shiftLeft_or_bottom _ _ hw, if_pos rfl]
  exact Shifted.state_eq value rfl out rfl

theorem ror_succ (hw : 0 < w) : (ror d (n + 1) x).state = ShiftKind.step .ror (ror d n x).state := by
  have value : (ror d (n + 1) x).r =
      (ror d n x).r >>> 1 ||| if (ror d n x).r.getLsbD 0 then 1#w <<< (w - 1) else 0#w :=
    (rotateRight_succ d n).trans (rotateRight_one _)
  have out : (ror d (n + 1) x).r.msb = (ror d n x).r.getLsbD 0 := by
    rw [value, BitVec.msb_eq_getLsbD_last, getLsbD_ushiftRight_or_top _ _ (by omega), if_pos (by omega)]
  exact Shifted.state_eq value rfl out rfl

/-- ROXL rotates the operand with X above it (43_shift_rotate.md R259). -/
theorem cons_roxl : BitVec.cons (roxl d n x).x (roxl d n x).r = (BitVec.cons x d).rotateLeft n := by
  have parts := BitVec.cons_msb_setWidth ((BitVec.cons x d).rotateLeft n)
  rwa [BitVec.setWidth_eq_extractLsb' (by omega)] at parts

variable {d n x} in
/-- What ROXL leaves, from the rotated value taken apart. -/
theorem roxl_state {y : Bool} {r : BitVec w} (rotated : (BitVec.cons x d).rotateLeft n = BitVec.cons y r) :
    (roxl d n x).state = { v := r, x := y, out := y, changed := false } := by
  have value := (congrArg (BitVec.extractLsb' 0 w) rotated).trans BitVec.extractLsb'_cons
  have out := (congrArg BitVec.msb rotated).trans BitVec.msb_cons
  exact Shifted.state_eq value out out rfl

theorem roxl_succ (hw : 0 < w) : (roxl d (n + 1) x).state = ShiftKind.step .roxl (roxl d n x).state := by
  have rotated : (BitVec.cons x d).rotateLeft (n + 1) = BitVec.cons (roxl d n x).r.msb
      ((roxl d n x).r <<< 1 ||| if (roxl d n x).x then 1#w else 0#w) := by
    rw [rotateLeft_succ, ← cons_roxl, cons_rotateLeft_one hw]
  exact roxl_state rotated

/-- ROXR rotates the operand with X below it (43_shift_rotate.md R260). -/
theorem concat_roxr : (roxr d n x).r.concat (roxr d n x).x = (d.concat x).rotateRight n :=
  BitVec.concat_extractLsb'_getLsb

variable {d n x} in
/-- What ROXR leaves, from the rotated value taken apart. -/
theorem roxr_state {y : Bool} {r : BitVec w} (rotated : (d.concat x).rotateRight n = r.concat y) :
    (roxr d n x).state = { v := r, x := y, out := y, changed := false } := by
  have value := (congrArg (BitVec.extractLsb' 1 w) rotated).trans (extractLsb'_concat_one _ _)
  have out := (congrArg (·.getLsbD 0) rotated).trans BitVec.getLsbD_concat_zero
  exact Shifted.state_eq value out out rfl

theorem roxr_succ (hw : 0 < w) : (roxr d (n + 1) x).state = ShiftKind.step .roxr (roxr d n x).state := by
  have rotated : (d.concat x).rotateRight (n + 1) =
      ((roxr d n x).r >>> 1 ||| if (roxr d n x).x then 1#w <<< (w - 1) else 0#w).concat ((roxr d n x).r.getLsbD 0) := by
    rw [rotateRight_succ, ← concat_roxr, concat_rotateRight_one hw]
  exact roxr_state rotated

end

/-- The model's closed form of each shift and rotate. -/
def closedForm {w : Nat} : ShiftKind → Shift w
  | .asl => asl
  | .asr => asr
  | .lsl => lsl
  | .lsr => lsr
  | .rol => rol
  | .ror => ror
  | .roxl => roxl
  | .roxr => roxr

/-- Without a step the operand and X stand, and C is as R251 has it. -/
theorem closedForm_zero {w : Nat} (k : ShiftKind) (v : BitVec w) (x : Bool) :
    (closedForm k v 0 x).state = k.start v x := by
  cases k with
  | asl => exact Shifted.state_eq ((lsl_r v 0 x).trans (BitVec.shiftLeft_zero v)) rfl rfl rfl
  | asr => exact Shifted.state_eq ((asr_r v 0 x).trans BitVec.sshiftRight_zero) rfl rfl rfl
  | lsl => exact Shifted.state_eq ((lsl_r v 0 x).trans (BitVec.shiftLeft_zero v)) rfl rfl rfl
  | lsr => exact Shifted.state_eq ((lsr_r v 0 x).trans (BitVec.ushiftRight_zero v)) rfl rfl rfl
  | rol => exact Shifted.state_eq (rotateLeft_zero v) rfl rfl rfl
  | ror => exact Shifted.state_eq (rotateRight_zero v) rfl rfl rfl
  | roxl => exact roxl_state (rotateLeft_zero _)
  | roxr => exact roxr_state (rotateRight_zero _)

/-- One more step (43_shift_rotate.md R252). -/
theorem closedForm_succ {w : Nat} (hw : 0 < w) (k : ShiftKind) (v : BitVec w) (n : Nat) (x : Bool) :
    (closedForm k v (n + 1) x).state = k.step (closedForm k v n x).state := by
  cases k with
  | asl => exact asl_succ v n x
  | asr => exact asr_succ v n x hw
  | lsl => exact lsl_succ v n x
  | lsr => exact lsr_succ v n x
  | rol => exact rol_succ v n x hw
  | ror => exact ror_succ v n x hw
  | roxl => exact roxl_succ v n x hw
  | roxr => exact roxr_succ v n x hw

theorem closedForm_state {w : Nat} (hw : 0 < w) (k : ShiftKind) (v : BitVec w) (x : Bool) (n : Nat) :
    (closedForm k v n x).state = k.steps (k.start v x) n := by
  induction n with
  | zero => exact closedForm_zero k v x
  | succ n ih => rw [closedForm_succ hw, ih, ShiftKind.steps]

theorem closedForm_result {w : Nat} (hw : 0 < w) (k : ShiftKind) (sr : Sr) (v : BitVec w) (n : Nat) :
    ((closedForm k v n sr.x).r, sr.shiftFlags (closedForm k v n sr.x)) = k.result sr v n := by
  rw [ShiftKind.result, ← closedForm_state hw]
  rfl

/-- The eight shifts and rotates, in the order in which the statements list them. -/
def ShiftKind.all : List ShiftKind := [.asl, .asr, .lsl, .lsr, .rol, .ror, .roxl, .roxr]

/-- Settles O35: each closed form starts as R251 has it and goes on by the steps of R252. -/
theorem shiftsAreOneBitSteps : Obligations.ShiftsAreOneBitSteps := by
  intro sz sr v n p hp
  obtain ⟨k, -, rfl⟩ : ∃ k ∈ ShiftKind.all, (closedForm k, k) = p := List.mem_map.mp hp
  exact closedForm_result (Size.bits_pos sz) k sr v n

end Sys2Proof.Machine
end

section
/-! The 24 shift and rotate instructions: three operand forms, each by one rule over the eight closed forms
(43_shift_rotate.md R250, R251). -/

namespace Sys2Proof.Machine

/-! ### The three forms of each shift and rotate -/

/-- The instruction with an immediate count. -/
def ShiftKind.immediate (f : Fin 8) (sz : Size) (dy : Reg) : ShiftKind → Instr
  | .asl => .aslImm f sz dy
  | .asr => .asrImm f sz dy
  | .lsl => .lslImm f sz dy
  | .lsr => .lsrImm f sz dy
  | .rol => .rolImm f sz dy
  | .ror => .rorImm f sz dy
  | .roxl => .roxlImm f sz dy
  | .roxr => .roxrImm f sz dy

/-- The instruction with a register count. -/
def ShiftKind.register (dx : Reg) (sz : Size) (dy : Reg) : ShiftKind → Instr
  | .asl => .aslReg dx sz dy
  | .asr => .asrReg dx sz dy
  | .lsl => .lslReg dx sz dy
  | .lsr => .lsrReg dx sz dy
  | .rol => .rolReg dx sz dy
  | .ror => .rorReg dx sz dy
  | .roxl => .roxlReg dx sz dy
  | .roxr => .roxrReg dx sz dy

/-- The instruction on a word of memory. -/
def ShiftKind.memory (ea : Ea) : ShiftKind → Instr
  | .asl => .aslMem ea
  | .asr => .asrMem ea
  | .lsl => .lslMem ea
  | .lsr => .lsrMem ea
  | .rol => .rolMem ea
  | .ror => .rorMem ea
  | .roxl => .roxlMem ea
  | .roxr => .roxrMem ea

theorem nextWith_immediate (k : ShiftKind) {f : Fin 8} {sz : Size} {dy : Reg} {s : State} {P : State → Prop}
    (h : ∃ t, shiftDn sz dy (immediateCount f) (closedForm k) s = .ok () t ∧ P t) :
    nextWith (exec (k.immediate f sz dy) s) P := by
  have wellFormed : (k.immediate f sz dy).wellFormed = true := by cases k <;> rfl
  have unprivileged : isPrivileged (k.immediate f sz dy) = false := by cases k <;> rfl
  have run := nextWith_completed wellFormed unprivileged h
  cases k <;> exact run

theorem nextWith_register (k : ShiftKind) {dx dy : Reg} {sz : Size} {s : State} {P : State → Prop}
    (h : ∃ t, shiftDn sz dy (registerCount dx) (closedForm k) s = .ok () t ∧ P t) :
    nextWith (exec (k.register dx sz dy) s) P := by
  have wellFormed : (k.register dx sz dy).wellFormed = true := by cases k <;> rfl
  have unprivileged : isPrivileged (k.register dx sz dy) = false := by cases k <;> rfl
  have run := nextWith_completed wellFormed unprivileged h
  cases k <;> exact run

theorem nextWith_memory (k : ShiftKind) {ea : Ea} (hea : ea.isMemoryAlterable = true) {s : State} {P : State → Prop}
    (h : ∃ t, shiftMem ea (closedForm k) s = .ok () t ∧ P t) : nextWith (exec (k.memory ea) s) P := by
  have wellFormed : (k.memory ea).wellFormed = true := by cases k <;> exact hea
  have unprivileged : isPrivileged (k.memory ea) = false := by cases k <;> rfl
  have run := nextWith_completed wellFormed unprivileged h
  cases k <;> exact run

/-! ### What each form leaves -/

/-- A data register shifted: its low-order part and the codes are those of as many steps as counted before
(43_shift_rotate.md R250). -/
theorem shiftDn_onlyData (k : ShiftKind) (sz : Size) (dy : Reg) (count : State → Nat) (s : State) :
    let o := k.result s.sr ((s.dreg dy).setWidth sz.bits) (count s)
    ∃ t, shiftDn sz dy count (closedForm k) s = .ok () t ∧
      s.onlyData t dy (setLow (s.dreg dy) o.1) o.2 s.pc := by
  rw [← closedForm_result (Size.bits_pos sz)]
  exact ⟨_, rfl, onlyData_setDreg s dy _ _⟩

/-- A word of memory shifted by one step (43_shift_rotate.md R250). -/
theorem shiftMem_onlyOperand (k : ShiftKind) {s : State} (h : s.ready) {ea : Ea} (hea : ea.isMemoryAlterable = true)
    (ha : s.operandAligned ea .w = true) :
    let o := k.result s.sr (s.operand ea .w) 1
    ∃ t, shiftMem ea (closedForm k) s = .ok () t ∧
      s.onlyOperand t ea .w o.1 o.2 (s.pc + BitVec.ofNat 32 (2 * ea.words.length)) := by
  rw [← closedForm_result (Size.bits_pos .w)]
  exact modifyEaCodesFirst_onlyOperand h ha (Ea.isDataAlterable_of_isMemoryAlterable hea) _

theorem registerCount_eq (dx : Reg) (s : State) : registerCount dx s = (s.dreg dx).toNat % 64 := by
  rw [registerCount, BitVec.extractLsb'_toNat, Nat.shiftRight_zero]

/-- Settles O36: every form runs the closed form of its shift, which is as many one-bit steps as the count says. -/
theorem shiftInstructions : Obligations.ShiftInstructions := by
  refine fun s => ⟨fun f sz dy p hp => ?_, fun dx sz dy p hp => ?_, fun ea h hea ha p hp => ?_⟩
  · obtain ⟨k, -, rfl⟩ : ∃ k ∈ ShiftKind.all, (k.immediate f sz dy, k) = p := List.mem_map.mp hp
    exact nextWith_immediate k (shiftDn_onlyData k sz dy (immediateCount f) s)
  · obtain ⟨k, -, rfl⟩ : ∃ k ∈ ShiftKind.all, (k.register dx sz dy, k) = p := List.mem_map.mp hp
    rw [← registerCount_eq]
    exact nextWith_register k (shiftDn_onlyData k sz dy (registerCount dx) s)
  · obtain ⟨k, -, rfl⟩ : ∃ k ∈ ShiftKind.all, (k.memory ea, k) = p := List.mem_map.mp hp
    exact nextWith_memory k hea (shiftMem_onlyOperand k h hea ha)

end Sys2Proof.Machine
end

section
/-! BTST, BSET, BCLR and BCHG: two ways to give the bit number, and four operations on the bit it names, in a data
register or in a byte (44_bit_manipulation.md R270, R272 to R276). -/

namespace Sys2Proof.Machine

/-! ### One bit replaced -/

theorem getLsbD_setBit {w : Nat} (v : BitVec w) {b : Nat} (hb : b < w) (x : Bool) (j : Nat) :
    (setBit v b x).getLsbD j = if j = b then x else v.getLsbD j := by
  by_cases hj : j = b
  · subst hj
    cases x <;> simp [setBit, hb]
  · have unmasked : (1#w <<< b).getLsbD j = false := by
      rw [← BitVec.twoPow_eq, BitVec.getLsbD_twoPow, decide_eq_false (Ne.symm hj), Bool.and_false]
    cases x with
    | true => simp [setBit, unmasked, hj]
    | false => simpa [setBit, unmasked, hj] using v.lt_of_getLsbD

/-- A bit replaced by itself: what BTST leaves (44_bit_manipulation.md R273). -/
theorem setBit_getLsbD {w : Nat} (v : BitVec w) {b : Nat} (hb : b < w) : setBit v b (v.getLsbD b) = v := by
  refine BitVec.eq_of_getLsbD_eq fun j _ => ?_
  rw [getLsbD_setBit v hb]
  split
  · next hj => rw [hj]
  · rfl

/-! ### The bit number -/

/-- Where the bit number comes from: the word after the operation word, or a data register (44_bit_manipulation.md
R270). -/
inductive BitNumber where
  | word (raw : Byte)
  | register (m : Reg)

/-- The bit number, before it is taken modulo the operand's size. -/
def BitNumber.value (s : State) : BitNumber → Nat
  | .word raw => raw.toNat
  | .register m => (s.dreg m).toNat

/-- The words that the bit number takes. -/
def BitNumber.words : BitNumber → Nat
  | .word _ => 1
  | .register _ => 0

/-- The model's static and dynamic forms. -/
def BitNumber.fetch (k : Nat → M Unit) : BitNumber → M Unit
  | .word raw => bitOfWord raw k
  | .register m => bitOfRegister m k

/-- The bit number is known, and its word fetched, before anything of the operand is (44_bit_manipulation.md R270). -/
theorem BitNumber.fetch_ready {s : State} (h : s.ready) (number : BitNumber) (k : Nat → M Unit) :
    number.fetch k s = k (number.value s) (s.fetched number.words) := by
  cases number with
  | word raw => simp only [fetch, bitOfWord, bind_apply, fetchWords_ready h, value, words]
  | register m => rfl

/-! ### The four operations -/

/-- BTST, BSET, BCLR and BCHG. -/
inductive BitOp where
  | test
  | set
  | clear
  | change

/-- The bit left in the place of the one tested (44_bit_manipulation.md R273 to R276). -/
def BitOp.newBit : BitOp → Bool → Bool
  | .test => id
  | .set => fun _ => true
  | .clear => fun _ => false
  | .change => not

/-- The model's meaning of the operation at a bit number. -/
def BitOp.run (raw : Nat) (ea : Ea) : BitOp → M Unit
  | .test => bitTest raw ea
  | op => bitChange raw ea op.newBit

theorem BitOp.run_of_ne_test {op : BitOp} (hop : op ≠ .test) (raw : Nat) (ea : Ea) :
    op.run raw ea = bitChange raw ea op.newBit := by
  cases op with
  | test => exact absurd rfl hop
  | _ => rfl

/-- The eight instructions. -/
def BitOp.instr (ea : Ea) : BitOp → BitNumber → Instr
  | .test, .word raw => .btstStatic raw ea
  | .test, .register m => .btstDynamic m ea
  | .set, .word raw => .bsetStatic raw ea
  | .set, .register m => .bsetDynamic m ea
  | .clear, .word raw => .bclrStatic raw ea
  | .clear, .register m => .bclrDynamic m ea
  | .change, .word raw => .bchgStatic raw ea
  | .change, .register m => .bchgDynamic m ea

/-- A data alterable operand is one of every form; BTST has further ones (44_bit_manipulation.md R273). -/
theorem BitOp.wellFormed_instr {ea : Ea} (h : ea.isDataAlterable = true) (op : BitOp) (number : BitNumber) :
    (op.instr ea number).wellFormed = true := by
  cases op with
  | test =>
    cases number with
    | word raw => cases ea <;> first | rfl | cases h
    | register m =>
      exact Bool.and_eq_true_iff.mpr ⟨Ea.isData_of_isDataAlterable h, Ea.fits_of_isDataAlterable h .b⟩
  | set | clear | change => cases number <;> exact h

/-- Each instruction fetches its bit number and runs its operation in the state this leaves. -/
theorem nextWith_bitOp {s : State} (h : s.ready) (op : BitOp) (number : BitNumber) {ea : Ea} {P : State → Prop}
    (wellFormed : (op.instr ea number).wellFormed = true)
    (run : ∃ t, op.run (number.value s) ea (s.fetched number.words) = .ok () t ∧ P t) :
    nextWith (exec (op.instr ea number) s) P := by
  have unprivileged : isPrivileged (op.instr ea number) = false := by cases op <;> cases number <;> rfl
  rw [← number.fetch_ready h fun raw => op.run raw ea] at run
  have completed := nextWith_completed wellFormed unprivileged run
  cases op <;> cases number <;> exact completed

/-! ### A bit of a data register -/

theorem onlyData_setSr (s : State) (n : Reg) (sr : Sr) : s.onlyData (s.setSr sr) n (s.dreg n) sr s.pc :=
  ⟨rfl, fun _ _ => rfl, rfl, rfl, ⟨rfl, rfl, rfl⟩, fun _ => rfl, by simp [State.sameSystem], rfl⟩

theorem BitOp.run_dn (op : BitOp) (raw : Nat) (n : Reg) (s : State) :
    let bit := (s.dreg n).getLsbD (raw % 32)
    ∃ t, op.run raw (.dn n) s = .ok () t ∧
      s.onlyData t n (setBit (s.dreg n) (raw % 32) (op.newBit bit)) { s.sr with z := !bit } s.pc := by
  cases op with
  | test =>
    refine ⟨_, rfl, ?_⟩
    rw [newBit, id, setBit_getLsbD _ (Nat.mod_lt raw (by decide))]
    exact onlyData_setSr s n _
  | set | clear | change => exact ⟨_, rfl, onlyData_setDreg s n _ _⟩

/-- Settles O37: each operation replaces one bit of the register, BTST by itself. -/
theorem bitsOfDataRegister : Obligations.BitsOfDataRegister := by
  intro raw m n s h p hp
  obtain ⟨⟨op, number⟩, -, rfl⟩ :
      ∃ q ∈ [BitOp.test, .set, .clear, .change].product [BitNumber.word raw, .register m],
        (q.1.instr (.dn n) q.2, q.2.value s, q.2.words, q.1.newBit) = p := List.mem_map.mp hp
  obtain ⟨t, run, left⟩ := op.run_dn (number.value s) n (s.fetched number.words)
  rw [fetched_dreg, fetched_sr, fetched_pc] at left
  exact nextWith_bitOp h op number (op.wellFormed_instr rfl number)
    ⟨t, run, _, getLsbD_setBit _ (Nat.mod_lt _ (by decide)) _, (agrees_fetched s number.words).onlyData left⟩

/-! ### A bit of a byte -/

/-- A byte is aligned at every address (20_memory.md R63). -/
theorem operandAligned_byte (s : State) (ea : Ea) : s.operandAligned ea .b = true := by
  simp [State.operandAligned, isAligned]

theorem bitTest_onlyCodes {s : State} (h : s.ready) (raw : Nat) {ea : Ea} (hea : ∀ n, ea ≠ .dn n) :
    ∃ t, bitTest raw ea s = .ok () t ∧
      (s.stepAddress ea .b).onlyCodes t { s.sr with z := !(s.operand ea .b).getLsbD (raw % 8) }
        (s.pc + BitVec.ofNat 32 (2 * ea.words.length)) := by
  have byte : bitTest raw ea = readEa .b ea >>= fun v => setZeroOfBit (v.getLsbD (raw % 8)) := by
    cases ea with
    | dn n => exact absurd rfl (hea n)
    | _ => rfl
  refine ⟨_, ?_, operandRead_onlyCodes s ea .b _⟩
  simp only [byte, bind_apply, readEa_ready h (operandAligned_byte s ea), setZeroOfBit,
    Sr.zeroOfBit, modify_apply, operandRead_sr]

/-- The operations that write: Z from the bit before, and that bit replaced (44_bit_manipulation.md R274 to R276). -/
theorem bitChange_onlyOperand {s : State} (h : s.ready) (raw : Nat) {ea : Ea} (hea : ea.isMemoryAlterable = true)
    (f : Bool → Bool) :
    let bit := (s.operand ea .b).getLsbD (raw % 8)
    ∃ t, bitChange raw ea f s = .ok () t ∧
      s.onlyOperand t ea .b (setBit (s.operand ea .b) (raw % 8) (f bit)) { s.sr with z := !bit }
        (s.pc + BitVec.ofNat 32 (2 * ea.words.length)) := by
  have modified := modifyEaCodesFirst_onlyOperand h (operandAligned_byte s ea)
    (Ea.isDataAlterable_of_isMemoryAlterable hea) fun (v : Byte) sr =>
      (setBit v (raw % 8) (f (v.getLsbD (raw % 8))), sr.zeroOfBit (v.getLsbD (raw % 8)))
  cases ea with
  | dn _ => cases hea
  | _ => exact modified

/-- Words fetched and words passed over leave the same, but for the record. -/
theorem agrees_advanced (s : State) (n : Nat) : Agrees (s.advanced n) (s.fetched n) :=
  { agrees_fetched s n with }

/-- An operand addressed through `PC` too is the same as where the words before it are passed over. -/
theorem operand_advanced (s : State) (n : Nat) (ea : Ea) (sz : Size) :
    (s.fetched n).operand ea sz = (s.advanced n).operand ea sz := by
  have agrees := agrees_advanced s n
  cases ea <;>
    simp only [State.operand, agrees.dreg, agrees.areg, effectiveAddress_advanced, readAt_congr agrees.mem]

/-- Settles O38: the operand is evaluated after the bit number is fetched; BTST writes the codes alone, and the others
replace one bit of the byte. -/
theorem bitsOfMemory : Obligations.BitsOfMemory := by
  refine fun raw m ea s h => ⟨fun p hp wellFormed hea => ?_, fun hea p hp => ?_⟩
  · obtain ⟨number, -, rfl⟩ : ∃ number ∈ [BitNumber.word raw, .register m],
        (BitOp.test.instr ea number, number.value s, number.words) = p := List.mem_map.mp hp
    obtain ⟨t, run, left⟩ := bitTest_onlyCodes (ready_fetched h number.words) (number.value s) hea
    rw [operand_advanced, fetched_sr, fetched_pc] at left
    exact nextWith_bitOp h .test number wellFormed
      ⟨t, run, ((agrees_advanced s number.words).stepAddress ea .b).onlyCodes left⟩
  · obtain ⟨⟨op, number⟩, hq, rfl⟩ : ∃ q ∈ [BitOp.set, .clear, .change].product [BitNumber.word raw, .register m],
        (q.1.instr ea q.2, q.2.value s, q.2.words, q.1.newBit) = p := List.mem_map.mp hp
    have writes : op ≠ .test := by rintro rfl; simp [List.product] at hq
    have data := Ea.isDataAlterable_of_isMemoryAlterable hea
    have alterable := Ea.isAlterable_of_isDataAlterable data
    have agrees := agrees_fetched s number.words
    obtain ⟨t, run, left⟩ := bitChange_onlyOperand (ready_fetched h number.words) (number.value s) hea op.newBit
    rw [agrees.operand alterable, fetched_sr, fetched_pc, BitVec.add_assoc, ← BitVec.ofNat_add, ← Nat.mul_add] at left
    rw [← BitOp.run_of_ne_test writes] at run
    exact nextWith_bitOp h op number (op.wellFormed_instr data number)
      ⟨t, run, _, getLsbD_setBit _ (Nat.mod_lt _ (by decide)) _, agrees.onlyOperand alterable left⟩

end Sys2Proof.Machine
end

section
/-! ABCD, SBCD and NBCD: the decimal value of a byte, and what the instructions leave when two codes are free
(45_bcd.md R280 to R285). -/

namespace Sys2Proof.Machine

/-! ### The decimal value of a byte -/

theorem digits_bcdByte {u : Nat} (h : u ≤ 99) :
    ((bcdByte u).extractLsb' 4 4).toNat = u / 10 ∧ ((bcdByte u).extractLsb' 0 4).toNat = u % 10 := by
  rw [bcdByte, BitVec.extractLsb'_toNat, BitVec.extractLsb'_toNat, BitVec.toNat_ofNat, Nat.shiftRight_eq_div_pow,
    Nat.shiftRight_zero]
  omega

theorem bcdValid_bcdByte {u : Nat} (h : u ≤ 99) : bcdValid (bcdByte u) = true := by
  obtain ⟨tens, units⟩ := digits_bcdByte h
  rw [bcdValid, tens, units, Bool.and_eq_true, decide_eq_true_eq, decide_eq_true_eq]
  omega

theorem bcdValue_bcdByte {u : Nat} (h : u ≤ 99) : bcdValue (bcdByte u) = u := by
  obtain ⟨tens, units⟩ := digits_bcdByte h
  rw [bcdValue, tens, units, Nat.div_add_mod]

theorem bcdValue_le {b : Byte} (h : bcdValid b = true) : bcdValue b ≤ 99 := by
  rw [bcdValid, Bool.and_eq_true, decide_eq_true_eq, decide_eq_true_eq] at h
  rw [bcdValue]
  omega

/-! ### Decimal sum and difference -/

theorem toNat_decide (p : Prop) [Decidable p] : (decide p).toNat = if p then 1 else 0 := Bool.cond_decide ..

/-- A decimal sum: the byte is valid, and the carry is worth 100 (45_bcd.md R282). -/
theorem abcdOp_exact {s d : Byte} (hs : bcdValid s = true) (hd : bcdValid d = true) (x : Bool) :
    bcdValid (abcdOp s d x).1 = true ∧
      bcdValue (abcdOp s d x).1 + 100 * (abcdOp s d x).2.toNat = bcdValue d + bcdValue s + x.toNat := by
  have source := bcdValue_le hs
  have destination := bcdValue_le hd
  have extend := x.toNat_le
  have small : (bcdValue d + bcdValue s + x.toNat) % 100 ≤ 99 := by omega
  simp only [abcdOp, hs, hd, Bool.and_self, if_true, bcdValue_bcdByte small, toNat_decide]
  exact ⟨bcdValid_bcdByte small, by split <;> omega⟩

/-- A decimal difference: the byte is valid, and the borrow is worth 100 (45_bcd.md R283). -/
theorem bcdDifference_exact {t : Int} (low : -100 ≤ t) (high : t ≤ 99) :
    bcdValid (bcdDifference t).1 = true ∧
      (bcdValue (bcdDifference t).1 : Int) - 100 * (bcdDifference t).2.toNat = t := by
  have small : (t % 100).toNat ≤ 99 := by omega
  simp only [bcdDifference, bcdValue_bcdByte small, toNat_decide]
  exact ⟨bcdValid_bcdByte small, by split <;> omega⟩

theorem sbcdOp_valid {s d : Byte} (hs : bcdValid s = true) (hd : bcdValid d = true) (x : Bool) :
    sbcdOp s d x = bcdDifference ((bcdValue d : Int) - bcdValue s - x.toNat) :=
  if_pos (Bool.and_eq_true_iff.mpr ⟨hs, hd⟩)

theorem nbcdOp_valid {d : Byte} (hd : bcdValid d = true) (x : Bool) :
    nbcdOp d x = bcdDifference (-(bcdValue d : Int) - x.toNat) := by
  rw [nbcdOp, if_pos hd, Int.zero_sub]

/-- Settles O21: a sum of two values and X lies below 200, and a difference not below -100. -/
theorem decimalArithmetic : Obligations.DecimalArithmetic := by
  intro s d x hd
  have destination := bcdValue_le hd
  have extend := x.toNat_le
  refine ⟨fun hs => ?_, ?_⟩
  · have source := bcdValue_le hs
    obtain ⟨sumValid, sum⟩ := abcdOp_exact hs hd x
    obtain ⟨differenceValid, difference⟩ :=
      bcdDifference_exact (t := (bcdValue d : Int) - bcdValue s - x.toNat) (by omega) (by omega)
    rw [sbcdOp_valid hs hd]
    exact ⟨sumValid, sum, differenceValid, difference⟩
  · rw [nbcdOp_valid hd]
    exact bcdDifference_exact (by omega) (by omega)

/-! ### Two free codes -/

/-- The status register with a decimal result's codes, N and V as drawn (45_bcd.md R281). -/
def Sr.decimalCodes (sr : Sr) (o : Byte × Bool) (n v : Bool) : Sr :=
  { sr with x := o.2, n := n, z := sr.z && o.1 == 0, v := v, c := o.2 }

theorem setDecimal_apply (r : Byte) (c : Bool) (s : State) :
    ∃ n v, setDecimal r c s = .ok () (s.drawn.drawn.setSr (s.sr.decimalCodes (r, c) n v)) := ⟨_, _, rfl⟩

/-- What a destination holds does not depend on how many free values have been drawn. -/
theorem onlyOperand_drawn {s t : State} {ea : Ea} (hea : ea.isAlterable = true) {sz : Size} {v : BitVec sz.bits}
    {sr : Sr} {pc : Long} (h : s.onlyOperand t ea sz v sr pc) : s.drawn.onlyOperand t.drawn ea sz v sr pc := by
  obtain ⟨written, hsr, hpc, hsys, hdraws⟩ := h
  have fromDrawn : s.drawn.operandWritten t ea sz v :=
    operandWritten_of_congr (s := s.drawn) (u := s) rfl ⟨rfl, rfl, rfl⟩ rfl rfl hea written
  exact ⟨operandWritten_congr rfl rfl rfl rfl rfl fromDrawn, hsr, hpc, hsys, congrArg (· + 1) hdraws⟩

/-- A data register as destination: it alone is written (10_state.md R21). -/
theorem onlyData_of_onlyOperand_dn {s t : State} {n : Reg} {sz : Size} {v : BitVec sz.bits} {sr : Sr} {pc : Long}
    (h : s.onlyOperand t (.dn n) sz v sr pc) : s.onlyData t n (setLow (s.dreg n) v) sr pc := by
  obtain ⟨⟨address, value, others, memory⟩, hsr, hpc, hsys, hdraws⟩ := h
  exact ⟨value, others, hsr, hpc, address, memory, hsys, hdraws⟩

/-! ### The operand forms -/

section
variable {s : State} (h : s.ready)
include h

/-- A destination evaluated, computed on in decimal and written back, and two free values drawn: everything it leaves
(45_bcd.md R281, R282, R285). -/
theorem decimalEa_onlyOperand {ea : Ea} (hea : ea.isDataAlterable = true) (op : Byte → Bool → Byte × Bool) :
    let o := op (s.operand ea .b) s.sr.x
    ∃ t, (evalEa ea .b >>= fun loc => decimalLoc loc op) s = .ok () t ∧ ∃ n v,
      s.drawn.drawn.onlyOperand t ea .b o.1 (s.sr.decimalCodes o n v)
        (s.pc + BitVec.ofNat 32 (2 * ea.words.length)) := by
  intro o
  obtain ⟨evaluated, -, written⟩ := overwrite_ready h hea (operandAligned_byte s ea)
  have read := readLoc_ready (ready_evaluated h ea .b).1 (operandAligned_byte s ea) (by simp) (by simp)
    (Ea.isData_of_isDataAlterable hea)
  obtain ⟨n, v, codes⟩ := setDecimal_apply o.1 o.2 (s.overwritten ea .b o.1)
  rw [overwritten_sr] at codes
  have alterable := Ea.isAlterable_of_isDataAlterable hea
  refine ⟨_, ?_, n, v, onlyOperand_setSr
    (onlyOperand_drawn alterable (onlyOperand_drawn alterable (overwritten_onlyOperand s hea .b o.1))) _⟩
  simp only [decimalLoc, bind_apply, evaluated, read, get_apply, locationRead_sr, stepAddress_sr, fetched_sr]
  rw [written]
  exact codes

/-- `Dy,Dx` in decimal (45_bcd.md R282). -/
theorem decimalReg_onlyData (dy dx : Reg) (op : Byte → Byte → Bool → Byte × Bool) :
    let o := op ((s.dreg dy).setWidth 8) ((s.dreg dx).setWidth 8) s.sr.x
    ∃ t, decimalReg dy dx op s = .ok () t ∧ ∃ n v,
      s.drawn.drawn.onlyData t dx (setLow (s.dreg dx) o.1) (s.sr.decimalCodes o n v) s.pc := by
  obtain ⟨t, run, n, v, left⟩ := decimalEa_onlyOperand h (ea := .dn dx) rfl (op ((s.dreg dy).setWidth 8))
  rw [Ea.words, List.length_nil, Nat.mul_zero, BitVec.add_zero] at left
  have written := onlyData_of_onlyOperand_dn left
  exact ⟨t, run, n, v, written⟩

/-- `-(Ay),-(Ax)` in decimal: the source is read before the destination is evaluated (45_bcd.md R282). -/
theorem decimalMem_onlyOperand (ay ax : Reg) (op : Byte → Byte → Bool → Byte × Bool) :
    let u := s.stepAddress (.pre ay) .b
    let o := op (s.operand (.pre ay) .b) (u.operand (.pre ax) .b) s.sr.x
    ∃ t, decimalMem ay ax op s = .ok () t ∧ ∃ n v,
      u.drawn.drawn.onlyOperand t (.pre ax) .b o.1 (s.sr.decimalCodes o n v) s.pc := by
  intro u o
  have agrees := agrees_operandRead s (.pre ay) .b
  obtain ⟨t, run, n, v, left⟩ :=
    decimalEa_onlyOperand (ready_operandRead h (.pre ay) .b) (ea := .pre ax) rfl (op (s.operand (.pre ay) .b))
  rw [agrees.operand rfl, operandRead_sr, operandRead_pc, Ea.words, Ea.words] at left
  refine ⟨t, ?_, n, v, agrees.drawn.drawn.onlyOperand rfl (by simpa using left)⟩
  simp only [decimalMem, bind_apply, readEa_ready h (operandAligned_byte s _)]
  exact run

end

/-- Settles O39: each reads and writes one destination, the memory forms in the state that the source leaves. -/
theorem decimalInstructions : Obligations.DecimalInstructions := by
  refine fun s h => ⟨fun y x p hp => ?_, fun y x p hp => ?_, fun ea hea => ?_⟩
  · have run := decimalReg_onlyData h y x
    simp only [List.mem_cons, List.not_mem_nil, or_false] at hp
    obtain rfl | rfl := hp
    · exact nextWith_completed (i := .abcdReg y x) rfl rfl (run abcdOp)
    · exact nextWith_completed (i := .sbcdReg y x) rfl rfl (run sbcdOp)
  · have run := decimalMem_onlyOperand h y x
    simp only [← stepAddress_draws s (.pre y) .b]
    simp only [List.mem_cons, List.not_mem_nil, or_false] at hp
    obtain rfl | rfl := hp
    · exact nextWith_completed (i := .abcdMem y x) rfl rfl (run abcdOp)
    · exact nextWith_completed (i := .sbcdMem y x) rfl rfl (run sbcdOp)
  · exact nextWith_completed (i := .nbcd ea) hea rfl (decimalEa_onlyOperand h hea nbcdOp)

end Sys2Proof.Machine
end

section
/-! Branches, jumps, calls and returns: a transfer of control sets `PC` last, a call pushes the address behind itself
before that, and a return pops it (46_program_control.md R290 to R294, R296 to R300). -/

namespace Sys2Proof.Machine

/-! ### `PC` set last -/

section
variable {s t : State} {sr : Sr} {n : Reg} {v pc : Long}

theorem onlyCodes_setPc (h : s.onlyCodes t sr pc) (target : Long) : s.onlyCodes (t.setPc target) sr target := by
  obtain ⟨hsr, -, rest⟩ := h
  exact ⟨hsr, rfl, rest⟩

theorem onlyData_setPc (h : s.onlyData t n v sr pc) (target : Long) : s.onlyData (t.setPc target) n v sr target := by
  obtain ⟨value, others, hsr, -, rest⟩ := h
  exact ⟨value, others, hsr, rfl, rest⟩

theorem onlyAddress_setPc (h : s.onlyAddress t n v pc) (target : Long) :
    s.onlyAddress (t.setPc target) n v target := by
  obtain ⟨value, others, hsr, -, rest⟩ := h
  exact ⟨value, others, hsr, rfl, rest⟩

theorem onlyPushed_setPc (h : s.onlyPushed t v pc) (target : Long) : s.onlyPushed (t.setPc target) v target := by
  obtain ⟨sp, others, pushed, outside, hsr, -, rest⟩ := h
  exact ⟨sp, others, pushed, outside, hsr, rfl, rest⟩

end

theorem onlyCodes_refl (s : State) : s.onlyCodes s s.sr s.pc := onlyCodes_setSr s s.sr

/-- Further words fetched, and nothing else: `PC` alone moves on (10_state.md R30). -/
theorem fetched_onlyCodes (s : State) (n : Nat) :
    s.onlyCodes (s.fetched n) s.sr (s.pc + BitVec.ofNat 32 (2 * n)) := by
  have kept := (agrees_fetched s n).onlyCodes (onlyCodes_refl (s.fetched n))
  rwa [fetched_sr, fetched_pc] at kept

/-! ### Transfers of control -/

/-- Control passes to an address computed beforehand: BRA and JMP. -/
def jump (target : M Long) : M Unit := do
  let a ← target
  modify fun s => s.setPc a

/-- The address of the next instruction is pushed after the target is computed: BSR and JSR. -/
def call (target : M Long) : M Unit := do
  let a ← target
  pushLong (← get).pc
  modify fun s => s.setPc a

theorem branchAlways_eq_jump (d : BranchDisp) : branchAlways d = jump (branchTarget d) := rfl

theorem jumpTo_eq_jump (ea : Ea) : jumpTo ea = jump (controlAddress ea) := rfl

theorem branchSubroutine_eq_call (d : BranchDisp) : branchSubroutine d = call (branchTarget d) := rfl

theorem jumpSubroutine_eq_call (ea : Ea) : jumpSubroutine ea = call (controlAddress ea) := rfl

section
variable {s : State} {target : M Long} {a : Long} {n : Nat} (computed : target s = .ok a (s.fetched n))
include computed

theorem jump_onlyCodes : ∃ t, jump target s = .ok () t ∧ s.onlyCodes t s.sr a := by
  refine ⟨(s.fetched n).setPc a, ?_, onlyCodes_setPc (fetched_onlyCodes s n) a⟩
  simp only [jump, bind_apply, computed, modify_apply]

theorem call_onlyPushed (h : s.platform = .plain) (he : isEven (s.areg 7) = true) :
    ∃ t, call target s = .ok () t ∧ s.onlyPushed t (s.pc + BitVec.ofNat 32 (2 * n)) a := by
  obtain ⟨t, pushed, left⟩ := pushLong_onlyPushed (s := s.fetched n) (by simpa using h) (by simpa using he)
    (s.fetched n).pc
  rw [← fetched_pc]
  refine ⟨t.setPc a, ?_, onlyPushed_of_fetched (onlyPushed_setPc left a)⟩
  simp only [call, bind_apply, computed, get_apply, pushed, modify_apply]

end

/-! ### Branches -/

section
variable {s : State} (h : s.ready)
include h

/-- A branch counts from the word after its operation word (46_program_control.md R290). -/
theorem branchTarget_ready (d : BranchDisp) :
    branchTarget d s = .ok (s.pc + branchOffset d) (s.fetched d.words.length) := by
  simp only [branchTarget, bind_apply, get_apply, fetchWords_ready h]
  cases d <;> rfl

theorem branchIf_onlyCodes (c : Cond) (d : BranchDisp) :
    ∃ t, branchIf c d s = .ok () t ∧ s.onlyCodes t s.sr
      (if condHolds c s.sr then s.pc + branchOffset d else s.pc + BitVec.ofNat 32 (2 * d.words.length)) := by
  have fetched := fetched_onlyCodes s d.words.length
  simp only [branchIf, bind_apply, branchTarget_ready h, modify_apply, fetched_sr]
  refine ⟨_, rfl, ?_⟩
  split
  · exact onlyCodes_setPc fetched _
  · exact fetched

/-- DBcc decrements before it tests the count for -1, and only where the condition fails (46_program_control.md
R293). -/
theorem decrementBranch_leaves (c : Cond) (n : Reg) (d : Word) :
    let count := (s.dreg n).setWidth 16 - 1#16
    ∃ t, decrementBranch c n d s = .ok () t ∧
      if condHolds c s.sr then s.onlyCodes t s.sr (s.pc + 2)
      else s.onlyData t n (setLow (s.dreg n) count) s.sr
        (if count = 0xFFFF then s.pc + 2 else s.pc + d.signExtend 32) := by
  intro count
  have counted : s.onlyData ((s.fetched 1).setDregLow n count) n (setLow (s.dreg n) count) s.sr (s.pc + 2) := by
    have written := onlyData_setDreg (s.fetched 1) n (setLow ((s.fetched 1).dreg n) count) (s.fetched 1).sr
    have kept := (agrees_fetched s 1).onlyData written
    rwa [fetched_dreg, fetched_sr, fetched_pc] at kept
  simp only [decrementBranch, bind_apply, get_apply, fetchWords_ready h, modify_apply, fetched_sr, fetched_dreg]
  refine ⟨_, rfl, ?_⟩
  by_cases holds : condHolds c s.sr
  · rw [if_pos holds, if_pos holds]
    exact fetched_onlyCodes s 1
  · rw [if_neg holds, if_neg holds]
    by_cases expired : count = 0xFFFF
    · rwa [if_neg (not_not_intro expired), if_pos expired]
    · rw [if_pos expired, if_neg expired]
      exact onlyData_setPc counted _

end

/-- Settles O48: BRA and JMP are jumps to a computed target; Bcc and DBcc choose between a target and what follows. -/
theorem branchesAndJumps : Obligations.BranchesAndJumps := by
  refine fun s h => ⟨fun d hd => ⟨fun c hc => ?_, ?_⟩, fun c n d => ?_, fun ea hea => ?_, ?_⟩
  · exact nextWith_completed (i := .bcc c d) (Bool.and_eq_true_iff.mpr ⟨hc, hd⟩) rfl (branchIf_onlyCodes h c d)
  · exact nextWith_completed (i := .bra d) hd rfl (branchAlways_eq_jump d ▸ jump_onlyCodes (branchTarget_ready h d))
  · exact nextWith_completed (i := .dbcc c n d) rfl rfl (decrementBranch_leaves h c n d)
  · exact nextWith_completed (i := .jmp ea) hea rfl (jumpTo_eq_jump ea ▸ jump_onlyCodes (controlAddress_ready h hea))
  · exact nextWith_completed (i := .nop) rfl rfl ⟨s, rfl, onlyCodes_refl s⟩

/-! ### One address register written, and what follows -/

theorem State.sameAddressBut.trans {s t u : State} {n : Reg} (hs : t.sr = s.sr) (h : s.sameAddressBut t n)
    (k : t.sameAddressBut u n) : s.sameAddressBut u n := by
  obtain ⟨others, usp, ssp⟩ := h
  obtain ⟨others', usp', ssp'⟩ := k
  rw [hs] at usp' ssp'
  exact ⟨fun m hm => (others' m hm).trans (others m hm), fun hS => (usp' hS).trans (usp hS),
    fun hS => (ssp' hS).trans (ssp hS)⟩

/-- Memory that reads the same byte by byte reads the same long word. -/
theorem State.sameMemory.longAt {s t : State} (h : s.sameMemory t) (a : Long) : t.longAt a = s.longAt a :=
  readAt_of_bytes (sz := .l) fun x _ => h x

section
variable {s t : State} {n : Reg} {v pc : Long}

theorem onlyAddress_trans {u : State} {v' pc' : Long} (h : s.onlyAddress t n v pc) (k : t.onlyAddress u n v' pc') :
    s.onlyAddress u n v' pc' := by
  obtain ⟨-, others, hsr, -, hd, memory, system, draws⟩ := h
  obtain ⟨value, others', hsr', hpc, hd', memory', system', draws'⟩ := k
  refine ⟨value, others.trans hsr others', hsr'.trans hsr, hpc, hd'.trans hd,
    fun x => (memory' x).trans (memory x), ?_, draws'.trans draws⟩
  simpa only [State.sameSystem, system] using system'

/-- The condition codes may be written before or after an address register is: both name the same A7. -/
theorem onlyAddress_setSr {sr : Sr} (hs : sr.s = s.sr.s) (h : s.onlyAddress t n v pc) :
    (s.setSr sr).onlyAddress (t.setSr sr) n v pc := by
  obtain ⟨value, ⟨others, usp, ssp⟩, hsr, rest⟩ := h
  have before := areg_setSr s hs
  have after := areg_setSr t (hs.trans (congrArg Sr.s hsr.symm))
  refine ⟨(after n).trans value, ⟨fun m hm => ?_, fun hS => usp (hs ▸ hS), fun hS => ssp (hs ▸ hS)⟩, rfl, rest⟩
  rw [after, before, others m hm]

end

/-! ### Returns -/

/-- The active stack pointer moved up past a value that has been read: everything a pop leaves (00_scope.md R11). -/
theorem popped_onlyAddress (s : State) (sz : Size) (fc : BitVec 3) (a v : Long) :
    s.onlyAddress ((s.afterRead sz fc a).setAreg 7 v) 7 v s.pc := by
  obtain ⟨value, others, -⟩ := onlyAddress_setAreg (s.afterRead sz fc a) 7 v
  exact ⟨value, by simpa [State.sameAddressBut] using others, by simp [State.sameMemory, State.sameSystem]⟩

/-- RTR is RTS in the state that the popped condition codes leave (46_program_control.md R298). -/
theorem returnRestore_eq : returnRestore = (do
    let w ← popWord
    modify fun s => s.setSr (s.sr.setCodes (w.extractLsb' 0 5))
    returnFromSubroutine) := rfl

section
variable {s : State} (h : s.platform = .plain) (he : isEven (s.areg 7) = true)
include h he

theorem popWord_onlyAddress :
    ∃ t, popWord s = .ok (s.wordAt (s.areg 7)) t ∧ s.onlyAddress t 7 (s.areg 7 + 2) s.pc :=
  ⟨_, popWord_ready h he, popped_onlyAddress s .w (s.fc false) (s.areg 7) _⟩

theorem returnFromSubroutine_onlyAddress :
    ∃ t, returnFromSubroutine s = .ok () t ∧ s.onlyAddress t 7 (s.areg 7 + 4) (s.longAt (s.areg 7)) := by
  refine ⟨_, ?_, onlyAddress_setPc (popped_onlyAddress s .l (s.fc false) (s.areg 7) _) _⟩
  simp only [returnFromSubroutine, bind_apply, popLong_ready h he, modify_apply]

theorem returnRestore_onlyAddress :
    let sr := s.sr.setCodes ((s.wordAt (s.areg 7)).extractLsb' 0 5)
    ∃ t, returnRestore s = .ok () t ∧
      (s.setSr sr).onlyAddress t 7 (s.areg 7 + 6) (s.longAt (s.areg 7 + 2)) := by
  intro sr
  obtain ⟨u, run, popped⟩ := popWord_onlyAddress h he
  have restored : (s.setSr sr).onlyAddress (u.setSr sr) 7 (s.areg 7 + 2) s.pc := onlyAddress_setSr rfl popped
  have ⟨_, _, hsr, _, _, _, system, draws⟩ := popped
  have ⟨sp, _, _, _, _, memory, _⟩ := restored
  have plain : u.platform = .plain := SystemKept.plain ⟨hsr, system, draws⟩ h
  have long : (u.setSr sr).longAt (s.areg 7 + 2) = s.longAt (s.areg 7 + 2) := memory.longAt _
  obtain ⟨t, run', left⟩ := returnFromSubroutine_onlyAddress (s := u.setSr sr) plain (sp ▸ isEven_add_two _ he)
  rw [sp, long, BitVec.add_assoc] at left
  refine ⟨t, ?_, onlyAddress_trans restored left⟩
  simp only [returnRestore_eq, bind_apply, run, modify_apply, hsr]
  exact run'

end

/-- Settles O49: BSR and JSR are calls of a computed target; RTR pops the condition codes and returns as RTS does. -/
theorem callsAndReturns : Obligations.CallsAndReturns := by
  refine fun s h he => ⟨fun d hd => ?_, fun ea hea => ?_, ?_, ?_⟩
  · exact nextWith_completed (i := .bsr d) hd rfl
      (branchSubroutine_eq_call d ▸ call_onlyPushed (branchTarget_ready h d) h.1 he)
  · exact nextWith_completed (i := .jsr ea) hea rfl
      (jumpSubroutine_eq_call ea ▸ call_onlyPushed (controlAddress_ready h hea) h.1 he)
  · exact nextWith_completed (i := .rts) rfl rfl (returnFromSubroutine_onlyAddress h.1 he)
  · exact nextWith_completed (i := .rtr) rfl rfl (returnRestore_onlyAddress h.1 he)

/-! ### A call and its return -/

/-- Address registers that all read as before, with the other stack pointer as before, are the same registers
(10_state.md R27). -/
theorem sameAddress_of_areg {s t : State} {n : Reg} (hs : t.sr = s.sr) (same : t.areg n = s.areg n)
    (others : s.sameAddressBut t n) : s.sameAddress t := by
  obtain ⟨others, usp, ssp⟩ := others
  have all : ∀ m, t.areg m = s.areg m := fun m => by
    by_cases hm : m = n
    · rw [hm, same]
    · exact others m hm
  have seven := all 7
  refine ⟨Vector.ext fun i hi => ?_, ?_⟩
  · have := all ⟨i, by omega⟩
    simpa [State.areg, hi] using this
  · cases hS : s.sr.s with
    | true =>
      rw [areg_seven_supervisor t (hs ▸ hS), areg_seven_supervisor s hS] at seven
      exact ⟨usp hS, seven⟩
    | false =>
      rw [areg_seven_user t (hs ▸ hS), areg_seven_user s hS] at seven
      exact ⟨seven, ssp hS⟩

/-- A long word pushed and the active stack popped again: the registers are as they were, and `PC` is the long word. -/
theorem pop_after_push {s t u : State} {v pc : Long} (pushed : s.onlyPushed t v pc)
    (popped : t.onlyAddress u 7 (t.areg 7 + 4) (t.longAt (t.areg 7))) :
    s.sameAddress u ∧ u.d = s.d ∧ u.sr = s.sr ∧ u.pc = v := by
  obtain ⟨sp, others, long, -, hsr, -, hd, -⟩ := pushed
  obtain ⟨sp', others', hsr', hpc, hd', -⟩ := popped
  rw [sp, BitVec.sub_add_cancel] at sp'
  rw [sp, long] at hpc
  exact ⟨sameAddress_of_areg (hsr'.trans hsr) sp' (others.trans hsr others'), hd'.trans hd, hsr'.trans hsr, hpc⟩

theorem length_encode_bsr (d : BranchDisp) : (encode (.bsr d)).length - 1 = d.words.length := by
  rw [Laws.EncodeLength.length_encode, Nat.add_sub_cancel_left]
  rfl

theorem length_encode_jsr (ea : Ea) : (encode (.jsr ea)).length - 1 = ea.words.length := by
  rw [Laws.EncodeLength.length_encode, Nat.add_sub_cancel_left]
  exact Nat.zero_add _

/-- BSR and JSR push the address behind their last word (46_program_control.md R294, R297). -/
theorem call_pushes_next {i : Instr} {s : State} (h : s.ready) (he : isEven (s.areg 7) = true)
    (hi : i.wellFormed = true) (calls : (∃ d, i = .bsr d) ∨ ∃ ea, i = .jsr ea) :
    nextWith (exec i s) fun t =>
      ∃ target, s.onlyPushed t (s.pc + BitVec.ofNat 32 (2 * ((encode i).length - 1))) target := by
  obtain ⟨bsr, jsr, -⟩ := callsAndReturns s h he
  obtain ⟨d, rfl⟩ | ⟨ea, rfl⟩ := calls
  · obtain ⟨t, run, left⟩ := bsr d hi
    exact ⟨t, run, _, length_encode_bsr d ▸ left⟩
  · obtain ⟨t, run, left⟩ := jsr ea hi
    exact ⟨t, run, _, length_encode_jsr ea ▸ left⟩

/-- Settles O50: what the call pushed is what the return pops. -/
theorem callThenReturn : Obligations.CallThenReturn := by
  intro i s t h he hi calls run
  obtain ⟨t', run', target, pushed⟩ := call_pushes_next h he hi calls
  obtain rfl : t' = t := Host.Outcome.next.inj (run'.symm.trans run)
  have ⟨sp, _, _, _, hsr, _, _, system, draws⟩ := pushed
  have plain : t'.platform = .plain := SystemKept.plain ⟨hsr, system, draws⟩ h.1
  obtain ⟨u, returned, popped⟩ := returnFromSubroutine_onlyAddress plain (sp ▸ isEven_sub_even he (by decide))
  exact nextWith_completed (i := .rts) rfl rfl ⟨u, returned, pop_after_push pushed popped⟩

end Sys2Proof.Machine
end

section
/-! The instructions that write the status register, MOVE USP and RESET: what each leaves where it is permitted
(47_system_control.md R311 to R324). -/

namespace Sys2Proof.Machine

/-- In supervisor state the privileged instructions too are their meaning (47_system_control.md R310). -/
theorem nextWith_supervisor {i : Instr} {m : M Unit} {s : State} {P : State → Prop} (hw : i.wellFormed = true)
    (hs : s.sr.s = true) (hm : ∃ t, m s = .ok () t ∧ P t) : nextWith (runInstruction i m s) P := by
  obtain ⟨t, ht, hP⟩ := hm
  exact ⟨t, by simp [runInstruction, hw, hs, ht], hP⟩

/-- Further words fetched and the status register written: everything it leaves. -/
theorem fetched_setSr_onlyCodes (s : State) (n : Nat) (sr : Sr) :
    s.onlyCodes ((s.fetched n).setSr sr) sr (s.pc + BitVec.ofNat 32 (2 * n)) :=
  (agrees_fetched s n).onlyCodes (fetched_pc s n ▸ onlyCodes_setSr _ sr)

/-! ### An immediate word or an operand into the status register -/

section
variable {s : State} (h : s.ready)
include h

theorem immToCcr_onlyCodes (v : Byte) (f : BitVec 5 → BitVec 5 → BitVec 5) :
    ∃ t, immToCcr v f s = .ok () t ∧
      s.onlyCodes t (s.sr.setCodes (f s.sr.codes (v.extractLsb' 0 5))) (s.pc + 2) := by
  refine ⟨_, ?_, fetched_setSr_onlyCodes s 1 _⟩
  simp only [immToCcr, bind_apply, fetchWords_ready h, modify_apply, fetched_sr]

theorem immToSr_onlyCodes (v : Word) (f : Word → Word → Word) :
    ∃ t, immToSr v f s = .ok () t ∧ s.onlyCodes t (Sr.ofWord (f s.sr.toWord v)) (s.pc + 2) := by
  refine ⟨_, ?_, fetched_setSr_onlyCodes s 1 _⟩
  simp only [immToSr, bind_apply, fetchWords_ready h, modify_apply, fetched_sr]

/-- STOP keeps the trace bit it began with, beside the stopped state (47_system_control.md R324). -/
theorem stopProcessor_onlyCodes (v : Word) :
    ∃ t, stopProcessor v s = .ok () t ∧
      ({ s with run := .stopped, stopTrace := s.sr.t } : State).onlyCodes t (Sr.ofWord v) (s.pc + 2) := by
  obtain ⟨hsr, hpc, hd, address, memory, ⟨ir, -, xgroup, prevIpl, -, rest⟩, draws⟩ :=
    fetched_setSr_onlyCodes s 1 (Sr.ofWord v)
  refine ⟨{ (s.fetched 1).setSr (Sr.ofWord v) with run := .stopped, stopTrace := s.sr.t }, ?_, hsr, hpc, hd, address,
    memory, ⟨ir, rfl, xgroup, prevIpl, rfl, rest⟩, draws⟩
  simp only [stopProcessor, bind_apply, get_apply, fetchWords_ready h, modify_apply]
  rfl

section
variable {ea : Ea} (ha : s.operandAligned ea .w = true)
include ha

theorem moveToCodes_onlyCodes :
    ∃ t, moveToCodes ea s = .ok () t ∧
      (s.stepAddress ea .w).onlyCodes t (s.sr.setCodes ((s.operand ea .w).extractLsb' 0 5))
        (s.pc + BitVec.ofNat 32 (2 * ea.words.length)) := by
  refine ⟨_, ?_, operandRead_onlyCodes s ea .w _⟩
  simp only [moveToCodes, bind_apply, readEa_ready h ha, modify_apply, operandRead_sr]

theorem moveToStatus_onlyCodes :
    ∃ t, moveToStatus ea s = .ok () t ∧
      (s.stepAddress ea .w).onlyCodes t (Sr.ofWord (s.operand ea .w))
        (s.pc + BitVec.ofNat 32 (2 * ea.words.length)) := by
  refine ⟨_, ?_, operandRead_onlyCodes s ea .w _⟩
  simp only [moveToStatus, bind_apply, readEa_ready h ha, modify_apply]

end

end

/-- Settles O51: an immediate word or an operand is written through `setCodes` alone. -/
theorem conditionCodeWrites : Obligations.ConditionCodeWrites := by
  refine fun s h => ⟨fun v => ⟨?_, ?_, ?_⟩, fun ea hea hfit ha => ?_⟩
  · exact nextWith_completed (i := .andiToCcr v) rfl rfl (immToCcr_onlyCodes h v _)
  · exact nextWith_completed (i := .eoriToCcr v) rfl rfl (immToCcr_onlyCodes h v _)
  · exact nextWith_completed (i := .oriToCcr v) rfl rfl (immToCcr_onlyCodes h v _)
  · exact nextWith_completed (i := .moveToCcr ea) (Bool.and_eq_true_iff.mpr ⟨hea, hfit⟩) rfl
      (moveToCodes_onlyCodes h ha)

/-! ### RTE -/

/-- RTE reads the status register word and `PC` through SSP and moves it past both, whatever `PC` it began with
(47_system_control.md R321, 60_exceptions.md R400). -/
theorem returnFromException_onlyCodes {s : State} (h : s.platform = .plain) (he : isEven s.ssp = true) :
    ∃ t, returnFromException s = .ok () t ∧
      ({ s with ssp := s.ssp + 6 } : State).onlyCodes t (Sr.ofWord (s.wordAt s.ssp)) (s.longAt (s.ssp + 2)) := by
  have agrees := (agrees_afterRead s .w 5 s.ssp).trans (agrees_afterRead _ .l 5 (s.ssp + 2))
  have word := memRead_quiet (sz := .w) h (isAligned_of_isEven he _) 5
  have long := memRead_quiet (sz := .l) ((agrees_afterRead s .w 5 s.ssp).plain h)
    (isAligned_of_isEven (isEven_add_two _ he) _) 5
  obtain ⟨ha, husp, -⟩ := agrees.address
  simp only [returnFromException, bind_apply, get_apply, word, long, modify_apply, afterRead_readAt]
  exact ⟨_, rfl, rfl, rfl, agrees.d, ⟨ha, husp, rfl⟩, fun x => congrArg (Memory.get · x) agrees.mem, agrees.system,
    agrees.draws⟩

/-- Settles O52: each privileged instruction is its meaning, and RTE alone needs the supervisor stack. -/
theorem supervisorInstructions : Obligations.SupervisorInstructions := by
  refine fun s hs h =>
    ⟨fun v => ⟨?_, ?_, ?_, ?_⟩, fun ea hea hfit ha => ?_, fun he => ?_, fun n => ⟨?_, ?_⟩, ?_⟩
  · exact nextWith_supervisor (i := .andiToSr v) rfl hs (immToSr_onlyCodes h v _)
  · exact nextWith_supervisor (i := .eoriToSr v) rfl hs (immToSr_onlyCodes h v _)
  · exact nextWith_supervisor (i := .oriToSr v) rfl hs (immToSr_onlyCodes h v _)
  · exact nextWith_supervisor (i := .stop v) rfl hs (stopProcessor_onlyCodes h v)
  · exact nextWith_supervisor (i := .moveToSr ea) (Bool.and_eq_true_iff.mpr ⟨hea, hfit⟩) hs
      (moveToStatus_onlyCodes h ha)
  · exact nextWith_supervisor (i := .rte) rfl hs (returnFromException_onlyCodes h.1 he)
  · exact nextWith_supervisor (i := .moveToUsp n) rfl hs ⟨_, rfl, rfl⟩
  · exact nextWith_supervisor (i := .moveFromUsp n) rfl hs ⟨_, rfl, onlyAddress_setAreg s n s.usp⟩
  · exact nextWith_supervisor (i := .reset) rfl hs ⟨_, rfl, rfl⟩

end Sys2Proof.Machine
end

section
/-! The exceptions that instructions and the stopped state raise of themselves, and the rest of the halted and stopped
states (47_system_control.md R310, R322, R324 to R329, 60_exceptions.md R385, R406). -/

namespace Sys2Proof.Machine

/-! ### Privilege violation -/

/-- A privileged instruction in user state is the exception and nothing of its meaning (60_exceptions.md R385). -/
theorem exec_privileged_user {i : Instr} {s : State} (hw : i.wellFormed = true) (hp : isPrivileged i = true)
    (hs : s.sr.s = false) (h : s.platform = .plain) (he : isEven s.ssp = true) :
    nextWith (exec i s) fun t => s.exceptionTaken t .g1 s.sr.supervisor 8 (s.pc - 2) ∧ t.draws = s.draws := by
  obtain ⟨m, meaning, -⟩ := hasMeaning i
  obtain ⟨t, taken, left⟩ := takeException_ready h he .g1 (.internal 8) (s.pc - 2)
  have violated : (isPrivileged i && !s.sr.s) = true := by rw [hp, hs]; rfl
  exact ⟨t, by rw [meaning, runInstruction, if_pos hw, if_pos violated, privilegeViolation, taken], left⟩

/-- Settles O53: the instructions listed are those that `isPrivileged` names. -/
theorem privilegeViolationTaken : Obligations.PrivilegeViolationTaken := by
  intro i s hs h he hw listed
  have privileged : isPrivileged i = true := by
    obtain ⟨v, rfl | rfl | rfl | rfl⟩ | ⟨ea, rfl⟩ | ⟨n, rfl | rfl⟩ | rfl | rfl := listed <;> rfl
  exact exec_privileged_user hw privileged hs h he

/-! ### Traps -/

theorem trapOnOverflow_eq (s : State) : trapOnOverflow s = if s.sr.v then raiseTrap 7 s else .ok () s := by
  simp only [trapOnOverflow, bind_apply, get_apply]
  split <;> rfl

/-- An operation word that only traps stacks its own address (60_exceptions.md R383, R384). -/
theorem trapWord_ready {s : State} (h : s.platform = .plain) (he : isEven s.ssp = true) (v : Byte) :
    ∃ t, trapWord v s = .ok () t ∧ s.exceptionTaken t .g1 s.sr.supervisor v (s.pc - 2) ∧ t.draws = s.draws := by
  simp only [trapWord, bind_apply, get_apply]
  exact takeException_ready h he .g1 (.internal v) (s.pc - 2)

/-- TRAP takes its vector whatever `PC` and privilege state it began with (47_system_control.md R325). -/
theorem exec_trap {s : State} (h : s.platform = .plain) (he : isEven s.ssp = true) (n : Fin 16) :
    nextWith (exec (.trap n) s) fun t =>
      s.exceptionTaken t .g2 s.sr.supervisor (BitVec.ofNat 8 (32 + n.val)) s.pc ∧ t.draws = s.draws :=
  nextWith_completed (i := .trap n) rfl rfl (raiseTrap_ready h he _)

/-- Settles O54: each trap is one exception; TRAPV asks for V first. -/
theorem trapInstructions : Obligations.TrapInstructions := by
  refine fun s => ⟨fun hv => ?_, fun h he => ⟨exec_trap h he, fun hv => ?_, fun w p hp => ?_⟩⟩
  · exact runInstruction_completed (i := .trapv) rfl rfl (by rw [trapOnOverflow_eq, hv]; rfl)
  · exact nextWith_completed (i := .trapv) rfl rfl (by rw [trapOnOverflow_eq, if_pos hv]; exact raiseTrap_ready h he 7)
  · have run := trapWord_ready h he
    simp only [List.mem_cons, List.not_mem_nil, or_false] at hp
    obtain rfl | rfl | rfl | rfl | rfl := hp
    · exact nextWith_completed (i := .illegal) rfl rfl (run 4)
    · exact nextWith_completed (i := .illegal4AFA) rfl rfl (run 4)
    · exact nextWith_completed (i := .illegal4AFB) rfl rfl (run 4)
    · exact nextWith_completed (i := .lineA w) rfl rfl (run 10)
    · exact nextWith_completed (i := .lineF w) rfl rfl (run 11)

/-- RTE takes back from the frame of an exception what the exception stacked and changed (60_exceptions.md R350,
R400). -/
theorem return_from_exceptionTaken {s t : State} {g : XGroup} {sr : Sr} {v : Byte} {pc : Long}
    (h : s.platform = .plain) (he : isEven s.ssp = true) (taken : s.exceptionTaken t g sr v pc) :
    ∃ u, returnFromException t = .ok () u ∧ u.sr = s.sr ∧ u.pc = pc ∧ s.sameAddress u ∧ u.d = s.d := by
  obtain ⟨-, hssp, husp, ha, hd, word, long, -, -, -, -, -, -, -, -, -, -, platform, -⟩ := taken
  obtain ⟨u, returned, hsr, hpc, hd', ⟨ha', husp', hssp'⟩, -⟩ :=
    returnFromException_onlyCodes (platform.trans h) (hssp ▸ isEven_sub_even he (by decide))
  have behind : s.ssp - 6 + 2 = s.ssp - 4 := by bv_omega
  rw [hssp, word, ofWord_toWord] at hsr
  rw [hssp, behind, long] at hpc
  refine ⟨u, returned, hsr, hpc, ⟨ha'.trans ha, husp'.trans husp, hssp'.trans ?_⟩, hd'.trans hd⟩
  rw [hssp, BitVec.sub_add_cancel]

/-- Settles O56: what TRAP stacked is what RTE loads, and the handler is entered in supervisor state. -/
theorem trapThenReturn : Obligations.TrapThenReturn := by
  intro n s t h he run
  obtain ⟨t', run', taken, -⟩ := exec_trap h he n
  obtain rfl : t' = t := Host.Outcome.next.inj (run'.symm.trans run)
  have ⟨entered, _⟩ := taken
  exact nextWith_supervisor (i := .rte) rfl (congrArg Sr.s entered) (return_from_exceptionTaken h he taken)

/-! ### The halted and the stopped state -/

/-- The sample of the model is recognised exactly where an interrupt is due (60_exceptions.md R372, R373). -/
theorem recognised_iff (s : State) : s.recognised = true ↔ s.interruptDue := by
  have below : s.prevIpl.toNat < 7 ↔ s.prevIpl ≠ 7 := by
    constructor <;> intro h <;> bv_omega
  simp only [State.recognised, State.interruptDue, Bool.or_eq_true, Bool.and_eq_true, decide_eq_true_eq, beq_iff_eq,
    below, BitVec.lt_def]
  rfl

/-- Exception processing at a boundary, with an even SSP on the plain platform (60_exceptions.md R350, R351). -/
theorem boundaryException_ready {s : State} (h : s.platform = .plain) (he : isEven s.ssp = true) (g : XGroup) (v : Byte)
    (pc : Long) :
    s.exceptionTaken (boundaryException g (.internal v) pc s) g s.sr.supervisor v pc ∧
      (boundaryException g (.internal v) pc s).draws = s.draws := by
  obtain ⟨t, taken, left⟩ := takeException_ready h he g (.internal v) pc
  rw [boundaryException, taken]
  exact left

section
variable {s : State} (hx : s.extReset = false)
include hx

theorem step_halted (hr : s.run = .halted) : step s = .next { s with bus := [] } := by
  simp only [step, processorStep, hx, hr]
  rfl

theorem step_stopped (hr : s.run = .stopped) : step s = .next (stoppedStep { s with bus := [] }) := by
  simp only [step, processorStep, hx, hr]
  rfl

end

/-- The stopped state without an interrupt samples the level and does nothing else (47_system_control.md R324). -/
theorem stoppedStep_rest {s : State} (ht : s.stopTrace = false) (hi : ¬s.interruptDue) :
    stoppedStep s = s.sampled := by
  rw [stoppedStep, ht, if_neg Bool.false_ne_true, if_neg (mt (recognised_iff s).mp hi)]

theorem stoppedStep_trace {s : State} (ht : s.stopTrace = true) :
    stoppedStep s = boundaryException .g1 (.internal 9) s.pc { s with stopTrace := false } := if_pos ht

/-- Settles O9: a case per way in which a step of a processor at rest can go. -/
theorem haltedAndStoppedRest : Obligations.HaltedAndStoppedRest := by
  refine fun s hx => ⟨step_halted hx, fun hr ht hi => ?_, fun hr ht h he => ⟨_, step_stopped hx hr, ?_⟩⟩
  · rw [step_stopped hx hr, stoppedStep_rest (s := { s with bus := [] }) ht hi]
    rfl
  · rw [stoppedStep_trace (s := { s with bus := [] }) ht]
    exact boundaryException_ready (s := { s with bus := [], stopTrace := false }) h he .g1 9 s.pc

/-! ### CHK -/

theorem drawBit_apply (s : State) : drawBit s = .ok (Config.freeBit s.draws) s.drawn := rfl

/-- States that agree do so also after the same number of free values. -/
theorem Agrees.withDraws {s t : State} (h : Agrees s t) (n : Nat) :
    Agrees { s with draws := n } { t with draws := n } := ⟨⟨h.sr, h.system, rfl⟩, h.d, h.address, h.mem⟩

section
variable {s : State} (h : s.ready) {ea : Ea} (ha : s.operandAligned ea .w = true) (dn : Reg)
include h ha

/-- CHK once the bound has been read: within the bounds a fourth free value is N, outside the trap is taken with N the
side (47_system_control.md R322). -/
theorem checkBounds_eq {r : State} (hr : s.operandRead ea .w = r) :
    let value := ((s.dreg dn).setWidth 16).toInt
    ∃ n z v c : Bool, checkBounds ea dn s =
      if 0 ≤ value ∧ value ≤ (s.operand ea .w).toInt then
        .ok () (({ r with draws := s.draws + 4 } : State).setSr { s.sr with n := n, z := z, v := v, c := c })
      else
        raiseTrap 6 (({ r with draws := s.draws + 3 } : State).setSr
          { s.sr with n := decide (value < 0), z := z, v := v, c := c }) := by
  refine ⟨Config.freeBit (r.draws + 3), Config.freeBit r.draws, Config.freeBit (r.draws + 1),
    Config.freeBit (r.draws + 2), ?_⟩
  have hdreg : r.dreg dn = s.dreg dn := hr ▸ operandRead_dreg s ea .w dn
  have hsr : r.sr = s.sr := hr ▸ operandRead_sr s ea .w
  have hdraws : r.draws = s.draws := hr ▸ operandRead_draws s ea .w
  simp only [checkBounds, bind_apply, readEa_ready h ha, hr, get_apply, drawBit_apply, modify_apply, ← hdreg, ← hsr,
    ← hdraws]
  generalize ((r.dreg dn).setWidth 16).toInt = value
  generalize (s.operand ea .w).toInt = bound
  by_cases below : value < 0
  · have outside : ¬(0 ≤ value ∧ value ≤ bound) := by omega
    rw [if_pos below, if_neg outside, decide_eq_true below]
    simp only [bind_apply, modify_apply, State.drawn, State.setSr]
  · by_cases above : value > bound
    · have outside : ¬(0 ≤ value ∧ value ≤ bound) := by omega
      rw [if_neg below, if_pos above, if_neg outside, decide_eq_false below]
      simp only [bind_apply, modify_apply, State.drawn, State.setSr]
    · have inside : 0 ≤ value ∧ value ≤ bound := by omega
      rw [if_neg below, if_neg above, if_pos inside]
      simp only [bind_apply, drawBit_apply, modify_apply, State.drawn, State.setSr]

theorem checkBounds_inside
    (inside : 0 ≤ ((s.dreg dn).setWidth 16).toInt ∧ ((s.dreg dn).setWidth 16).toInt ≤ (s.operand ea .w).toInt) :
    ∃ t, checkBounds ea dn s = .ok () t ∧ ∃ n z v c : Bool,
      ({ s.stepAddress ea .w with draws := s.draws + 4 } : State).onlyCodes t
        { s.sr with n := n, z := z, v := v, c := c } (s.pc + BitVec.ofNat 32 (2 * ea.words.length)) := by
  obtain ⟨n, z, v, c, run⟩ := checkBounds_eq h ha dn rfl
  rw [if_pos inside] at run
  refine ⟨_, run, n, z, v, c, ?_⟩
  rw [← operandRead_pc s ea .w]
  exact ((agrees_operandRead s ea .w).withDraws (s.draws + 4)).onlyCodes (onlyCodes_setSr _ _)

theorem checkBounds_outside
    (outside : ¬(0 ≤ ((s.dreg dn).setWidth 16).toInt ∧ ((s.dreg dn).setWidth 16).toInt ≤ (s.operand ea .w).toInt))
    (he : isEven (s.stepAddress ea .w).ssp = true) :
    ∃ t, checkBounds ea dn s = .ok () t ∧ ∃ z v c : Bool,
      let sr : Sr := { s.sr with n := decide (((s.dreg dn).setWidth 16).toInt < 0), z := z, v := v, c := c }
      ((s.stepAddress ea .w).setSr sr).exceptionTaken t .g2 sr.supervisor 6
        (s.pc + BitVec.ofNat 32 (2 * ea.words.length)) ∧ t.draws = s.draws + 3 := by
  obtain ⟨n, z, v, c, run⟩ := checkBounds_eq h ha dn rfl
  rw [if_neg outside] at run
  have agrees := (agrees_operandRead s ea .w).withDraws (s.draws + 3)
  obtain ⟨t, trap, taken, draws⟩ := raiseTrap_ready
    (s := ({ s.operandRead ea .w with draws := s.draws + 3 } : State).setSr
      { s.sr with n := decide (((s.dreg dn).setWidth 16).toInt < 0), z := z, v := v, c := c })
    (ready_operandRead h ea .w).1 (agrees.ssp ▸ he) 6
  refine ⟨t, run.trans trap, z, v, c, ?_, draws⟩
  rw [← operandRead_pc s ea .w]
  exact (agrees.setSr _).exceptionTaken taken

end

end Sys2Proof.Machine

namespace Sys2Proof.SystemControl

open Machine

/-- Settles O55: inside and outside the bounds are the two ends of `checkBounds`. -/
theorem checkBounds : Obligations.CheckBounds := by
  intro ea dn s h hea hfit ha u v bound next
  have wellFormed : (ea.isData && ea.fits .w) = true := Bool.and_eq_true_iff.mpr ⟨hea, hfit⟩
  refine ⟨fun inside => ?_, fun outside he => ?_⟩
  · exact nextWith_completed (i := .chk ea dn) wellFormed rfl (checkBounds_inside h ha dn inside)
  · exact nextWith_completed (i := .chk ea dn) wellFormed rfl
      (checkBounds_outside h ha dn (by rw [not_and_or, Int.not_le, Int.not_le]; exact outside) he)

end Sys2Proof.SystemControl
end

section
/-! Steps that execute: the instruction that the words at `PC` decode to, the trace exception after it, and a word that is
no instruction (60_exceptions.md R362, R380, R383). -/

namespace Sys2Proof.Machine

/-! ### From a step to the instruction -/

theorem step_normal {s : State} (hx : s.extReset = false) (hr : s.run = .normal) :
    step s = normalStep { s with bus := [] } := by
  simp only [step, processorStep, hx, hr]
  rfl

/-- Without reset and without an interrupt, a step of a running processor is the instruction (60_exceptions.md R362). -/
theorem step_executes {s : State} (hx : s.executes) :
    step s = instructionStep ({ s with bus := [] } : State).sampled := by
  obtain ⟨noReset, normal, notDue⟩ := hx
  rw [step_normal noReset normal, normalStep, if_neg (mt (recognised_iff { s with bus := [] }).mp notDue)]

theorem wordsAt_begun (s : State) (a : Long) (n : Nat) : s.begun.wordsAt a n = s.wordsAt a n := by
  induction n generalizing a with
  | zero => rfl
  | succ n ih => exact congrArg₂ List.cons (wordAt_congr rfl a) (ih (a + 2))

section
variable {s : State} (h : s.ready) (hx : s.executes)
include h hx

theorem step_runWords : step s = runWords (s.wordAt s.pc) (s.wordsAt (s.pc + 2) 4) s.begun := by
  rw [step_executes hx, instructionStep_ready h, wordsAt_begun]

theorem step_runDecoded {i : Instr} {rest : List Word} (hd : decode (s.wordsAt s.pc 5) = .ok (i, rest)) :
    step s = runDecoded i s.begun := by
  have decoded : decode (s.wordAt s.pc :: s.wordsAt (s.pc + 2) 4) = .ok (i, rest) := hd
  rw [step_runWords h hx, runWords, decoded]

theorem step_illegal (hd : decode (s.wordsAt s.pc 5) = .error .illegal) : step s = .next (illegalOperation s.begun) := by
  have illegal : decode (s.wordAt s.pc :: s.wordsAt (s.pc + 2) 4) = .error .illegal := hd
  rw [step_runWords h hx, runWords, illegal]

end

/-! ### The trace exception -/

theorem runDecoded_untraced {i : Instr} {t : State} (h : (t.sr.t && isExecuted i t) = false) :
    runDecoded i t = exec i t := by
  unfold runDecoded
  rw [h]
  cases exec i t <;> rfl

theorem runDecoded_traced {i : Instr} {t u : State} (ht : t.sr.t = true) (hi : isExecuted i t = true)
    (he : exec i t = .next u) : runDecoded i t = .next (traceAfter true u) := by
  simp only [runDecoded, he, ht, hi, Bool.and_self]

theorem traceAfter_taken {u : State} (hg : u.xgroup ≠ .g0) (hr : u.run = .normal) :
    traceAfter true u = boundaryException .g1 (.internal 9) u.pc u := by
  simp [traceAfter, hg, hr]

theorem traceAfter_omitted {u : State} (h : u.xgroup = .g0 ∨ u.run ≠ .normal) : traceAfter true u = u := by
  obtain hg | hr := h
  · simp [traceAfter, hg]
  · simp [traceAfter, hr]

/-- Settles O4: without the trace exception the run of what was decoded is `exec`. -/
theorem stepRunsDecodedInstruction : Obligations.StepRunsDecodedInstruction := by
  intro s i rest h hx hd untraced
  rw [step_runDecoded h hx hd]
  exact runDecoded_untraced (t := s.begun) (Bool.and_eq_false_iff.mpr untraced)

/-- Settles O5: the trace exception begins in the state that the instruction left. -/
theorem traceFollowsInstruction : Obligations.TraceFollowsInstruction := by
  intro s i rest u h hx hd traced executed he
  rw [step_runDecoded h hx hd, runDecoded_traced (t := s.begun) traced executed he]
  refine ⟨fun hg hr plain even => ⟨_, rfl, ?_⟩, fun omitted => by rw [traceAfter_omitted omitted]⟩
  rw [traceAfter_taken hg hr]
  exact (boundaryException_ready plain even .g1 9 u.pc).1

/-- Settles O6: the exception begins once the word has been fetched, and stacks the address before it. -/
theorem illegalWordTraps : Obligations.IllegalWordTraps := by
  intro s h hx even hd
  have own : s.begun.pc - 2 = s.pc := BitVec.add_sub_cancel s.pc 2
  refine ⟨_, step_illegal h hx hd, ?_⟩
  rw [illegalOperation, own]
  exact (boundaryException_ready (s := s.begun) h.1 even .g1 4 s.pc).1

end Sys2Proof.Machine
end

section
/-! Interrupts and the external reset (60_exceptions.md R350, R370 to R376, 70_reset_and_hazards.md R420). -/

namespace Sys2Proof.Machine

/-! ### The record of bus cycles -/

/-- The record of bus cycles begins with those given. -/
abbrev RecordFrom (events : List BusEvent) (s : State) : Prop := events <+: s.bus

section
variable {events : List BusEvent}

theorem recordFrom_record (s : State) (e : BusEvent) (h : RecordFrom events s) : RecordFrom events (s.record e) :=
  h.trans ⟨[e], rfl⟩

theorem recordFrom_cycleBegun (s : State) (h : RecordFrom events s) : RecordFrom events s.cycleBegun := h

theorem recordFrom_readWordCycle (fc : BitVec 3) (a : Long) (alt : Alt) :
    Keeps (RecordFrom events) (readWordCycle fc a alt) :=
  keeps_cycle recordFrom_cycleBegun recordFrom_record fc a true true alt
    (fun s h => recordFrom_record s.drawn _ h) fun s h => recordFrom_record s _ h

theorem recordFrom_writeWordCycle (fc : BitVec 3) (a : Long) (v : Word) (alt : Alt) :
    Keeps (RecordFrom events) (writeWordCycle fc a v alt) :=
  keeps_cycle recordFrom_cycleBegun recordFrom_record fc a false true alt
    (fun s h => recordFrom_record s _ h) fun s h => recordFrom_record (s.setCellWord fc a v) _ h

theorem recordFrom_readLong (fc : BitVec 3) (a : Long) (alt : Alt) :
    Keeps (RecordFrom events) (memRead .l fc a alt) :=
  keeps_bind (keeps_requireEven _ _ _ _) fun _ => keeps_bind (keeps_openOrder (fun _ h => h) _) fun _ =>
    keeps_ite
      (keeps_bind (recordFrom_readWordCycle _ _ _) fun _ => keeps_bind (recordFrom_readWordCycle _ _ _) fun _ =>
        keeps_pure _)
      (keeps_bind (recordFrom_readWordCycle _ _ _) fun _ => keeps_bind (recordFrom_readWordCycle _ _ _) fun _ =>
        keeps_pure _)

theorem recordFrom_pushWord (v : Word) : Keeps (RecordFrom events) (pushWord v) :=
  keeps_bind keeps_get fun _ =>
    keeps_bind (keeps_modify fun s h => by rw [RecordFrom, setAreg_bus]; exact h) fun _ =>
    keeps_bind (keeps_requireEven _ _ _ _) fun _ => recordFrom_writeWordCycle _ _ _ _

theorem recordFrom_pushLong (v : Long) : Keeps (RecordFrom events) (pushLong v) :=
  keeps_bind keeps_get fun _ =>
    keeps_bind (keeps_modify fun s h => by rw [RecordFrom, setAreg_bus]; exact h) fun _ =>
    keeps_bind (keeps_requireEven _ _ _ _) fun _ => keeps_bind (keeps_openOrder (fun _ h => h) _) fun _ =>
    keeps_ite
      (keeps_bind (recordFrom_writeWordCycle _ _ _ _) fun _ => recordFrom_writeWordCycle _ _ _ _)
      (keeps_bind (recordFrom_writeWordCycle _ _ _ _) fun _ => recordFrom_writeWordCycle _ _ _ _)

end

/-! ### Interrupts -/

/-- The accesses of a group 1 or group 2 exception taken in `before`, once its vector number is known, and its end
(60_exceptions.md R350). -/
def stackException (before : State) (g : XGroup) (pcStack : Long) (v : Byte) : M Unit := do
  pushLong pcStack
  pushWord before.sr.toWord
  let pc ← memRead .l 5 (vectorAddress v) []
  modify fun s =>
    { s with pc := pc, xgroup := openGroup before.xgroup .none, run := .normal, handlerFetch := g == .g1 }

theorem takeException_eq (g : XGroup) (src : VectorSource) (pc : Long) (s : State) :
    takeException g src pc s = (acquireVector src >>= stackException s g pc)
      { s with xgroup := openGroup s.xgroup g, sr := enteredSr s.sr src } := rfl

theorem recordFrom_stackException (events : List BusEvent) (before : State) (g : XGroup) (pc : Long) (v : Byte) :
    Keeps (RecordFrom events) (stackException before g pc v) :=
  keeps_bind (recordFrom_pushLong _) fun _ => keeps_bind (recordFrom_pushWord _) fun _ =>
    keeps_bind (recordFrom_readLong _ _ _) fun _ => keeps_modify fun _ h => h

/-- The bus address of the acknowledge cycle as a number (20_memory.md R93). -/
theorem acknowledgeAddress_eq (level : BitVec 3) :
    acknowledgeAddress level = BitVec.ofNat 24 (0xFFFFF0 + 2 * level.toNat) := by
  decide +revert

/-- The acknowledge cycle of an interrupt is the first bus cycle of its exception (60_exceptions.md R350, R374). -/
theorem takeException_acknowledge_first {s t : State} {g : XGroup} {level : BitVec 3} {pc : Long}
    (h : s.platform = .plain) (hb : s.bus = []) (taken : takeException g (.acknowledge level) pc s = .ok () t) :
    t.bus.head? = some (.iack 7 (acknowledgeAddress level) (s.iackAnswer level)) := by
  have acknowledged := acquireVector_acknowledge
    (s := { s with xgroup := openGroup s.xgroup g, sr := enteredSr s.sr (.acknowledge level) }) h level
  rw [takeException_eq, bind_apply, acknowledged] at taken
  obtain ⟨later, record⟩ : RecordFrom [.iack 7 (acknowledgeAddress level) (s.iackAnswer level)] t :=
    (recordFrom_stackException _ _ _ _ _).ok (by rw [RecordFrom, record_bus]; exact ⟨[], by simp [hb]; rfl⟩) taken
  rw [← record]
  rfl

/-- An interrupt that is due is taken by the step, in the normal state and in the stopped state (60_exceptions.md R370,
47_system_control.md R324). -/
theorem step_interrupt {s : State} (hx : s.extReset = false) (due : s.interruptDue)
    (hr : s.run = .normal ∨ (s.run = .stopped ∧ s.stopTrace = false)) :
    step s = .next (interruptStep { s with bus := [] }) := by
  have recognised : ({ s with bus := [] } : State).recognised = true := (recognised_iff { s with bus := [] }).mpr due
  obtain normal | ⟨stopped, untraced⟩ := hr
  · rw [step_normal hx normal, normalStep, if_pos recognised]
  · rw [step_stopped hx stopped, stoppedStep, if_neg (by simp [untraced]), if_pos recognised]

/-- Settles O8: the exception of the acknowledge cycle, taken where the level has been sampled. -/
theorem interruptTaken : Obligations.InterruptTaken := by
  intro s plain hx even due hr
  obtain ⟨t, taken, left, draws⟩ :=
    takeException_ready (s := ({ s with bus := [] } : State).sampled) plain even .g1 (.acknowledge s.ipl) s.pc
  have acknowledged := takeException_acknowledge_first (s := ({ s with bus := [] } : State).sampled) plain rfl taken
  rw [acknowledgeAddress_eq] at acknowledged
  have step_eq : step s = .next t := by
    rw [step_interrupt hx due hr, interruptStep, boundaryException]
    exact congrArg _ (by rw [taken])
  exact ⟨t, step_eq, left, acknowledged, draws⟩

/-! ### External reset -/

theorem step_reset {s : State} (hx : s.extReset = true) : step s = .next (resetException { s with bus := [] }) := by
  simp only [step, processorStep, hx, if_true]

/-- Settles O10: the reset sequence reads its vector and writes nothing. -/
theorem externalResetTaken : Obligations.ExternalResetTaken := by
  intro s hx plain
  refine ⟨_, step_reset hx, ?_⟩
  rw [resetException_quiet (s := { s with bus := [] }) plain]
  exact ⟨rfl, rfl, rfl, rfl, rfl, rfl, rfl, rfl, rfl, rfl, rfl⟩

end Sys2Proof.Machine
end

section
/-! Group 0 exceptions: the frame whoever made the reference, the address error of a fetch at an odd `PC`, and the faults
that halt (60_exceptions.md R390 to R392, R396, R405). -/

namespace Sys2Proof.Machine

/-! ### The frame -/

theorem specialStatusWord_notInstruction (free : Word) (isRead notInstruction : Bool) (fc : BitVec 3) :
    (specialStatusWord free isRead notInstruction fc).getLsbD 3 = notInstruction := by
  simp only [specialStatusWord, BitVec.getLsbD_append]
  simp

/-- The vectors of bus error and address error (60_exceptions.md R390, R393). -/
theorem AccessFault.vector_address (f : AccessFault) :
    f.vector.setWidth 32 * 4 = match f.kind with | .bus => (8 : Long) | .address => 12 := by
  rw [AccessFault.vector]
  cases f.kind <;> rfl

/-- Settles O58: the frame of an instruction's group 0 exception, its status word bit by bit. -/
theorem groupZeroFrame : Obligations.GroupZeroFrame := by
  intro op f s plain even hx
  obtain ⟨k, free, one, five, frame, hsr, hg⟩ := groupZero_instruction_even plain hx even op f
  have ssw := frame.statusWord
  refine ⟨frame.ssp, hsr, hg, frame.run, ⟨k, one, five, frame.stackedPc⟩, frame.stackedSr, frame.stackedIr,
    frame.address, ?_, ?_, ?_, frame.outside, ?_, frame.d, frame.a, frame.usp⟩
  · rw [ssw, specialStatusWord_read]
  · rw [ssw, specialStatusWord_notInstruction]
  · rw [ssw, specialStatusWord_fc]
  · exact frame.handler.trans (congrArg _ f.vector_address)

/-- Whoever made the reference, a group 0 exception draws what it does not know and stacks its frame from the state it has
entered (60_exceptions.md R391). -/
theorem groupZeroSequence_stacks (op : Option Long) (f : AccessFault) (s : State) :
    ∃ (pc : Long) (ir free : Word) (notInstruction : Bool) (n : Nat),
      groupZeroSequence op f s =
        stackGroupZero f pc s.sr.toWord ir (specialStatusWord free f.isRead notInstruction f.fc)
          { s with xgroup := .g0, handlerFetch := false, sr := s.sr.supervisor, draws := n } := by
  obtain ⟨ni, s₁, h₁, d₁⟩ := notInstructionBit_draws op s.xgroup s.handlerFetch
    { s with xgroup := .g0, handlerFetch := false, sr := { s.sr with s := true, t := false } }
  obtain ⟨pc, s₂, h₂, d₂⟩ := stackedPc_draws op s.xgroup s₁
  obtain ⟨ir, s₃, h₃, d₃⟩ := stackedIr_draws op s.xgroup s.ir s₂
  have entered : s₃.drawn =
      { s with xgroup := .g0, handlerFetch := false, sr := s.sr.supervisor, draws := s₃.draws + 1 } := by
    rcases d₁ with rfl | rfl <;> rcases d₂ with rfl | rfl <;> rcases d₃ with rfl | rfl <;> rfl
  refine ⟨pc, ir, Config.freeWord s₃.draws, ni, s₃.draws + 1, ?_⟩
  have drawn : drawWord s₃ = .ok (Config.freeWord s₃.draws) s₃.drawn := rfl
  rw [← entered]
  simp only [groupZeroSequence, stackGroupZero, bind_apply, get_apply, modify_apply, h₁, h₂, h₃, drawn]

/-- With an even SSP the frame is stacked and the handler entered, whoever made the reference. -/
theorem groupZero_even {s : State} (hp : s.platform = .plain) (hx : s.xgroup ≠ .g0) (he : isEven s.ssp = true)
    (op : Option Long) (f : AccessFault) :
    ∃ (pc : Long) (ir free : Word) (notInstruction : Bool),
      InGroupZero s (groupZero op f s) f pc s.sr.toWord ir (specialStatusWord free f.isRead notInstruction f.fc) ∧
        (groupZero op f s).sr = s.sr.supervisor := by
  obtain ⟨pc, ir, free, ni, n, e⟩ := groupZeroSequence_stacks op f s
  obtain ⟨t, ht, frame, hsr, -⟩ := stackGroupZero_frames
    (s := { s with xgroup := .g0, handlerFetch := false, sr := s.sr.supervisor, draws := n }) ⟨hp, rfl, he⟩ f pc
    s.sr.toWord ir (specialStatusWord free f.isRead ni f.fc)
  have taken : groupZero op f s = t := by rw [groupZero, if_neg hx, e, ht]
  rw [taken]
  exact ⟨pc, ir, free, ni, ⟨frame.ssp, frame.stackedPc, frame.stackedSr, frame.stackedIr, frame.address,
    frame.statusWord, frame.outside, frame.handler, frame.run, frame.d, frame.a, frame.usp⟩, hsr⟩

/-! ### An odd `PC` -/

/-- The fetch at an odd `PC` is an address error, a program read, and nothing has changed (60_exceptions.md R390). -/
theorem fetchOperation_odd {s : State} (ho : isEven s.pc = false) :
    fetchOperation s = .error (.access (oddRead s.pc (s.fc true) [])) s := by
  simp only [fetchOperation, fetchWord, bind_apply, get_apply, memRead_odd (sz := .w) (a := s.pc) ho]

/-- A step whose operation word fetch is aborted takes the exception of no instruction (60_exceptions.md R391, R392). -/
theorem step_aborted {s t : State} {e : Abort} (hx : s.executes)
    (he : fetchOperation ({ s with bus := [] } : State).sampled = .error e t) : step s = .next (boundaryAbort e t) := by
  rw [step_executes hx, instructionStep, he]

/-- Settles O7: the fetch is aborted before any bus cycle, and no instruction is named to its group 0 exception. -/
theorem oddProgramCounterFaults : Obligations.OddProgramCounterFaults := by
  intro s plain hx hg odd even
  have aborted := step_aborted hx (fetchOperation_odd odd)
  obtain ⟨pc, ir, free, ni, frame, hsr⟩ := groupZero_even (s := ({ s with bus := [] } : State).sampled) plain hg even none
    (oddRead s.pc (s.fc true) [])
  refine ⟨_, aborted, ?_⟩
  have ssw := frame.statusWord
  refine ⟨frame.ssp, hsr, frame.address, frame.stackedSr, ?_, ?_, frame.outside,
    frame.handler.trans (congrArg _ (AccessFault.vector_address _)), frame.d, frame.a, frame.usp⟩
  · exact (congrArg (BitVec.extractLsb' 0 3) ssw).trans (specialStatusWord_fc _ _ _ _)
  · exact (congrArg (BitVec.getLsbD · 4) ssw).trans (specialStatusWord_read _ _ _ _)

/-! ### Faults that halt -/

/-- TRAP with an odd SSP: its frame raises an address error, whose own frame cannot be stacked either (60_exceptions.md
R396, R405). -/
theorem exec_trap_odd {s : State} (ho : isEven s.ssp = false) (n : Fin 16) :
    nextWith (exec (.trap n) s) fun t => t.run = .halted := by
  obtain ⟨f, u, fault, -, odd⟩ := takeException_odd ho .g2 (BitVec.ofNat 8 (32 + n.val)) s.pc
  have taking := (takeException_enters (g := .g2) nofun _ _).error fault
  refine ⟨_, runInstruction_aborted (i := .trap n) rfl nofun fault, groupZero_odd_halts ?_ _ _⟩
  rw [(settleAbort_taking taking.xgroup _ _ _).2]
  exact odd

/-- Settles O60: the group 0 window, and the first push of a frame. -/
theorem doubleFaultHalts : Obligations.DoubleFaultHalts :=
  ⟨fun _ _ _ window => if_pos window, fun op f _ odd => groupZero_odd_halts odd op f, fun n _ odd => exec_trap_odd odd n⟩

end Sys2Proof.Machine
end

section
/-! Four words after the operation word are enough for every reader: with five the decoder answers an instruction or that
there is none (30_encoding.md R100, R101). -/

namespace Sys2Proof

/-! ### Readers that few words are enough for -/

/-- With `n` words or more the reader answers, and takes `n` at most, or there is no instruction. -/
def Suffices {α : Type} (n : Nat) (p : Parser α) : Prop :=
  ∀ ws, n ≤ ws.length → (∃ a rest, p ws = .ok (a, rest) ∧ ws.length ≤ rest.length + n) ∨ p ws = .error .illegal

section
variable {α β : Type} {m n : Nat}

theorem suffices_illegal : Suffices n (Parser.illegal : Parser α) := fun _ _ => .inr rfl

theorem suffices_pure {a : α} : Suffices n (pure a : Parser α) := fun ws _ => .inl ⟨a, ws, rfl, by omega⟩

theorem Suffices.mono {p : Parser α} (h : Suffices m p) (hm : m ≤ n) : Suffices n p := fun ws hn => by
  obtain ⟨a, rest, e, hr⟩ | e := h ws (by omega)
  · exact .inl ⟨a, rest, e, by omega⟩
  · exact .inr e

theorem suffices_bind {p : Parser α} {k : α → Parser β} (hp : Suffices m p) (hk : ∀ a, Suffices n (k a)) :
    Suffices (m + n) (p >>= k) := fun ws h => by
  have split : (p >>= k) ws = (p ws >>= fun x => k x.1 x.2) := rfl
  rw [split]
  obtain ⟨a, rest, e, hr⟩ | e := hp ws (by omega) <;> rw [e]
  · obtain ⟨b, rest', e', hr'⟩ | e' := hk a rest (by omega)
    · exact .inl ⟨b, rest', e', by omega⟩
    · exact .inr e'
  · exact .inr rfl

theorem suffices_map {p : Parser α} {f : α → β} (hp : Suffices n p) : Suffices n (do return f (← p)) :=
  suffices_bind (n := 0) hp fun _ => suffices_pure

theorem suffices_ite {c : Prop} [Decidable c] {p q : Parser α} (hp : Suffices n p) (hq : Suffices n q) :
    Suffices n (if c then p else q) := by
  split
  · exact hp
  · exact hq

end

theorem suffices_word : Suffices 1 Parser.word := fun ws h => by
  cases ws with
  | nil => simp at h
  | cons w ws => exact .inl ⟨w, ws, rfl, by simp⟩

theorem suffices_long : Suffices 2 Parser.long :=
  suffices_bind (m := 1) suffices_word fun _ => suffices_map suffices_word

theorem suffices_size (b : BitVec 2) : Suffices 0 (Parser.size b) := by
  unfold Parser.size
  split
  · exact suffices_pure
  · exact suffices_illegal

theorem suffices_imm (sz : Size) : Suffices 2 (Parser.imm sz) := by
  cases sz with
  | b => exact (suffices_map suffices_word).mono (by decide)
  | w => exact (suffices_map suffices_word).mono (by decide)
  | l => exact suffices_map suffices_long

/-- An effective address has two extension words at most (30_encoding.md R101). -/
theorem suffices_ea (mode reg : BitVec 3) (sz : Size) : Suffices 2 (Parser.ea mode reg sz) := by
  have word : ∀ f : Word → Ea, Suffices 2 (do return f (← Parser.word)) := fun _ =>
    (suffices_map suffices_word).mono (by decide)
  cases mode using bits3_cases with
  | b0 | b1 | b2 | b3 | b4 => exact suffices_pure
  | b5 | b6 => exact word _
  | b7 =>
    cases reg using bits3_cases with
    | b0 | b2 | b3 => exact word _
    | b1 => exact suffices_map suffices_long
    | b4 => exact suffices_map (suffices_imm sz)
    | b5 | b6 | b7 => exact suffices_illegal

/-! ### Readers of instructions -/

/-- Four words after the operation word are enough for the reader. -/
abbrev Parser.Bounded (p : Parser Instr) : Prop := Suffices 4 p

section
variable {o : Op}

theorem bounded_word {α : Type} {f : Word → α} : Suffices 4 (do return f (← Parser.word)) :=
  (suffices_map suffices_word).mono (by decide)

theorem bounded_ea {sz : Size} {f : Ea → Instr} : Parser.Bounded (do return f (← o.ea sz)) :=
  (suffices_map (suffices_ea _ _ _)).mono (by decide)

theorem bounded_word_ea {sz : Size} {f : Word → Ea → Instr} :
    Parser.Bounded (do let w ← Parser.word; return f w (← o.ea sz)) :=
  (suffices_bind suffices_word fun _ => suffices_map (suffices_ea _ _ _)).mono (by decide)

theorem bounded_size {f : Size → Instr} : Parser.Bounded (do return f (← Parser.size o.sizeBits)) :=
  (suffices_map (suffices_size _)).mono (by decide)

theorem bounded_immEa {f : Imm → Ea → Instr} : (o.immEa f).Bounded :=
  suffices_bind (m := 0) (suffices_size _) fun _ =>
    suffices_bind (m := 2) (suffices_imm _) fun _ => suffices_map (suffices_ea _ _ _)

theorem bounded_eaToDn {f : Size → Ea → Reg → Instr} : (o.eaToDn f).Bounded :=
  suffices_bind (m := 0) (suffices_size _) fun _ => bounded_ea

theorem bounded_dnToEa {f : Size → Reg → Ea → Instr} : (o.dnToEa f).Bounded :=
  suffices_bind (m := 0) (suffices_size _) fun _ => bounded_ea

theorem bounded_sizeEa {f : Size → Ea → Instr} {other : Parser Instr} (h : other.Bounded) :
    (o.sizeEa f other).Bounded := by
  unfold Op.sizeEa
  split
  · exact bounded_ea
  · exact h

theorem bounded_extended {reg mem : Size → Reg → Reg → Instr} {f : Size → Reg → Ea → Instr} :
    (o.extended reg mem f).Bounded := by
  unfold Op.extended
  split
  · exact bounded_size
  · exact bounded_size
  · exact bounded_dnToEa

theorem bounded_bitStatic {f : Byte → Ea → Instr} : (o.bitStatic f).Bounded :=
  bounded_word_ea (f := fun w => f w.lowByte)

theorem bounded_bitDynamic {f : Reg → Ea → Instr} {movep : Word → Instr} : (o.bitDynamic f movep).Bounded :=
  suffices_ite bounded_word bounded_ea

theorem bounded_movem {f : WideSize → Word → Ea → Instr} : (o.movem f).Bounded :=
  bounded_word_ea (f := fun mask ea => f _ mask ea)

theorem bounded_immCcrSrEa {ccr : Byte → Instr} {sr : Word → Instr} {f : Imm → Ea → Instr} :
    (o.immCcrSrEa ccr sr f).Bounded := by
  refine suffices_ite ?_ bounded_immEa
  split
  · exact bounded_word (f := fun w => ccr w.lowByte)
  · exact bounded_word
  · exact suffices_illegal

/-- MOVE and MOVEA: two operands, the first of them read in either case (30_encoding.md R124). -/
theorem bounded_move {sz : Size} {f : Ea → Ea → Instr} {movea : Ea → Parser Instr} (h : ∀ src, Suffices 2 (movea src)) :
    (o.move sz f movea).Bounded :=
  suffices_bind (m := 2) (suffices_ea _ _ _) fun src => suffices_ite (h src) (suffices_map (suffices_ea _ _ _))

end

/-! ### The lines, arm by arm -/

theorem bounded_line0 (o : Op) : o.line0.Bounded := by
  unfold Op.line0
  split
  case h_5 =>
    split
    case h_5 => split <;> exact bounded_bitStatic
    case h_1 | h_2 | h_6 => exact bounded_immCcrSrEa
    case h_3 | h_4 | h_7 => exact bounded_immEa
    case h_8 => exact suffices_illegal
  all_goals exact bounded_bitDynamic

theorem bounded_line4r4 (o : Op) : o.line4r4.Bounded := by
  unfold Op.line4r4
  split
  case h_1 => exact bounded_ea
  case h_2 => exact suffices_ite suffices_pure bounded_ea
  case h_3 | h_4 => exact suffices_ite suffices_pure bounded_movem
  case h_5 => exact suffices_illegal

theorem bounded_line4r7 (o : Op) : o.line4r7.Bounded := by
  unfold Op.line4r7
  split
  case h_3 => exact bounded_word
  case h_7 =>
    split
    case h_3 => exact bounded_word
    case h_8 => exact suffices_illegal
    all_goals exact suffices_pure
  case h_8 => exact suffices_illegal
  all_goals exact suffices_pure

theorem bounded_line4 (o : Op) : o.line4.Bounded := by
  unfold Op.line4
  split
  case h_1 | h_2 => exact suffices_illegal
  case h_3 | h_4 => exact bounded_ea
  case h_5 =>
    split
    case h_1 | h_3 | h_4 => exact bounded_sizeEa bounded_ea
    case h_2 => exact bounded_sizeEa suffices_illegal
    case h_5 => exact bounded_line4r4 o
    case h_6 =>
      exact suffices_ite suffices_pure <| suffices_ite suffices_pure <| suffices_ite suffices_pure <|
        bounded_sizeEa bounded_ea
    case h_7 =>
      split
      case h_1 | h_2 => exact bounded_movem
      case h_3 => exact suffices_illegal
    case h_8 =>
      split
      case h_1 => exact bounded_line4r7 o
      case h_2 | h_3 => exact bounded_ea
      case h_4 => exact suffices_illegal

theorem bounded_line5 (o : Op) : o.line5.Bounded := by
  unfold Op.line5
  split
  · exact bounded_ea
  · exact suffices_ite bounded_word bounded_ea

theorem bounded_line6 (o : Op) : o.line6.Bounded :=
  suffices_map (suffices_ite bounded_word suffices_pure)

theorem bounded_line7 (o : Op) : o.line7.Bounded := suffices_ite suffices_illegal suffices_pure

theorem bounded_line8 (o : Op) : o.line8.Bounded := by
  unfold Op.line8
  split
  case h_1 | h_2 => exact bounded_ea
  case h_3 =>
    split
    case h_1 | h_2 => exact suffices_pure
    case h_3 => exact bounded_dnToEa
  case h_4 | h_5 => exact bounded_dnToEa
  case h_6 => exact bounded_eaToDn

theorem bounded_line9 (o : Op) : o.line9.Bounded := by
  unfold Op.line9
  split
  case h_1 | h_2 => exact bounded_ea
  case h_3 | h_4 | h_5 => exact bounded_extended
  case h_6 => exact bounded_eaToDn

theorem bounded_lineB (o : Op) : o.lineB.Bounded := by
  unfold Op.lineB
  split
  case h_1 | h_2 => exact bounded_ea
  case h_3 | h_4 | h_5 => exact suffices_ite bounded_size bounded_dnToEa
  case h_6 => exact bounded_eaToDn

theorem bounded_lineC (o : Op) : o.lineC.Bounded := by
  unfold Op.lineC
  split
  case h_1 | h_2 => exact bounded_ea
  case h_3 | h_4 =>
    split
    case h_1 | h_2 => exact suffices_pure
    case h_3 => exact bounded_dnToEa
  case h_5 =>
    split
    case h_1 => exact suffices_illegal
    case h_2 => exact suffices_pure
    case h_3 => exact bounded_dnToEa
  case h_6 => exact bounded_eaToDn

theorem bounded_lineD (o : Op) : o.lineD.Bounded := by
  unfold Op.lineD
  split
  case h_1 | h_2 => exact bounded_ea
  case h_3 | h_4 | h_5 => exact bounded_extended
  case h_6 => exact bounded_eaToDn

theorem bounded_shiftMem (o : Op) : o.shiftMem.Bounded :=
  suffices_bind (m := 2) (n := 2) (suffices_ea _ _ _) fun ea => by
    split
    case h_9 => exact suffices_illegal
    all_goals exact suffices_pure

theorem bounded_lineE (o : Op) : o.lineE.Bounded := by
  unfold Op.lineE
  split
  · exact suffices_pure
  · exact bounded_shiftMem o

/-! ### Every operation word -/

theorem bounded_instr (o : Op) : o.instr.Bounded := by
  unfold Op.instr
  split
  case h_1 => exact bounded_line0 o
  case h_2 => exact bounded_move fun _ => suffices_illegal
  case h_3 | h_4 => exact bounded_move fun _ => suffices_pure
  case h_5 => exact bounded_line4 o
  case h_6 => exact bounded_line5 o
  case h_7 => exact bounded_line6 o
  case h_8 => exact bounded_line7 o
  case h_9 => exact bounded_line8 o
  case h_10 => exact bounded_line9 o
  case h_11 | h_16 => exact suffices_pure
  case h_12 => exact bounded_lineB o
  case h_13 => exact bounded_lineC o
  case h_14 => exact bounded_lineD o
  case h_15 => exact bounded_lineE o

/-- With four words after it an operation word is an instruction, or there is none (30_encoding.md R100, R140). -/
theorem decode_total (w : Word) {ws : List Word} (h : 4 ≤ ws.length) :
    (∃ i rest, decode (w :: ws) = .ok (i, rest)) ∨ decode (w :: ws) = .error .illegal := by
  obtain ⟨i, rest, e, -⟩ | e := bounded_instr (Op.ofWord w) ws h
  · simp only [decode, e]
    split
    · exact .inl ⟨i, rest, rfl⟩
    · exact .inr rfl
  · exact .inr (by simp only [decode, e])

end Sys2Proof
end

section
/-! Every step answers a next state (60_exceptions.md R362, R383). -/

namespace Sys2Proof.Machine

/-- An outcome is a next state. -/
abbrev Answers (o : Host.Outcome State Fault Refusal) : Prop := ∃ t, o = .next t

theorem runInstruction_answers {i : Instr} (hw : i.wellFormed = true) (m : M Unit) (s : State) :
    Answers (runInstruction i m s) := by
  unfold runInstruction
  rw [if_pos hw]
  split <;> exact ⟨_, rfl⟩

/-- A well-formed instruction always has a next state: none is left without a meaning. -/
theorem exec_answers {i : Instr} (hw : i.wellFormed = true) (s : State) : Answers (exec i s) := by
  obtain ⟨m, meaning, -⟩ := hasMeaning i
  rw [meaning]
  exact runInstruction_answers hw m s

theorem runDecoded_answers {i : Instr} (hw : i.wellFormed = true) (t : State) : Answers (runDecoded i t) := by
  obtain ⟨u, run⟩ := exec_answers hw t
  rw [runDecoded, run]
  exact ⟨_, rfl⟩

theorem runWords_answers (w : Word) {words : List Word} (h : 4 ≤ words.length) (t : State) :
    Answers (runWords w words t) := by
  unfold runWords
  obtain ⟨i, rest, e⟩ | e := decode_total w h <;> rw [e]
  · exact runDecoded_answers (instr_of_decode e).2 t
  · exact ⟨_, rfl⟩

/-- Correcting the guessed words leaves at least as many. -/
theorem length_le_of_corrected {words further : List Word} {o : Host.Outcome State Fault Refusal}
    (h : corrected words o = some further) : words.length ≤ further.length := by
  unfold corrected at h
  split at h
  · split at h
    · cases h
    · cases h
      simp only [List.length_append, List.length_drop]
      omega
  · cases h
  · cases h

theorem runFetched_answers (w : Word) (t : State) (n : Nat) {words : List Word} (h : 4 ≤ words.length) :
    Answers (runFetched w t n words) := by
  induction n generalizing words with
  | zero => exact runWords_answers w h t
  | succ n ih =>
    rw [runFetched]
    split
    · exact runWords_answers w h t
    · exact ih (h.trans (length_le_of_corrected ‹_›))

theorem length_wordsAt (s : State) (a : Long) (n : Nat) : (s.wordsAt a n).length = n := by
  induction n generalizing a with
  | zero => rfl
  | succ n ih => exact congrArg (· + 1) (ih (a + 2))

theorem instructionStep_answers (s : State) : Answers (instructionStep s) := by
  unfold instructionStep
  split
  · exact ⟨_, rfl⟩
  · exact runFetched_answers _ _ _ (length_wordsAt _ _ 4).ge

theorem normalStep_answers (s : State) : Answers (normalStep s) := by
  unfold normalStep
  split
  · exact ⟨_, rfl⟩
  · exact instructionStep_answers _

/-- Settles O13: a case per way a step can go; the instruction alone could stop, and five words decode. -/
theorem stepAlwaysAnswersNext : Obligations.StepAlwaysAnswersNext := by
  intro s
  cases hx : s.extReset with
  | true => exact ⟨_, step_reset hx⟩
  | false =>
    cases hr : s.run with
    | halted => exact ⟨_, step_halted hx hr⟩
    | stopped => exact ⟨_, step_stopped hx hr⟩
    | normal =>
      rw [step_normal hx hr]
      exact normalStep_answers _

end Sys2Proof.Machine
end
